-- ==== Sys2Proof/Word.lean ====
section
/-! DEFINITION. The word types of MCN-PGD: 32-bit port words, 16-bit field elements, polynomials. -/

namespace Sys2Proof

/-- A host-port or command word (`00_scope.md` R8, `20_memory.md` R102): exactly 32 bits. -/
abbrev Word := BitVec 32

/-- A field element or an index, in the 16 bits it is stored in (`00_scope.md` R9,
`10_state.md` R54): bit j is the coefficient of x^j. -/
abbrev Elem := BitVec 16

/-- A polynomial over GF(2^m) in z (`00_scope.md` R10): coefficient i stands at position i, and no
zero stands at the end, so that the zero polynomial is the empty list (log 10). -/
abbrev Poly := List Elem

/-- The number of a field or polynomial register, 0 to 7 (`30_encoding.md` R153). -/
abbrev RegIx := Fin 8

end Sys2Proof
end

