-- ==== Sys2Proof/Syntax.lean ====
section
/-! DEFINITION. The command set: one constructor per row of `spec/opcode_table.json`
(`30_encoding.md` R157). `fd`, `fa`, `fb` number field registers, `pd`, `pa`, `pb` polynomial
registers; an immediate is the natural number the assembler writes (`30_encoding.md` R154, R160),
whose width `WellFormed` checks. -/

namespace Sys2Proof

/-- The index table CHKPERM names (`40_control.md` R202): IMM = 0 is PIDX, IMM = 1 is SWP. -/
inductive Table
  | pidx
  | swp
deriving DecidableEq, Repr

/-- The 42 commands. -/
inductive Instr
  | nop
  | config (m t : Nat)
  | chkperm (tab : Table)
  | fldi (fd : RegIx) (imm : Nat)
  | fadd (fd fa fb : RegIx)
  | fmul (fd fa fb : RegIx)
  | finv (fd fa : RegIx)
  | fpow (fd fa : RegIx) (imm : Nat)
  | fldl (fd : RegIx) (imm : Nat)
  | pclr (pd : RegIx)
  | pmov (pd pa : RegIx)
  | pldg (pd : RegIx)
  | pldt (pd : RegIx) (imm : Nat)
  | pconst (pd fa : RegIx)
  | psetc (pd fa : RegIx) (imm : Nat)
  | pgetc (fd pa : RegIx) (imm : Nat)
  | padd (pd pa pb : RegIx)
  | pmul (pd pa pb : RegIx)
  | pmulm (pd pa pb : RegIx)
  | pmod (pd pa : RegIx)
  | pdivq (pd pa pb : RegIx)
  | pdivr (pd pa pb : RegIx)
  | pinvm (pd pa : RegIx)
  | psqrm (pd pa : RegIx)
  | psqrt (pd pa : RegIx)
  | pshl (pd pa : RegIx) (imm : Nat)
  | pscl (pd pa fb : RegIx)
  | peval (fd pa fb : RegIx)
  | psetg (pa : RegIx)
  | permc
  | synd
  | locator
  | keyeq
  | roots
  | extract
  | unscr
  | decode
  | lgen (fa : RegIx)
  | pstgen
  | hgen
  | sysform
  | gextract
deriving DecidableEq, Repr

end Sys2Proof
end

