-- ==== Sys2Proof/WellFormed.lean ====
section
/-! DEFINITION. Which commands the assembler accepts: every operand fits its field
(`30_encoding.md` R154, R155). Register numbers fit by their type. A value inside the width but
outside the block's legal range is well formed and fails at execution. -/

namespace Sys2Proof

/-- The widths of the operands: IMM is 16 bits (R154); CONFIG's m is 5 bits and t is 11 (R155). -/
def Instr.wellFormed : Instr → Bool
  | .config m t => decide (m < 32) && decide (t < 2048)
  | .fldi _ imm => decide (imm < 65536)
  | .fpow _ _ imm => decide (imm < 65536)
  | .fldl _ imm => decide (imm < 65536)
  | .pldt _ imm => decide (imm < 65536)
  | .psetc _ _ imm => decide (imm < 65536)
  | .pgetc _ _ imm => decide (imm < 65536)
  | .pshl _ _ imm => decide (imm < 65536)
  | .nop | .chkperm _ | .fadd _ _ _ | .fmul _ _ _ | .finv _ _ | .pclr _ | .pmov _ _ | .pldg _
  | .pconst _ _ | .padd _ _ _ | .pmul _ _ _ | .pmulm _ _ _ | .pmod _ _ | .pdivq _ _ _
  | .pdivr _ _ _ | .pinvm _ _ | .psqrm _ _ | .psqrt _ _ | .pscl _ _ _ | .peval _ _ _ | .psetg _
  | .permc | .synd | .locator | .keyeq | .roots | .extract | .unscr | .decode | .lgen _ | .pstgen
  | .hgen | .sysform | .gextract => true

end Sys2Proof
end

