-- ==== Sys2Proof/Decode.lean ====
section
/-! DEFINITION. The command decoder (`30_encoding.md` R150–R159), total on any 32-bit word and
rejecting by name, and the encoder written from the same table (R151, R155, R157). -/

namespace Sys2Proof

/-- Why a word is ILLEGAL (`30_encoding.md` R156, in its order). -/
inductive Illegal
  /-- the opcode number is in no row of the opcode map (R159) -/
  | reservedOpcode
  /-- bit 16 is 1 -/
  | bit16Set
  /-- RD is not used by the format and is not 0 -/
  | rdNotZero
  /-- RA is not used by the format and is not 0 -/
  | raNotZero
  /-- RB is not used by the format and is not 0 -/
  | rbNotZero
  /-- IMM is not used by the format and is not 0 -/
  | immNotZero
  /-- CHKPERM with IMM[15:1] not 0 -/
  | chkpermTable
deriving DecidableEq, Repr

/-- The eight formats (`30_encoding.md` R152). -/
inductive Format
  | Z | I | D | A | DI | DA | DAB | DAI
deriving DecidableEq, Repr

/-- The format has an RD field (R152). -/
def Format.usesRd : Format → Bool
  | .D | .DI | .DA | .DAB | .DAI => true
  | .Z | .I | .A => false

/-- The format has an RA field (R152). -/
def Format.usesRa : Format → Bool
  | .A | .DA | .DAB | .DAI => true
  | .Z | .I | .D | .DI => false

/-- The format has an RB field (R152). -/
def Format.usesRb : Format → Bool
  | .DAB => true
  | .Z | .I | .D | .A | .DI | .DA | .DAI => false

/-- The format has an IMM field (R152). -/
def Format.usesImm : Format → Bool
  | .I | .DI | .DAI => true
  | .Z | .D | .A | .DA | .DAB => false

/-- The fields of a command word as unsigned numbers (`30_encoding.md` R151). -/
structure Fields where
  opc : Nat
  rd : Nat
  ra : Nat
  rb : Nat
  z16 : Nat
  imm : Nat
deriving DecidableEq, Repr

/-- The fields of a word (`30_encoding.md` R151). -/
def fieldsOf (w : Word) : Fields where
  opc := (w.extractLsb 31 26).toNat
  rd := (w.extractLsb 25 23).toNat
  ra := (w.extractLsb 22 20).toNat
  rb := (w.extractLsb 19 17).toNat
  z16 := (w.extractLsb 16 16).toNat
  imm := (w.extractLsb 15 0).toNat

/-- The register a 3-bit field names (`30_encoding.md` R153). -/
def regOf (n : Nat) : RegIx := Fin.ofNat 8 n

/-- The row of the opcode map (`30_encoding.md` R157) an opcode number selects, with the operands its
fields name; `none` for the 22 reserved numbers (R159). CONFIG's m is IMM[4:0] and its t is
IMM[15:5] (R155). -/
def instrOf (x : Fields) : Option Instr :=
  let d := regOf x.rd
  let a := regOf x.ra
  let b := regOf x.rb
  match x.opc with
  | 0x00 => some .nop
  | 0x01 => some (.config (x.imm % 32) (x.imm / 32))
  | 0x02 => some (.chkperm (if x.imm % 2 = 0 then .pidx else .swp))
  | 0x08 => some (.fldi d x.imm)
  | 0x09 => some (.fadd d a b)
  | 0x0A => some (.fmul d a b)
  | 0x0B => some (.finv d a)
  | 0x0C => some (.fpow d a x.imm)
  | 0x0D => some (.fldl d x.imm)
  | 0x10 => some (.pclr d)
  | 0x11 => some (.pmov d a)
  | 0x12 => some (.pldg d)
  | 0x13 => some (.pldt d x.imm)
  | 0x14 => some (.pconst d a)
  | 0x15 => some (.psetc d a x.imm)
  | 0x16 => some (.pgetc d a x.imm)
  | 0x17 => some (.padd d a b)
  | 0x18 => some (.pmul d a b)
  | 0x19 => some (.pmulm d a b)
  | 0x1A => some (.pmod d a)
  | 0x1B => some (.pdivq d a b)
  | 0x1C => some (.pdivr d a b)
  | 0x1D => some (.pinvm d a)
  | 0x1E => some (.psqrm d a)
  | 0x1F => some (.psqrt d a)
  | 0x20 => some (.pshl d a x.imm)
  | 0x21 => some (.pscl d a b)
  | 0x22 => some (.peval d a b)
  | 0x23 => some (.psetg a)
  | 0x28 => some .permc
  | 0x29 => some .synd
  | 0x2A => some .locator
  | 0x2B => some .keyeq
  | 0x2C => some .roots
  | 0x2D => some .extract
  | 0x2E => some .unscr
  | 0x2F => some .decode
  | 0x30 => some (.lgen a)
  | 0x31 => some .pstgen
  | 0x32 => some .hgen
  | 0x33 => some .sysform
  | 0x34 => some .gextract
  | _ => none

/-- The format column of the opcode map (`30_encoding.md` R157). -/
def Instr.format : Instr → Format
  | .nop | .permc | .synd | .locator | .keyeq | .roots | .extract | .unscr | .decode | .pstgen
  | .hgen | .sysform | .gextract => .Z
  | .config _ _ | .chkperm _ => .I
  | .pclr _ | .pldg _ => .D
  | .psetg _ | .lgen _ => .A
  | .fldi _ _ | .fldl _ _ | .pldt _ _ => .DI
  | .finv _ _ | .pmov _ _ | .pconst _ _ | .pmod _ _ | .pinvm _ _ | .psqrm _ _ | .psqrt _ _ => .DA
  | .fadd _ _ _ | .fmul _ _ _ | .padd _ _ _ | .pmul _ _ _ | .pmulm _ _ _ | .pdivq _ _ _
  | .pdivr _ _ _ | .pscl _ _ _ | .peval _ _ _ => .DAB
  | .fpow _ _ _ | .psetc _ _ _ | .pgetc _ _ _ | .pshl _ _ _ => .DAI

/-- The legality checks of a word whose opcode is in the map, in the order of `30_encoding.md` R156;
`none` when the word is legal. -/
def fieldFault (fmt : Format) (x : Fields) : Option Illegal :=
  if x.z16 ≠ 0 then some .bit16Set
  else if fmt.usesRd = false ∧ x.rd ≠ 0 then some .rdNotZero
  else if fmt.usesRa = false ∧ x.ra ≠ 0 then some .raNotZero
  else if fmt.usesRb = false ∧ x.rb ≠ 0 then some .rbNotZero
  else if fmt.usesImm = false ∧ x.imm ≠ 0 then some .immNotZero
  else if x.opc = 0x02 ∧ x.imm / 2 ≠ 0 then some .chkpermTable
  else none

/-- The decoder (`30_encoding.md` R156). -/
def decodeWord (w : Word) : Except Illegal Instr :=
  match instrOf (fieldsOf w) with
  | none => .error .reservedOpcode
  | some i =>
    match fieldFault i.format (fieldsOf w) with
    | some why => .error why
    | none => .ok i

/-! ## The encoder -/

/-- The word with the given fields (`30_encoding.md` R151). -/
def packFields (x : Fields) : Word :=
  BitVec.ofNat 32
    (x.opc * 2 ^ 26 + x.rd * 2 ^ 23 + x.ra * 2 ^ 20 + x.rb * 2 ^ 17 + x.z16 * 2 ^ 16 + x.imm)

/-- CHKPERM's IMM[0] (`40_control.md` R202). -/
def Table.bit : Table → Nat
  | .pidx => 0
  | .swp => 1

/-- Format Z: no operand field (`30_encoding.md` R152). -/
def formZ (opc : Nat) : Fields := { opc := opc, rd := 0, ra := 0, rb := 0, z16 := 0, imm := 0 }

/-- Formats D, A, DA and DAB: register fields only (`30_encoding.md` R152). -/
def formR (opc : Nat) (d a b : RegIx) : Fields :=
  { opc := opc, rd := d.val, ra := a.val, rb := b.val, z16 := 0, imm := 0 }

/-- Formats I, DI and DAI: an immediate and at most two registers (`30_encoding.md` R152). -/
def formI (opc : Nat) (d a : RegIx) (imm : Nat) : Fields :=
  { opc := opc, rd := d.val, ra := a.val, rb := 0, z16 := 0, imm := imm }

/-- The fields of a command's one legal encoding (`30_encoding.md` R157, R158). -/
def Instr.fields : Instr → Fields
  | .nop => formZ 0x00
  | .config m t => formI 0x01 0 0 (t * 32 + m)
  | .chkperm tab => formI 0x02 0 0 tab.bit
  | .fldi d imm => formI 0x08 d 0 imm
  | .fadd d a b => formR 0x09 d a b
  | .fmul d a b => formR 0x0A d a b
  | .finv d a => formR 0x0B d a 0
  | .fpow d a imm => formI 0x0C d a imm
  | .fldl d imm => formI 0x0D d 0 imm
  | .pclr d => formR 0x10 d 0 0
  | .pmov d a => formR 0x11 d a 0
  | .pldg d => formR 0x12 d 0 0
  | .pldt d imm => formI 0x13 d 0 imm
  | .pconst d a => formR 0x14 d a 0
  | .psetc d a imm => formI 0x15 d a imm
  | .pgetc d a imm => formI 0x16 d a imm
  | .padd d a b => formR 0x17 d a b
  | .pmul d a b => formR 0x18 d a b
  | .pmulm d a b => formR 0x19 d a b
  | .pmod d a => formR 0x1A d a 0
  | .pdivq d a b => formR 0x1B d a b
  | .pdivr d a b => formR 0x1C d a b
  | .pinvm d a => formR 0x1D d a 0
  | .psqrm d a => formR 0x1E d a 0
  | .psqrt d a => formR 0x1F d a 0
  | .pshl d a imm => formI 0x20 d a imm
  | .pscl d a b => formR 0x21 d a b
  | .peval d a b => formR 0x22 d a b
  | .psetg a => formR 0x23 0 a 0
  | .permc => formZ 0x28
  | .synd => formZ 0x29
  | .locator => formZ 0x2A
  | .keyeq => formZ 0x2B
  | .roots => formZ 0x2C
  | .extract => formZ 0x2D
  | .unscr => formZ 0x2E
  | .decode => formZ 0x2F
  | .lgen a => formR 0x30 0 a 0
  | .pstgen => formZ 0x31
  | .hgen => formZ 0x32
  | .sysform => formZ 0x33
  | .gextract => formZ 0x34

/-- The encoder: the one word of a well-formed command (`30_encoding.md` R150, R158). -/
def encode (i : Instr) : Word := packFields i.fields

/-! ## The opcode map as (match, mask) rows -/

/-- A row of the opcode map (`30_encoding.md` R157): a word w selects it when `w & mask = matchBits`. -/
structure OpRow where
  matchBits : Word
  mask : Word
deriving DecidableEq, Repr

/-- The row selects the word (`30_encoding.md` R156). -/
def OpRow.selects (r : OpRow) (w : Word) : Bool := (w &&& r.mask) == r.matchBits

/-- The match and mask columns of R157, control and field families. -/
def rowsControlField : List OpRow :=
  [⟨0x00000000#32, 0xFFFFFFFF#32⟩, ⟨0x04000000#32, 0xFFFF0000#32⟩, ⟨0x08000000#32, 0xFFFFFFFE#32⟩,
   ⟨0x20000000#32, 0xFC7F0000#32⟩, ⟨0x24000000#32, 0xFC01FFFF#32⟩, ⟨0x28000000#32, 0xFC01FFFF#32⟩,
   ⟨0x2C000000#32, 0xFC0FFFFF#32⟩, ⟨0x30000000#32, 0xFC0F0000#32⟩, ⟨0x34000000#32, 0xFC7F0000#32⟩]

/-- The match and mask columns of R157, polynomial family. -/
def rowsPoly : List OpRow :=
  [⟨0x40000000#32, 0xFC7FFFFF#32⟩, ⟨0x44000000#32, 0xFC0FFFFF#32⟩, ⟨0x48000000#32, 0xFC7FFFFF#32⟩,
   ⟨0x4C000000#32, 0xFC7F0000#32⟩, ⟨0x50000000#32, 0xFC0FFFFF#32⟩, ⟨0x54000000#32, 0xFC0F0000#32⟩,
   ⟨0x58000000#32, 0xFC0F0000#32⟩, ⟨0x5C000000#32, 0xFC01FFFF#32⟩, ⟨0x60000000#32, 0xFC01FFFF#32⟩,
   ⟨0x64000000#32, 0xFC01FFFF#32⟩, ⟨0x68000000#32, 0xFC0FFFFF#32⟩, ⟨0x6C000000#32, 0xFC01FFFF#32⟩,
   ⟨0x70000000#32, 0xFC01FFFF#32⟩, ⟨0x74000000#32, 0xFC0FFFFF#32⟩, ⟨0x78000000#32, 0xFC0FFFFF#32⟩,
   ⟨0x7C000000#32, 0xFC0FFFFF#32⟩, ⟨0x80000000#32, 0xFC0F0000#32⟩, ⟨0x84000000#32, 0xFC01FFFF#32⟩,
   ⟨0x88000000#32, 0xFC01FFFF#32⟩, ⟨0x8C000000#32, 0xFF8FFFFF#32⟩]

/-- The match and mask columns of R157, decode and key-side families. -/
def rowsDecodeKey : List OpRow :=
  [⟨0xA0000000#32, 0xFFFFFFFF#32⟩, ⟨0xA4000000#32, 0xFFFFFFFF#32⟩, ⟨0xA8000000#32, 0xFFFFFFFF#32⟩,
   ⟨0xAC000000#32, 0xFFFFFFFF#32⟩, ⟨0xB0000000#32, 0xFFFFFFFF#32⟩, ⟨0xB4000000#32, 0xFFFFFFFF#32⟩,
   ⟨0xB8000000#32, 0xFFFFFFFF#32⟩, ⟨0xBC000000#32, 0xFFFFFFFF#32⟩, ⟨0xC0000000#32, 0xFF8FFFFF#32⟩,
   ⟨0xC4000000#32, 0xFFFFFFFF#32⟩, ⟨0xC8000000#32, 0xFFFFFFFF#32⟩, ⟨0xCC000000#32, 0xFFFFFFFF#32⟩,
   ⟨0xD0000000#32, 0xFFFFFFFF#32⟩]

/-- The opcode map's 42 rows (`30_encoding.md` R157). -/
def opcodeRows : List OpRow := rowsControlField ++ rowsPoly ++ rowsDecodeKey

/-! ## The host's view of the table -/

/-- The command the decoder reads from a table row's bits: `w` numbered with bit 0 least significant
(one word, so bits above 31 do not exist), the bits above `nbits` being 0. -/
def decodeTableWord (nbits w : Nat) : Option Instr :=
  match decodeWord (BitVec.ofNat 32 (w % 2 ^ nbits)) with
  | .ok i => some i
  | .error _ => none

end Sys2Proof
end

