-- ==== Sys2Proof/Config.lean ====
section
/-! DEFINITION. What is fixed for one built block: the synthesis parameters, the identification
value, the register offsets, and the platform parameters that lie outside the block. -/

namespace Sys2Proof

/-- The two synthesis parameters (`00_scope.md` R6). They are part of `State` (the register HWCFG),
so every statement about all states is about every pair. -/
structure Synth where
  /-- largest field exponent m the block accepts -/
  mMax : Nat
  /-- largest Goppa degree t, and highest coefficient index of a polynomial register -/
  tMax : Nat
deriving DecidableEq, Repr

/-- The legal range of the synthesis parameters (`00_scope.md` R6). -/
abbrev Synth.legal (h : Synth) : Prop :=
  2 ≤ h.mMax ∧ h.mMax ≤ 16 ∧ 2 ≤ h.tMax ∧ h.tMax ≤ 2047

namespace Config

/-- The reference instance M_MAX = 12, T_MAX = 64 (`00_scope.md` R6); DESIGN CHOICE for
`State.reset`, log 8. -/
def reference : Synth := { mMax := 12, tMax := 64 }

/-- The ID register's constant, ASCII "MCN1" (`10_state.md` R31). -/
def idValue : Word := 0x4D434E31#32

/-- BASE, the platform's address of the 4 KiB window (`20_memory.md` R101; `92_eei_decisions.md` §2,
OPEN). The block sees only offsets within the window (log 16). -/
opaque base : Nat

/-- IRQ_LINE, the input of the platform's interrupt controller that irq is wired to
(`60_exceptions.md` R410; OPEN, log 16). -/
opaque irqLine : Nat

/-- BUS_BYTE_LANES, the byte lane of a byte-addressed bus that carries byte i of a port word
(`20_memory.md` R103; OPEN, outside the block, log 16). -/
opaque busByteLane : Fin 4 → Fin 4

/-- The window offset a platform address selects, if it lies in the block's window
(`20_memory.md` R101). -/
def windowOffset (addr : Nat) : Option (BitVec 12) :=
  if base ≤ addr ∧ addr < base + 4096 then some (BitVec.ofNat 12 (addr - base)) else none

end Config
end Sys2Proof
end

