-- ==== Sys2Proof/Machine/State.lean ====
section
/-! DEFINITION. The state of MCN-PGD as plain data (`10_state.md` R30), the reasons a step can stop,
and the state after reset (`10_state.md` R60). -/

namespace Sys2Proof.Machine

/-! ## Register files -/

/-- Eight registers of one kind (`10_state.md` R54, R55): none is hardwired. -/
structure RegFile (α : Type) where
  r0 : α
  r1 : α
  r2 : α
  r3 : α
  r4 : α
  r5 : α
  r6 : α
  r7 : α
deriving DecidableEq, Repr

/-! ## Data memories -/

/-- One data memory: the elements that hold a value, by rising element number (`20_memory.md` R104).
An element that is not listed holds no value (`00_scope.md` R13; log 6). -/
structure Memory (α : Type) where
  cells : List (Nat × α)
deriving DecidableEq, Repr

/-- The memories whose element is a field element or an index (`10_state.md` R57). -/
inductive ElemMem
  | L | PST | PIDX | SWP
deriving DecidableEq, Repr

/-- The memories whose element is a bit (`10_state.md` R57). -/
inductive BitMem
  | H | G | SINV | C | W | E | MC | M
deriving DecidableEq, Repr

/-- One of the twelve data memories (`10_state.md` R57). -/
inductive MemId
  | elem (m : ElemMem)
  | bit (m : BitMem)
deriving DecidableEq, Repr

/-- The twelve data memories (`10_state.md` R57). -/
structure Memories where
  l : Memory Elem
  pst : Memory Elem
  pidx : Memory Elem
  swp : Memory Elem
  h : Memory Bool
  g : Memory Bool
  sinv : Memory Bool
  c : Memory Bool
  w : Memory Bool
  e : Memory Bool
  mc : Memory Bool
  msg : Memory Bool
deriving DecidableEq, Repr

/-! ## The state commands work on -/

/-- The code parameters of the current configuration (`00_scope.md` R7; `10_state.md` R40). -/
structure Code where
  m : Nat
  t : Nat
deriving DecidableEq, Repr

/-- Everything a command reads or writes (`40_control.md` R203): the part of the state of which the
engine takes a working copy (`00_scope.md` R12; `10_state.md` R58). -/
structure Data where
  /-- STATUS.CFG_OK and PARAM, NVAL, KVAL in one (`10_state.md` R40, R58; log 11) -/
  cfg : Option Code
  /-- FMOD[16:0] (`10_state.md` R41) -/
  fmod : BitVec 17
  /-- CLEN[16:0] (`10_state.md` R42) -/
  clen : BitVec 17
  /-- DSTAT.DEGEN (`10_state.md` R43) -/
  degen : BitVec 2
  /-- DSTAT.ITER (`10_state.md` R43) -/
  iter : BitVec 16
  /-- ROOTCNT[16:0] (`10_state.md` R44) -/
  rootcnt : BitVec 17
  /-- SWAPCNT[16:0] (`10_state.md` R45) -/
  swapcnt : BitVec 17
  /-- F0–F7 (`10_state.md` R54) -/
  f : RegFile Elem
  /-- P0–P7 (`10_state.md` R55) -/
  p : RegFile Poly
  /-- GP (`10_state.md` R55) -/
  gp : Poly
  /-- the data memories (`10_state.md` R57) -/
  mems : Memories
deriving DecidableEq, Repr

/-- What the engine holds between a command's acceptance and its completion (`10_state.md` R58, R36).
The accepted word itself stands in CMD. -/
structure Busy where
  /-- the working copy of the state (`00_scope.md` R12) -/
  copy : Data
  /-- how many sub-steps of DECODE have run on the copy (`10_state.md` R36; log 4) -/
  sub : Nat
deriving DecidableEq, Repr

/-- The ERRCODE register (`10_state.md` R38). -/
structure ErrCode where
  code : BitVec 8
  opc : BitVec 6
  sub : BitVec 3
deriving DecidableEq, Repr

/-! ## Events -/

/-- One event of the total order of `20_memory.md` R120, or of the reset input (`70_reset` R450). -/
inductive Event
  /-- `Read(off)` by the host (`20_memory.md` R100) -/
  | read (off : BitVec 12)
  /-- `Write(off, w)` by the host (`20_memory.md` R100) -/
  | write (off : BitVec 12) (w : Word)
  /-- the completion of the busy command (`60_exceptions.md` R402) -/
  | complete
  /-- the engine finishes one sub-step of a busy DECODE on its working copy (`10_state.md` R36) -/
  | advance
  /-- rst_n becomes 0 (`70_reset_and_hazards.md` R450) -/
  | resetFalls
  /-- rst_n becomes 1 (`70_reset_and_hazards.md` R450) -/
  | resetRises
deriving DecidableEq, Repr

/-! ## The state -/

/-- The whole state (`10_state.md` R30), with the model's own fields `prdata` (log 3) and `events`
(log 1). -/
structure State where
  /-- HWCFG, the synthesis parameters (`10_state.md` R32; log 8) -/
  hw : Synth
  /-- what commands read and write -/
  data : Data
  /-- the busy command; STATUS.BUSY is 1 exactly when there is one (`10_state.md` R34, R58) -/
  engine : Option Busy
  /-- CMD, the last accepted command word (`10_state.md` R37) -/
  cmd : Word
  /-- STATUS.DONE (`10_state.md` R34) -/
  done : Bool
  /-- STATUS.ERR (`10_state.md` R34) -/
  err : Bool
  /-- STATUS.AERR (`10_state.md` R34) -/
  aerr : Bool
  /-- STATUS.BERR (`10_state.md` R34) -/
  berr : Bool
  /-- STATUS.REJ (`10_state.md` R34) -/
  rej : Bool
  /-- IE.DONE_IE (`10_state.md` R35) -/
  doneIE : Bool
  /-- IE.ERR_IE (`10_state.md` R35) -/
  errIE : Bool
  /-- ERRCODE (`10_state.md` R38) -/
  errcode : ErrCode
  /-- ERRINFO (`10_state.md` R39) -/
  errinfo : Word
  /-- MSEL[3:0] (`10_state.md` R46) -/
  msel : BitVec 4
  /-- MIDX[26:0] (`10_state.md` R47) -/
  midx : BitVec 27
  /-- PSEL[3:0] (`10_state.md` R49) -/
  psel : BitVec 4
  /-- PCIDX[10:0] (`10_state.md` R50) -/
  pcidx : BitVec 11
  /-- the level of rst_n (`20_memory.md` R100; log 5) -/
  rstN : Bool
  /-- what the last host read returned (`20_memory.md` R100; the model's own field, log 3) -/
  prdata : Word
  /-- the events still to come (the model's own field, log 1) -/
  events : List Event
deriving DecidableEq, Repr

/-! ## How a step can stop -/

/-- The faults. -/
inductive Fault
  /-- A command or an MDATA read met the element `elem` of memory `mem`, which holds no value
  (`00_scope.md` R13; `60_exceptions.md` R408). Raised by every command that reads a data memory and
  by the memory port's read. Safe: the hardware goes on with bits nobody names. -/
  | unwritten (mem : MemId) (elem : Nat)
deriving DecidableEq, Repr

/-- The refusals. -/
inductive Refusal
  /-- The command has no meaning in the model yet. Raised by the dispatch alone. Safe. -/
  | notModelled (mnemonic : String)
deriving DecidableEq, Repr

/-! ## Reset values -/

/-- Eight registers holding one value. -/
def RegFile.all {α : Type} (v : α) : RegFile α :=
  { r0 := v, r1 := v, r2 := v, r3 := v, r4 := v, r5 := v, r6 := v, r7 := v }

/-- A memory none of whose elements holds a value. -/
def Memory.empty {α : Type} : Memory α := { cells := [] }

/-- Every data memory unwritten (`10_state.md` R60). -/
def Memories.unwritten : Memories where
  l := .empty
  pst := .empty
  pidx := .empty
  swp := .empty
  h := .empty
  g := .empty
  sinv := .empty
  c := .empty
  w := .empty
  e := .empty
  mc := .empty
  msg := .empty

/-- The reset values of what commands work on (`10_state.md` R60). -/
def Data.reset : Data where
  cfg := none
  fmod := 0#17
  clen := 0#17
  degen := 0#2
  iter := 0#16
  rootcnt := 0#17
  swapcnt := 0#17
  f := .all 0#16
  p := .all []
  gp := []
  mems := .unwritten

/-- The reset state of a block with the given synthesis parameters (`10_state.md` R60), with rst_n
high, nothing read yet and no event to come. -/
def State.resetOf (hw : Synth) : State where
  hw := hw
  data := .reset
  engine := none
  cmd := 0#32
  done := false
  err := false
  aerr := false
  berr := false
  rej := false
  doneIE := false
  errIE := false
  errcode := { code := 0#8, opc := 0#6, sub := 0#3 }
  errinfo := 0#32
  msel := 0#4
  midx := 0#27
  psel := 0#4
  pcidx := 0#11
  rstN := true
  prdata := 0#32
  events := []

/-- The machine right after reset (`10_state.md` R60, `70_reset_and_hazards.md` R450), for the
reference instance (log 8). -/
def State.reset : State := State.resetOf Config.reference

end Sys2Proof.Machine
end

