-- ==== Sys2Proof/Machine/Errors.lean ====
section
/-! DEFINITION. The error codes and their information words (`60_exceptions.md` R400, R401), and the
result of running a command's rule: a value, a raised error, or an element that holds no value. -/

namespace Sys2Proof.Machine

/-- Why a command is NOCONFIG (`60_exceptions.md` R401). -/
inductive NoConfig
  /-- no CONFIG has succeeded since reset -/
  | notConfigured
  /-- FMOD no longer has degree m -/
  | modulusDegree
deriving DecidableEq, Repr

/-- Why an arithmetic step fails (`60_exceptions.md` R401). -/
inductive ArithFault
  /-- a field element has no inverse (`41_field.md` R232) -/
  | fieldInverse
  /-- no inverse modulo g: the gcd is not constant (`42_poly.md` R263) -/
  | modInverse
  /-- division by the zero polynomial (`42_poly.md` R262) -/
  | zeroDivisor
deriving DecidableEq, Repr

/-- The errors a command reports, each with what its information word names (`60_exceptions.md` R400,
R401). -/
inductive CmdError
  | illegal (w : Word)
  | noconfig (why : NoConfig)
  | param (imm : Nat)
  | operand (imm : Nat)
  | overflow (deg : Nat)
  | arith (why : ArithFault)
  | malformed (clen : BitVec 17)
  | field (i : Nat)
  | goppa (i : Nat)
  /-- KEYGEN: row j has no free pivot column -/
  | keygenRow (j : Nat)
  /-- KEYGEN: verification fails first at column c -/
  | keygenColumn (c : Nat)
  | perm (i : Nat)
  | gpoly (deg : BitVec 16)
deriving DecidableEq, Repr

/-- ERRCODE.CODE (`60_exceptions.md` R400). -/
def CmdError.code : CmdError → BitVec 8
  | .illegal _ => 1#8
  | .noconfig _ => 2#8
  | .param _ => 3#8
  | .operand _ => 4#8
  | .overflow _ => 5#8
  | .arith _ => 6#8
  | .malformed _ => 7#8
  | .field _ => 8#8
  | .goppa _ => 9#8
  | .keygenRow _ => 10#8
  | .keygenColumn _ => 10#8
  | .perm _ => 11#8
  | .gpoly _ => 12#8

/-- The information of NOCONFIG (`60_exceptions.md` R401). -/
def NoConfig.info : NoConfig → Word
  | .notConfigured => 0#32
  | .modulusDegree => 1#32

/-- The information of ARITH (`60_exceptions.md` R401). -/
def ArithFault.info : ArithFault → Word
  | .fieldInverse => 1#32
  | .modInverse => 2#32
  | .zeroDivisor => 3#32

/-- ERRINFO (`60_exceptions.md` R401). -/
def CmdError.info : CmdError → Word
  | .illegal w => w
  | .noconfig why => why.info
  | .param imm => BitVec.ofNat 32 imm
  | .operand imm => BitVec.ofNat 32 imm
  | .overflow deg => BitVec.ofNat 32 deg
  | .arith why => why.info
  | .malformed clen => clen.setWidth 32
  | .field i => BitVec.ofNat 32 i
  | .goppa i => BitVec.ofNat 32 i
  | .keygenRow j => BitVec.ofNat 32 j
  | .keygenColumn c => 0x80000000#32 ||| BitVec.ofNat 32 c
  | .perm i => BitVec.ofNat 32 i
  | .gpoly deg => deg.setWidth 32

/-- How a command's rule ends early: it raises an error, in the DECODE sub-step `sub` (0 outside
DECODE, `10_state.md` R38), or it reads an element that holds no value (`00_scope.md` R13). -/
inductive Stop
  | raised (sub : Nat) (e : CmdError)
  | unwritten (mem : MemId) (elem : Nat)
deriving DecidableEq, Repr

/-- The result of a part of a command's rule. -/
abbrev Run (α : Type) := Except Stop α

/-- `raise E(info)` (`00_scope.md` R12). -/
def raise {α : Type} (e : CmdError) : Run α := .error (.raised 0 e)

/-- The values of `g` at i, i + 1, …, one for each of `cnt` indices in ascending order, up to the
first index at which `g` stops. -/
def collectFrom {α : Type} (g : Nat → Run α) : Nat → Nat → Run (List α)
  | 0, _ => .ok []
  | cnt + 1, i => do
    let v ← g i
    let rest ← collectFrom g cnt (i + 1)
    .ok (v :: rest)

/-- The values of `g` at 0, …, cnt − 1, in ascending order. -/
def collect {α : Type} (cnt : Nat) (g : Nat → Run α) : Run (List α) := collectFrom g cnt 0

end Sys2Proof.Machine
end

