-- ==== Sys2Proof/Machine/FieldArith.lean ====
section
/-! DEFINITION. Arithmetic of GF(2)[x]/f (`41_field.md` R230–R233). -/

namespace Sys2Proof.Machine

/-- The exponent m and the modulus f a command computes with (`41_field.md` R230). -/
structure GF where
  m : Nat
  f : BitVec 17
deriving DecidableEq, Repr

/-- The carry-less product of a with the low j bits of b (`41_field.md` R231, `clmul`). -/
def clmul (a b : Elem) : Nat → BitVec 32
  | 0 => 0#32
  | j + 1 => clmul a b j ^^^ (if b.getLsbD j then a.setWidth 32 <<< j else 0#32)

/-- Reduction modulo f of a value whose bits at and above m + d are 0 (`41_field.md` R231, `reduce`):
the highest 1 at or above m is cancelled first, then the next. -/
def GF.reduceFrom (k : GF) : Nat → BitVec 32 → BitVec 32
  | 0, c => c
  | d + 1, c => k.reduceFrom d (if c.getLsbD (k.m + d) then c ^^^ (k.f.setWidth 32 <<< d) else c)

/-- a ⊗ b (`41_field.md` R231). A product of 16-bit operands over m bits of b has no bit at or above
m + 16. -/
def GF.mul (k : GF) (a b : Elem) : Elem := (k.reduceFrom 16 (clmul a b k.m)).setWidth 16

/-- a ⊕ b (`00_scope.md` R9). -/
def fieldAdd (a b : Elem) : Elem := a ^^^ b

/-- The first b at or above the given one, among `cnt` candidates, with a ⊗ b = 1. -/
def GF.findInv (k : GF) (a : Elem) : Nat → Nat → Option Elem
  | 0, _ => none
  | cnt + 1, b =>
    if k.mul a (BitVec.ofNat 16 b) = 1#16 then some (BitVec.ofNat 16 b) else k.findInv a cnt (b + 1)

/-- inv(a): the b in [0, 2^m) with a ⊗ b = 1, or ARITH(1) (`41_field.md` R232; log 14). -/
def GF.inv (k : GF) (a : Elem) : Run Elem :=
  match k.findInv a (2 ^ k.m) 0 with
  | some b => .ok b
  | none => raise (.arith .fieldInverse)

/-- `acc` multiplied e times by a. -/
def GF.powFrom (k : GF) (a : Elem) : Nat → Elem → Elem
  | 0, acc => acc
  | e + 1, acc => k.powFrom a e (k.mul acc a)

/-- a ^ e, with a ^ 0 = 1 also for a = 0 (`41_field.md` R233). -/
def GF.pow (k : GF) (a : Elem) (e : Nat) : Elem := k.powFrom a e 1#16

/-- The low m bits of a 16-bit value (`20_memory.md` R109). -/
def maskElem (m : Nat) (v : Elem) : Elem := v &&& BitVec.ofNat 16 (2 ^ m - 1)

end Sys2Proof.Machine
end

