-- ==== Sys2Proof/Machine/PolyArith.lean ====
section
/-! DEFINITION. Arithmetic of GF(2^m)[z] (`42_poly.md` R260–R264) and the key-equation core
(`44_decode.md` R345). Loops carry a bound that they never reach on field elements (log 13). -/

namespace Sys2Proof.Machine

/-! ## Coefficients and degree -/

/-- The polynomial a + z·p. -/
def Poly.cons (a : Elem) (p : Poly) : Poly :=
  match p with
  | [] => if a = 0#16 then [] else [a]
  | b :: q => a :: b :: q

/-- The polynomial with the given coefficients, z^0 first. -/
def Poly.ofCoeffs : List Elem → Poly
  | [] => []
  | a :: p => Poly.cons a (Poly.ofCoeffs p)

/-- Coefficient i (`00_scope.md` R10); 0 above the degree. -/
def Poly.coeff (p : Poly) (i : Nat) : Elem := p.getD i 0#16

/-- deg(p); `none` is −∞ (`00_scope.md` R10). -/
def Poly.deg (p : Poly) : Option Nat :=
  match p with
  | [] => none
  | _ :: q => some q.length

/-- A degree as a 16-bit register field: −∞ is all ones (`00_scope.md` R10). -/
def degField : Option Nat → BitVec 16
  | none => 0xFFFF#16
  | some d => BitVec.ofNat 16 d

/-- lc(p) (`00_scope.md` R10). -/
def Poly.lead (p : Poly) : Elem := p.getLastD 0#16

/-- The constant polynomial c (`42_poly.md` R270). -/
def Poly.const (c : Elem) : Poly := Poly.cons c []

/-- The polynomial z (`00_scope.md` R10). -/
def Poly.z : Poly := [0#16, 1#16]

/-- The coefficient list with position j set to v. -/
def setAt : List Elem → Nat → Elem → List Elem
  | [], 0, v => [v]
  | [], j + 1, v => 0#16 :: setAt [] j v
  | _ :: p, 0, v => v :: p
  | a :: p, j + 1, v => a :: setAt p j v

/-- p with coefficient j set to v (`42_poly.md` R271, `20_memory.md` R108). -/
def Poly.setCoeff (p : Poly) (j : Nat) (v : Elem) : Poly := Poly.ofCoeffs (setAt p j v)

/-- The first t coefficients, z^0 first, with zeros above the degree (`43_keyside.md` R302). -/
def Poly.toCoeffs (p : Poly) (t : Nat) : List Elem := (List.range t).map (Poly.coeff p)

/-! ## Ring operations (`42_poly.md` R261) -/

/-- p + q. -/
def Poly.add : Poly → Poly → Poly
  | [], q => q
  | a :: p, [] => a :: p
  | a :: p, b :: q => Poly.cons (fieldAdd a b) (Poly.add p q)

/-- c · p for a field element c. -/
def Poly.scale (k : GF) (c : Elem) (p : Poly) : Poly := Poly.ofCoeffs (p.map (k.mul c))

/-- p · z^s. -/
def Poly.shift (s : Nat) (p : Poly) : Poly :=
  match p with
  | [] => []
  | a :: q => List.replicate s 0#16 ++ a :: q

/-- p · q. -/
def Poly.mul (k : GF) : Poly → Poly → Poly
  | [], _ => []
  | a :: p, q => Poly.add (Poly.scale k a q) (Poly.shift 1 (Poly.mul k p q))

/-- p(x) by Horner's rule. -/
def Poly.eval (k : GF) (p : Poly) (x : Elem) : Elem :=
  match p with
  | [] => 0#16
  | a :: q => fieldAdd (k.mul (Poly.eval k q x) x) a

/-! ## Division (`42_poly.md` R262) -/

/-- The reduction loop of divmod, with ib = inv(lc(b)). -/
def divLoop (k : GF) (b : Poly) (ib : Elem) : Nat → Poly → Poly → Poly × Poly
  | 0, q, r => (q, r)
  | fuel + 1, q, r =>
    if r ≠ [] ∧ b.length ≤ r.length then
      let d := r.length - b.length
      let c := k.mul (Poly.lead r) ib
      divLoop k b ib fuel (Poly.add q (Poly.shift d (Poly.const c)))
        (Poly.add r (Poly.shift d (Poly.scale k c b)))
    else (q, r)

/-- divmod(a, b): ARITH(3) for b = 0, ARITH(1) when lc(b) has no inverse. -/
def divmod (k : GF) (a b : Poly) : Run (Poly × Poly) :=
  if b = [] then raise (.arith .zeroDivisor)
  else do
    let ib ← k.inv (Poly.lead b)
    .ok (divLoop k b ib a.length [] a)

/-- a mod g. -/
def polyMod (k : GF) (a g : Poly) : Run Poly := do
  let qr ← divmod k a g
  .ok qr.2

/-! ## Inverse modulo g (`42_poly.md` R263) -/

/-- The loop of invmod: (r0, r1, s0, s1) until r1 = 0; answers (r0, s0). -/
def invLoop (k : GF) : Nat → Poly → Poly → Poly → Poly → Run (Poly × Poly)
  | 0, r0, _, s0, _ => .ok (r0, s0)
  | fuel + 1, r0, r1, s0, s1 =>
    if r1 = [] then .ok (r0, s0)
    else do
      let qr ← divmod k r0 r1
      invLoop k fuel r1 qr.2 s1 (Poly.add s0 (Poly.mul k qr.1 s1))

/-- invmod(a, g): ARITH(2) when gcd(a, g) is not a constant. -/
def invmod (k : GF) (a g : Poly) : Run Poly := do
  let r1 ← polyMod k a g
  let rs ← invLoop k (g.length + 1) g r1 [] (Poly.const 1#16)
  if Poly.deg rs.1 ≠ some 0 then raise (.arith .modInverse)
  else do
    let c ← k.inv (Poly.coeff rs.1 0)
    polyMod k (Poly.scale k c rs.2) g

/-! ## Square root modulo g (`42_poly.md` R264) -/

/-- j squarings modulo g. -/
def squareLoop (k : GF) (g : Poly) : Nat → Poly → Run Poly
  | 0, x => .ok x
  | j + 1, x => do
    let y ← polyMod k (Poly.mul k x x) g
    squareLoop k g j y

/-- sqrtmod(a, g) = a^(2^(m·t − 1)) mod g. -/
def sqrtmod (k : GF) (t : Nat) (a g : Poly) : Run Poly := do
  let x ← polyMod k a g
  squareLoop k g (k.m * t - 1) x

/-! ## The key-equation core (`44_decode.md` R345) -/

/-- The registers of the key-equation recursion. -/
structure KeyEq where
  r0 : Poly
  r1 : Poly
  u0 : Poly
  u1 : Poly
  it : Nat
deriving DecidableEq, Repr

/-- The inner loop: leading terms of r0 are eliminated against r1 while deg r0 ≥ deg r1. -/
def eliminate (k : GF) : Nat → KeyEq → Run KeyEq
  | 0, s => .ok s
  | fuel + 1, s =>
    if s.r0 ≠ [] ∧ s.r1.length ≤ s.r0.length then do
      let ir ← k.inv (Poly.lead s.r1)
      let d := s.r0.length - s.r1.length
      let c := k.mul (Poly.lead s.r0) ir
      eliminate k fuel
        { s with r0 := Poly.add s.r0 (Poly.shift d (Poly.scale k c s.r1))
                 u0 := Poly.add s.u0 (Poly.shift d (Poly.scale k c s.u1))
                 it := s.it + 1 }
    else .ok s

/-- The outer loop: eliminate, then swap, while deg r1 > ⌊t/2⌋. -/
def keyLoop (k : GF) (half : Nat) : Nat → KeyEq → Run KeyEq
  | 0, s => .ok s
  | fuel + 1, s =>
    if half + 1 < s.r1.length then do
      let e ← eliminate k s.r0.length s
      keyLoop k half fuel { e with r0 := e.r1, r1 := e.r0, u0 := e.u1, u1 := e.u0 }
    else .ok s

/-- keyeq(τ, g): the final registers, with r1 reduced to α = r1 mod g. The companions start as
u0 = 0 and u1 = 1. -/
def keyeq (k : GF) (t : Nat) (tau g : Poly) : Run KeyEq := do
  let r1 ← polyMod k tau g
  let s ← keyLoop k (t / 2) (r1.length + 1)
    { r0 := g, r1 := r1, u0 := [], u1 := Poly.const 1#16, it := 0 }
  let alpha ← polyMod k s.r1 g
  .ok { s with r1 := alpha }

end Sys2Proof.Machine
end

