-- ==== Sys2Proof/Machine/Ops.lean ====
section
/-! DEFINITION. The named operations over registers and memories, the checks every command begins
with, and the three ends of a command: commit, error (the block's exception, `60_exceptions.md` R411),
and release of the error lock (its return, R405, R412). -/

namespace Sys2Proof.Machine

/-! ## Register files (`10_state.md` R54, R55) -/

/-- Read register i. -/
def RegFile.get {α : Type} (r : RegFile α) (i : RegIx) : α :=
  match i with
  | 0 => r.r0
  | 1 => r.r1
  | 2 => r.r2
  | 3 => r.r3
  | 4 => r.r4
  | 5 => r.r5
  | 6 => r.r6
  | 7 => r.r7

/-- Write register i. -/
def RegFile.set {α : Type} (r : RegFile α) (i : RegIx) (v : α) : RegFile α :=
  match i with
  | 0 => { r with r0 := v }
  | 1 => { r with r1 := v }
  | 2 => { r with r2 := v }
  | 3 => { r with r3 := v }
  | 4 => { r with r4 := v }
  | 5 => { r with r5 := v }
  | 6 => { r with r6 := v }
  | 7 => { r with r7 := v }

/-- `F[i] <- v` (`00_scope.md` R12). -/
def Data.setF (d : Data) (i : RegIx) (v : Elem) : Data := { d with f := d.f.set i v }

/-- `P[i] <- p` (`00_scope.md` R12). -/
def Data.setP (d : Data) (i : RegIx) (p : Poly) : Data := { d with p := d.p.set i p }

/-! ## One data memory -/

/-- The value the first cell numbered i holds. -/
def readCells {α : Type} : List (Nat × α) → Nat → Option α
  | [], _ => none
  | (k, v) :: rest, i => if i = k then some v else readCells rest i

/-- The cells with cell i holding v. -/
def writeCells {α : Type} : List (Nat × α) → Nat → α → List (Nat × α)
  | [], i, v => [(i, v)]
  | (k, w) :: rest, i, v =>
    if i < k then (i, v) :: (k, w) :: rest
    else if i = k then (i, v) :: rest
    else (k, w) :: writeCells rest i v

/-- The values numbered i, i + 1, …. -/
def numberedFrom {α : Type} : Nat → List α → List (Nat × α)
  | _, [] => []
  | i, v :: vs => (i, v) :: numberedFrom (i + 1) vs

/-- Element i, `none` where it holds no value (`00_scope.md` R13). -/
def Memory.read {α : Type} (m : Memory α) (i : Nat) : Option α := readCells m.cells i

/-- Write element i. -/
def Memory.write {α : Type} (m : Memory α) (i : Nat) (v : α) : Memory α :=
  { cells := writeCells m.cells i v }

/-- Write the elements i, i + 1, … with the given values. -/
def Memory.writeRange {α : Type} (m : Memory α) (i : Nat) (vs : List α) : Memory α :=
  { cells := m.cells.filter (fun kv => decide (kv.1 < i)) ++ numberedFrom i vs ++
      m.cells.filter (fun kv => decide (i + vs.length ≤ kv.1)) }

/-- Write each listed element, in order. -/
def Memory.writeAll {α : Type} (m : Memory α) : List (Nat × α) → Memory α
  | [] => m
  | (i, v) :: rest => Memory.writeAll (m.write i v) rest

/-- The canonical form: element numbers strictly rising. -/
abbrev Memory.wf {α : Type} (m : Memory α) : Prop := m.cells.Pairwise (fun a b => a.1 < b.1)

/-! ## The twelve data memories -/

/-- The memory of field elements or indices `id` names. -/
def Memories.elem (ms : Memories) : ElemMem → Memory Elem
  | .L => ms.l
  | .PST => ms.pst
  | .PIDX => ms.pidx
  | .SWP => ms.swp

/-- The memory of bits `id` names. -/
def Memories.bit (ms : Memories) : BitMem → Memory Bool
  | .H => ms.h
  | .G => ms.g
  | .SINV => ms.sinv
  | .C => ms.c
  | .W => ms.w
  | .E => ms.e
  | .MC => ms.mc
  | .M => ms.msg

/-- Replace a memory of field elements or indices. -/
def Memories.setElem (ms : Memories) (id : ElemMem) (m : Memory Elem) : Memories :=
  match id with
  | .L => { ms with l := m }
  | .PST => { ms with pst := m }
  | .PIDX => { ms with pidx := m }
  | .SWP => { ms with swp := m }

/-- Replace a memory of bits. -/
def Memories.setBit (ms : Memories) (id : BitMem) (m : Memory Bool) : Memories :=
  match id with
  | .H => { ms with h := m }
  | .G => { ms with g := m }
  | .SINV => { ms with sinv := m }
  | .C => { ms with c := m }
  | .W => { ms with w := m }
  | .E => { ms with e := m }
  | .MC => { ms with mc := m }
  | .M => { ms with msg := m }

/-- MemRead of a memory of field elements or indices (`00_scope.md` R12, R13). -/
def readElem (d : Data) (id : ElemMem) (i : Nat) : Run Elem :=
  match (d.mems.elem id).read i with
  | some v => .ok v
  | none => .error (.unwritten (.elem id) i)

/-- MemRead of a memory of bits (`00_scope.md` R12, R13). -/
def readBit (d : Data) (id : BitMem) (i : Nat) : Run Bool :=
  match (d.mems.bit id).read i with
  | some v => .ok v
  | none => .error (.unwritten (.bit id) i)

/-- The data with a memory of field elements or indices replaced. -/
def Data.withElem (d : Data) (id : ElemMem) (m : Memory Elem) : Data :=
  { d with mems := d.mems.setElem id m }

/-- The data with a memory of bits replaced. -/
def Data.withBit (d : Data) (id : BitMem) (m : Memory Bool) : Data :=
  { d with mems := d.mems.setBit id m }

/-- MemWrite of elements 0, 1, … of a memory of field elements or indices. -/
def Data.fillElem (d : Data) (id : ElemMem) (vs : List Elem) : Data :=
  d.withElem id ((d.mems.elem id).writeRange 0 vs)

/-- MemWrite of elements 0, 1, … of a memory of bits. -/
def Data.fillBit (d : Data) (id : BitMem) (vs : List Bool) : Data :=
  d.withBit id ((d.mems.bit id).writeRange 0 vs)

/-! ## Sizes (`00_scope.md` R7, `20_memory.md` R104) -/

/-- n = 2^m. -/
def Code.n (c : Code) : Nat := 2 ^ c.m

/-- m·t, the number of rows of H. -/
def Code.mt (c : Code) : Nat := c.m * c.t

/-- k = n − m·t. -/
def Code.k (c : Code) : Nat := c.n - c.mt

/-- The number of elements of a memory of field elements or indices (`10_state.md` R57). -/
def Code.elemCount (c : Code) : ElemMem → Nat
  | .L => c.n
  | .PST => c.n * c.t
  | .PIDX => c.n
  | .SWP => c.n

/-- The number of rows of a memory of bits (`10_state.md` R57); a vector is one row. -/
def Code.rows (c : Code) : BitMem → Nat
  | .H => c.mt
  | .G => c.k
  | .SINV => c.k
  | .C | .W | .E | .MC | .M => 1

/-- The number of bits in a row of a memory of bits (`10_state.md` R57). -/
def Code.cols (c : Code) : BitMem → Nat
  | .H | .G | .C | .W | .E => c.n
  | .SINV | .MC | .M => c.k

/-! ## The checks a command begins with -/

/-- What a configured command computes with: the code parameters, the field, and T_MAX. -/
structure Ctx where
  code : Code
  gf : GF
  tMax : Nat
deriving DecidableEq, Repr

/-- The NOCONFIG checks (`40_control.md` R203). -/
def configured (hw : Synth) (d : Data) : Run Ctx :=
  match d.cfg with
  | none => raise (.noconfig .notConfigured)
  | some c =>
    if d.fmod >>> c.m ≠ 1#17 then raise (.noconfig .modulusDegree)
    else .ok { code := c, gf := { m := c.m, f := d.fmod }, tMax := hw.tMax }

/-- The g-check (`42_poly.md` R265): GP, if it has degree exactly t. -/
def gcheck (c : Ctx) (d : Data) : Run Poly :=
  if Poly.deg d.gp ≠ some c.code.t then raise (.gpoly (degField (Poly.deg d.gp)))
  else .ok d.gp

/-! ## The life of a command -/

/-- The state a command computes from: the engine's working copy (`00_scope.md` R12). -/
def State.work (s : State) : Data :=
  match s.engine with
  | some b => b.copy
  | none => s.data

/-- How many sub-steps of DECODE have already run on the working copy (`10_state.md` R36). -/
def State.sub (s : State) : Nat :=
  match s.engine with
  | some b => b.sub
  | none => 0

/-- Acceptance of command word w (`10_state.md` R37): CMD ← w, DONE ← 0, BUSY ← 1; the engine takes
its working copy (`10_state.md` R58). -/
def State.accept (s : State) (w : Word) : State :=
  { s with cmd := w, done := false, engine := some { copy := s.data, sub := 0 } }

/-- `commit` (`40_control.md` R204): the working copy d becomes the state, DONE ← 1, BUSY ← 0. -/
def State.commit (s : State) (d : Data) : State :=
  { s with data := d, done := true, engine := none }

/-- A command fails (`40_control.md` R204; `60_exceptions.md` R402, R411): the working copy is
discarded, ERRCODE and ERRINFO record the error, ERR ← 1, BUSY ← 0. ERRCODE.OPC is bits [31:26] of
the accepted word, which stands in CMD (log 12). -/
def State.takeError (s : State) (sub : Nat) (e : CmdError) : State :=
  { s with engine := none, err := true, errinfo := e.info,
           errcode := { code := e.code, opc := s.cmd.extractLsb' 26 6, sub := BitVec.ofNat 3 sub } }

/-- Release of the error lock, the return from a failure (`60_exceptions.md` R405, R412): ERR ← 0,
and nothing else. -/
def State.releaseError (s : State) : State := { s with err := false }

/-- The completion event of a command whose rule ended as `r` (`40_control.md` R204). -/
def State.finish (s : State) (r : Run Data) : Host.Outcome State Fault Refusal :=
  match r with
  | .ok d => .next (s.commit d)
  | .error (.raised sub e) => .next (s.takeError sub e)
  | .error (.unwritten id i) => .fault (.unwritten id i)

/-- A command that needs a configuration: the NOCONFIG checks, then its rule, on the working copy
(`40_control.md` R203). -/
def runCommand (rule : Ctx → Data → Run Data) (s : State) : Host.Outcome State Fault Refusal :=
  s.finish do
    let c ← configured s.hw s.work
    rule c s.work

end Sys2Proof.Machine
end

