-- ==== Sys2Proof/Machine/Operands.lean ====
section
/-! DEFINITION. The operand forms of the commands (`30_encoding.md` R153, R154): register operands,
the range checks of immediates, table entries, and the memory word a port index names
(`20_memory.md` R104, R110). -/

namespace Sys2Proof.Machine

/-! ## Immediates (`30_encoding.md` R154) -/

/-- FLDI's field element: `imm < 2^m` else OPERAND (`41_field.md` R234). -/
def elemImm (c : Ctx) (imm : Nat) : Run Elem :=
  if c.code.n ≤ imm then raise (.operand imm) else .ok (BitVec.ofNat 16 imm)

/-- FLDL's and PLDT's support index: `imm < n` else OPERAND (`41_field.md` R239, `42_poly.md` R269). -/
def supportImm (c : Ctx) (imm : Nat) : Run Nat :=
  if c.code.n ≤ imm then raise (.operand imm) else .ok imm

/-- PSETC's and PGETC's coefficient index: `imm ≤ T_MAX` else OPERAND (`42_poly.md` R271, R272). -/
def coeffImm (c : Ctx) (imm : Nat) : Run Nat :=
  if c.tMax < imm then raise (.operand imm) else .ok imm

/-! ## Registers as destinations -/

/-- A polynomial result that must have degree at most T_MAX, else OVERFLOW (`42_poly.md` R260). -/
def representable (c : Ctx) (p : Poly) : Run Poly :=
  match Poly.deg p with
  | none => .ok p
  | some deg => if c.tMax < deg then raise (.overflow deg) else .ok p

/-! ## Reads (`00_scope.md` R13)

The rule of a command reads every memory element its **Reads** name before its first check, so that
the command stops with the fault `unwritten` exactly when one of them holds no value (log 7). CHKPERM
alone reads up to its first repeat (`40_control.md` R202). -/

/-- All n elements of L (`43_keyside.md` R302, R304; `44_decode.md` R348). -/
def readSupport (c : Ctx) (d : Data) : Run (List Elem) := collect c.code.n (readElem d .L)

/-- All n entries of SWP (`43_keyside.md` R308). -/
def readSwaps (c : Ctx) (d : Data) : Run (List Elem) := collect c.code.n (readElem d .SWP)

/-! ## Table entries -/

/-- Pre-syndrome table entry i (`42_poly.md` R269): the sum over j < t of PST(i, j)·z^j. -/
def readPst (c : Ctx) (d : Data) (i : Nat) : Run Poly := do
  let cs ← collect c.code.t (fun j => readElem d .PST (i * c.code.t + j))
  .ok (Poly.ofCoeffs cs)

/-- The entries of an index table in ascending order, up to the first that repeats an earlier one:
PERM(i) there (`40_control.md` R202). -/
def readPermFrom (d : Data) (id : ElemMem) : Nat → Nat → List Elem → Run (List Elem)
  | 0, _, seen => .ok seen.reverse
  | cnt + 1, i, seen => do
    let v ← readElem d id i
    if v ∈ seen then raise (.perm i) else readPermFrom d id cnt (i + 1) (v :: seen)

/-- An index table of n distinct entries, or PERM. -/
def readPerm (c : Ctx) (d : Data) (id : ElemMem) : Run (List Elem) :=
  readPermFrom d id c.code.n 0 []

/-- The memory CHKPERM's operand names (`40_control.md` R202). -/
def tableMem : Table → ElemMem
  | .pidx => .PIDX
  | .swp => .SWP

/-! ## Port words (`20_memory.md` R104, R110) -/

/-- The memory MSEL selects (`20_memory.md` R104). -/
def memOfSel (sel : BitVec 4) : Option MemId :=
  match sel.toNat with
  | 0 => some (.elem .L)
  | 1 => some (.elem .PST)
  | 2 => some (.elem .PIDX)
  | 3 => some (.elem .SWP)
  | 4 => some (.bit .H)
  | 5 => some (.bit .G)
  | 6 => some (.bit .SINV)
  | 7 => some (.bit .C)
  | 8 => some (.bit .W)
  | 9 => some (.bit .E)
  | 10 => some (.bit .MC)
  | 11 => some (.bit .M)
  | _ => none

/-- Words in a row of `cols` bits (`00_scope.md` R7: NW, KW). -/
def rowWords (cols : Nat) : Nat := (cols + 31) / 32

/-- The logical size of a memory in words (`20_memory.md` R104). -/
def Code.wordCount (c : Code) : MemId → Nat
  | .elem id => c.elemCount id
  | .bit id => c.rows id * rowWords (c.cols id)

/-- The number of the element at bit 0 of word i of a memory of bits (`20_memory.md` R104; log 15). -/
def Code.wordBase (c : Code) (id : BitMem) (i : Nat) : Nat :=
  i / rowWords (c.cols id) * c.cols id + 32 * (i % rowWords (c.cols id))

/-- How many bits of word i of a memory of bits are storage (`20_memory.md` R110). -/
def Code.wordBits (c : Code) (id : BitMem) (i : Nat) : Nat :=
  min 32 (c.cols id - 32 * (i % rowWords (c.cols id)))

/-- The word whose bits are the given ones, bit 0 first, and 0 above. -/
def wordOfBits : List Bool → Word
  | [] => 0#32
  | b :: bs => (wordOfBits bs <<< 1) ||| (if b then 1#32 else 0#32)

/-- The low `cnt` bits of a word, bit 0 first. -/
def bitsOfWord (w : Word) (cnt : Nat) : List Bool := (List.range cnt).map w.getLsbD

/-- Word i of a memory, as the memory port reads it (`20_memory.md` R105). -/
def readPortWord (c : Code) (d : Data) (id : MemId) (i : Nat) : Run Word :=
  match id with
  | .elem e => do
    let v ← readElem d e i
    .ok (v.setWidth 32)
  | .bit b => do
    let bs ← collect (c.wordBits b i) (fun j => readBit d b (c.wordBase b i + j))
    .ok (wordOfBits bs)

/-- The data with word i of a memory written by the memory port (`20_memory.md` R107, R109). -/
def writePortWord (c : Code) (d : Data) (id : MemId) (i : Nat) (w : Word) : Data :=
  match id with
  | .elem e =>
    d.withElem e ((d.mems.elem e).write i (maskElem c.m (w.setWidth 16)))
  | .bit b =>
    d.withBit b ((d.mems.bit b).writeRange (c.wordBase b i) (bitsOfWord w (c.wordBits b i)))

/-! ## The polynomial register a PSEL value selects (`10_state.md` R49) -/

/-- The selected polynomial register, `none` for PSEL 9 to 15. -/
def Data.polyAt (d : Data) (sel : BitVec 4) : Option Poly :=
  if sel.toNat < 8 then some (d.p.get (Fin.ofNat 8 sel.toNat))
  else if sel.toNat = 8 then some d.gp
  else none

/-- The data with the selected polynomial register replaced. -/
def Data.setPolyAt (d : Data) (sel : BitVec 4) (p : Poly) : Data :=
  if sel.toNat < 8 then d.setP (Fin.ofNat 8 sel.toNat) p
  else if sel.toNat = 8 then { d with gp := p }
  else d

end Sys2Proof.Machine
end

