-- ==== Sys2Proof/Machine/Flags.lean ====
section
/-! DEFINITION. The block's flags (`10_state.md` R59): the STATUS bits, DSTAT, the saturating counter,
and the interrupt output (`60_exceptions.md` R410). -/

namespace Sys2Proof.Machine

/-- A flag as a word with that bit at position i. -/
def flagBit (b : Bool) (i : Nat) : Word := if b then 1#32 <<< i else 0#32

/-- STATUS.BUSY (`10_state.md` R34). -/
def State.busy (s : State) : Bool := s.engine.isSome

/-- STATUS.CFG_OK (`10_state.md` R34). -/
def State.cfgOk (s : State) : Bool := s.data.cfg.isSome

/-- The STATUS register as read (`10_state.md` R34). -/
def State.statusWord (s : State) : Word :=
  flagBit s.busy 0 ||| flagBit s.done 1 ||| flagBit s.err 2 ||| flagBit s.cfgOk 3 |||
    flagBit s.aerr 4 ||| flagBit s.berr 5 ||| flagBit s.rej 6

/-- A write of w to STATUS (`10_state.md` R34): a 1 in a W1C bit clears it. The ERR part is the release
of the error lock (`60_exceptions.md` R405). -/
def State.clearStatus (s : State) (w : Word) : State :=
  let s := if w.getLsbD 2 then s.releaseError else s
  { s with done := s.done && !w.getLsbD 1
           aerr := s.aerr && !w.getLsbD 4
           berr := s.berr && !w.getLsbD 5
           rej := s.rej && !w.getLsbD 6 }

/-- The IE register as read (`10_state.md` R35). -/
def State.ieWord (s : State) : Word := flagBit s.doneIE 0 ||| flagBit s.errIE 1

/-- The interrupt output (`60_exceptions.md` R410); 0 while rst_n is 0 (`70_reset_and_hazards.md`
R450). -/
def State.irq (s : State) : Bool := s.rstN && (s.done && s.doneIE || s.err && s.errIE)

/-- The DSTAT register as read (`10_state.md` R43). -/
def Data.dstatWord (d : Data) : Word := (d.iter.setWidth 32 <<< 16) ||| d.degen.setWidth 32

/-- The elimination count as DSTAT.ITER stores it: saturating at 0xFFFF (`10_state.md` R43). -/
def iterField (it : Nat) : BitVec 16 := BitVec.ofNat 16 (min it 0xFFFF)

/-- The ERRCODE register as read (`10_state.md` R38). -/
def ErrCode.word (e : ErrCode) : Word :=
  e.code.setWidth 32 ||| (e.opc.setWidth 32 <<< 8) ||| (e.sub.setWidth 32 <<< 14)

/-- The HWCFG register as read (`10_state.md` R32). -/
def hwcfgWord (h : Synth) : Word :=
  (BitVec.ofNat 5 h.mMax).setWidth 32 ||| ((BitVec.ofNat 11 h.tMax).setWidth 32 <<< 5)

/-- The PARAM register of a configuration (`10_state.md` R40). -/
def Code.paramWord (c : Code) : Word :=
  (BitVec.ofNat 5 c.m).setWidth 32 ||| ((BitVec.ofNat 11 c.t).setWidth 32 <<< 5)

/-- A register that reads 0 while CFG_OK = 0 (`10_state.md` R40). -/
def Data.whenConfigured (d : Data) (view : Code → Word) : Word :=
  match d.cfg with
  | some c => view c
  | none => 0#32

end Sys2Proof.Machine
end

