-- ==== Sys2Proof/Machine/Control.lean ====
section
/-! DEFINITION. The control commands NOP, CONFIG, CHKPERM (`40_control.md` R200–R202). -/

namespace Sys2Proof.Machine

/-- NOP (`40_control.md` R200): commit, with no configuration needed. -/
def execNop (s : State) : Host.Outcome State Fault Refusal := s.finish (.ok s.work)

/-- The data after a CONFIG that changes the configuration (`40_control.md` R201): the register files
and counters are cleared and every data-memory element becomes unwritten. -/
def Data.wiped (d : Data) (c : Code) : Data :=
  { d with cfg := some c, degen := 0#2, iter := 0#16, rootcnt := 0#17, swapcnt := 0#17,
           f := .all 0#16, p := .all [], gp := [], mems := .unwritten }

/-- The rule of CONFIG (`40_control.md` R201). A CONFIG that repeats the current (m, t) changes
nothing. -/
def configRule (hw : Synth) (m t : Nat) (d : Data) : Run Data :=
  let imm := t * 32 + m
  if ¬(2 ≤ m ∧ m ≤ hw.mMax) then raise (.param imm)
  else if ¬(2 ≤ t ∧ t ≤ hw.tMax) then raise (.param imm)
  else if 2 ^ m ≤ m * t then raise (.param imm)
  else if d.fmod >>> m ≠ 1#17 then raise (.param imm)
  else if d.cfg = some { m := m, t := t } then .ok d
  else .ok (d.wiped { m := m, t := t })

/-- CONFIG (`40_control.md` R201), exempt from the NOCONFIG checks (R203). -/
def execConfig (m t : Nat) (s : State) : Host.Outcome State Fault Refusal :=
  s.finish (configRule s.hw m t s.work)

/-- CHKPERM (`40_control.md` R202): every entry of the table is distinct, or PERM. -/
def execChkperm (tab : Table) (s : State) : Host.Outcome State Fault Refusal :=
  runCommand (fun c d => do
    let _ ← readPerm c d (tableMem tab)
    .ok d) s

end Sys2Proof.Machine
end

