-- ==== Sys2Proof/Machine/DecodeCmds.lean ====
section
/-! DEFINITION. The decode commands: Patterson decoding (`44_decode.md` R340–R354). Each step's rule is
shared by its own command and by DECODE. -/

namespace Sys2Proof.Machine

/-- The Reads of PERMC (`44_decode.md` R340): C[PIDX[j]] for every j. -/
def readPermuted (c : Ctx) (d : Data) : Run (List Bool) :=
  collect c.code.n fun j => do
    let i ← readElem d .PIDX j
    readBit d .C i.toNat

/-- The rule of PERMC (`44_decode.md` R340): W[j] ← C[PIDX[j]]. -/
def permcRule (c : Ctx) (d : Data) : Run Data := do
  let w ← readPermuted c d
  if d.clen.toNat ≠ c.code.n then raise (.malformed d.clen) else .ok (d.fillBit .W w)

/-- PERMC (`44_decode.md` R340). -/
def execPermc (s : State) : Host.Outcome State Fault Refusal := runCommand permcRule s

/-- Position i's part of the syndrome: PST[i] where W[i] = 1. -/
def syndromePart (c : Ctx) (d : Data) (i : Nat) : Run Poly := do
  let w ← readBit d .W i
  if w then readPst c d i else .ok []

/-- The Reads of SYND (`44_decode.md` R342): the parts of the syndrome. -/
def readSyndromeParts (c : Ctx) (d : Data) : Run (List Poly) := collect c.code.n (syndromePart c d)

/-- The rule of SYND (`44_decode.md` R342). -/
def syndRule (c : Ctx) (d : Data) : Run Data := do
  let parts ← readSyndromeParts c d
  .ok (d.setP 0 (parts.foldl Poly.add []))

/-- SYND (`44_decode.md` R342). -/
def execSynd (s : State) : Host.Outcome State Fault Refusal := runCommand syndRule s

/-- LOCATOR's degenerate end (`44_decode.md` R344): P1–P6 ← 0, P7 ← z, DEGEN as given, ITER ← 0. -/
def Data.degenerate (d : Data) (why : BitVec 2) : Data :=
  { d with p := { r0 := d.p.r0, r1 := [], r2 := [], r3 := [], r4 := [], r5 := [], r6 := [],
                  r7 := Poly.z }
           degen := why
           iter := 0#16 }

/-- σ = α² + z·γ² (`44_decode.md` R344). -/
def sigmaOf (k : GF) (alpha gamma : Poly) : Poly :=
  Poly.add (Poly.mul k alpha alpha) (Poly.shift 1 (Poly.mul k gamma gamma))

/-- The rule of LOCATOR (`44_decode.md` R344). -/
def locatorRule (c : Ctx) (d : Data) : Run Data := do
  let g ← gcheck c d
  let syn ← polyMod c.gf (d.p.get 0) g
  if syn = [] then .ok (d.degenerate 1#2)
  else do
    let inv ← invmod c.gf syn g
    let t ← polyMod c.gf (Poly.add inv Poly.z) g
    if t = [] then .ok (d.degenerate 2#2)
    else do
      let tau ← sqrtmod c.gf c.code.t t g
      let ke ← keyeq c.gf c.code.t tau g
      let sigma ← representable c (sigmaOf c.gf ke.r1 ke.u1)
      .ok { d with p := { r0 := d.p.r0, r1 := t, r2 := tau, r3 := ke.r1, r4 := ke.u1, r5 := ke.r0,
                          r6 := ke.u0, r7 := sigma }
                   degen := 0#2
                   iter := iterField ke.it }

/-- LOCATOR (`44_decode.md` R344). -/
def execLocator (s : State) : Host.Outcome State Fault Refusal := runCommand locatorRule s

/-- KEYEQ (`44_decode.md` R346). -/
def execKeyeq (s : State) : Host.Outcome State Fault Refusal :=
  runCommand (fun c d => do
    let g ← gcheck c d
    let ke ← keyeq c.gf c.code.t (d.p.get 2) g
    .ok { d with p := { d.p with r3 := ke.r1, r4 := ke.u1, r5 := ke.r0, r6 := ke.u0 }
                 iter := iterField ke.it }) s

/-- Position i for ROOTS: whether L[i] is a root of σ, and W[i]. -/
def rootAt (c : Ctx) (d : Data) (i : Nat) : Run (Bool × Bool) := do
  let x ← readElem d .L i
  let w ← readBit d .W i
  .ok (decide (Poly.eval c.gf (d.p.get 7) x = 0#16), w)

/-- The rule of ROOTS (`44_decode.md` R348): E[i] ← root, W[i] ← W[i] ⊕ E[i], ROOTCNT ← the count. -/
def rootsRule (c : Ctx) (d : Data) : Run Data := do
  let ews ← collect c.code.n (rootAt c d)
  let e := ews.map Prod.fst
  let d := d.fillBit .E e
  let d := d.fillBit .W (ews.map fun ew => ew.2 ^^ ew.1)
  .ok { d with rootcnt := BitVec.ofNat 17 (e.count true) }

/-- ROOTS (`44_decode.md` R348). -/
def execRoots (s : State) : Host.Outcome State Fault Refusal := runCommand rootsRule s

/-- The Reads of EXTRACT (`44_decode.md` R350): W[SWP[mt + r]] for every r. -/
def readMessage (c : Ctx) (d : Data) : Run (List Bool) :=
  collect c.code.k fun r => do
    let i ← readElem d .SWP (c.code.mt + r)
    readBit d .W i.toNat

/-- The rule of EXTRACT (`44_decode.md` R350): MC[r] ← W[SWP[mt + r]]. -/
def extractRule (c : Ctx) (d : Data) : Run Data := do
  let mc ← readMessage c d
  .ok (d.fillBit .MC mc)

/-- EXTRACT (`44_decode.md` R350). -/
def execExtract (s : State) : Host.Outcome State Fault Refusal := runCommand extractRule s

/-- The XOR of the bits of a list. -/
def xorAll : List Bool → Bool
  | [] => false
  | b :: bs => b ^^ xorAll bs

/-- Bit j of mcar · S⁻¹ (`44_decode.md` R352). -/
def unscrambledBit (c : Ctx) (d : Data) (j : Nat) : Run Bool := do
  let ps ← collect c.code.k fun r => do
    let a ← readBit d .MC r
    let b ← readBit d .SINV (r * c.code.k + j)
    .ok (a && b)
  .ok (xorAll ps)

/-- The rule of UNSCR (`44_decode.md` R352). -/
def unscrRule (c : Ctx) (d : Data) : Run Data := do
  let m ← collect c.code.k (unscrambledBit c d)
  .ok (d.fillBit .M m)

/-- UNSCR (`44_decode.md` R352). -/
def execUnscr (s : State) : Host.Outcome State Fault Refusal := runCommand unscrRule s

/-! ## DECODE (`44_decode.md` R354) -/

/-- A step's result inside DECODE: an error carries the sub-step's number. -/
def inSubStep {α : Type} (sub : Nat) (r : Run α) : Run α :=
  match r with
  | .error (.raised _ e) => .error (.raised sub e)
  | r => r

/-- The Reads of DECODE (`44_decode.md` R354): the union of the Reads of its steps, less what its own
steps write (`70_reset_and_hazards.md` R456): W, written by PERMC's step, and MC, by EXTRACT's. -/
def readDecode (c : Ctx) (d : Data) : Run Unit := do
  let w ← readPermuted c d
  let d := d.fillBit .W w
  let _ ← readSyndromeParts c d
  let _ ← readSupport c d
  let _ ← readMessage c d
  let _ ← collect (c.code.k * c.code.k) (readBit d .SINV)
  .ok ()

/-- Sub-step `sub`, 1 to 6, of DECODE (`10_state.md` R38, `44_decode.md` R354). The first one reads
everything DECODE reads (`00_scope.md` R13, log 7). -/
def decodeStep (sub : Nat) (c : Ctx) (d : Data) : Run Data :=
  inSubStep sub
    (match sub with
     | 1 => do
       readDecode c d
       permcRule c d
     | 2 => syndRule c d
     | 3 => locatorRule c d
     | 4 => rootsRule c d
     | 5 => extractRule c d
     | 6 => unscrRule c d
     | _ => .ok d)

/-- `cnt` sub-steps of DECODE after the first `from_` of them. -/
def decodeSteps (c : Ctx) : Nat → Nat → Data → Run Data
  | 0, _, d => .ok d
  | cnt + 1, from_, d => do
    let d' ← decodeStep (from_ + 1) c d
    decodeSteps c cnt (from_ + 1) d'

/-- DECODE (`44_decode.md` R354): the sub-steps that have not yet run on the working copy (all six,
unless the engine has advanced, log 4), then one commit. -/
def execDecode (s : State) : Host.Outcome State Fault Refusal :=
  runCommand (fun c d => decodeSteps c (6 - s.sub) s.sub d) s

end Sys2Proof.Machine
end

