-- ==== Sys2Proof/Machine/FieldCmds.lean ====
section
/-! DEFINITION. The field-element commands (`41_field.md` R234–R239). Sources are read before the
destination is written. -/

namespace Sys2Proof.Machine

/-- FLDI (`41_field.md` R234). -/
def execFldi (fd : RegIx) (imm : Nat) (s : State) : Host.Outcome State Fault Refusal :=
  runCommand (fun c d => do
    let v ← elemImm c imm
    .ok (d.setF fd v)) s

/-- FADD (`41_field.md` R235). -/
def execFadd (fd fa fb : RegIx) (s : State) : Host.Outcome State Fault Refusal :=
  runCommand (fun _ d => .ok (d.setF fd (fieldAdd (d.f.get fa) (d.f.get fb)))) s

/-- FMUL (`41_field.md` R236). -/
def execFmul (fd fa fb : RegIx) (s : State) : Host.Outcome State Fault Refusal :=
  runCommand (fun c d => .ok (d.setF fd (c.gf.mul (d.f.get fa) (d.f.get fb)))) s

/-- FINV (`41_field.md` R237). -/
def execFinv (fd fa : RegIx) (s : State) : Host.Outcome State Fault Refusal :=
  runCommand (fun c d => do
    let v ← c.gf.inv (d.f.get fa)
    .ok (d.setF fd v)) s

/-- FPOW (`41_field.md` R238). -/
def execFpow (fd fa : RegIx) (imm : Nat) (s : State) : Host.Outcome State Fault Refusal :=
  runCommand (fun c d => .ok (d.setF fd (c.gf.pow (d.f.get fa) imm))) s

/-- FLDL (`41_field.md` R239). -/
def execFldl (fd : RegIx) (imm : Nat) (s : State) : Host.Outcome State Fault Refusal :=
  runCommand (fun c d => do
    let i ← supportImm c imm
    let v ← readElem d .L i
    .ok (d.setF fd v)) s

end Sys2Proof.Machine
end

