-- ==== Sys2Proof/Machine/KeySide.lean ====
section
/-! DEFINITION. The key-side commands (`43_keyside.md` R300–R310). -/

namespace Sys2Proof.Machine

/-! ## LGEN (`43_keyside.md` R300) -/

/-- `cnt` values x, a ⊗ x, a ⊗ (a ⊗ x), …. -/
def powersFrom (k : GF) (a : Elem) : Nat → Elem → List Elem
  | 0, _ => []
  | cnt + 1, x => x :: powersFrom k a cnt (k.mul a x)

/-- L' = (0, a, a ⊗ a, …), n elements. -/
def supportOf (k : GF) (a : Elem) (n : Nat) : List Elem := 0#16 :: powersFrom k a (n - 1) a

/-- The smallest position, counted from i, at which the list repeats a value seen before. -/
def firstRepeat : List Elem → List Elem → Nat → Option Nat
  | [], _, _ => none
  | v :: vs, seen, i => if v ∈ seen then some i else firstRepeat vs (v :: seen) (i + 1)

/-- LGEN (`43_keyside.md` R300). -/
def execLgen (fa : RegIx) (s : State) : Host.Outcome State Fault Refusal :=
  runCommand (fun c d =>
    let l := supportOf c.gf (d.f.get fa) c.code.n
    match firstRepeat l [] 0 with
    | some i => raise (.field i)
    | none => .ok (d.fillElem .L l)) s

/-! ## PSTGEN (`43_keyside.md` R302) -/

/-- The t coefficients of (z + x)⁻¹ mod g for x = L[i], or GOPPA(i). -/
def pstEntry (c : Ctx) (g : Poly) (i : Nat) (x : Elem) : Run (List Elem) :=
  if Poly.eval c.gf g x = 0#16 then raise (.goppa i)
  else do
    let p ← invmod c.gf (Poly.ofCoeffs [x, 1#16]) g
    .ok (Poly.toCoeffs p c.code.t)

/-- PSTGEN (`43_keyside.md` R302). -/
def execPstgen (s : State) : Host.Outcome State Fault Refusal :=
  runCommand (fun c d => do
    let l ← readSupport c d
    let g ← gcheck c d
    let entries ← collect c.code.n (fun i => pstEntry c g i (l.getD i 0#16))
    .ok (d.fillElem .PST entries.flatten)) s

/-! ## HGEN (`43_keyside.md` R304) -/

/-- Column j of H as its t field elements g(x)⁻¹ ⊗ x^i for x = L[j], or GOPPA(j). -/
def hColumn (c : Ctx) (g : Poly) (j : Nat) (x : Elem) : Run (List Elem) :=
  let y := Poly.eval c.gf g x
  if y = 0#16 then raise (.goppa j)
  else do
    let v ← c.gf.inv y
    .ok ((List.range c.code.t).map fun i => c.gf.mul v (c.gf.pow x i))

/-- The bits of H, row by row: bit b of element i of column j stands at row i·m + b. -/
def hBits (c : Code) (columns : List (List Elem)) : List Bool :=
  (List.range c.mt).flatMap fun r => columns.map fun col => (col.getD (r / c.m) 0#16).getLsbD (r % c.m)

/-- HGEN (`43_keyside.md` R304). -/
def execHgen (s : State) : Host.Outcome State Fault Refusal :=
  runCommand (fun c d => do
    let l ← readSupport c d
    let g ← gcheck c d
    let columns ← collect c.code.n (fun j => hColumn c g j (l.getD j 0#16))
    .ok (d.fillBit .H (hBits c.code columns))) s

/-! ## SYSFORM (`43_keyside.md` R306) -/

/-- The bits of a matrix with `cols` columns, row by row. -/
structure BitMatrix where
  cols : Nat
  bits : List Bool
deriving DecidableEq, Repr

/-- The bit at row r, column c. -/
def BitMatrix.at (h : BitMatrix) (r c : Nat) : Bool := h.bits.getD (r * h.cols + c) false

/-- Column c, restricted to the first `rows` rows, is the unit column e_j. -/
def BitMatrix.unitColumn (h : BitMatrix) (rows j c : Nat) : Bool :=
  (List.range rows).all fun r => h.at r c == decide (r = j)

/-- The list with the values at positions i and j exchanged. -/
def swapAt (s : List Nat) (i j : Nat) : List Nat :=
  (s.set i (s.getD j 0)).set j (s.getD i 0)

/-- The swaps for the rows in `js`, in order: row j is left alone when its diagonal is 1; otherwise
the first later position that holds the unit column e_j is swapped in, or KEYGEN(j). -/
def sysformSwaps (h : BitMatrix) (mt : Nat) : List Nat → List Nat → Nat → Run (List Nat × Nat)
  | [], s, cnt => .ok (s, cnt)
  | j :: js, s, cnt =>
    if h.at j (s.getD j 0) then sysformSwaps h mt js s cnt
    else
      match (List.range h.cols).find? fun c => decide (j < c) && h.unitColumn mt j (s.getD c 0) with
      | none => raise (.keygenRow j)
      | some c => sysformSwaps h mt js (swapAt s j c) (cnt + 1)

/-- The rule of SYSFORM. All of H is read first (`00_scope.md` R13, log 7); the first mt columns of the swapped view are
then verified in order. -/
def sysformRule (c : Ctx) (d : Data) : Run Data := do
  let bits ← collect (c.code.mt * c.code.n) (readBit d .H)
  let h : BitMatrix := { cols := c.code.n, bits := bits }
  let sc ← sysformSwaps h c.code.mt (List.range c.code.mt) (List.range c.code.n) 0
  match (List.range c.code.mt).find? fun j => !h.unitColumn c.code.mt j (sc.1.getD j 0) with
  | some j => raise (.keygenColumn j)
  | none =>
    .ok { d.fillElem .SWP (sc.1.map (BitVec.ofNat 16)) with swapcnt := BitVec.ofNat 17 sc.2 }

/-- SYSFORM (`43_keyside.md` R306). -/
def execSysform (s : State) : Host.Outcome State Fault Refusal := runCommand sysformRule s

/-! ## GEXTRACT (`43_keyside.md` R308) -/

/-- The R' block of H, H[0 … mt−1][SWP[mt … n−1]], as its transpose R: position r·mt + j of the list is
H[j][SWP[mt + r]]. -/
def readBlock (c : Code) (d : Data) (swp : List Elem) : Run (List Bool) :=
  collect (c.k * c.mt) fun x =>
    readBit d .H (x % c.mt * c.n + (swp.getD (c.mt + x / c.mt) 0#16).toNat)

/-- Bit j of row r of the generator in the swapped frame: R in the first mt columns, the identity
behind. -/
def gsBit (c : Code) (block : List Bool) (r j : Nat) : Bool :=
  if j < c.mt then block.getD (r * c.mt + j) false else decide (j - c.mt = r)

/-- The elements of G with their values: G[r][SWP[j]] is bit j of row r of the swapped frame. Position
x of the list is (r, j) = (x / n, x % n). -/
def gCells (c : Code) (swp : List Elem) (block : List Bool) : List (Nat × Bool) :=
  (List.range (c.k * c.n)).map fun x =>
    (x / c.n * c.n + (swp.getD (x % c.n) 0#16).toNat, gsBit c block (x / c.n) (x % c.n))

/-- GEXTRACT (`43_keyside.md` R308). -/
def execGextract (s : State) : Host.Outcome State Fault Refusal :=
  runCommand (fun c d => do
    let swp ← readSwaps c d
    let block ← readBlock c.code d swp
    match firstRepeat swp [] 0 with
    | some i => raise (.perm i)
    | none => .ok (d.withBit .G (d.mems.g.writeAll (gCells c.code swp block)))) s

end Sys2Proof.Machine
end

