-- ==== Sys2Proof/Machine/PolyCmds.lean ====
section
/-! DEFINITION. The polynomial commands (`42_poly.md` R266–R285). Sources are read before the
destination is written. -/

namespace Sys2Proof.Machine

/-- PCLR (`42_poly.md` R266). -/
def execPclr (pd : RegIx) (s : State) : Host.Outcome State Fault Refusal :=
  runCommand (fun _ d => .ok (d.setP pd [])) s

/-- PMOV (`42_poly.md` R267). -/
def execPmov (pd pa : RegIx) (s : State) : Host.Outcome State Fault Refusal :=
  runCommand (fun _ d => .ok (d.setP pd (d.p.get pa))) s

/-- PLDG (`42_poly.md` R268). -/
def execPldg (pd : RegIx) (s : State) : Host.Outcome State Fault Refusal :=
  runCommand (fun c d => do
    let g ← gcheck c d
    .ok (d.setP pd g)) s

/-- PLDT (`42_poly.md` R269). -/
def execPldt (pd : RegIx) (imm : Nat) (s : State) : Host.Outcome State Fault Refusal :=
  runCommand (fun c d => do
    let i ← supportImm c imm
    let p ← readPst c d i
    .ok (d.setP pd p)) s

/-- PCONST (`42_poly.md` R270). -/
def execPconst (pd fa : RegIx) (s : State) : Host.Outcome State Fault Refusal :=
  runCommand (fun _ d => .ok (d.setP pd (Poly.const (d.f.get fa)))) s

/-- PSETC (`42_poly.md` R271). -/
def execPsetc (pd fa : RegIx) (imm : Nat) (s : State) : Host.Outcome State Fault Refusal :=
  runCommand (fun c d => do
    let j ← coeffImm c imm
    .ok (d.setP pd (Poly.setCoeff (d.p.get pd) j (d.f.get fa)))) s

/-- PGETC (`42_poly.md` R272). -/
def execPgetc (fd pa : RegIx) (imm : Nat) (s : State) : Host.Outcome State Fault Refusal :=
  runCommand (fun c d => do
    let j ← coeffImm c imm
    .ok (d.setF fd (Poly.coeff (d.p.get pa) j))) s

/-- PADD (`42_poly.md` R273). -/
def execPadd (pd pa pb : RegIx) (s : State) : Host.Outcome State Fault Refusal :=
  runCommand (fun _ d => .ok (d.setP pd (Poly.add (d.p.get pa) (d.p.get pb)))) s

/-- PMUL (`42_poly.md` R274). -/
def execPmul (pd pa pb : RegIx) (s : State) : Host.Outcome State Fault Refusal :=
  runCommand (fun c d => do
    let p ← representable c (Poly.mul c.gf (d.p.get pa) (d.p.get pb))
    .ok (d.setP pd p)) s

/-- PMULM (`42_poly.md` R275): the product is exact and never checked against T_MAX. -/
def execPmulm (pd pa pb : RegIx) (s : State) : Host.Outcome State Fault Refusal :=
  runCommand (fun c d => do
    let g ← gcheck c d
    let p ← polyMod c.gf (Poly.mul c.gf (d.p.get pa) (d.p.get pb)) g
    .ok (d.setP pd p)) s

/-- PMOD (`42_poly.md` R276). -/
def execPmod (pd pa : RegIx) (s : State) : Host.Outcome State Fault Refusal :=
  runCommand (fun c d => do
    let g ← gcheck c d
    let p ← polyMod c.gf (d.p.get pa) g
    .ok (d.setP pd p)) s

/-- PDIVQ (`42_poly.md` R277). -/
def execPdivq (pd pa pb : RegIx) (s : State) : Host.Outcome State Fault Refusal :=
  runCommand (fun c d => do
    let qr ← divmod c.gf (d.p.get pa) (d.p.get pb)
    .ok (d.setP pd qr.1)) s

/-- PDIVR (`42_poly.md` R278). -/
def execPdivr (pd pa pb : RegIx) (s : State) : Host.Outcome State Fault Refusal :=
  runCommand (fun c d => do
    let qr ← divmod c.gf (d.p.get pa) (d.p.get pb)
    .ok (d.setP pd qr.2)) s

/-- PINVM (`42_poly.md` R279). -/
def execPinvm (pd pa : RegIx) (s : State) : Host.Outcome State Fault Refusal :=
  runCommand (fun c d => do
    let g ← gcheck c d
    let p ← invmod c.gf (d.p.get pa) g
    .ok (d.setP pd p)) s

/-- PSQRM (`42_poly.md` R280). -/
def execPsqrm (pd pa : RegIx) (s : State) : Host.Outcome State Fault Refusal :=
  runCommand (fun c d => do
    let g ← gcheck c d
    let p ← polyMod c.gf (Poly.mul c.gf (d.p.get pa) (d.p.get pa)) g
    .ok (d.setP pd p)) s

/-- PSQRT (`42_poly.md` R281). -/
def execPsqrt (pd pa : RegIx) (s : State) : Host.Outcome State Fault Refusal :=
  runCommand (fun c d => do
    let g ← gcheck c d
    let p ← sqrtmod c.gf c.code.t (d.p.get pa) g
    .ok (d.setP pd p)) s

/-- p · z^s where it is representable, else OVERFLOW(deg p + s); the zero polynomial gives 0 for any
s (`42_poly.md` R282). -/
def shiftChecked (c : Ctx) (p : Poly) (s : Nat) : Run Poly :=
  match Poly.deg p with
  | none => .ok p
  | some deg => if c.tMax < deg + s then raise (.overflow (deg + s)) else .ok (Poly.shift s p)

/-- PSHL (`42_poly.md` R282). -/
def execPshl (pd pa : RegIx) (imm : Nat) (s : State) : Host.Outcome State Fault Refusal :=
  runCommand (fun c d => do
    let p ← shiftChecked c (d.p.get pa) imm
    .ok (d.setP pd p)) s

/-- PSCL (`42_poly.md` R283). -/
def execPscl (pd pa fb : RegIx) (s : State) : Host.Outcome State Fault Refusal :=
  runCommand (fun c d => .ok (d.setP pd (Poly.scale c.gf (d.f.get fb) (d.p.get pa)))) s

/-- PEVAL (`42_poly.md` R284). -/
def execPeval (fd pa fb : RegIx) (s : State) : Host.Outcome State Fault Refusal :=
  runCommand (fun c d => .ok (d.setF fd (Poly.eval c.gf (d.p.get pa) (d.f.get fb)))) s

/-- PSETG (`42_poly.md` R285): no check of the degree. -/
def execPsetg (pa : RegIx) (s : State) : Host.Outcome State Fault Refusal :=
  runCommand (fun _ d => .ok { d with gp := d.p.get pa }) s

end Sys2Proof.Machine
end

