-- ==== Sys2Proof/Machine/Dispatch.lean ====
section
/-! DEFINITION. The dispatch: one meaning per command. -/

namespace Sys2Proof.Machine

def exec (i : Instr) (s : State) : Host.Outcome State Fault Refusal :=
  match i with
  | .nop => Sys2Proof.Machine.execNop s
  | .config m t => Sys2Proof.Machine.execConfig m t s
  | .chkperm tab => Sys2Proof.Machine.execChkperm tab s
  | .fldi fd imm => Sys2Proof.Machine.execFldi fd imm s
  | .fadd fd fa fb => Sys2Proof.Machine.execFadd fd fa fb s
  | .fmul fd fa fb => Sys2Proof.Machine.execFmul fd fa fb s
  | .finv fd fa => Sys2Proof.Machine.execFinv fd fa s
  | .fpow fd fa imm => Sys2Proof.Machine.execFpow fd fa imm s
  | .fldl fd imm => Sys2Proof.Machine.execFldl fd imm s
  | .pclr pd => Sys2Proof.Machine.execPclr pd s
  | .pmov pd pa => Sys2Proof.Machine.execPmov pd pa s
  | .pldg pd => Sys2Proof.Machine.execPldg pd s
  | .pldt pd imm => Sys2Proof.Machine.execPldt pd imm s
  | .pconst pd fa => Sys2Proof.Machine.execPconst pd fa s
  | .psetc pd fa imm => Sys2Proof.Machine.execPsetc pd fa imm s
  | .pgetc fd pa imm => Sys2Proof.Machine.execPgetc fd pa imm s
  | .padd pd pa pb => Sys2Proof.Machine.execPadd pd pa pb s
  | .pmul pd pa pb => Sys2Proof.Machine.execPmul pd pa pb s
  | .pmulm pd pa pb => Sys2Proof.Machine.execPmulm pd pa pb s
  | .pmod pd pa => Sys2Proof.Machine.execPmod pd pa s
  | .pdivq pd pa pb => Sys2Proof.Machine.execPdivq pd pa pb s
  | .pdivr pd pa pb => Sys2Proof.Machine.execPdivr pd pa pb s
  | .pinvm pd pa => Sys2Proof.Machine.execPinvm pd pa s
  | .psqrm pd pa => Sys2Proof.Machine.execPsqrm pd pa s
  | .psqrt pd pa => Sys2Proof.Machine.execPsqrt pd pa s
  | .pshl pd pa imm => Sys2Proof.Machine.execPshl pd pa imm s
  | .pscl pd pa fb => Sys2Proof.Machine.execPscl pd pa fb s
  | .peval fd pa fb => Sys2Proof.Machine.execPeval fd pa fb s
  | .psetg pa => Sys2Proof.Machine.execPsetg pa s
  | .permc => Sys2Proof.Machine.execPermc s
  | .synd => Sys2Proof.Machine.execSynd s
  | .locator => Sys2Proof.Machine.execLocator s
  | .keyeq => Sys2Proof.Machine.execKeyeq s
  | .roots => Sys2Proof.Machine.execRoots s
  | .extract => Sys2Proof.Machine.execExtract s
  | .unscr => Sys2Proof.Machine.execUnscr s
  | .decode => Sys2Proof.Machine.execDecode s
  | .lgen fa => Sys2Proof.Machine.execLgen fa s
  | .pstgen => Sys2Proof.Machine.execPstgen s
  | .hgen => Sys2Proof.Machine.execHgen s
  | .sysform => Sys2Proof.Machine.execSysform s
  | .gextract => Sys2Proof.Machine.execGextract s

end Sys2Proof.Machine
end

