-- ==== Sys2Proof/Machine/Port.lean ====
section
/-! DEFINITION. The host port (`20_memory.md` R100–R121): the register map, reads, writes, the memory
port, the polynomial port, the busy lockout and the soft reset. -/

namespace Sys2Proof.Machine

/-- The registers of the window (`10_state.md` R31–R53, R61). -/
inductive Reg
  | id | hwcfg | ctrl | status | ie | cmd | errcode | errinfo | param | nval | kval | fmod | clen
  | dstat | rootcnt | swapcnt | msel | midx | mdata | psel | pcidx | pcdata | pdeg
  | f (i : RegIx)
  | unmapped
deriving DecidableEq, Repr

/-- The register an offset reaches: bits [1:0] are ignored (`20_memory.md` R102). -/
def regAt (off : BitVec 12) : Reg :=
  match (off &&& 0xFFC#12).toNat with
  | 0x00 => .id
  | 0x04 => .hwcfg
  | 0x08 => .ctrl
  | 0x0C => .status
  | 0x10 => .ie
  | 0x14 => .cmd
  | 0x18 => .errcode
  | 0x1C => .errinfo
  | 0x20 => .param
  | 0x24 => .nval
  | 0x28 => .kval
  | 0x2C => .fmod
  | 0x30 => .clen
  | 0x34 => .dstat
  | 0x38 => .rootcnt
  | 0x3C => .swapcnt
  | 0x40 => .msel
  | 0x44 => .midx
  | 0x48 => .mdata
  | 0x50 => .psel
  | 0x54 => .pcidx
  | 0x58 => .pcdata
  | 0x5C => .pdeg
  | 0x60 => .f 0
  | 0x64 => .f 1
  | 0x68 => .f 2
  | 0x6C => .f 3
  | 0x70 => .f 4
  | 0x74 => .f 5
  | 0x78 => .f 6
  | 0x7C => .f 7
  | _ => .unmapped

/-- Reads of the register are refused while BUSY = 1 (`20_memory.md` R121). -/
def Reg.readLocked : Reg → Bool
  | .mdata | .pcdata | .pdeg | .f _ => true
  | .id | .hwcfg | .ctrl | .status | .ie | .cmd | .errcode | .errinfo | .param | .nval | .kval
  | .fmod | .clen | .dstat | .rootcnt | .swapcnt | .msel | .midx | .psel | .pcidx
  | .unmapped => false

/-- Writes of the register are refused while BUSY = 1 (`20_memory.md` R121). -/
def Reg.writeLocked : Reg → Bool
  | .cmd | .fmod | .clen | .msel | .midx | .mdata | .psel | .pcidx | .pcdata | .f _ => true
  | .id | .hwcfg | .ctrl | .status | .ie | .errcode | .errinfo | .param | .nval | .kval
  | .dstat | .rootcnt | .swapcnt | .pdeg | .unmapped => false

/-! ## Reads -/

/-- PDEG (`10_state.md` R52): the degree of the selected register, 0xFFFF for PSEL ≥ 9. -/
def State.pdegWord (s : State) : Word :=
  match s.data.polyAt s.psel with
  | some p => (degField (Poly.deg p)).setWidth 32
  | none => 0xFFFF#32

/-- The value of a register whose read has no side effect (`10_state.md` R31–R53, R61). The two data
windows have no value of their own; their reads are `readMdata` and `readPcdata`. -/
def State.regValue (s : State) : Reg → Word
  | .id => Config.idValue
  | .hwcfg => hwcfgWord s.hw
  | .ctrl => 0#32
  | .status => s.statusWord
  | .ie => s.ieWord
  | .cmd => s.cmd
  | .errcode => s.errcode.word
  | .errinfo => s.errinfo
  | .param => s.data.whenConfigured Code.paramWord
  | .nval => s.data.whenConfigured (fun c => BitVec.ofNat 32 c.n)
  | .kval => s.data.whenConfigured (fun c => BitVec.ofNat 32 c.k)
  | .fmod => s.data.fmod.setWidth 32
  | .clen => s.data.clen.setWidth 32
  | .dstat => s.data.dstatWord
  | .rootcnt => s.data.rootcnt.setWidth 32
  | .swapcnt => s.data.swapcnt.setWidth 32
  | .msel => s.msel.setWidth 32
  | .midx => s.midx.setWidth 32
  | .mdata => 0#32
  | .psel => s.psel.setWidth 32
  | .pcidx => s.pcidx.setWidth 32
  | .pcdata => 0#32
  | .pdeg => s.pdegWord
  | .f i => (s.data.f.get i).setWidth 32
  | .unmapped => 0#32

/-- The configuration and memory an MDATA access reaches, `none` when it is out of range
(`20_memory.md` R106). -/
def State.portTarget (s : State) : Option (Code × MemId) :=
  match s.data.cfg, memOfSel s.msel with
  | some c, some id => if s.midx.toNat < c.wordCount id then some (c, id) else none
  | _, _ => none

/-- The configuration and polynomial a PCDATA access reaches, `none` when it is out of range
(`20_memory.md` R108). -/
def State.polyTarget (s : State) : Option (Code × Poly) :=
  match s.data.cfg, s.data.polyAt s.psel with
  | some c, some p => if s.pcidx.toNat ≤ s.hw.tMax then some (c, p) else none
  | _, _ => none

/-- A read of MDATA (`20_memory.md` R105, R106). -/
def readMdata (s : State) : Host.Outcome State Fault Refusal :=
  match s.portTarget with
  | none => .next { s with aerr := true, midx := s.midx + 1#27, prdata := 0#32 }
  | some (c, id) =>
    match readPortWord c s.data id s.midx.toNat with
    | .ok w => .next { s with midx := s.midx + 1#27, prdata := w }
    | .error (.unwritten mem i) => .fault (.unwritten mem i)
    | .error (.raised _ _) => .next { s with midx := s.midx + 1#27, prdata := 0#32 }

/-- A read of PCDATA (`20_memory.md` R108). -/
def readPcdata (s : State) : State :=
  match s.polyTarget with
  | none => { s with aerr := true, pcidx := s.pcidx + 1#11, prdata := 0#32 }
  | some (_, p) =>
    { s with pcidx := s.pcidx + 1#11, prdata := (Poly.coeff p s.pcidx.toNat).setWidth 32 }

/-- `Read(off)` (`20_memory.md` R100, R113, R121; `70_reset_and_hazards.md` R450). -/
def hostRead (off : BitVec 12) (s : State) : Host.Outcome State Fault Refusal :=
  let r := regAt off
  if s.rstN = false then .next { s with prdata := 0#32 }
  else if s.busy && r.readLocked then .next { s with berr := true, prdata := 0#32 }
  else
    match r with
    | .mdata => readMdata s
    | .pcdata => .next (readPcdata s)
    | r => .next { s with prdata := s.regValue r }

/-! ## Writes -/

/-- The soft reset (`70_reset_and_hazards.md` R451): every piece of state takes its reset value; the
synthesis parameters, the level of rst_n and the model's own fields stay (log 17). -/
def State.softReset (s : State) : State :=
  { State.resetOf s.hw with rstN := s.rstN, prdata := s.prdata, events := s.events }

/-- A write of w to CMD while BUSY = 0 (`10_state.md` R37; `60_exceptions.md` R404). -/
def writeCmd (w : Word) (s : State) : State :=
  if s.err then { s with rej := true } else s.accept w

/-- A write of w to MDATA (`20_memory.md` R106, R107). -/
def writeMdata (w : Word) (s : State) : State :=
  match s.portTarget with
  | none => { s with aerr := true, midx := s.midx + 1#27 }
  | some (c, id) =>
    { s with data := writePortWord c s.data id s.midx.toNat w, midx := s.midx + 1#27 }

/-- A write of w to PCDATA (`20_memory.md` R108, R109). -/
def writePcdata (w : Word) (s : State) : State :=
  match s.polyTarget with
  | none => { s with aerr := true, pcidx := s.pcidx + 1#11 }
  | some (c, p) =>
    { s with
      data := s.data.setPolyAt s.psel
        (Poly.setCoeff p s.pcidx.toNat (maskElem c.m (w.setWidth 16)))
      pcidx := s.pcidx + 1#11 }

/-- The field element a host write of w to F0–F7 stores (`20_memory.md` R109): 0 while CFG_OK = 0. -/
def Data.hostElem (d : Data) (w : Word) : Elem :=
  match d.cfg with
  | some c => maskElem c.m (w.setWidth 16)
  | none => 0#16

/-- A write of w to a register, with no lockout. -/
def writeReg (r : Reg) (w : Word) (s : State) : State :=
  match r with
  | .ctrl => if w.getLsbD 0 then s.softReset else s
  | .status => s.clearStatus w
  | .ie => { s with doneIE := w.getLsbD 0, errIE := w.getLsbD 1 }
  | .cmd => writeCmd w s
  | .fmod => { s with data := { s.data with fmod := w.setWidth 17 } }
  | .clen => { s with data := { s.data with clen := w.setWidth 17 } }
  | .msel => { s with msel := w.setWidth 4 }
  | .midx => { s with midx := w.setWidth 27 }
  | .mdata => writeMdata w s
  | .psel => { s with psel := w.setWidth 4 }
  | .pcidx => { s with pcidx := w.setWidth 11 }
  | .pcdata => writePcdata w s
  | .f i => { s with data := s.data.setF i (s.data.hostElem w) }
  | .id | .hwcfg | .errcode | .errinfo | .param | .nval | .kval | .dstat | .rootcnt | .swapcnt
  | .pdeg | .unmapped => s

/-- `Write(off, w)` (`20_memory.md` R100, R121; `70_reset_and_hazards.md` R450). -/
def hostWrite (off : BitVec 12) (w : Word) (s : State) : State :=
  let r := regAt off
  if s.rstN = false then s
  else if s.busy && r.writeLocked then { s with berr := true }
  else writeReg r w s

/-! ## The reset input (`70_reset_and_hazards.md` R450; log 5) -/

/-- The hardware reset, with rst_n at the given level. -/
def State.hardReset (s : State) (level : Bool) : State :=
  { State.resetOf s.hw with rstN := level, prdata := s.prdata, events := s.events }

end Sys2Proof.Machine
end

