-- ==== Sys2Proof/Machine/Engine.lean ====
section
/-! DEFINITION. The engine and the order of events (`20_memory.md` R120): the completion of the busy
command, the progress of a DECODE, and what each event does. -/

namespace Sys2Proof.Machine

/-- The completion event of the busy command (`40_control.md` R203, R204): the accepted word, which
stands in CMD, is decoded and executed; a word no row selects is ILLEGAL. -/
def completeCommand (s : State) : Host.Outcome State Fault Refusal :=
  match decodeWord s.cmd with
  | .ok i => exec i s
  | .error _ => .next (s.takeError 0 (.illegal s.cmd))

/-- The rule of the next sub-step of DECODE on the working copy (`44_decode.md` R354). -/
def nextSubStep (s : State) : Run Data := do
  let c ← configured s.hw s.work
  decodeStep (s.sub + 1) c s.work

/-- The engine finishes the next sub-step of a busy DECODE on its working copy (`10_state.md` R36;
log 4). An error ends the command at once, in a completion event of its own. Without a DECODE that
has a sub-step left, nothing happens. -/
def advanceDecode (s : State) : Host.Outcome State Fault Refusal :=
  if s.busy = true ∧ decodeWord s.cmd = .ok .decode ∧ s.sub < 6 then
    match nextSubStep s with
    | .ok d => .next { s with engine := some { copy := d, sub := s.sub + 1 } }
    | .error (.raised sub e) => .next (s.takeError sub e)
    | .error (.unwritten id i) => .fault (.unwritten id i)
  else .next s

/-- What an event does (`20_memory.md` R120). While rst_n is 0 no command is busy. -/
def perform (e : Event) (s : State) : Host.Outcome State Fault Refusal :=
  match e with
  | .read off => hostRead off s
  | .write off w => .next (hostWrite off w s)
  | .complete => if s.busy then completeCommand s else .next s
  | .advance => advanceDecode s
  | .resetFalls => .next (s.hardReset false)
  | .resetRises => .next (s.hardReset true)

/-- What happens when no event is to come (log 2): a busy command completes (`70_reset_and_hazards.md`
R471), and an idle block stays as it is (R452). -/
def idle (s : State) : Host.Outcome State Fault Refusal :=
  if s.busy then completeCommand s else .next s

end Sys2Proof.Machine
end

