-- ==== Sys2Proof/Machine/Step.lean ====
section
/-! DEFINITION. One step: the first event of the order happens (`20_memory.md` R120). -/

namespace Sys2Proof.Machine

/-- One step of the block. -/
def step (s : State) : Host.Outcome State Fault Refusal :=
  match s.events with
  | [] => idle s
  | e :: es => perform e { s with events := es }

/-- The state in which command word w has been accepted and its completion is the next event (log 9).
An acceptance needs rst_n = 1 and ERR = 0 (`10_state.md` R37). -/
def State.withFetchWord (s : State) (nbits w : Nat) : State :=
  { { s with rstN := true, err := false }.accept (BitVec.ofNat 32 (w % 2 ^ nbits)) with
    events := .complete :: s.events }

end Sys2Proof.Machine
end

