-- ==== Sys2Proof/Safety.lean ====
section
/-! DEFINITION. What claims about the machine are stated in: the command that is about to complete, the
well-formedness of the data, the flags' exclusion, and a sequence of commands that all succeed. -/

namespace Sys2Proof.Machine

/-! ## A command at its completion -/

/-- The working copy is as acceptance took it (`10_state.md` R58): it equals the data state, and no
sub-step of DECODE has run on it. This is so of every busy state but one in which a DECODE has
advanced, and of every idle state. -/
abbrev State.Fresh (s : State) : Prop := s.work = s.data ∧ s.sub = 0

/-- The NOCONFIG checks pass with code parameters c (`40_control.md` R203), on a fresh working copy. -/
abbrev State.Runs (s : State) (c : Code) : Prop :=
  s.Fresh ∧ s.data.cfg = some c ∧ s.data.fmod >>> c.m = 1#17

/-- The field that configuration c and the data's FMOD give (`41_field.md` R230). -/
def Code.gf (c : Code) (d : Data) : GF := { m := c.m, f := d.fmod }

/-- Every non-zero element has an inverse: the modulus is irreducible (`41_field.md` R232). -/
def GF.isField (k : GF) : Prop :=
  ∀ a : Elem, a ≠ 0#16 → a.toNat < 2 ^ k.m → ∃ b : Elem, b.toNat < 2 ^ k.m ∧ k.mul a b = 1#16

/-- The element has an inverse (`41_field.md` R232). -/
def GF.invertible (k : GF) (a : Elem) : Prop := ∃ b : Elem, b.toNat < 2 ^ k.m ∧ k.mul a b = 1#16

/-- The commands run one after the other from s, each ending in success; the state at the end. -/
def runAllOk : List Instr → State → Option State
  | [], s => some s
  | i :: is, s =>
    match exec i s with
    | .next t => if t.err then none else runAllOk is t
    | .fault _ => none
    | .refused _ => none

/-- The command ends in success (`40_control.md` R204): the data become d, DONE ← 1, BUSY ← 0, and
nothing else changes. -/
abbrev Succeeds (i : Instr) (s : State) (d : Data) : Prop :=
  exec i s = .next { s with data := d, engine := none, done := true }

/-- The command fails (`40_control.md` R204, `60_exceptions.md` R402), outside the sub-steps of DECODE:
ERRCODE, ERRINFO, ERR ← 1, BUSY ← 0, and nothing else changes. -/
abbrev Fails (i : Instr) (s : State) (code : BitVec 8) (info : Word) : Prop :=
  exec i s = .next { s with engine := none, err := true, errinfo := info,
                            errcode := { code := code, opc := s.cmd.extractLsb' 26 6, sub := 0#3 } }

/-! ## Well-formed data -/

/-- The width of a stored field value: m, or 0 while CFG_OK = 0 (`10_state.md` R54, `20_memory.md`
R109). -/
def Data.width (d : Data) : Nat :=
  match d.cfg with
  | some c => c.m
  | none => 0

/-- The number of elements of a memory of field elements or indices; none while CFG_OK = 0
(`20_memory.md` R104, R106). -/
def Data.elemCount (d : Data) (id : ElemMem) : Nat :=
  match d.cfg with
  | some c => c.elemCount id
  | none => 0

/-- The number of elements of a memory of bits; none while CFG_OK = 0 (`20_memory.md` R104, R106). -/
def Data.bitCount (d : Data) (id : BitMem) : Nat :=
  match d.cfg with
  | some c => c.rows id * c.cols id
  | none => 0

/-- A polynomial register's content: field elements, with no zero at the end (`10_state.md` R55;
log 10). -/
abbrev Poly.wf (m : Nat) (p : Poly) : Prop := p.getLast? ≠ some 0#16 ∧ ∀ a ∈ p, a.toNat < 2 ^ m

/-- a and r are congruent modulo g: a = q·g + r for some polynomial q (`42_poly.md` R262). -/
def Poly.modEq (k : GF) (g a r : Poly) : Prop :=
  ∃ q, Poly.wf k.m q ∧ a = Poly.add (Poly.mul k q g) r

/-- a has an inverse modulo g (`42_poly.md` R263). -/
def Poly.invertibleMod (k : GF) (g a : Poly) : Prop :=
  ∃ b, Poly.wf k.m b ∧ Poly.modEq k g (Poly.mul k a b) [1#16]

/-- Every non-zero polynomial of lower degree has an inverse modulo g: g is irreducible
(`00_scope.md` R14, `42_poly.md` R263). -/
def Poly.irreducible (k : GF) (g : Poly) : Prop :=
  ∀ a, Poly.wf k.m a → a ≠ [] → a.length < g.length → Poly.invertibleMod k g a

/-- The Euclidean algorithm on a and g, for n divisions: ρ 0 = a, ρ 1 = g, and each ρ (i + 2) is the
remainder of ρ i divided by ρ (i + 1), whose leading coefficient has an inverse, with quotient q i
(`42_poly.md` R262, R263; `44_decode.md` R345). This fixes ρ i up to i = n + 1 and q i below n. -/
structure Poly.Euclid (k : GF) (a g : Poly) (n : Nat) (ρ q : Nat → Poly) : Prop where
  first : ρ 0 = a
  second : ρ 1 = g
  unit : ∀ i, i < n → k.invertible ((ρ (i + 1)).getLastD 0#16)
  division : ∀ i, i < n →
    Poly.wf k.m (q i) ∧ Poly.wf k.m (ρ (i + 2)) ∧ (ρ (i + 2)).length < (ρ (i + 1)).length ∧
      ρ i = Poly.add (Poly.mul k (q i) (ρ (i + 1))) (ρ (i + 2))

/-- The next division of the Euclidean algorithm reports ARITH(1): the divisor is not zero and its
leading coefficient has no inverse (`42_poly.md` R262). -/
def Poly.stuckAt (k : GF) (b : Poly) : Prop := b ≠ [] ∧ ¬k.invertible (b.getLastD 0#16)

/-- The leading-term eliminations of the divisions 1 to n − 1: one for each non-zero coefficient of a
quotient. Division 0 is the reduction of τ modulo g, which R345 does not count. -/
def Poly.eliminations (q : Nat → Poly) (n : Nat) : Nat :=
  ((List.range n).map fun i =>
    if i = 0 then 0 else ((q i).filter fun a => decide (a ≠ 0#16)).length).sum

/-- (α, γ) and (r₀, u₀) solve the key equation u·τ ≡ r modulo g within the degree bounds of
`44_decode.md` R345 and R347: deg α ≤ ⌊t/2⌋ < deg r₀ ≤ t and deg γ = t − deg r₀. -/
structure Poly.KeyEquation (k : GF) (t : Nat) (g tau alpha gamma r0 u0 : Poly) : Prop where
  wf : Poly.wf k.m alpha ∧ Poly.wf k.m gamma ∧ Poly.wf k.m r0 ∧ Poly.wf k.m u0
  current : Poly.modEq k g (Poly.mul k gamma tau) alpha
  previous : Poly.modEq k g (Poly.mul k u0 tau) r0
  stopped : alpha.length ≤ t / 2 + 1 ∧ t / 2 + 1 < r0.length ∧ r0.length ≤ t + 1
  degree : gamma.length + r0.length = t + 2

/-- The XOR of f 0, …, f (n − 1). -/
def xorSum (n : Nat) (f : Nat → Elem) : Elem := ((List.range n).map f).foldl fieldAdd 0#16

/-- The logical size in words of the memory MSEL = sel selects, as the table of `20_memory.md` R104
gives it; 0 for 12 to 15. -/
def portWords (c : Code) (sel : Nat) : Nat :=
  let n := 2 ^ c.m
  let k := n - c.m * c.t
  match sel with
  | 0 => n
  | 1 => n * c.t
  | 2 => n
  | 3 => n
  | 4 => c.m * c.t * ((n + 31) / 32)
  | 5 => k * ((n + 31) / 32)
  | 6 => k * ((k + 31) / 32)
  | 7 => (n + 31) / 32
  | 8 => (n + 31) / 32
  | 9 => (n + 31) / 32
  | 10 => (k + 31) / 32
  | 11 => (k + 31) / 32
  | _ => 0

/-- The storage bits of word i of the memory MSEL = sel selects, as a mask (`20_memory.md` R104, R109,
R110): the low m bits for field values and indices; for bits, those below the row's length. -/
def portMask (c : Code) (sel i : Nat) : Word :=
  let n := 2 ^ c.m
  let k := n - c.m * c.t
  let row := if sel = 6 ∨ sel = 10 ∨ sel = 11 then k else n
  if sel ≤ 3 then BitVec.ofNat 32 (2 ^ c.m - 1)
  else BitVec.ofNat 32 (2 ^ (min 32 (row - 32 * (i % ((row + 31) / 32)))) - 1)

/-- A configuration CONFIG accepts (`00_scope.md` R7, `40_control.md` R201). -/
abbrev Code.legal (hw : Synth) (c : Code) : Prop :=
  2 ≤ c.m ∧ c.m ≤ hw.mMax ∧ 2 ≤ c.t ∧ c.t ≤ hw.tMax ∧ c.m * c.t < 2 ^ c.m

/-- The configuration is one CONFIG accepts. -/
abbrev Data.cfgWf (hw : Synth) (d : Data) : Prop := ∀ c ∈ d.cfg, Code.legal hw c

/-- Every field and polynomial register holds field elements (`10_state.md` R54, R55). -/
abbrev Data.regsWf (d : Data) : Prop :=
  (∀ i, (d.f.get i).toNat < 2 ^ d.width) ∧ (∀ i, Poly.wf d.width (d.p.get i)) ∧
    Poly.wf d.width d.gp

/-- A memory of field elements or indices is in canonical form, within its logical size, and holds
field elements (`20_memory.md` R104, R109). -/
abbrev Data.elemMemWf (d : Data) (id : ElemMem) : Prop :=
  (d.mems.elem id).wf ∧
    ∀ kv ∈ (d.mems.elem id).cells, kv.1 < d.elemCount id ∧ kv.2.toNat < 2 ^ d.width

/-- A memory of bits is in canonical form and within its logical size (`20_memory.md` R104). -/
abbrev Data.bitMemWf (d : Data) (id : BitMem) : Prop :=
  (d.mems.bit id).wf ∧ ∀ kv ∈ (d.mems.bit id).cells, kv.1 < d.bitCount id

/-- Well-formed data: everything the rules promise of stored values. -/
structure Data.wf (hw : Synth) (d : Data) : Prop where
  cfg : d.cfgWf hw
  regs : d.regsWf
  elems : ∀ id, d.elemMemWf id
  bits : ∀ id, d.bitMemWf id

/-- Every polynomial register has degree at most T_MAX (`10_state.md` R55, `42_poly.md` R260). -/
abbrev Data.polysFit (hw : Synth) (d : Data) : Prop :=
  (∀ i, (d.p.get i).length ≤ hw.tMax + 1) ∧ d.gp.length ≤ hw.tMax + 1

/-- Every memory element DECODE reads holds a value (`44_decode.md` R354, `70_reset_and_hazards.md`
R456): PIDX; C at the places it names; the entries of PST where such a bit is 1; L; the last k entries
of SWP, and W where they name an element PERMC does not write (none below n); SINV. -/
structure Data.DecodeReadsWritten (c : Code) (d : Data) : Prop where
  permuted : ∀ j, j < 2 ^ c.m → ∃ (i : Elem) (b : Bool),
    d.mems.pidx.read j = some i ∧ d.mems.c.read i.toNat = some b ∧
      (b = true → ∀ l, l < c.t → (d.mems.pst.read (j * c.t + l)).isSome = true)
  support : ∀ i, i < 2 ^ c.m → (d.mems.l.read i).isSome = true
  swaps : ∀ r, r < 2 ^ c.m - c.m * c.t → ∃ i : Elem,
    d.mems.swp.read (c.m * c.t + r) = some i ∧
      (i.toNat < 2 ^ c.m ∨ (d.mems.w.read i.toNat).isSome = true)
  unscrambler : ∀ e, e < (2 ^ c.m - c.m * c.t) * (2 ^ c.m - c.m * c.t) →
    (d.mems.sinv.read e).isSome = true

/-- The command stops with the fault `unwritten` (`00_scope.md` R13, `60_exceptions.md` R408). -/
abbrev Unwritten (i : Instr) (s : State) : Prop :=
  ∃ (mem : MemId) (elem : Nat), exec i s = .fault (.unwritten mem elem)

/-! ## Invariants of the state -/

/-- Legal synthesis parameters, and well-formed data in the state and in the working copy. -/
structure State.Sound (s : State) : Prop where
  hw : s.hw.legal
  data : s.data.wf s.hw
  copy : ∀ b ∈ s.engine, b.copy.wf s.hw

/-- Sound, with every polynomial register within T_MAX, in the state and in the working copy. -/
structure State.Fits (s : State) : Prop where
  sound : s.Sound
  data : s.data.polysFit s.hw
  copy : ∀ b ∈ s.engine, b.copy.polysFit s.hw

/-- DONE and ERR exclude each other, and a busy command excludes both (`60_exceptions.md` R413). -/
abbrev State.FlagsExclusive (s : State) : Prop :=
  ¬(s.done = true ∧ s.err = true) ∧ (s.busy = true → s.done = false ∧ s.err = false)

/-- The working copy is what the data state has become in the sub-steps that have run: the data state
itself before the first one (`10_state.md` R58, `20_memory.md` R120), and the result of the first
`sub` sub-steps of DECODE afterwards. -/
def State.CopyFollows (s : State) : Prop :=
  ∀ b ∈ s.engine,
    (b.sub = 0 ∧ b.copy = s.data) ∨
      (1 ≤ b.sub ∧ b.sub ≤ 6 ∧ decodeWord s.cmd = .ok .decode ∧
        ∃ c, configured s.hw s.data = .ok c ∧ decodeSteps c b.sub 0 s.data = .ok b.copy)

end Sys2Proof.Machine
end

