-- ==== Sys2Proof/Certificates/Slice0/Obligations.lean ====
section
/-! DEFINITION. The statements for the provers, from the numbered rules of `spec/`. In the statements
about one command, `Succeeds` and `Fails` say what `exec` answers, so that everything they do not
name is unchanged; `s.Runs c` says that the command starts from the state at acceptance and passes the
NOCONFIG checks. -/

open Sys2Proof Sys2Proof.Machine

/-! ## Encoding -/

/-- Words written out from the layout of R151 and the opcode map of R157, the examples of R155 and of
the command rules: at least one for every command. -/
def Obligations.SpecWordsDecode : Prop :=
  (decodeWord 0x00000000#32 = .ok .nop ∧
    decodeWord 0x04000044#32 = .ok (.config 4 2) ∧
    decodeWord 0x040004CA#32 = .ok (.config 10 38) ∧
    decodeWord 0x08000000#32 = .ok (.chkperm .pidx) ∧
    decodeWord 0x08000001#32 = .ok (.chkperm .swp)) ∧
  (decodeWord 0x20800002#32 = .ok (.fldi 1 2) ∧
    decodeWord 0x24A60000#32 = .ok (.fadd 1 2 3) ∧
    decodeWord 0x28A60000#32 = .ok (.fmul 1 2 3) ∧
    decodeWord 0x2CA00000#32 = .ok (.finv 1 2) ∧
    decodeWord 0x30A0000F#32 = .ok (.fpow 1 2 15) ∧
    decodeWord 0x34800005#32 = .ok (.fldl 1 5)) ∧
  (decodeWord 0x41800000#32 = .ok (.pclr 3) ∧
    decodeWord 0x44A00000#32 = .ok (.pmov 1 2) ∧
    decodeWord 0x48800000#32 = .ok (.pldg 1) ∧
    decodeWord 0x4C800005#32 = .ok (.pldt 1 5) ∧
    decodeWord 0x50A00000#32 = .ok (.pconst 1 2) ∧
    decodeWord 0x55200001#32 = .ok (.psetc 2 2 1) ∧
    decodeWord 0x58A00001#32 = .ok (.pgetc 1 2 1) ∧
    decodeWord 0x5CA60000#32 = .ok (.padd 1 2 3) ∧
    decodeWord 0x60A60000#32 = .ok (.pmul 1 2 3) ∧
    decodeWord 0x64A60000#32 = .ok (.pmulm 1 2 3) ∧
    decodeWord 0x68B00000#32 = .ok (.pmod 1 3) ∧
    decodeWord 0x6CB40000#32 = .ok (.pdivq 1 3 2) ∧
    decodeWord 0x70B40000#32 = .ok (.pdivr 1 3 2) ∧
    decodeWord 0x74A00000#32 = .ok (.pinvm 1 2) ∧
    decodeWord 0x78A00000#32 = .ok (.psqrm 1 2) ∧
    decodeWord 0x7CA00000#32 = .ok (.psqrt 1 2) ∧
    decodeWord 0x80A00003#32 = .ok (.pshl 1 2 3) ∧
    decodeWord 0x84A60000#32 = .ok (.pscl 1 2 3) ∧
    decodeWord 0x88A60000#32 = .ok (.peval 1 2 3) ∧
    decodeWord 0x8C100000#32 = .ok (.psetg 1)) ∧
  (decodeWord 0xA0000000#32 = .ok .permc ∧
    decodeWord 0xA4000000#32 = .ok .synd ∧
    decodeWord 0xA8000000#32 = .ok .locator ∧
    decodeWord 0xAC000000#32 = .ok .keyeq ∧
    decodeWord 0xB0000000#32 = .ok .roots ∧
    decodeWord 0xB4000000#32 = .ok .extract ∧
    decodeWord 0xB8000000#32 = .ok .unscr ∧
    decodeWord 0xBC000000#32 = .ok .decode) ∧
  decodeWord 0xC0000000#32 = .ok (.lgen 0) ∧
  decodeWord 0xC0100000#32 = .ok (.lgen 1) ∧
  decodeWord 0xC4000000#32 = .ok .pstgen ∧
  decodeWord 0xC8000000#32 = .ok .hgen ∧
  decodeWord 0xCC000000#32 = .ok .sysform ∧
  decodeWord 0xD0000000#32 = .ok .gextract

/-- R150, R157, R158: the encoding of a well-formed command decodes to it. -/
def Obligations.EncodeThenDecode : Prop :=
  ∀ i : Instr, i.wellFormed = true → decodeWord (encode i) = .ok i

/-- R158: a legal word is the one encoding of a well-formed command. -/
def Obligations.LegalWordIsTheOneEncoding : Prop :=
  ∀ (w : Word) (i : Instr), decodeWord w = .ok i → i.wellFormed = true ∧ encode i = w

/-- R156: the rows (match, mask) of R157's table select exactly the legal words, and no word selects
two rows. -/
def Obligations.TableRowsSelectTheLegalWords : Prop :=
  (∀ w : Word, (∃ i, decodeWord w = .ok i) ↔ ∃ r ∈ opcodeRows, w &&& r.mask = r.matchBits) ∧
  opcodeRows.length = 42 ∧ opcodeRows.Nodup ∧
  ∀ r ∈ opcodeRows, ∀ r' ∈ opcodeRows, r ≠ r' →
    ∀ w : Word, ¬(w &&& r.mask = r.matchBits ∧ w &&& r'.mask = r'.matchBits)

/-- R156, R158, R159, R400, R401: reserved opcodes, bit 16 and CHKPERM's IMM[15:1] make a word
ILLEGAL; at its completion an ILLEGAL word is recorded with code 1 and the whole word. -/
def Obligations.IllegalWordIsRecorded : Prop :=
  (∀ w : Word,
    (w.extractLsb' 26 6).toNat ∈
      [0x03, 0x04, 0x05, 0x06, 0x07, 0x0E, 0x0F, 0x24, 0x25, 0x26, 0x27, 0x35, 0x36, 0x37, 0x38,
       0x39, 0x3A, 0x3B, 0x3C, 0x3D, 0x3E, 0x3F] →
    ∃ why, decodeWord w = .error why) ∧
  (∀ w : Word, w.getLsbD 16 = true → ∃ why, decodeWord w = .error why) ∧
  (∀ w : Word, w.extractLsb' 26 6 = 0x02#6 → w.extractLsb' 1 15 ≠ 0#15 →
    ∃ why, decodeWord w = .error why) ∧
  ∀ (s : State) (es : List Event), s.busy = true → (∃ why, decodeWord s.cmd = .error why) →
    s.events = .complete :: es →
    step s = .next { s with events := es, engine := none, err := true, errinfo := s.cmd,
                            errcode := { code := 1#8, opc := s.cmd.extractLsb' 26 6, sub := 0#3 } }

/-! ## The machine -/

/-- R120, R203: a step performs the next event of the total order. The completion event of a busy
command runs the instruction its accepted word decodes to (an ILLEGAL word: IllegalWordIsRecorded); on an
idle block there is nothing to complete. A host access is that access; the events of rst_n are in
ResetsRestoreTheResetState. That a DECODE advances at events of its own is the model's reading (log 4),
and what such an event does is in SubStepsAreInvisible. That the order
stands in the state as a list of which a step performs the head is the model's choice (log 1); that with
no event left a busy command completes and an idle block stays as it is, the model's reading (log 2). -/
def Obligations.StepPerformsTheNextEvent : Prop :=
  ∀ (s : State) (es : List Event),
    (∀ i, s.busy = true → decodeWord s.cmd = .ok i → s.events = .complete :: es →
      step s = exec i { s with events := es }) ∧
    (s.busy = false → s.events = .complete :: es → step s = .next { s with events := es }) ∧
    (s.events = .advance :: es → step s = advanceDecode { s with events := es }) ∧
    (∀ off, s.events = .read off :: es → step s = hostRead off { s with events := es }) ∧
    (∀ off w, s.events = .write off w :: es → step s = .next (hostWrite off w { s with events := es })) ∧
    (∀ i, s.busy = true → decodeWord s.cmd = .ok i → s.events = [] → step s = exec i s) ∧
    (s.busy = false → s.events = [] → step s = .next s)

/-- R37: a write to CMD accepts the word, or is refused with BERR while busy, or with REJ while ERR is
set; a read returns the last accepted word; CMD is 0 at reset. -/
def Obligations.CmdWriteAcceptsOrIsRefused : Prop :=
  (∀ (s : State) (off : BitVec 12) (w : Word), s.rstN = true → off &&& 0xFFC#12 = 0x014#12 →
    (s.busy = false → s.err = false →
      hostWrite off w s = { s with cmd := w, done := false,
                                   engine := some { copy := s.data, sub := 0 } }) ∧
    (s.busy = true → hostWrite off w s = { s with berr := true }) ∧
    (s.busy = false → s.err = true → hostWrite off w s = { s with rej := true }) ∧
    hostRead off s = .next { s with prdata := s.cmd }) ∧
  ∀ hw : Synth, (State.resetOf hw).cmd = 0#32

/-- R204, R402, R411: every command that completes either commits data (DONE ← 1, BUSY ← 0) or records
one error with a code from 1 to 12 (ERR ← 1, BUSY ← 0); nothing else changes. Only DECODE records a
sub-step. -/
def Obligations.CommandCommitsOrRecordsAnError : Prop :=
  ∀ (i : Instr) (s t : State), exec i s = .next t →
    (∃ d : Data, t = { s with data := d, engine := none, done := true }) ∨
    ∃ (code : BitVec 8) (info : Word) (sub : BitVec 3),
      1 ≤ code.toNat ∧ code.toNat ≤ 12 ∧ sub.toNat ≤ 6 ∧ (sub ≠ 0#3 → i = .decode) ∧
      t = { s with engine := none, err := true, errinfo := info,
                   errcode := { code := code, opc := s.cmd.extractLsb' 26 6, sub := sub } }

/-- R127, R464, R466, R43, R44, R45, R55: which commands other than CONFIG write each flag, counter and
memory, and GP; no command at all writes FMOD or CLEN, and only CONFIG the configuration. In particular
no decode command writes L, PST, PIDX, SWP, SINV, GP, H or G. -/
def Obligations.WritersOfCountersAndMemories : Prop :=
  ∀ (i : Instr) (s t : State), s.Fresh → exec i s = .next t →
    t.data.fmod = s.data.fmod ∧ t.data.clen = s.data.clen ∧
    ((∃ m t', i = .config m t') ∨
      t.data.cfg = s.data.cfg ∧
      (t.data.gp = s.data.gp ∨ ∃ pa, i = .psetg pa) ∧
      (t.data.degen = s.data.degen ∨ i = .locator ∨ i = .decode) ∧
      (t.data.iter = s.data.iter ∨ i = .locator ∨ i = .keyeq ∨ i = .decode) ∧
      (t.data.rootcnt = s.data.rootcnt ∨ i = .roots ∨ i = .decode) ∧
      (t.data.swapcnt = s.data.swapcnt ∨ i = .sysform) ∧
      (t.data.mems.l = s.data.mems.l ∨ ∃ fa, i = .lgen fa) ∧
      (t.data.mems.pst = s.data.mems.pst ∨ i = .pstgen) ∧
      t.data.mems.pidx = s.data.mems.pidx ∧
      (t.data.mems.swp = s.data.mems.swp ∨ i = .sysform) ∧
      (t.data.mems.h = s.data.mems.h ∨ i = .hgen) ∧
      (t.data.mems.g = s.data.mems.g ∨ i = .gextract) ∧
      t.data.mems.sinv = s.data.mems.sinv ∧
      t.data.mems.c = s.data.mems.c ∧
      (t.data.mems.w = s.data.mems.w ∨ i = .permc ∨ i = .roots ∨ i = .decode) ∧
      (t.data.mems.e = s.data.mems.e ∨ i = .roots ∨ i = .decode) ∧
      (t.data.mems.mc = s.data.mems.mc ∨ i = .extract ∨ i = .decode) ∧
      (t.data.mems.msg = s.data.mems.msg ∨ i = .unscr ∨ i = .decode))

/-- R203: every command but NOP and CONFIG reports NOCONFIG, with 0 before any CONFIG and with 1 when
FMOD no longer has degree m, before anything else. -/
def Obligations.NoconfigIsCheckedFirst : Prop :=
  ∀ (i : Instr) (s : State), i ≠ .nop → (∀ m t, i ≠ .config m t) → s.Fresh →
    (s.data.cfg = none → Fails i s 2#8 0#32) ∧
    ∀ c, s.data.cfg = some c → s.data.fmod >>> c.m ≠ 1#17 → Fails i s 2#8 1#32

/-- R265: the ten commands that use g report GPOLY with the degree of GP (0xFFFF for the zero
polynomial) when it is not t; PSTGEN and HGEN when all of L, their Reads, is written (R13; otherwise they
fault, which is the model's reading of the order, log 7). -/
def Obligations.WrongDegreeOfGpIsReported : Prop :=
  ∀ (i : Instr) (s : State) (c : Code), s.Runs c → s.data.gp.length ≠ c.t + 1 →
    ((∃ pd, i = .pldg pd) ∨ (∃ pd pa pb, i = .pmulm pd pa pb) ∨ (∃ pd pa, i = .pmod pd pa) ∨
      (∃ pd pa, i = .pinvm pd pa) ∨ (∃ pd pa, i = .psqrm pd pa) ∨ (∃ pd pa, i = .psqrt pd pa) ∨
      ((i = .pstgen ∨ i = .hgen) ∧ ∀ e, e < 2 ^ c.m → (s.data.mems.l.read e).isSome = true) ∨
      i = .locator ∨ i = .keyeq) →
    Fails i s 12#8
      (if s.data.gp = [] then 0x0000FFFF#32
       else (BitVec.ofNat 16 (s.data.gp.length - 1)).setWidth 32)

/-- R413: every step keeps DONE and ERR from being 1 together, and from being 1 while busy. -/
def Obligations.DoneAndErrStayExclusive : Prop :=
  ∀ s t : State, s.FlagsExclusive → step s = .next t → t.FlagsExclusive

/-- R60: the invariants hold after reset, for every legal pair of synthesis parameters and for the
reference instance (its pair is the model's choice, log 8). -/
def Obligations.InvariantsHoldAtReset : Prop :=
  (∀ hw : Synth, hw.legal →
    (State.resetOf hw).Fits ∧ (State.resetOf hw).FlagsExclusive ∧ (State.resetOf hw).CopyFollows) ∧
  State.reset.Fits ∧ State.reset.FlagsExclusive ∧ State.reset.CopyFollows

/-- R54, R55, R104, R109: every step keeps the data well formed: a legal configuration, registers and
memory elements below 2^m, memories within their logical size and in canonical form. -/
def Obligations.WellFormedDataIsKept : Prop :=
  ∀ s t : State, s.Sound → step s = .next t → t.Sound

/-- R55, R260: every step keeps every polynomial register at degree at most T_MAX. -/
def Obligations.DegreesStayWithinTMax : Prop :=
  ∀ s t : State, s.Fits → step s = .next t → t.Fits

/-- R58, R120, R36, R354: every step keeps the engine's working copy what the rules make of the data
state: that state itself, or the result of the first sub-steps of DECODE. (That the copy goes through
DECODE's sub-steps at events `advance` of their own is the model's reading, log 4.) -/
def Obligations.WorkingCopyFollowsTheState : Prop :=
  ∀ s t : State, s.CopyFollows → step s = .next t → t.CopyFollows

/-- R36, R120, R354: the sub-steps a busy DECODE has run change neither the data state nor what its
completion will do. (The event `advance` is the model's, log 4.) -/
def Obligations.SubStepsAreInvisible : Prop :=
  ∀ s t : State, s.busy = true → advanceDecode s = .next t →
    t.data = s.data ∧
    (t.busy = true → completeCommand t = completeCommand s) ∧
    (t.busy = false → completeCommand s = .next t)

/-- R121, R34, R35, R451: the busy lockout, offset by offset; the writes allowed while busy are those of
STATUS, IE and the soft reset. (That the soft reset leaves rst_n, the last read value and the events to
come is the model's reading, log 17.) -/
def Obligations.BusyLockout : Prop :=
  ∀ (s : State) (off : BitVec 12) (w : Word), s.rstN = true → s.busy = true →
    let o := off &&& 0xFFC#12
    ((o ∈ [0x048#12, 0x058#12, 0x05C#12] ∨ 0x060#12 ≤ o ∧ o ≤ 0x07C#12) →
      hostRead off s = .next { s with berr := true, prdata := 0#32 }) ∧
    (¬(o ∈ [0x048#12, 0x058#12, 0x05C#12] ∨ 0x060#12 ≤ o ∧ o ≤ 0x07C#12) →
      hostRead off s = .next { s with prdata := s.regValue (regAt off) }) ∧
    ((o ∈ [0x014#12, 0x02C#12, 0x030#12, 0x040#12, 0x044#12, 0x048#12, 0x050#12, 0x054#12,
           0x058#12] ∨ 0x060#12 ≤ o ∧ o ≤ 0x07C#12) →
      hostWrite off w s = { s with berr := true }) ∧
    (o = 0x008#12 → w.getLsbD 0 = true →
      hostWrite off w s = { State.resetOf s.hw with prdata := s.prdata, events := s.events }) ∧
    (o = 0x00C#12 →
      hostWrite off w s = { s with done := s.done && !w.getLsbD 1, err := s.err && !w.getLsbD 2,
                                   aerr := s.aerr && !w.getLsbD 4, berr := s.berr && !w.getLsbD 5,
                                   rej := s.rej && !w.getLsbD 6 }) ∧
    (o = 0x010#12 →
      hostWrite off w s = { s with doneIE := w.getLsbD 0, errIE := w.getLsbD 1 }) ∧
    ((o = 0x008#12 ∧ w.getLsbD 0 = false) ∨
        o ∈ [0x000#12, 0x004#12, 0x018#12, 0x01C#12, 0x020#12, 0x024#12, 0x028#12, 0x034#12,
             0x038#12, 0x03C#12, 0x04C#12, 0x05C#12] ∨ 0x080#12 ≤ o →
      hostWrite off w s = s)

/-- R450, R451: both resets put every piece of state at its reset value, abandoning a busy command;
while rst_n is 0 reads return 0, writes are ignored and irq is 0. (That the reset values are in place
from the fall of rst_n on, with an event for its fall and one for its rise, is the model's choice, log 5;
that rst_n, the last read value and the events to come are not reset, its reading, log 17.) -/
def Obligations.ResetsRestoreTheResetState : Prop :=
  ∀ (s : State) (off : BitVec 12) (w : Word) (es : List Event),
    (s.rstN = true → off &&& 0xFFC#12 = 0x008#12 → w.getLsbD 0 = true →
      hostWrite off w s = { State.resetOf s.hw with prdata := s.prdata, events := s.events }) ∧
    (off &&& 0xFFC#12 = 0x008#12 → w.getLsbD 0 = false → hostWrite off w s = s) ∧
    (s.events = .resetFalls :: es →
      step s = .next { State.resetOf s.hw with rstN := false, prdata := s.prdata, events := es }) ∧
    (s.events = .resetRises :: es →
      step s = .next { State.resetOf s.hw with rstN := true, prdata := s.prdata, events := es }) ∧
    (s.rstN = false →
      hostRead off s = .next { s with prdata := 0#32 } ∧ hostWrite off w s = s ∧ s.irq = false)

/-- R60, R31, R32, R52: what the host reads after reset, for legal synthesis parameters; no command is
busy, the polynomial registers are zero and no memory element holds a value. -/
def Obligations.ResetValuesAreRead : Prop :=
  ∀ (hw : Synth) (off : BitVec 12), hw.legal →
    (off &&& 0xFFC#12 ≠ 0x048#12 → off &&& 0xFFC#12 ≠ 0x058#12 →
      hostRead off (State.resetOf hw) = .next { State.resetOf hw with
        prdata :=
          if off &&& 0xFFC#12 = 0x000#12 then 0x4D434E31#32
          else if off &&& 0xFFC#12 = 0x004#12 then BitVec.ofNat 32 (hw.mMax + 32 * hw.tMax)
          else if off &&& 0xFFC#12 = 0x05C#12 then 0x0000FFFF#32
          else 0#32 }) ∧
    (State.resetOf hw).busy = false ∧
    (∀ i, (State.resetOf hw).data.p.get i = []) ∧ (State.resetOf hw).data.gp = [] ∧
    (∀ id e, ((State.resetOf hw).data.mems.elem id).read e = none) ∧
    ∀ id e, ((State.resetOf hw).data.mems.bit id).read e = none

/-- R34, R405, R412: STATUS as read; a 1 written to a W1C bit clears it; writing 1 to ERR alone clears
ERR and nothing else, and the next CMD write is accepted. -/
def Obligations.StatusReadsAndClears : Prop :=
  ∀ (s : State) (off off' : BitVec 12) (w w' : Word), s.rstN = true →
    off &&& 0xFFC#12 = 0x00C#12 → off' &&& 0xFFC#12 = 0x014#12 →
    (∃ v : Word, hostRead off s = .next { s with prdata := v } ∧
      v.getLsbD 0 = s.engine.isSome ∧ v.getLsbD 1 = s.done ∧ v.getLsbD 2 = s.err ∧
      v.getLsbD 3 = s.data.cfg.isSome ∧ v.getLsbD 4 = s.aerr ∧ v.getLsbD 5 = s.berr ∧
      v.getLsbD 6 = s.rej ∧ ∀ j, 7 ≤ j → v.getLsbD j = false) ∧
    hostWrite off w s = { s with done := s.done && !w.getLsbD 1, err := s.err && !w.getLsbD 2,
                                 aerr := s.aerr && !w.getLsbD 4, berr := s.berr && !w.getLsbD 5,
                                 rej := s.rej && !w.getLsbD 6 } ∧
    hostWrite off 0x00000004#32 s = { s with err := false } ∧
    (s.busy = false →
      hostWrite off' w' (hostWrite off 0x00000004#32 s) =
        { s with err := false, cmd := w', done := false,
                 engine := some { copy := s.data, sub := 0 } })

/-- R410, R122, R407, R413: irq is 1 exactly when DONE or ERR is set and enabled; so AERR, BERR and REJ
do not raise it. While a command is busy irq is 0; at its completion, that of a command or of an
ILLEGAL word, exactly one of DONE and ERR is set, and irq is 1 just when that one is enabled. -/
def Obligations.InterruptReportsTheCompletion : Prop :=
  (∀ s : State, s.rstN = true → s.irq = (s.done && s.doneIE || s.err && s.errIE)) ∧
  ∀ (i : Instr) (s t : State), s.FlagsExclusive → s.busy = true → s.rstN = true →
    exec i s = .next t ∨ completeCommand s = .next t →
    s.irq = false ∧ t.done = !t.err ∧
      t.irq = (t.done && s.doneIE || t.err && s.errIE)

/-- R61: a read of an unmapped offset returns 0, a write is ignored, and neither sets a status bit. -/
def Obligations.UnmappedOffsets : Prop :=
  ∀ (s : State) (off : BitVec 12) (w : Word),
    off &&& 0xFFC#12 = 0x04C#12 ∨ 0x080#12 ≤ off →
    hostRead off s = .next { s with prdata := 0#32 } ∧ hostWrite off w s = s

/-- R102, R113: bits [1:0] of an offset are ignored; a read of any register but MDATA and PCDATA changes
nothing (beyond the returned value, and BERR where R121 refuses it) and is idempotent; writes to
read-only registers are ignored. R31 to R33, R35, R38, R39, R41 to R47, R49, R50: what a read of the
plain registers returns, field by field, and what a write stores: IE at any time, the others on an idle
block. -/
def Obligations.PlainReadsHaveNoSideEffect : Prop :=
  ∀ (s : State) (off : BitVec 12) (w : Word),
    hostRead off s = hostRead (off &&& 0xFFC#12) s ∧
    hostWrite off w s = hostWrite (off &&& 0xFFC#12) w s ∧
    (off &&& 0xFFC#12 ≠ 0x048#12 → off &&& 0xFFC#12 ≠ 0x058#12 →
      ∃ v : Word, ∃ refused : Bool,
        let t : State := { s with prdata := v, berr := s.berr || refused }
        hostRead off s = .next t ∧ hostRead off t = .next t ∧ (s.busy = false → refused = false)) ∧
    (off &&& 0xFFC#12 ∈ [0x000#12, 0x004#12, 0x018#12, 0x01C#12, 0x020#12, 0x024#12, 0x028#12,
                         0x034#12, 0x038#12, 0x03C#12, 0x05C#12] →
      hostWrite off w s = s) ∧
    (s.rstN = true →
      let o := off &&& 0xFFC#12
      (o = 0x000#12 → hostRead off s = .next { s with prdata := 0x4D434E31#32 }) ∧
      (o = 0x004#12 → s.hw.legal →
        hostRead off s = .next { s with prdata := BitVec.ofNat 32 (s.hw.mMax + 32 * s.hw.tMax) }) ∧
      (o = 0x008#12 → hostRead off s = .next { s with prdata := 0#32 }) ∧
      (o = 0x010#12 →
        (∃ v : Word, hostRead off s = .next { s with prdata := v } ∧
          v.getLsbD 0 = s.doneIE ∧ v.getLsbD 1 = s.errIE ∧ ∀ j, 2 ≤ j → v.getLsbD j = false) ∧
        hostWrite off w s = { s with doneIE := w.getLsbD 0, errIE := w.getLsbD 1 }) ∧
      (o = 0x018#12 → ∃ v : Word, hostRead off s = .next { s with prdata := v } ∧
        v.extractLsb' 0 8 = s.errcode.code ∧ v.extractLsb' 8 6 = s.errcode.opc ∧
        v.extractLsb' 14 3 = s.errcode.sub ∧ v.extractLsb' 17 15 = 0#15) ∧
      (o = 0x01C#12 → hostRead off s = .next { s with prdata := s.errinfo }) ∧
      (o = 0x02C#12 →
        hostRead off s = .next { s with prdata := s.data.fmod.setWidth 32 } ∧
        (s.busy = false →
          hostWrite off w s = { s with data := { s.data with fmod := w.setWidth 17 } })) ∧
      (o = 0x030#12 →
        hostRead off s = .next { s with prdata := s.data.clen.setWidth 32 } ∧
        (s.busy = false →
          hostWrite off w s = { s with data := { s.data with clen := w.setWidth 17 } })) ∧
      (o = 0x034#12 → ∃ v : Word, hostRead off s = .next { s with prdata := v } ∧
        v.extractLsb' 0 2 = s.data.degen ∧ v.extractLsb' 2 14 = 0#14 ∧
        v.extractLsb' 16 16 = s.data.iter) ∧
      (o = 0x038#12 → hostRead off s = .next { s with prdata := s.data.rootcnt.setWidth 32 }) ∧
      (o = 0x03C#12 → hostRead off s = .next { s with prdata := s.data.swapcnt.setWidth 32 }) ∧
      (o = 0x040#12 →
        hostRead off s = .next { s with prdata := s.msel.setWidth 32 } ∧
        (s.busy = false → hostWrite off w s = { s with msel := w.setWidth 4 })) ∧
      (o = 0x044#12 →
        hostRead off s = .next { s with prdata := s.midx.setWidth 32 } ∧
        (s.busy = false → hostWrite off w s = { s with midx := w.setWidth 27 })) ∧
      (o = 0x050#12 →
        hostRead off s = .next { s with prdata := s.psel.setWidth 32 } ∧
        (s.busy = false → hostWrite off w s = { s with psel := w.setWidth 4 })) ∧
      (o = 0x054#12 →
        hostRead off s = .next { s with prdata := s.pcidx.setWidth 32 } ∧
        (s.busy = false → hostWrite off w s = { s with pcidx := w.setWidth 11 })))

/-! ## The ports -/

/-- R106, R104: an out-of-range MDATA access returns 0 or stores nothing, sets AERR and increments
MIDX. -/
def Obligations.OutOfRangeMdata : Prop :=
  ∀ (s : State) (off : BitVec 12) (w : Word), s.rstN = true → s.busy = false →
    off &&& 0xFFC#12 = 0x048#12 →
    (s.data.cfg = none ∨ ∃ c, s.data.cfg = some c ∧ portWords c s.msel.toNat ≤ s.midx.toNat) →
    hostRead off s = .next { s with aerr := true, midx := s.midx + 1#27, prdata := 0#32 } ∧
    hostWrite off w s = { s with aerr := true, midx := s.midx + 1#27 }

/-- R105, R107, R109, R110: an in-range MDATA write stores the storage bits of its word, which an MDATA
read of the same word returns; no other word of any memory changes, nor anything but the memories and
MIDX. -/
def Obligations.MdataWriteThenRead : Prop :=
  ∀ (s : State) (off : BitVec 12) (w : Word) (c : Code), s.hw.legal → c.legal s.hw →
    s.rstN = true → s.busy = false → off &&& 0xFFC#12 = 0x048#12 → s.data.cfg = some c →
    s.midx.toNat < portWords c s.msel.toNat →
    ∃ ms : Memories,
      hostWrite off w s = { s with data := { s.data with mems := ms }, midx := s.midx + 1#27 } ∧
      hostRead off { s with data := { s.data with mems := ms } } =
        .next { s with data := { s.data with mems := ms }, midx := s.midx + 1#27,
                       prdata := w &&& portMask c s.msel.toNat s.midx.toNat } ∧
      ∀ (sel : BitVec 4) (id : MemId) (j : Nat), memOfSel sel = some id →
        (sel ≠ s.msel ∨ j ≠ s.midx.toNat) → j < portWords c sel.toNat →
        readPortWord c { s.data with mems := ms } id j = readPortWord c s.data id j

/-- R104, R105, R110: the memory each of the twelve MSEL values selects, and what an in-range MDATA read
returns, element by element: a field element or index in the low bits; bit b of word r·NW + w of a
matrix is its element (r, 32w + b), and 0 past the row. A word with an element that holds no value stops
with the fault (R13). -/
def Obligations.MdataReadLayout : Prop :=
  ∀ (s : State) (off : BitVec 12) (c : Code), s.rstN = true → s.busy = false →
    off &&& 0xFFC#12 = 0x048#12 → s.data.cfg = some c → s.midx.toNat < portWords c s.msel.toNat →
    let n := 2 ^ c.m
    let k := n - c.m * c.t
    let ms := s.data.mems
    (∀ (id : ElemMem) (mem : Memory Elem),
      (s.msel = 0#4 ∧ id = .L ∧ mem = ms.l ∨ s.msel = 1#4 ∧ id = .PST ∧ mem = ms.pst ∨
        s.msel = 2#4 ∧ id = .PIDX ∧ mem = ms.pidx ∨ s.msel = 3#4 ∧ id = .SWP ∧ mem = ms.swp) →
      (∀ v, mem.read s.midx.toNat = some v →
        hostRead off s = .next { s with midx := s.midx + 1#27, prdata := v.setWidth 32 }) ∧
      (mem.read s.midx.toNat = none →
        hostRead off s = .fault (.unwritten (.elem id) s.midx.toNat))) ∧
    ∀ (id : BitMem) (mem : Memory Bool) (cols : Nat),
      (s.msel = 4#4 ∧ id = .H ∧ mem = ms.h ∧ cols = n ∨ s.msel = 5#4 ∧ id = .G ∧ mem = ms.g ∧ cols = n ∨
        s.msel = 6#4 ∧ id = .SINV ∧ mem = ms.sinv ∧ cols = k ∨
        s.msel = 7#4 ∧ id = .C ∧ mem = ms.c ∧ cols = n ∨ s.msel = 8#4 ∧ id = .W ∧ mem = ms.w ∧ cols = n ∨
        s.msel = 9#4 ∧ id = .E ∧ mem = ms.e ∧ cols = n ∨
        s.msel = 10#4 ∧ id = .MC ∧ mem = ms.mc ∧ cols = k ∨
        s.msel = 11#4 ∧ id = .M ∧ mem = ms.msg ∧ cols = k) →
      let row := s.midx.toNat / ((cols + 31) / 32)
      let first := 32 * (s.midx.toNat % ((cols + 31) / 32))
      (∀ v : Nat → Bool,
        (∀ b, b < 32 → first + b < cols → mem.read (row * cols + first + b) = some (v b)) →
        ∃ x : Word, hostRead off s = .next { s with midx := s.midx + 1#27, prdata := x } ∧
          ∀ b, b < 32 → x.getLsbD b = (decide (first + b < cols) && v b)) ∧
      ∀ b, b < 32 → first + b < cols → mem.read (row * cols + first + b) = none →
        ∃ e, hostRead off s = .fault (.unwritten (.bit id) e)

/-- R108, R109: the polynomial port reads and writes one coefficient of the selected register. R49,
R52: PDEG reads the selected register's degree, 0xFFFF for the zero polynomial and for PSEL ≥ 9. -/
def Obligations.PolynomialPort : Prop :=
  ∀ (s : State) (off : BitVec 12) (w : Word), s.rstN = true → s.busy = false →
    (off &&& 0xFFC#12 = 0x058#12 →
      (∀ c, s.data.cfg = some c → s.pcidx.toNat ≤ s.hw.tMax →
        let masked := w.setWidth 16 &&& BitVec.ofNat 16 (2 ^ c.m - 1)
        (∀ i : RegIx, s.psel.toNat = i.val →
          hostRead off s = .next
            { s with pcidx := s.pcidx + 1#11,
                     prdata := ((s.data.p.get i).getD s.pcidx.toNat 0#16).setWidth 32 } ∧
          ∃ q, hostWrite off w s =
              { s with pcidx := s.pcidx + 1#11, data := { s.data with p := s.data.p.set i q } } ∧
            q.getLast? ≠ some 0#16 ∧
            ∀ j, q.getD j 0#16 =
              if j = s.pcidx.toNat then masked else (s.data.p.get i).getD j 0#16) ∧
        (s.psel = 8#4 →
          hostRead off s = .next
            { s with pcidx := s.pcidx + 1#11,
                     prdata := (s.data.gp.getD s.pcidx.toNat 0#16).setWidth 32 } ∧
          ∃ q, hostWrite off w s =
              { s with pcidx := s.pcidx + 1#11, data := { s.data with gp := q } } ∧
            q.getLast? ≠ some 0#16 ∧
            ∀ j, q.getD j 0#16 =
              if j = s.pcidx.toNat then masked else s.data.gp.getD j 0#16)) ∧
      (s.data.cfg = none ∨ 9 ≤ s.psel.toNat ∨ s.hw.tMax < s.pcidx.toNat →
        hostRead off s = .next { s with aerr := true, pcidx := s.pcidx + 1#11, prdata := 0#32 } ∧
        hostWrite off w s = { s with aerr := true, pcidx := s.pcidx + 1#11 })) ∧
    (off &&& 0xFFC#12 = 0x05C#12 →
      let degree := fun p : Poly =>
        if p = [] then 0x0000FFFF#32 else (BitVec.ofNat 16 (p.length - 1)).setWidth 32
      (∀ i : RegIx, s.psel.toNat = i.val →
        hostRead off s = .next { s with prdata := degree (s.data.p.get i) }) ∧
      (s.psel = 8#4 → hostRead off s = .next { s with prdata := degree s.data.gp }) ∧
      (9 ≤ s.psel.toNat → hostRead off s = .next { s with prdata := 0x0000FFFF#32 }))

/-- R53, R109: a host write to Fi stores the low m bits of w[15:0], and 0 while CFG_OK = 0; a read
returns Fi. -/
def Obligations.FieldRegisterPort : Prop :=
  ∀ (s : State) (off : BitVec 12) (w : Word) (i : RegIx), s.rstN = true → s.busy = false →
    off &&& 0xFFC#12 = 0x060#12 + 4#12 * BitVec.ofNat 12 i.val →
    hostRead off s = .next { s with prdata := (s.data.f.get i).setWidth 32 } ∧
    (s.data.cfg = none →
      hostWrite off w s = { s with data := { s.data with f := s.data.f.set i 0#16 } }) ∧
    ∀ c, s.data.cfg = some c →
      hostWrite off w s =
        { s with data := { s.data with
          f := s.data.f.set i (w.setWidth 16 &&& BitVec.ofNat 16 (2 ^ c.m - 1)) } }

/-! ## Control commands -/

/-- R200: NOP succeeds, configured or not, and changes nothing; its only legal word is 0. -/
def Obligations.NopOnlySetsDone : Prop :=
  (∀ s : State, s.Fresh → Succeeds .nop s s.data) ∧
  decodeWord 0#32 = .ok .nop ∧
  ∀ w : Word, w.extractLsb' 26 6 = 0#6 → w ≠ 0#32 → ∃ why, decodeWord w = .error why

/-- R201, R464, R40: CONFIG with legal parameters sets the configuration, wiping the data when it
changes; otherwise it reports PARAM. PARAM, NVAL and KVAL show the configuration. -/
def Obligations.ConfigSetsTheCode : Prop :=
  (∀ (s : State) (m t : Nat), s.Fresh →
    let legal := 2 ≤ m ∧ m ≤ s.hw.mMax ∧ 2 ≤ t ∧ t ≤ s.hw.tMax ∧ m * t < 2 ^ m ∧
      s.data.fmod >>> m = 1#17
    (legal → s.data.cfg ≠ some { m := m, t := t } →
      Succeeds (.config m t) s
        { s.data with cfg := some { m := m, t := t }, degen := 0#2, iter := 0#16,
                      rootcnt := 0#17, swapcnt := 0#17, f := .all 0#16, p := .all [], gp := [],
                      mems := .unwritten }) ∧
    (legal → s.data.cfg = some { m := m, t := t } → Succeeds (.config m t) s s.data) ∧
    (¬legal → Fails (.config m t) s 3#8 (BitVec.ofNat 32 (t * 32 + m)))) ∧
  ∀ (s : State) (off : BitVec 12), s.hw.legal → s.rstN = true →
    (∀ c, s.data.cfg = some c → c.legal s.hw →
      (off &&& 0xFFC#12 = 0x020#12 →
        hostRead off s = .next { s with prdata := BitVec.ofNat 32 (c.m + 32 * c.t) }) ∧
      (off &&& 0xFFC#12 = 0x024#12 →
        hostRead off s = .next { s with prdata := BitVec.ofNat 32 (2 ^ c.m) }) ∧
      (off &&& 0xFFC#12 = 0x028#12 →
        hostRead off s = .next { s with prdata := BitVec.ofNat 32 (2 ^ c.m - c.m * c.t) })) ∧
    (s.data.cfg = none → off &&& 0xFFC#12 ∈ [0x020#12, 0x024#12, 0x028#12] →
      hostRead off s = .next { s with prdata := 0#32 })

/-- R202: CHKPERM succeeds on n distinct entries, reports PERM with the smallest index whose entry
repeats an earlier one, and faults on an unwritten entry before any repeat. -/
def Obligations.ChkpermFindsTheFirstRepeat : Prop :=
  ∀ (s : State) (c : Code) (tab : Table) (v : Nat → Elem), s.Runs c →
    let table := match tab with
      | .pidx => s.data.mems.pidx
      | .swp => s.data.mems.swp
    ((∀ i, i < 2 ^ c.m → table.read i = some (v i)) →
      (∀ i j, i < j → j < 2 ^ c.m → v i ≠ v j) → Succeeds (.chkperm tab) s s.data) ∧
    ∀ i, i < 2 ^ c.m → (∀ j, j < i → table.read j = some (v j)) →
      (∀ j k, j < k → k < i → v j ≠ v k) →
      (table.read i = some (v i) → (∃ j, j < i ∧ v j = v i) →
        Fails (.chkperm tab) s 11#8 (BitVec.ofNat 32 i)) ∧
      (table.read i = none →
        exec (.chkperm tab) s = .fault (.unwritten (.elem (tableMem tab)) i))

/-! ## Field commands -/

/-- R234, R239: FLDI and FLDL write their operand, or report OPERAND when the immediate is not below
2^m; FLDL faults on an unwritten element. -/
def Obligations.FieldLoads : Prop :=
  ∀ (s : State) (c : Code) (fd : RegIx) (imm : Nat), s.Runs c →
    (imm < 2 ^ c.m →
      Succeeds (.fldi fd imm) s { s.data with f := s.data.f.set fd (BitVec.ofNat 16 imm) } ∧
      (∀ v, s.data.mems.l.read imm = some v →
        Succeeds (.fldl fd imm) s { s.data with f := s.data.f.set fd v }) ∧
      (s.data.mems.l.read imm = none →
        exec (.fldl fd imm) s = .fault (.unwritten (.elem .L) imm))) ∧
    (2 ^ c.m ≤ imm →
      Fails (.fldi fd imm) s 4#8 (BitVec.ofNat 32 imm) ∧
      Fails (.fldl fd imm) s 4#8 (BitVec.ofNat 32 imm))

/-- R235, R236, R231: FADD writes the bitwise XOR. FMUL writes a field element r below 2^m that is the
product of its operands as polynomials over GF(2), reduced modulo f. -/
def Obligations.FieldSumAndProduct : Prop :=
  ∀ (s : State) (c : Code) (fd fa fb : RegIx), s.Runs c → s.Sound →
    Succeeds (.fadd fd fa fb) s
      { s.data with f := s.data.f.set fd (s.data.f.get fa ^^^ s.data.f.get fb) } ∧
    let poly : (Nat → Bool) → Polynomial (ZMod 2) := fun bits =>
      ∑ j ∈ Finset.range 17, if bits j then Polynomial.X ^ j else 0
    ∃ r : Elem,
      Succeeds (.fmul fd fa fb) s { s.data with f := s.data.f.set fd r } ∧
      r.toNat < 2 ^ c.m ∧
      ∃ q : Polynomial (ZMod 2),
        poly (s.data.f.get fa).getLsbD * poly (s.data.f.get fb).getLsbD =
          q * poly s.data.fmod.getLsbD + poly r.getLsbD

/-- R237, R232: FINV writes the b below 2^m whose product with the operand is 1, and reports ARITH(1)
when there is none, always for 0. -/
def Obligations.FieldInverse : Prop :=
  ∀ (s : State) (c : Code) (fd fa : RegIx), s.Runs c → s.Sound →
    let k := c.gf s.data
    let a := s.data.f.get fa
    (∀ b : Elem, b.toNat < 2 ^ c.m → k.mul a b = 1#16 →
      Succeeds (.finv fd fa) s { s.data with f := s.data.f.set fd b }) ∧
    ((∀ b : Elem, b.toNat < 2 ^ c.m → k.mul a b ≠ 1#16) → Fails (.finv fd fa) s 6#8 1#32) ∧
    (a = 0#16 → Fails (.finv fd fa) s 6#8 1#32)

/-- R238, R233: FPOW writes the value at imm of the sequence a^0 = 1, a^(e+1) = (a^e) ⊗ a. -/
def Obligations.FieldPower : Prop :=
  ∀ (s : State) (c : Code) (fd fa : RegIx), s.Runs c →
    ∃ pow : Nat → Elem, pow 0 = 1#16 ∧
      (∀ e, pow (e + 1) = (c.gf s.data).mul (pow e) (s.data.f.get fa)) ∧
      ∀ imm, Succeeds (.fpow fd fa imm) s { s.data with f := s.data.f.set fd (pow imm) }

/-! ## Polynomial commands -/

/-- R266, R267, R268, R270, R285: PCLR, PMOV, PCONST and PSETG, and PLDG when GP has degree t. -/
def Obligations.PolynomialMoves : Prop :=
  ∀ (s : State) (c : Code) (pd pa fa : RegIx), s.Runs c →
    Succeeds (.pclr pd) s { s.data with p := s.data.p.set pd [] } ∧
    Succeeds (.pmov pd pa) s { s.data with p := s.data.p.set pd (s.data.p.get pa) } ∧
    Succeeds (.pconst pd fa) s
      { s.data with
        p := s.data.p.set pd (if s.data.f.get fa = 0#16 then [] else [s.data.f.get fa]) } ∧
    Succeeds (.psetg pa) s { s.data with gp := s.data.p.get pa } ∧
    (s.data.gp.length = c.t + 1 →
      Succeeds (.pldg pd) s { s.data with p := s.data.p.set pd s.data.gp })

/-- R269: PLDT writes the polynomial whose coefficient j below t is element imm·t + j of PST, or
reports OPERAND when the immediate is not below n; it faults on an unwritten coefficient. -/
def Obligations.TableEntryLoad : Prop :=
  ∀ (s : State) (c : Code) (pd : RegIx) (imm : Nat), s.Runs c →
    (imm < 2 ^ c.m →
      (∀ v : Nat → Elem, (∀ j, j < c.t → s.data.mems.pst.read (imm * c.t + j) = some (v j)) →
        ∃ q : Poly, Succeeds (.pldt pd imm) s { s.data with p := s.data.p.set pd q } ∧
          q.getLast? ≠ some 0#16 ∧ q.length ≤ c.t ∧ ∀ j, j < c.t → q.getD j 0#16 = v j) ∧
      ∀ j, j < c.t → s.data.mems.pst.read (imm * c.t + j) = none →
        ∃ e, exec (.pldt pd imm) s = .fault (.unwritten (.elem .PST) e)) ∧
    (2 ^ c.m ≤ imm → Fails (.pldt pd imm) s 4#8 (BitVec.ofNat 32 imm))

/-- R271, R272: PSETC sets coefficient imm and keeps the others, PGETC reads coefficient imm (0 above
the degree); both report OPERAND for imm above T_MAX. -/
def Obligations.CoefficientAccess : Prop :=
  ∀ (s : State) (c : Code) (pd fa fd pa : RegIx) (imm : Nat), s.Runs c →
    (imm ≤ s.hw.tMax →
      (∃ q : Poly, Succeeds (.psetc pd fa imm) s { s.data with p := s.data.p.set pd q } ∧
        q.getLast? ≠ some 0#16 ∧
        ∀ j, q.getD j 0#16 = if j = imm then s.data.f.get fa else (s.data.p.get pd).getD j 0#16) ∧
      Succeeds (.pgetc fd pa imm) s
        { s.data with f := s.data.f.set fd ((s.data.p.get pa).getD imm 0#16) }) ∧
    (s.hw.tMax < imm →
      Fails (.psetc pd fa imm) s 4#8 (BitVec.ofNat 32 imm) ∧
      Fails (.pgetc fd pa imm) s 4#8 (BitVec.ofNat 32 imm))

/-- R273, R283, R282, R261: PADD adds, PSCL scales and PSHL shifts, coefficient by coefficient; PSHL of
a non-zero polynomial reports OVERFLOW when the degree would exceed T_MAX. -/
def Obligations.SumScaleAndShift : Prop :=
  ∀ (s : State) (c : Code) (pd pa pb fb : RegIx) (imm : Nat), s.Runs c → s.Sound →
    let a := s.data.p.get pa
    let b := s.data.p.get pb
    (∃ q : Poly, Succeeds (.padd pd pa pb) s { s.data with p := s.data.p.set pd q } ∧
      q.getLast? ≠ some 0#16 ∧ ∀ i, q.getD i 0#16 = a.getD i 0#16 ^^^ b.getD i 0#16) ∧
    (∃ q : Poly, Succeeds (.pscl pd pa fb) s { s.data with p := s.data.p.set pd q } ∧
      q.getLast? ≠ some 0#16 ∧
      ∀ i, q.getD i 0#16 = (c.gf s.data).mul (s.data.f.get fb) (a.getD i 0#16)) ∧
    (a = [] ∨ a.length + imm ≤ s.hw.tMax + 1 →
      ∃ q : Poly, Succeeds (.pshl pd pa imm) s { s.data with p := s.data.p.set pd q } ∧
        q.getLast? ≠ some 0#16 ∧
        ∀ i, q.getD i 0#16 = if i < imm then 0#16 else a.getD (i - imm) 0#16) ∧
    (a ≠ [] → s.hw.tMax + 1 < a.length + imm →
      Fails (.pshl pd pa imm) s 5#8 (BitVec.ofNat 32 (a.length - 1 + imm)))

/-- R274, R261: PMUL writes the product, whose coefficient i is the XOR over j + l = i of the products
of coefficients, or reports OVERFLOW with its degree when that exceeds T_MAX. With no zero divisors the
degrees add up. -/
def Obligations.PolynomialProduct : Prop :=
  ∀ (s : State) (c : Code) (pd pa pb : RegIx), s.Runs c → s.Sound →
    let k := c.gf s.data
    let a := s.data.p.get pa
    let b := s.data.p.get pb
    ∃ q : Poly, q.getLast? ≠ some 0#16 ∧
      (∀ i, q.getD i 0#16 =
        xorSum (i + 1) fun j => k.mul (a.getD j 0#16) (b.getD (i - j) 0#16)) ∧
      (k.isField → a ≠ [] → b ≠ [] → q.length + 1 = a.length + b.length) ∧
      (a.length + b.length ≤ s.hw.tMax + 2 → q.length ≤ s.hw.tMax + 1) ∧
      (q.length ≤ s.hw.tMax + 1 →
        Succeeds (.pmul pd pa pb) s { s.data with p := s.data.p.set pd q }) ∧
      (s.hw.tMax + 1 < q.length →
        Fails (.pmul pd pa pb) s 5#8 (BitVec.ofNat 32 (q.length - 1)))

/-- R284, R261: PEVAL writes the sum of the products of the coefficients with the powers of the point,
whatever the order of evaluation. -/
def Obligations.PolynomialValue : Prop :=
  ∀ (s : State) (c : Code) (fd pa fb : RegIx), s.Runs c → s.Sound →
    let k := c.gf s.data
    let a := s.data.p.get pa
    let x := s.data.f.get fb
    ∃ pow : Nat → Elem, pow 0 = 1#16 ∧ (∀ e, pow (e + 1) = k.mul (pow e) x) ∧
      Succeeds (.peval fd pa fb) s
        { s.data with
          f := s.data.f.set fd (xorSum a.length fun i => k.mul (a.getD i 0#16) (pow i)) }

/-- R277, R278, R262: the quotient and remainder of PDIVQ and PDIVR satisfy a = q·b + r with
deg r < deg b; ARITH(3) for the zero divisor, ARITH(1) when its leading coefficient has no inverse. -/
def Obligations.DivisionWithRemainder : Prop :=
  ∀ (s : State) (c : Code) (pd pa pb : RegIx), s.Runs c → s.Sound →
    let k := c.gf s.data
    let a := s.data.p.get pa
    let b := s.data.p.get pb
    (b ≠ [] → k.invertible (b.getLastD 0#16) →
      ∃ q r : Poly, Poly.wf c.m q ∧ Poly.wf c.m r ∧ r.length < b.length ∧
        a = Poly.add (Poly.mul k q b) r ∧
        Succeeds (.pdivq pd pa pb) s { s.data with p := s.data.p.set pd q } ∧
        Succeeds (.pdivr pd pa pb) s { s.data with p := s.data.p.set pd r }) ∧
    (b = [] → Fails (.pdivq pd pa pb) s 6#8 3#32 ∧ Fails (.pdivr pd pa pb) s 6#8 3#32) ∧
    (b ≠ [] → ¬k.invertible (b.getLastD 0#16) →
      Fails (.pdivq pd pa pb) s 6#8 1#32 ∧ Fails (.pdivr pd pa pb) s 6#8 1#32)

/-- R275, R276, R280, R262: PMOD, PMULM and PSQRM write a polynomial of degree below t congruent modulo
g to their operand, product and square; ARITH(1) when g's leading coefficient has no inverse. -/
def Obligations.ReductionModuloG : Prop :=
  ∀ (s : State) (c : Code) (pd pa pb : RegIx), s.Runs c → s.Sound → s.data.gp.length = c.t + 1 →
    let k := c.gf s.data
    let g := s.data.gp
    let a := s.data.p.get pa
    let b := s.data.p.get pb
    (k.invertible (g.getLastD 0#16) →
      (∃ r : Poly, Poly.wf c.m r ∧ r.length ≤ c.t ∧ Poly.modEq k g a r ∧
        Succeeds (.pmod pd pa) s { s.data with p := s.data.p.set pd r }) ∧
      (∃ r : Poly, Poly.wf c.m r ∧ r.length ≤ c.t ∧ Poly.modEq k g (Poly.mul k a b) r ∧
        Succeeds (.pmulm pd pa pb) s { s.data with p := s.data.p.set pd r }) ∧
      (∃ r : Poly, Poly.wf c.m r ∧ r.length ≤ c.t ∧ Poly.modEq k g (Poly.mul k a a) r ∧
        Succeeds (.psqrm pd pa) s { s.data with p := s.data.p.set pd r })) ∧
    (¬k.invertible (g.getLastD 0#16) →
      Fails (.pmod pd pa) s 6#8 1#32 ∧ Fails (.pmulm pd pa pb) s 6#8 1#32 ∧
      Fails (.psqrm pd pa) s 6#8 1#32)

/-- R279, R263: over a field, PINVM writes the polynomial of degree below t whose product with the
operand is 1 modulo g, and reports ARITH(2) when the operand has no inverse modulo g. For any modulus f,
the Euclidean algorithm on the operand and g ends in one of three ways: ARITH(1) at a divisor whose
leading coefficient has no inverse; at the zero remainder, ARITH(2) when the last divisor is not a
constant, and otherwise the inverse. -/
def Obligations.InverseModuloG : Prop :=
  ∀ (s : State) (c : Code) (pd pa : RegIx), s.Runs c → s.Sound → s.data.gp.length = c.t + 1 →
    let k := c.gf s.data
    let g := s.data.gp
    let a := s.data.p.get pa
    let inverted := ∃ r : Poly, Poly.wf c.m r ∧ r.length ≤ c.t ∧
      Poly.modEq k g (Poly.mul k a r) [1#16] ∧
      Succeeds (.pinvm pd pa) s { s.data with p := s.data.p.set pd r }
    (k.isField →
      (Poly.invertibleMod k g a → inverted) ∧
      (¬Poly.invertibleMod k g a → Fails (.pinvm pd pa) s 6#8 2#32)) ∧
    ∃ (n : Nat) (ρ q : Nat → Poly), Poly.Euclid k a g n ρ q ∧
      (Poly.stuckAt k (ρ (n + 1)) ∧ Fails (.pinvm pd pa) s 6#8 1#32 ∨
        ρ (n + 1) = [] ∧ (ρ n).length ≠ 1 ∧ Fails (.pinvm pd pa) s 6#8 2#32 ∨
        ρ (n + 1) = [] ∧ (ρ n).length = 1 ∧ inverted)

/-- R281, R264: PSQRT writes the operand reduced modulo g and squared m·t − 1 times modulo g. -/
def Obligations.SquareRootModuloG : Prop :=
  ∀ (s : State) (c : Code) (pd pa : RegIx), s.Runs c → s.Sound → s.data.gp.length = c.t + 1 →
    let k := c.gf s.data
    let g := s.data.gp
    (k.invertible (g.getLastD 0#16) →
      ∃ x : Nat → Poly, Poly.modEq k g (s.data.p.get pa) (x 0) ∧
        (∀ j, Poly.wf c.m (x j) ∧ (x j).length ≤ c.t ∧
          Poly.modEq k g (Poly.mul k (x j) (x j)) (x (j + 1))) ∧
        Succeeds (.psqrt pd pa) s { s.data with p := s.data.p.set pd (x (c.m * c.t - 1)) }) ∧
    (¬k.invertible (g.getLastD 0#16) → Fails (.psqrt pd pa) s 6#8 1#32)

/-! ## Decode commands -/

/-- R340: PERMC writes W[j] = C[PIDX[j]] for every j below n, or reports MALFORMED with CLEN when CLEN
is not n. R13: it faults when one of those elements is unwritten. (That the fault comes before
MALFORMED is the model's reading, log 7.) -/
def Obligations.PermcReordersTheCiphertext : Prop :=
  ∀ (s : State) (c : Code), s.Runs c →
    (∀ (ix : Nat → Elem) (b : Nat → Bool),
      (∀ j, j < 2 ^ c.m → s.data.mems.pidx.read j = some (ix j) ∧
        s.data.mems.c.read (ix j).toNat = some (b j)) →
      (s.data.clen.toNat = 2 ^ c.m →
        ∃ w : Memory Bool,
          Succeeds .permc s { s.data with mems := { s.data.mems with w := w } } ∧
          ∀ j, w.read j = if j < 2 ^ c.m then some (b j) else s.data.mems.w.read j) ∧
      (s.data.clen.toNat ≠ 2 ^ c.m → Fails .permc s 7#8 (s.data.clen.setWidth 32))) ∧
    ∀ j, j < 2 ^ c.m →
      (s.data.mems.pidx.read j = none ∨
        ∃ i, s.data.mems.pidx.read j = some i ∧ s.data.mems.c.read i.toNat = none) →
      Unwritten .permc s

/-- R342: SYND writes to P0 the sum of the table entries PST[i] with W[i] = 1. R13: it faults when a bit
of W, or a coefficient of such an entry, is unwritten. -/
def Obligations.SyndromeIsTheSumOfEntries : Prop :=
  ∀ (s : State) (c : Code), s.Runs c →
    (∀ (w : Nat → Bool) (v : Nat → Nat → Elem),
      (∀ i, i < 2 ^ c.m → s.data.mems.w.read i = some (w i)) →
      (∀ i j, i < 2 ^ c.m → w i = true → j < c.t →
        s.data.mems.pst.read (i * c.t + j) = some (v i j)) →
      ∃ q : Poly, Succeeds .synd s { s.data with p := s.data.p.set 0 q } ∧
        q.getLast? ≠ some 0#16 ∧ q.length ≤ c.t ∧
        ∀ j, j < c.t → q.getD j 0#16 = xorSum (2 ^ c.m) fun i => if w i then v i j else 0#16) ∧
    ∀ i, i < 2 ^ c.m →
      (s.data.mems.w.read i = none ∨
        s.data.mems.w.read i = some true ∧
          ∃ j, j < c.t ∧ s.data.mems.pst.read (i * c.t + j) = none) →
      Unwritten .synd s

/-- R344: over a field, LOCATOR's three ends (S = 0, T = 0, the general case) and its ARITH(2). In the
general case T = S⁻¹ + z, τ is T squared m·t − 1 times, (α, γ) and (r₀, u₀) satisfy the key equation
modulo g within the degree bounds of R347, and σ = α² + z·γ². For any modulus f, the Euclidean algorithm
on P0 and g decides between ARITH(1), S = 0, ARITH(2) and an invertible S; then, where T is not 0, the
one on τ and g, stopped at degree ⌊t/2⌋, between ARITH(1) and the general case, with its eliminations in
ITER. -/
def Obligations.LocatorCases : Prop :=
  ∀ (s : State) (c : Code), s.Runs c → s.Sound → s.data.gp.length = c.t + 1 →
    let k := c.gf s.data
    let g := s.data.gp
    let p0 := s.data.p.r0
    let z : Poly := [0#16, 1#16]
    let degenerate := fun why : BitVec 2 =>
      Succeeds .locator s
        { s.data with p := { r0 := p0, r1 := [], r2 := [], r3 := [], r4 := [], r5 := [], r6 := [],
                             r7 := z }, degen := why, iter := 0#16 }
    -- T is S⁻¹ + z modulo g
    let locates := fun t : Poly =>
      Poly.wf c.m t ∧ t.length ≤ c.t ∧ Poly.modEq k g (Poly.mul k p0 (Poly.add t z)) [1#16]
    -- x 0, x 1, … are squared modulo g
    let squares := fun x : Nat → Poly =>
      ∀ j, Poly.wf c.m (x j) ∧ (x j).length ≤ c.t ∧
        Poly.modEq k g (Poly.mul k (x j) (x j)) (x (j + 1))
    let tau := fun x : Nat → Poly => x (c.m * c.t - 1)
    let sigma := fun alpha gamma : Poly =>
      Poly.add (Poly.mul k alpha alpha) (Poly.shift 1 (Poly.mul k gamma gamma))
    let general := fun (x : Nat → Poly) (alpha gamma r0 u0 : Poly) (it : Nat) =>
      Poly.KeyEquation k c.t g (tau x) alpha gamma r0 u0 ∧
        (sigma alpha gamma).length ≤ c.t + 1 ∧
        Succeeds .locator s
          { s.data with p := { r0 := p0, r1 := x 0, r2 := tau x, r3 := alpha, r4 := gamma, r5 := r0,
                               r6 := u0, r7 := sigma alpha gamma },
                        degen := 0#2, iter := BitVec.ofNat 16 (min it 0xFFFF) }
    (k.isField →
      (Poly.modEq k g p0 [] → degenerate 1#2) ∧
      (Poly.modEq k g (Poly.mul k p0 z) [1#16] → degenerate 2#2) ∧
      (Poly.invertibleMod k g p0 → ¬Poly.modEq k g (Poly.mul k p0 z) [1#16] →
        ∃ (x : Nat → Poly) (alpha gamma r0 u0 : Poly) (it : Nat),
          locates (x 0) ∧ squares x ∧ general x alpha gamma r0 u0 it) ∧
      (¬Poly.modEq k g p0 [] → ¬Poly.invertibleMod k g p0 → Fails .locator s 6#8 2#32)) ∧
    ∃ (n : Nat) (ρ q : Nat → Poly), Poly.Euclid k p0 g n ρ q ∧
      (Poly.stuckAt k (ρ (n + 1)) ∧ Fails .locator s 6#8 1#32 ∨
        n = 1 ∧ ρ 2 = [] ∧ degenerate 1#2 ∨
        1 < n ∧ ρ (n + 1) = [] ∧ (ρ n).length ≠ 1 ∧ Fails .locator s 6#8 2#32 ∨
        1 < n ∧ ρ (n + 1) = [] ∧ (ρ n).length = 1 ∧
          (locates [] ∧ degenerate 2#2 ∨
            ∃ x : Nat → Poly, x 0 ≠ [] ∧ locates (x 0) ∧ squares x ∧
              ∃ (n' : Nat) (ρ' q' : Nat → Poly), Poly.Euclid k (tau x) g n' ρ' q' ∧
                (c.t / 2 + 1 < (ρ' (n' + 1)).length ∧ Poly.stuckAt k (ρ' (n' + 1)) ∧
                    Fails .locator s 6#8 1#32 ∨
                  ∃ gamma u0 : Poly,
                    general x (ρ' (n' + 1)) gamma (ρ' n') u0 (Poly.eliminations q' n'))))

/-- R347, R344: LOCATOR's OVERFLOW check never fires, whatever the modulus, neither in LOCATOR nor in
DECODE's sub-step 3; DECODE reports OVERFLOW nowhere else. (The rule claims it for irreducible f; that
it holds for every f is an inference of the model's author.) -/
def Obligations.LocatorNeverOverflows : Prop :=
  ∀ (s : State) (c : Code), s.Runs c → s.Sound → s.err = false →
    (∀ info, ¬Fails .locator s 5#8 info) ∧
    ∀ t, exec .decode s = .next t → t.err = true → t.errcode.code ≠ 5#8

/-- R345, R346, R347: over a field, KEYEQ writes pairs (α, γ) and (r₀, u₀) that satisfy the key equation
u·τ ≡ r modulo g, stopped at deg α ≤ ⌊t/2⌋ < deg r₀, with deg γ = t − deg r₀. For any modulus f, the
Euclidean algorithm on τ and g, stopped there, ends in ARITH(1) at a divisor whose leading coefficient
has no inverse, or in those pairs, with α and r₀ its last remainders and its eliminations in ITER. When
τ mod g is already that low, there is no elimination. -/
def Obligations.KeyEquationIsSolved : Prop :=
  ∀ (s : State) (c : Code), s.Runs c → s.Sound → s.data.gp.length = c.t + 1 →
    let k := c.gf s.data
    let g := s.data.gp
    let tau := s.data.p.r2
    let solved := fun (alpha gamma r0 u0 : Poly) (it : Nat) =>
      Poly.KeyEquation k c.t g tau alpha gamma r0 u0 ∧
        Succeeds .keyeq s
          { s.data with p := { s.data.p with r3 := alpha, r4 := gamma, r5 := r0, r6 := u0 },
                        iter := BitVec.ofNat 16 (min it 0xFFFF) }
    (k.isField → ∃ (alpha gamma r0 u0 : Poly) (it : Nat), solved alpha gamma r0 u0 it) ∧
    (∃ (n : Nat) (ρ q : Nat → Poly), Poly.Euclid k tau g n ρ q ∧
      (c.t / 2 + 1 < (ρ (n + 1)).length ∧ Poly.stuckAt k (ρ (n + 1)) ∧ Fails .keyeq s 6#8 1#32 ∨
        ∃ gamma u0 : Poly, solved (ρ (n + 1)) gamma (ρ n) u0 (Poly.eliminations q n))) ∧
    (k.invertible (g.getLastD 0#16) →
      ∀ a : Poly, Poly.wf c.m a → Poly.modEq k g tau a → a.length ≤ c.t / 2 + 1 →
        Succeeds .keyeq s
          { s.data with p := { s.data.p with r3 := a, r4 := [1#16], r5 := g, r6 := [] },
                        iter := 0#16 })

/-- R348: ROOTS marks in E the support positions at which the polynomial in P7 is 0, flips those bits of
W, and counts them. R13: it faults when an element of L or a bit of W is unwritten. -/
def Obligations.RootsAreFlipped : Prop :=
  ∀ (s : State) (c : Code), s.Runs c →
    (∀ (x : Nat → Elem) (w : Nat → Bool),
      (∀ i, i < 2 ^ c.m → s.data.mems.l.read i = some (x i) ∧ s.data.mems.w.read i = some (w i)) →
      let root := fun i => decide (Poly.eval (c.gf s.data) s.data.p.r7 (x i) = 0#16)
      ∃ e w' : Memory Bool,
        Succeeds .roots s
          { s.data with mems := { s.data.mems with e := e, w := w' },
                        rootcnt := BitVec.ofNat 17 ((List.range (2 ^ c.m)).filter root).length } ∧
        (∀ i, e.read i = if i < 2 ^ c.m then some (root i) else s.data.mems.e.read i) ∧
        ∀ i, w'.read i = if i < 2 ^ c.m then some (w i ^^ root i) else s.data.mems.w.read i) ∧
    ∀ i, i < 2 ^ c.m → (s.data.mems.l.read i = none ∨ s.data.mems.w.read i = none) →
      Unwritten .roots s

/-- R350, R352: EXTRACT writes MC[r] = W[SWP[mt + r]]; UNSCR writes M = MC · SINV over GF(2). R13: each
faults when an element it reads is unwritten. -/
def Obligations.ExtractAndUnscramble : Prop :=
  ∀ (s : State) (c : Code), s.Runs c →
    let mt := c.m * c.t
    let k := 2 ^ c.m - mt
    (∀ (ix : Nat → Elem) (b : Nat → Bool),
      (∀ r, r < k → s.data.mems.swp.read (mt + r) = some (ix r) ∧
        s.data.mems.w.read (ix r).toNat = some (b r)) →
      ∃ mc : Memory Bool,
        Succeeds .extract s { s.data with mems := { s.data.mems with mc := mc } } ∧
        ∀ r, mc.read r = if r < k then some (b r) else s.data.mems.mc.read r) ∧
    (∀ r, r < k →
      (s.data.mems.swp.read (mt + r) = none ∨
        ∃ i, s.data.mems.swp.read (mt + r) = some i ∧ s.data.mems.w.read i.toNat = none) →
      Unwritten .extract s) ∧
    (∀ (a : Nat → Bool) (v : Nat → Nat → Bool),
      (∀ r, r < k → s.data.mems.mc.read r = some (a r)) →
      (∀ r j, r < k → j < k → s.data.mems.sinv.read (r * k + j) = some (v r j)) →
      ∃ m : Memory Bool,
        Succeeds .unscr s { s.data with mems := { s.data.mems with msg := m } } ∧
        ∀ j, m.read j =
          if j < k then some (((List.range k).map fun r => a r && v r j).foldl xor false)
          else s.data.mems.msg.read j) ∧
    ∀ r j, r < k → j < k →
      (s.data.mems.mc.read r = none ∨ s.data.mems.sinv.read (r * k + j) = none) →
      Unwritten .unscr s

/-- R354: when the six commands succeed one after the other, DECODE succeeds with their data; when one
of them fails after the earlier ones succeeded, DECODE fails with its error, the sub-step's number in
SUB, and nothing else changes. R13, R456: DECODE faults exactly when an element of the union of their
Reads, less what they write, is unwritten. (That the fault comes before an error of a sub-step is the
model's reading, log 7.) -/
def Obligations.DecodeIsItsSixSteps : Prop :=
  ∀ (s : State) (c : Code), s.Runs c → s.err = false →
    let steps : List Instr := [.permc, .synd, .locator, .roots, .extract, .unscr]
    (∀ t, runAllOk steps s = some t → Succeeds .decode s t.data) ∧
    (∀ (n : Nat) (u : State) (code : BitVec 8) (info : Word), n < 6 →
      s.data.DecodeReadsWritten c →
      runAllOk (steps.take n) s = some u → Fails (steps.getD n .nop) u code info →
      exec .decode s = .next { s with engine := none, err := true, errinfo := info,
                                      errcode := { code := code, opc := s.cmd.extractLsb' 26 6,
                                                   sub := BitVec.ofNat 3 (n + 1) } }) ∧
    (s.data.DecodeReadsWritten c → ∃ t, exec .decode s = .next t) ∧
    (¬s.data.DecodeReadsWritten c → Unwritten .decode s)

/-- R354, R340 to R352, R456: with an irreducible f and g, GP of degree t, CLEN = n and the key and
ciphertext memories written, DECODE completes, with the data of its six commands in order. -/
def Obligations.DecodeCompletes : Prop :=
  ∀ (s : State) (c : Code), s.Runs c → s.Sound → s.err = false →
    s.data.gp.length = c.t + 1 → (c.gf s.data).isField →
    Poly.irreducible (c.gf s.data) s.data.gp → s.data.clen.toNat = 2 ^ c.m →
    (∀ i, i < 2 ^ c.m →
      (s.data.mems.pidx.read i).isSome = true ∧ (s.data.mems.c.read i).isSome = true ∧
      (s.data.mems.l.read i).isSome = true ∧ (s.data.mems.swp.read i).isSome = true) →
    (∀ i, i < 2 ^ c.m * c.t → (s.data.mems.pst.read i).isSome = true) →
    (∀ i, i < (2 ^ c.m - c.m * c.t) * (2 ^ c.m - c.m * c.t) →
      (s.data.mems.sinv.read i).isSome = true) →
    ∃ t, runAllOk [.permc, .synd, .locator, .roots, .extract, .unscr] s = some t ∧
      Succeeds .decode s t.data

/-! ## Key-side commands -/

/-- R300: LGEN writes the support 0, a, a ⊗ a, … when its n elements are distinct, and otherwise reports
FIELD with the smallest index whose element repeats an earlier one. -/
def Obligations.SupportFromGenerator : Prop :=
  ∀ (s : State) (c : Code) (fa : RegIx) (l : Nat → Elem), s.Runs c →
    l 0 = 0#16 → l 1 = s.data.f.get fa →
    (∀ i, l (i + 2) = (c.gf s.data).mul (s.data.f.get fa) (l (i + 1))) →
    ((∀ i j, i < j → j < 2 ^ c.m → l i ≠ l j) →
      ∃ l' : Memory Elem,
        Succeeds (.lgen fa) s { s.data with mems := { s.data.mems with l := l' } } ∧
        ∀ i, l'.read i = if i < 2 ^ c.m then some (l i) else s.data.mems.l.read i) ∧
    ∀ i, i < 2 ^ c.m → (∀ j k, j < k → k < i → l j ≠ l k) → (∃ j, j < i ∧ l j = l i) →
      Fails (.lgen fa) s 8#8 (BitVec.ofNat 32 i)

/-- R302, R303, R263: for any modulus f, when g is invertible at every support element and so is its
leading coefficient, PSTGEN writes for every i the t coefficients of a polynomial whose product with
z + L[i] is 1 modulo g. Otherwise it stops at the smallest support index that fails: GOPPA with the
index when g is 0 there, ARITH(1) when g is not 0 there and it, or the leading coefficient of g, has no
inverse. Over a field every non-zero value has an inverse. R13: it faults when an element of L is
unwritten. (That the fault comes before every error of the rule is the model's reading, log 7.) -/
def Obligations.PreSyndromeTable : Prop :=
  ∀ (s : State) (c : Code), s.Runs c →
    (∀ x : Nat → Elem, (∀ i, i < 2 ^ c.m → s.data.mems.l.read i = some (x i)) →
      s.Sound → s.data.gp.length = c.t + 1 →
      let k := c.gf s.data
      let g := s.data.gp
      let lead := k.invertible (g.getLastD 0#16)
      let value := fun i => Poly.eval k g (x i)
      (lead → (∀ i, i < 2 ^ c.m → k.invertible (value i)) →
        ∃ pst : Memory Elem,
          Succeeds .pstgen s { s.data with mems := { s.data.mems with pst := pst } } ∧
          (∀ i, i < 2 ^ c.m → ∃ q : Poly, Poly.wf c.m q ∧ q.length ≤ c.t ∧
            Poly.modEq k g (Poly.mul k q [x i, 1#16]) [1#16] ∧
            ∀ j, j < c.t → pst.read (i * c.t + j) = some (q.getD j 0#16)) ∧
          ∀ e, 2 ^ c.m * c.t ≤ e → pst.read e = s.data.mems.pst.read e) ∧
      ∀ i, i < 2 ^ c.m → (∀ j, j < i → k.invertible (value j)) → (i = 0 ∨ lead) →
        (value i = 0#16 → Fails .pstgen s 9#8 (BitVec.ofNat 32 i)) ∧
        (value i ≠ 0#16 → ¬(k.invertible (value i) ∧ lead) → Fails .pstgen s 6#8 1#32)) ∧
    ∀ i, i < 2 ^ c.m → s.data.mems.l.read i = none → Unwritten .pstgen s

/-- R304, R232: for any modulus f, when g is invertible at every support element HGEN writes at row
i·m + b, column j of H bit b of g(L[j])⁻¹ ⊗ L[j]^i. Otherwise it stops at the smallest support index
that fails: GOPPA with the index when g is 0 there, ARITH(1) when g is not 0 there and has no inverse.
Over a field every non-zero value has an inverse. R13: it faults when an element of L is unwritten.
(That the fault comes before every error of the rule is the model's reading, log 7.) -/
def Obligations.ParityCheckMatrix : Prop :=
  ∀ (s : State) (c : Code), s.Runs c →
    (∀ x : Nat → Elem, (∀ i, i < 2 ^ c.m → s.data.mems.l.read i = some (x i)) →
      s.Sound → s.data.gp.length = c.t + 1 →
      let k := c.gf s.data
      let g := s.data.gp
      let value := fun j => Poly.eval k g (x j)
      ((∀ j, j < 2 ^ c.m → k.invertible (value j)) →
        ∃ (h : Memory Bool) (v : Nat → Elem) (pow : Nat → Nat → Elem),
          Succeeds .hgen s { s.data with mems := { s.data.mems with h := h } } ∧
          (∀ j, j < 2 ^ c.m → (v j).toNat < 2 ^ c.m ∧ k.mul (value j) (v j) = 1#16 ∧
            pow j 0 = 1#16 ∧ (∀ e, pow j (e + 1) = k.mul (pow j e) (x j)) ∧
            ∀ i b, i < c.t → b < c.m →
              h.read ((i * c.m + b) * 2 ^ c.m + j) = some ((k.mul (v j) (pow j i)).getLsbD b)) ∧
          ∀ e, c.m * c.t * 2 ^ c.m ≤ e → h.read e = s.data.mems.h.read e) ∧
      ∀ i, i < 2 ^ c.m → (∀ j, j < i → k.invertible (value j)) →
        (value i = 0#16 → Fails .hgen s 9#8 (BitVec.ofNat 32 i)) ∧
        (value i ≠ 0#16 → ¬k.invertible (value i) → Fails .hgen s 6#8 1#32)) ∧
    ∀ i, i < 2 ^ c.m → s.data.mems.l.read i = none → Unwritten .hgen s

/-- R306, R307: SYSFORM makes one swap for every row j whose diagonal bit is 0, with the smallest later
column that is the unit column e_j, and writes the resulting order to SWP and the number of swaps to
SWAPCNT when the first m·t columns are then unit columns. It reports KEYGEN(j) when row j has no such
column, and KEYGEN(0x80000000 | c) when column c is the first that is not a unit column. `sw j` is the
order of the columns before row j. R13: it faults when a bit of H is unwritten. (That the fault comes
before KEYGEN is the model's reading, log 7.) -/
def Obligations.SystematicForm : Prop :=
  (∀ (s : State) (c : Code), s.Runs c →
    ∀ e, e < c.m * c.t * 2 ^ c.m → s.data.mems.h.read e = none → Unwritten .sysform s) ∧
  ∀ (s : State) (c : Code) (h : Nat → Nat → Bool) (sw : Nat → List Nat), s.Runs c → s.Sound →
    let n := 2 ^ c.m
    let mt := c.m * c.t
    let unit := fun (v : List Nat) (j col : Nat) =>
      ∀ r, r < mt → h r (v.getD col 0) = decide (r = j)
    let swapsRow := fun j =>
      (h j ((sw j).getD j 0) = true ∧ sw (j + 1) = sw j) ∨
      (h j ((sw j).getD j 0) = false ∧ ∃ col, j < col ∧ col < n ∧ unit (sw j) j col ∧
        (∀ col', j < col' → col' < col → ¬unit (sw j) j col') ∧
        sw (j + 1) = ((sw j).set j ((sw j).getD col 0)).set col ((sw j).getD j 0))
    (∀ r j, r < mt → j < n → s.data.mems.h.read (r * n + j) = some (h r j)) →
    sw 0 = List.range n →
    ((∀ j, j < mt → swapsRow j) → (∀ j, j < mt → unit (sw mt) j j) →
      ∃ swp : Memory Elem,
        Succeeds .sysform s
          { s.data with
            mems := { s.data.mems with swp := swp }
            swapcnt := BitVec.ofNat 17
              ((List.range mt).filter fun j => !h j ((sw j).getD j 0)).length } ∧
        ∀ i, swp.read i =
          if i < n then some (BitVec.ofNat 16 ((sw mt).getD i 0)) else s.data.mems.swp.read i) ∧
    (∀ j, j < mt → (∀ j', j' < j → swapsRow j') → h j ((sw j).getD j 0) = false →
      (∀ col, j < col → col < n → ¬unit (sw j) j col) →
      Fails .sysform s 10#8 (BitVec.ofNat 32 j)) ∧
    ∀ col, col < mt → (∀ j, j < mt → swapsRow j) → (∀ j, j < col → unit (sw mt) j j) →
      ¬unit (sw mt) col col →
      Fails .sysform s 10#8 (0x80000000#32 ||| BitVec.ofNat 32 col)

/-- R308, R309: GEXTRACT writes G[r][SWP[j]] = H[j][SWP[mt + r]] for j below mt and the identity for the
other j, or reports PERM with the smallest index whose SWP entry repeats an earlier one. R13: it faults
when an entry of SWP, or a bit of the block H[0 … mt−1][SWP[mt … n−1]], is unwritten. (That the fault
comes before PERM is the model's reading, log 7.) -/
def Obligations.GeneratorMatrix : Prop :=
  ∀ (s : State) (c : Code), s.Runs c →
    let n := 2 ^ c.m
    let mt := c.m * c.t
    let k := n - mt
    (∀ ix : Nat → Elem, (∀ j, j < n → s.data.mems.swp.read j = some (ix j)) →
      (∀ b : Nat → Nat → Bool,
        (∀ r j, r < k → j < mt →
          s.data.mems.h.read (j * n + (ix (mt + r)).toNat) = some (b j r)) →
        ((∀ i j, i < j → j < n → ix i ≠ ix j) → (∀ j, j < n → (ix j).toNat < n) →
          ∃ g : Memory Bool,
            Succeeds .gextract s { s.data with mems := { s.data.mems with g := g } } ∧
            (∀ r j, r < k → j < n →
              g.read (r * n + (ix j).toNat) =
                some (if j < mt then b j r else decide (j - mt = r))) ∧
            ∀ e, k * n ≤ e → g.read e = s.data.mems.g.read e) ∧
        ∀ i, i < n → (∀ j l, j < l → l < i → ix j ≠ ix l) → (∃ j, j < i ∧ ix j = ix i) →
          Fails .gextract s 11#8 (BitVec.ofNat 32 i)) ∧
      ∀ r j, r < k → j < mt → s.data.mems.h.read (j * n + (ix (mt + r)).toNat) = none →
        Unwritten .gextract s) ∧
    ∀ j, j < n → s.data.mems.swp.read j = none → Unwritten .gextract s
end

