-- ==== Sys2Proof/Laws/State.lean ====
section
/-! SUPPORT. One lemma per field per named update of the state, true by definition, so that no later
proof unfolds an update. -/

namespace Sys2Proof.Machine

/-! ## `State.accept` -/

@[simp] theorem State.accept_hw (s : State) (w : Word) : (s.accept w).hw = s.hw := rfl
@[simp] theorem State.accept_data (s : State) (w : Word) : (s.accept w).data = s.data := rfl
@[simp] theorem State.accept_engine (s : State) (w : Word) :
    (s.accept w).engine = some { copy := s.data, sub := 0 } := rfl
@[simp] theorem State.accept_cmd (s : State) (w : Word) : (s.accept w).cmd = w := rfl
@[simp] theorem State.accept_done (s : State) (w : Word) : (s.accept w).done = false := rfl
@[simp] theorem State.accept_err (s : State) (w : Word) : (s.accept w).err = s.err := rfl
@[simp] theorem State.accept_aerr (s : State) (w : Word) : (s.accept w).aerr = s.aerr := rfl
@[simp] theorem State.accept_berr (s : State) (w : Word) : (s.accept w).berr = s.berr := rfl
@[simp] theorem State.accept_rej (s : State) (w : Word) : (s.accept w).rej = s.rej := rfl
@[simp] theorem State.accept_doneIE (s : State) (w : Word) : (s.accept w).doneIE = s.doneIE := rfl
@[simp] theorem State.accept_errIE (s : State) (w : Word) : (s.accept w).errIE = s.errIE := rfl
@[simp] theorem State.accept_errcode (s : State) (w : Word) :
    (s.accept w).errcode = s.errcode := rfl
@[simp] theorem State.accept_errinfo (s : State) (w : Word) :
    (s.accept w).errinfo = s.errinfo := rfl
@[simp] theorem State.accept_msel (s : State) (w : Word) : (s.accept w).msel = s.msel := rfl
@[simp] theorem State.accept_midx (s : State) (w : Word) : (s.accept w).midx = s.midx := rfl
@[simp] theorem State.accept_psel (s : State) (w : Word) : (s.accept w).psel = s.psel := rfl
@[simp] theorem State.accept_pcidx (s : State) (w : Word) : (s.accept w).pcidx = s.pcidx := rfl
@[simp] theorem State.accept_rstN (s : State) (w : Word) : (s.accept w).rstN = s.rstN := rfl
@[simp] theorem State.accept_prdata (s : State) (w : Word) : (s.accept w).prdata = s.prdata := rfl
@[simp] theorem State.accept_events (s : State) (w : Word) : (s.accept w).events = s.events := rfl

/-! ## `State.commit` -/

@[simp] theorem State.commit_hw (s : State) (d : Data) : (s.commit d).hw = s.hw := rfl
@[simp] theorem State.commit_data (s : State) (d : Data) : (s.commit d).data = d := rfl
@[simp] theorem State.commit_engine (s : State) (d : Data) : (s.commit d).engine = none := rfl
@[simp] theorem State.commit_cmd (s : State) (d : Data) : (s.commit d).cmd = s.cmd := rfl
@[simp] theorem State.commit_done (s : State) (d : Data) : (s.commit d).done = true := rfl
@[simp] theorem State.commit_err (s : State) (d : Data) : (s.commit d).err = s.err := rfl
@[simp] theorem State.commit_aerr (s : State) (d : Data) : (s.commit d).aerr = s.aerr := rfl
@[simp] theorem State.commit_berr (s : State) (d : Data) : (s.commit d).berr = s.berr := rfl
@[simp] theorem State.commit_rej (s : State) (d : Data) : (s.commit d).rej = s.rej := rfl
@[simp] theorem State.commit_doneIE (s : State) (d : Data) : (s.commit d).doneIE = s.doneIE := rfl
@[simp] theorem State.commit_errIE (s : State) (d : Data) : (s.commit d).errIE = s.errIE := rfl
@[simp] theorem State.commit_errcode (s : State) (d : Data) :
    (s.commit d).errcode = s.errcode := rfl
@[simp] theorem State.commit_errinfo (s : State) (d : Data) :
    (s.commit d).errinfo = s.errinfo := rfl
@[simp] theorem State.commit_msel (s : State) (d : Data) : (s.commit d).msel = s.msel := rfl
@[simp] theorem State.commit_midx (s : State) (d : Data) : (s.commit d).midx = s.midx := rfl
@[simp] theorem State.commit_psel (s : State) (d : Data) : (s.commit d).psel = s.psel := rfl
@[simp] theorem State.commit_pcidx (s : State) (d : Data) : (s.commit d).pcidx = s.pcidx := rfl
@[simp] theorem State.commit_rstN (s : State) (d : Data) : (s.commit d).rstN = s.rstN := rfl
@[simp] theorem State.commit_prdata (s : State) (d : Data) : (s.commit d).prdata = s.prdata := rfl
@[simp] theorem State.commit_events (s : State) (d : Data) : (s.commit d).events = s.events := rfl

/-! ## `State.takeError` -/

@[simp] theorem State.takeError_hw (s : State) (n : Nat) (e : CmdError) :
    (s.takeError n e).hw = s.hw := rfl
@[simp] theorem State.takeError_data (s : State) (n : Nat) (e : CmdError) :
    (s.takeError n e).data = s.data := rfl
@[simp] theorem State.takeError_engine (s : State) (n : Nat) (e : CmdError) :
    (s.takeError n e).engine = none := rfl
@[simp] theorem State.takeError_cmd (s : State) (n : Nat) (e : CmdError) :
    (s.takeError n e).cmd = s.cmd := rfl
@[simp] theorem State.takeError_done (s : State) (n : Nat) (e : CmdError) :
    (s.takeError n e).done = s.done := rfl
@[simp] theorem State.takeError_err (s : State) (n : Nat) (e : CmdError) :
    (s.takeError n e).err = true := rfl
@[simp] theorem State.takeError_aerr (s : State) (n : Nat) (e : CmdError) :
    (s.takeError n e).aerr = s.aerr := rfl
@[simp] theorem State.takeError_berr (s : State) (n : Nat) (e : CmdError) :
    (s.takeError n e).berr = s.berr := rfl
@[simp] theorem State.takeError_rej (s : State) (n : Nat) (e : CmdError) :
    (s.takeError n e).rej = s.rej := rfl
@[simp] theorem State.takeError_doneIE (s : State) (n : Nat) (e : CmdError) :
    (s.takeError n e).doneIE = s.doneIE := rfl
@[simp] theorem State.takeError_errIE (s : State) (n : Nat) (e : CmdError) :
    (s.takeError n e).errIE = s.errIE := rfl
@[simp] theorem State.takeError_errcode (s : State) (n : Nat) (e : CmdError) :
    (s.takeError n e).errcode = { code := e.code, opc := s.cmd.extractLsb' 26 6, sub := BitVec.ofNat 3 n } := rfl
@[simp] theorem State.takeError_errinfo (s : State) (n : Nat) (e : CmdError) :
    (s.takeError n e).errinfo = e.info := rfl
@[simp] theorem State.takeError_msel (s : State) (n : Nat) (e : CmdError) :
    (s.takeError n e).msel = s.msel := rfl
@[simp] theorem State.takeError_midx (s : State) (n : Nat) (e : CmdError) :
    (s.takeError n e).midx = s.midx := rfl
@[simp] theorem State.takeError_psel (s : State) (n : Nat) (e : CmdError) :
    (s.takeError n e).psel = s.psel := rfl
@[simp] theorem State.takeError_pcidx (s : State) (n : Nat) (e : CmdError) :
    (s.takeError n e).pcidx = s.pcidx := rfl
@[simp] theorem State.takeError_rstN (s : State) (n : Nat) (e : CmdError) :
    (s.takeError n e).rstN = s.rstN := rfl
@[simp] theorem State.takeError_prdata (s : State) (n : Nat) (e : CmdError) :
    (s.takeError n e).prdata = s.prdata := rfl
@[simp] theorem State.takeError_events (s : State) (n : Nat) (e : CmdError) :
    (s.takeError n e).events = s.events := rfl

/-! ## `State.releaseError` -/

@[simp] theorem State.releaseError_hw (s : State) : (s.releaseError).hw = s.hw := rfl
@[simp] theorem State.releaseError_data (s : State) : (s.releaseError).data = s.data := rfl
@[simp] theorem State.releaseError_engine (s : State) : (s.releaseError).engine = s.engine := rfl
@[simp] theorem State.releaseError_cmd (s : State) : (s.releaseError).cmd = s.cmd := rfl
@[simp] theorem State.releaseError_done (s : State) : (s.releaseError).done = s.done := rfl
@[simp] theorem State.releaseError_err (s : State) : (s.releaseError).err = false := rfl
@[simp] theorem State.releaseError_aerr (s : State) : (s.releaseError).aerr = s.aerr := rfl
@[simp] theorem State.releaseError_berr (s : State) : (s.releaseError).berr = s.berr := rfl
@[simp] theorem State.releaseError_rej (s : State) : (s.releaseError).rej = s.rej := rfl
@[simp] theorem State.releaseError_doneIE (s : State) : (s.releaseError).doneIE = s.doneIE := rfl
@[simp] theorem State.releaseError_errIE (s : State) : (s.releaseError).errIE = s.errIE := rfl
@[simp] theorem State.releaseError_errcode (s : State) : (s.releaseError).errcode = s.errcode := rfl
@[simp] theorem State.releaseError_errinfo (s : State) : (s.releaseError).errinfo = s.errinfo := rfl
@[simp] theorem State.releaseError_msel (s : State) : (s.releaseError).msel = s.msel := rfl
@[simp] theorem State.releaseError_midx (s : State) : (s.releaseError).midx = s.midx := rfl
@[simp] theorem State.releaseError_psel (s : State) : (s.releaseError).psel = s.psel := rfl
@[simp] theorem State.releaseError_pcidx (s : State) : (s.releaseError).pcidx = s.pcidx := rfl
@[simp] theorem State.releaseError_rstN (s : State) : (s.releaseError).rstN = s.rstN := rfl
@[simp] theorem State.releaseError_prdata (s : State) : (s.releaseError).prdata = s.prdata := rfl
@[simp] theorem State.releaseError_events (s : State) : (s.releaseError).events = s.events := rfl

/-! ## `State.softReset` -/

@[simp] theorem State.softReset_hw (s : State) : (s.softReset).hw = s.hw := rfl
@[simp] theorem State.softReset_data (s : State) :
    (s.softReset).data = (State.resetOf s.hw).data := rfl
@[simp] theorem State.softReset_engine (s : State) :
    (s.softReset).engine = (State.resetOf s.hw).engine := rfl
@[simp] theorem State.softReset_cmd (s : State) :
    (s.softReset).cmd = (State.resetOf s.hw).cmd := rfl
@[simp] theorem State.softReset_done (s : State) :
    (s.softReset).done = (State.resetOf s.hw).done := rfl
@[simp] theorem State.softReset_err (s : State) :
    (s.softReset).err = (State.resetOf s.hw).err := rfl
@[simp] theorem State.softReset_aerr (s : State) :
    (s.softReset).aerr = (State.resetOf s.hw).aerr := rfl
@[simp] theorem State.softReset_berr (s : State) :
    (s.softReset).berr = (State.resetOf s.hw).berr := rfl
@[simp] theorem State.softReset_rej (s : State) :
    (s.softReset).rej = (State.resetOf s.hw).rej := rfl
@[simp] theorem State.softReset_doneIE (s : State) :
    (s.softReset).doneIE = (State.resetOf s.hw).doneIE := rfl
@[simp] theorem State.softReset_errIE (s : State) :
    (s.softReset).errIE = (State.resetOf s.hw).errIE := rfl
@[simp] theorem State.softReset_errcode (s : State) :
    (s.softReset).errcode = (State.resetOf s.hw).errcode := rfl
@[simp] theorem State.softReset_errinfo (s : State) :
    (s.softReset).errinfo = (State.resetOf s.hw).errinfo := rfl
@[simp] theorem State.softReset_msel (s : State) :
    (s.softReset).msel = (State.resetOf s.hw).msel := rfl
@[simp] theorem State.softReset_midx (s : State) :
    (s.softReset).midx = (State.resetOf s.hw).midx := rfl
@[simp] theorem State.softReset_psel (s : State) :
    (s.softReset).psel = (State.resetOf s.hw).psel := rfl
@[simp] theorem State.softReset_pcidx (s : State) :
    (s.softReset).pcidx = (State.resetOf s.hw).pcidx := rfl
@[simp] theorem State.softReset_rstN (s : State) : (s.softReset).rstN = s.rstN := rfl
@[simp] theorem State.softReset_prdata (s : State) : (s.softReset).prdata = s.prdata := rfl
@[simp] theorem State.softReset_events (s : State) : (s.softReset).events = s.events := rfl

/-! ## `Data.setF` -/

@[simp] theorem Data.setF_cfg (d : Data) (i : RegIx) (v : Elem) : (d.setF i v).cfg = d.cfg := rfl
@[simp] theorem Data.setF_fmod (d : Data) (i : RegIx) (v : Elem) : (d.setF i v).fmod = d.fmod := rfl
@[simp] theorem Data.setF_clen (d : Data) (i : RegIx) (v : Elem) : (d.setF i v).clen = d.clen := rfl
@[simp] theorem Data.setF_degen (d : Data) (i : RegIx) (v : Elem) :
    (d.setF i v).degen = d.degen := rfl
@[simp] theorem Data.setF_iter (d : Data) (i : RegIx) (v : Elem) : (d.setF i v).iter = d.iter := rfl
@[simp] theorem Data.setF_rootcnt (d : Data) (i : RegIx) (v : Elem) :
    (d.setF i v).rootcnt = d.rootcnt := rfl
@[simp] theorem Data.setF_swapcnt (d : Data) (i : RegIx) (v : Elem) :
    (d.setF i v).swapcnt = d.swapcnt := rfl
@[simp] theorem Data.setF_f (d : Data) (i : RegIx) (v : Elem) : (d.setF i v).f = d.f.set i v := rfl
@[simp] theorem Data.setF_p (d : Data) (i : RegIx) (v : Elem) : (d.setF i v).p = d.p := rfl
@[simp] theorem Data.setF_gp (d : Data) (i : RegIx) (v : Elem) : (d.setF i v).gp = d.gp := rfl
@[simp] theorem Data.setF_mems (d : Data) (i : RegIx) (v : Elem) : (d.setF i v).mems = d.mems := rfl

/-! ## `Data.setP` -/

@[simp] theorem Data.setP_cfg (d : Data) (i : RegIx) (q : Poly) : (d.setP i q).cfg = d.cfg := rfl
@[simp] theorem Data.setP_fmod (d : Data) (i : RegIx) (q : Poly) : (d.setP i q).fmod = d.fmod := rfl
@[simp] theorem Data.setP_clen (d : Data) (i : RegIx) (q : Poly) : (d.setP i q).clen = d.clen := rfl
@[simp] theorem Data.setP_degen (d : Data) (i : RegIx) (q : Poly) :
    (d.setP i q).degen = d.degen := rfl
@[simp] theorem Data.setP_iter (d : Data) (i : RegIx) (q : Poly) : (d.setP i q).iter = d.iter := rfl
@[simp] theorem Data.setP_rootcnt (d : Data) (i : RegIx) (q : Poly) :
    (d.setP i q).rootcnt = d.rootcnt := rfl
@[simp] theorem Data.setP_swapcnt (d : Data) (i : RegIx) (q : Poly) :
    (d.setP i q).swapcnt = d.swapcnt := rfl
@[simp] theorem Data.setP_f (d : Data) (i : RegIx) (q : Poly) : (d.setP i q).f = d.f := rfl
@[simp] theorem Data.setP_p (d : Data) (i : RegIx) (q : Poly) : (d.setP i q).p = d.p.set i q := rfl
@[simp] theorem Data.setP_gp (d : Data) (i : RegIx) (q : Poly) : (d.setP i q).gp = d.gp := rfl
@[simp] theorem Data.setP_mems (d : Data) (i : RegIx) (q : Poly) : (d.setP i q).mems = d.mems := rfl

/-! ## `Data.withElem` -/

@[simp] theorem Data.withElem_cfg (d : Data) (id : ElemMem) (m : Memory Elem) :
    (d.withElem id m).cfg = d.cfg := rfl
@[simp] theorem Data.withElem_fmod (d : Data) (id : ElemMem) (m : Memory Elem) :
    (d.withElem id m).fmod = d.fmod := rfl
@[simp] theorem Data.withElem_clen (d : Data) (id : ElemMem) (m : Memory Elem) :
    (d.withElem id m).clen = d.clen := rfl
@[simp] theorem Data.withElem_degen (d : Data) (id : ElemMem) (m : Memory Elem) :
    (d.withElem id m).degen = d.degen := rfl
@[simp] theorem Data.withElem_iter (d : Data) (id : ElemMem) (m : Memory Elem) :
    (d.withElem id m).iter = d.iter := rfl
@[simp] theorem Data.withElem_rootcnt (d : Data) (id : ElemMem) (m : Memory Elem) :
    (d.withElem id m).rootcnt = d.rootcnt := rfl
@[simp] theorem Data.withElem_swapcnt (d : Data) (id : ElemMem) (m : Memory Elem) :
    (d.withElem id m).swapcnt = d.swapcnt := rfl
@[simp] theorem Data.withElem_f (d : Data) (id : ElemMem) (m : Memory Elem) :
    (d.withElem id m).f = d.f := rfl
@[simp] theorem Data.withElem_p (d : Data) (id : ElemMem) (m : Memory Elem) :
    (d.withElem id m).p = d.p := rfl
@[simp] theorem Data.withElem_gp (d : Data) (id : ElemMem) (m : Memory Elem) :
    (d.withElem id m).gp = d.gp := rfl
@[simp] theorem Data.withElem_mems (d : Data) (id : ElemMem) (m : Memory Elem) :
    (d.withElem id m).mems = d.mems.setElem id m := rfl

/-! ## `Data.withBit` -/

@[simp] theorem Data.withBit_cfg (d : Data) (id : BitMem) (m : Memory Bool) :
    (d.withBit id m).cfg = d.cfg := rfl
@[simp] theorem Data.withBit_fmod (d : Data) (id : BitMem) (m : Memory Bool) :
    (d.withBit id m).fmod = d.fmod := rfl
@[simp] theorem Data.withBit_clen (d : Data) (id : BitMem) (m : Memory Bool) :
    (d.withBit id m).clen = d.clen := rfl
@[simp] theorem Data.withBit_degen (d : Data) (id : BitMem) (m : Memory Bool) :
    (d.withBit id m).degen = d.degen := rfl
@[simp] theorem Data.withBit_iter (d : Data) (id : BitMem) (m : Memory Bool) :
    (d.withBit id m).iter = d.iter := rfl
@[simp] theorem Data.withBit_rootcnt (d : Data) (id : BitMem) (m : Memory Bool) :
    (d.withBit id m).rootcnt = d.rootcnt := rfl
@[simp] theorem Data.withBit_swapcnt (d : Data) (id : BitMem) (m : Memory Bool) :
    (d.withBit id m).swapcnt = d.swapcnt := rfl
@[simp] theorem Data.withBit_f (d : Data) (id : BitMem) (m : Memory Bool) :
    (d.withBit id m).f = d.f := rfl
@[simp] theorem Data.withBit_p (d : Data) (id : BitMem) (m : Memory Bool) :
    (d.withBit id m).p = d.p := rfl
@[simp] theorem Data.withBit_gp (d : Data) (id : BitMem) (m : Memory Bool) :
    (d.withBit id m).gp = d.gp := rfl
@[simp] theorem Data.withBit_mems (d : Data) (id : BitMem) (m : Memory Bool) :
    (d.withBit id m).mems = d.mems.setBit id m := rfl

/-! ## `Data.degenerate` -/

@[simp] theorem Data.degenerate_cfg (d : Data) (why : BitVec 2) :
    (d.degenerate why).cfg = d.cfg := rfl
@[simp] theorem Data.degenerate_fmod (d : Data) (why : BitVec 2) :
    (d.degenerate why).fmod = d.fmod := rfl
@[simp] theorem Data.degenerate_clen (d : Data) (why : BitVec 2) :
    (d.degenerate why).clen = d.clen := rfl
@[simp] theorem Data.degenerate_degen (d : Data) (why : BitVec 2) :
    (d.degenerate why).degen = why := rfl
@[simp] theorem Data.degenerate_iter (d : Data) (why : BitVec 2) :
    (d.degenerate why).iter = 0#16 := rfl
@[simp] theorem Data.degenerate_rootcnt (d : Data) (why : BitVec 2) :
    (d.degenerate why).rootcnt = d.rootcnt := rfl
@[simp] theorem Data.degenerate_swapcnt (d : Data) (why : BitVec 2) :
    (d.degenerate why).swapcnt = d.swapcnt := rfl
@[simp] theorem Data.degenerate_f (d : Data) (why : BitVec 2) : (d.degenerate why).f = d.f := rfl
@[simp] theorem Data.degenerate_p (d : Data) (why : BitVec 2) :
    (d.degenerate why).p = { r0 := d.p.r0, r1 := [], r2 := [], r3 := [], r4 := [], r5 := [], r6 := [], r7 := Poly.z } := rfl
@[simp] theorem Data.degenerate_gp (d : Data) (why : BitVec 2) : (d.degenerate why).gp = d.gp := rfl
@[simp] theorem Data.degenerate_mems (d : Data) (why : BitVec 2) :
    (d.degenerate why).mems = d.mems := rfl

/-! ## Register files -/

/-- A register holds what was written to it, and the others what they held (`10_state.md` R54). -/
theorem RegFile.get_set {α : Type} (r : RegFile α) (i j : RegIx) (v : α) :
    (r.set i v).get j = if j = i then v else r.get j := by
  match i with
  | 0 | 1 | 2 | 3 | 4 | 5 | 6 | 7 =>
    match j with
    | 0 | 1 | 2 | 3 | 4 | 5 | 6 | 7 => rfl

@[simp] theorem RegFile.get_all {α : Type} (v : α) (i : RegIx) : (RegFile.all v).get i = v := by
  match i with
  | 0 | 1 | 2 | 3 | 4 | 5 | 6 | 7 => rfl

/-! ## The twelve memories -/

theorem Memories.elem_setElem (ms : Memories) (a b : ElemMem) (m : Memory Elem) :
    (ms.setElem a m).elem b = if b = a then m else ms.elem b := by cases a <;> cases b <;> rfl

theorem Memories.bit_setBit (ms : Memories) (a b : BitMem) (m : Memory Bool) :
    (ms.setBit a m).bit b = if b = a then m else ms.bit b := by cases a <;> cases b <;> rfl

@[simp] theorem Memories.elem_setBit (ms : Memories) (a : BitMem) (b : ElemMem) (m : Memory Bool) :
    (ms.setBit a m).elem b = ms.elem b := by cases a <;> cases b <;> rfl

@[simp] theorem Memories.bit_setElem (ms : Memories) (a : ElemMem) (b : BitMem) (m : Memory Elem) :
    (ms.setElem a m).bit b = ms.bit b := by cases a <;> cases b <;> rfl

end Sys2Proof.Machine
end

