-- ==== Sys2Proof/Laws/Memory.lean ====
section
/-! SUPPORT. The laws of one data memory: what a read after each kind of write gives, and that every
write keeps the canonical form. The first group needs no canonical form. -/

namespace Sys2Proof.Machine

variable {α : Type}

/-! ## One cell -/

theorem readCells_writeCells (cs : List (Nat × α)) (i j : Nat) (v : α) :
    readCells (writeCells cs i v) j = if j = i then some v else readCells cs j := by
  induction cs with
  | nil => simp [writeCells, readCells]
  | cons c cs ih =>
    obtain ⟨k, w⟩ := c
    simp only [writeCells]
    split
    · simp [readCells]
    · split
      · next h => subst h; by_cases hj : j = i <;> simp [readCells, hj]
      · next h =>
        simp only [readCells, ih]
        by_cases hj : j = k
        · subst hj; simp [Ne.symm h]
        · simp [hj]

theorem Memory.read_write (m : Memory α) (i j : Nat) (v : α) :
    (m.write i v).read j = if j = i then some v else m.read j :=
  readCells_writeCells m.cells i j v

@[simp] theorem Memory.read_empty (i : Nat) : (Memory.empty : Memory α).read i = none := rfl

/-! ## A range of cells -/

theorem readCells_append (as bs : List (Nat × α)) (j : Nat) :
    readCells (as ++ bs) j = (readCells as j).or (readCells bs j) := by
  induction as with
  | nil => simp [readCells]
  | cons c as ih =>
    obtain ⟨k, w⟩ := c
    by_cases hj : j = k <;> simp [readCells, hj, ih]

theorem readCells_filter (p : Nat → Bool) (cs : List (Nat × α)) (j : Nat) :
    readCells (cs.filter fun kv => p kv.1) j = if p j then readCells cs j else none := by
  induction cs with
  | nil => simp [readCells]
  | cons c cs ih =>
    obtain ⟨k, w⟩ := c
    by_cases hk : p k = true
    · by_cases hj : j = k
      · subst hj; simp [readCells, hk]
      · simp [readCells, hk, hj, ih]
    · by_cases hj : j = k
      · subst hj; simp [hk, ih]
      · simp [readCells, hk, hj, ih]

theorem readCells_numberedFrom (i : Nat) (vs : List α) (j : Nat) :
    readCells (numberedFrom i vs) j = if i ≤ j then vs[j - i]? else none := by
  induction vs generalizing i with
  | nil => simp [numberedFrom, readCells]
  | cons v vs ih =>
    simp only [numberedFrom, readCells, ih]
    by_cases hj : j = i
    · subst hj; simp
    · by_cases hlt : i ≤ j
      · obtain ⟨d, rfl⟩ : ∃ d, j = i + (d + 1) := ⟨j - i - 1, by omega⟩
        have h1 : i + 1 ≤ i + (d + 1) := by omega
        have h2 : i + (d + 1) - (i + 1) = d := by omega
        have h3 : i + (d + 1) - i = d + 1 := by omega
        simp [h1, h2, h3]
      · have : ¬i + 1 ≤ j := by omega
        simp [hj, hlt, this]

/-- A read after a range write gives the value written where the range covers it, and what was there
elsewhere (`20_memory.md` R107, R114). -/
theorem Memory.read_writeRange (m : Memory α) (i : Nat) (vs : List α) (j : Nat) :
    (m.writeRange i vs).read j =
      if i ≤ j ∧ j < i + vs.length then vs[j - i]? else m.read j := by
  simp only [Memory.read, Memory.writeRange, readCells_append]
  rw [readCells_filter (fun k => decide (k < i)),
    readCells_filter (fun k => decide (i + vs.length ≤ k)), readCells_numberedFrom]
  by_cases h1 : j < i
  · have : ¬i ≤ j := by omega
    have h3 : ¬i + vs.length ≤ j := by omega
    simp [h1, this, h3]
  · have hij : i ≤ j := by omega
    by_cases h2 : j < i + vs.length
    · have h3 : ¬i + vs.length ≤ j := by omega
      simp [h1, hij, h2, h3]
    · have h3 : i + vs.length ≤ j := by omega
      have h4 : vs[j - i]? = none := by simp; omega
      simp [h1, hij, h2, h3, h4]

/-! ## A list of cells -/

theorem Memory.read_writeAll_of_not_mem (m : Memory α) (cs : List (Nat × α)) (j : Nat)
    (h : ∀ c ∈ cs, c.1 ≠ j) : (m.writeAll cs).read j = m.read j := by
  induction cs generalizing m with
  | nil => rfl
  | cons c cs ih =>
    obtain ⟨i, v⟩ := c
    have hi : i ≠ j := h (i, v) (by simp)
    simp only [Memory.writeAll]
    rw [ih _ (fun c hc => h c (by simp [hc])), Memory.read_write, if_neg (Ne.symm hi)]

/-- A read after writing a list of cells with distinct numbers gives the listed value. -/
theorem Memory.read_writeAll_of_mem (m : Memory α) (cs : List (Nat × α)) (j : Nat) (v : α)
    (hd : cs.Pairwise fun a b => a.1 ≠ b.1) (h : (j, v) ∈ cs) :
    (m.writeAll cs).read j = some v := by
  induction cs generalizing m with
  | nil => simp at h
  | cons c cs ih =>
    obtain ⟨i, w⟩ := c
    rw [List.pairwise_cons] at hd
    simp only [Memory.writeAll]
    rcases List.mem_cons.mp h with h | h
    · obtain ⟨rfl, rfl⟩ := Prod.mk.inj h
      rw [Memory.read_writeAll_of_not_mem _ _ _ (fun c hc => (hd.1 c hc).symm), Memory.read_write,
        if_pos rfl]
    · exact ih _ hd.2 h

/-! ## The canonical form -/

theorem mem_writeCells (cs : List (Nat × α)) (i : Nat) (v : α) (c : Nat × α)
    (h : c ∈ writeCells cs i v) : c = (i, v) ∨ c ∈ cs := by
  induction cs with
  | nil => simpa [writeCells] using h
  | cons d cs ih =>
    obtain ⟨k, w⟩ := d
    simp only [writeCells] at h
    split at h
    · simpa using h
    · split at h
      · simp only [List.mem_cons] at h ⊢; tauto
      · simp only [List.mem_cons] at h ⊢
        rcases h with h | h
        · exact .inr (.inl h)
        · rcases ih h with h | h
          · exact .inl h
          · exact .inr (.inr h)

theorem Memory.wf_empty : (Memory.empty : Memory α).wf := List.Pairwise.nil

theorem Memory.wf_write (m : Memory α) (i : Nat) (v : α) (h : m.wf) : (m.write i v).wf := by
  obtain ⟨cs⟩ := m
  simp only [Memory.wf, Memory.write] at h ⊢
  induction cs with
  | nil => simp [writeCells]
  | cons c cs ih =>
    obtain ⟨k, w⟩ := c
    have hcons := h
    rw [List.pairwise_cons] at h
    simp only [writeCells]
    split
    · next hik =>
      refine List.pairwise_cons.mpr ⟨?_, hcons⟩
      intro c hc
      rcases List.mem_cons.mp hc with rfl | hc
      · exact hik
      · exact Nat.lt_trans hik (h.1 c hc)
    · split
      · next h2 => subst h2; exact List.pairwise_cons.mpr ⟨fun c hc => h.1 c hc, h.2⟩
      · next h1 h2 =>
        refine List.pairwise_cons.mpr ⟨?_, ih h.2⟩
        intro c hc
        rcases mem_writeCells cs i v c hc with rfl | hc
        · show k < i; omega
        · exact h.1 c hc

theorem mem_numberedFrom (i : Nat) (vs : List α) (c : Nat × α) (h : c ∈ numberedFrom i vs) :
    i ≤ c.1 ∧ c.1 < i + vs.length ∧ c.2 ∈ vs := by
  induction vs generalizing i with
  | nil => simp [numberedFrom] at h
  | cons v vs ih =>
    simp only [numberedFrom, List.mem_cons] at h
    rcases h with rfl | h
    · simp
    · have := ih (i + 1) h
      simp only [List.length_cons, List.mem_cons]
      exact ⟨by omega, by omega, .inr this.2.2⟩

theorem pairwise_numberedFrom (i : Nat) (vs : List α) :
    (numberedFrom i vs).Pairwise fun a b => a.1 < b.1 := by
  induction vs generalizing i with
  | nil => exact .nil
  | cons v vs ih =>
    refine List.pairwise_cons.mpr ⟨fun c hc => ?_, ih (i + 1)⟩
    have := (mem_numberedFrom _ _ _ hc).1
    show i < c.1
    omega

theorem Memory.wf_writeRange (m : Memory α) (i : Nat) (vs : List α) (h : m.wf) :
    (m.writeRange i vs).wf := by
  simp only [Memory.wf, Memory.writeRange] at h ⊢
  refine List.pairwise_append.mpr ⟨List.pairwise_append.mpr
    ⟨h.filter _, pairwise_numberedFrom i vs, ?_⟩, h.filter _, ?_⟩
  · intro a ha b hb
    have h1 := of_decide_eq_true (List.mem_filter.mp ha).2
    have h2 := (mem_numberedFrom _ _ _ hb).1
    omega
  · intro a ha b hb
    have h2 := of_decide_eq_true (List.mem_filter.mp hb).2
    rcases List.mem_append.mp ha with ha | ha
    · have h1 := of_decide_eq_true (List.mem_filter.mp ha).2
      omega
    · have h1 := (mem_numberedFrom _ _ _ ha).2.1
      omega

theorem Memory.wf_writeAll (m : Memory α) (cs : List (Nat × α)) (h : m.wf) :
    (m.writeAll cs).wf := by
  induction cs generalizing m with
  | nil => exact h
  | cons c cs ih => exact ih _ (Memory.wf_write m c.1 c.2 h)

/-- Every cell of a range write is an old one or one of the written ones. -/
theorem mem_writeRange (m : Memory α) (i : Nat) (vs : List α) (c : Nat × α)
    (h : c ∈ (m.writeRange i vs).cells) :
    c ∈ m.cells ∨ (i ≤ c.1 ∧ c.1 < i + vs.length ∧ c.2 ∈ vs) := by
  simp only [Memory.writeRange] at h
  rcases List.mem_append.mp h with h | h
  · rcases List.mem_append.mp h with h | h
    · exact .inl (List.mem_filter.mp h).1
    · exact .inr (mem_numberedFrom _ _ _ h)
  · exact .inl (List.mem_filter.mp h).1

/-- Every cell after writing a list of cells is an old one or a listed one. -/
theorem mem_writeAll (m : Memory α) (cs : List (Nat × α)) (c : Nat × α)
    (h : c ∈ (m.writeAll cs).cells) : c ∈ m.cells ∨ c ∈ cs := by
  induction cs generalizing m with
  | nil => exact .inl h
  | cons d cs ih =>
    rcases ih _ h with h | h
    · rcases mem_writeCells m.cells d.1 d.2 c h with rfl | h
      · exact .inr (by simp)
      · exact .inl h
    · exact .inr (by simp [h])

/-- The memories of the reset state are in canonical form. -/
theorem Memories.wf_unwritten :
    (∀ id, (Memories.unwritten.elem id).wf) ∧ ∀ id, (Memories.unwritten.bit id).wf := by
  constructor <;> intro id <;> cases id <;> exact List.Pairwise.nil

end Sys2Proof.Machine
end

