-- ==== Sys2Proof/Laws/Runs.lean ====
section
/-! SUPPORT. What running a rule can do: sequencing, `collect`, the checks a command begins with, and
the ends of a command. Proofs cite these and do not unfold the definitions. -/

namespace Sys2Proof.Machine

variable {α β : Type}

/-! ## Sequencing -/

theorem bind_eq_ok {x : Run α} {f : α → Run β} {b : β} :
    (x >>= f) = .ok b ↔ ∃ a, x = .ok a ∧ f a = .ok b := by
  cases x with
  | error e => exact ⟨(nomatch ·), fun ⟨_, h, _⟩ => (nomatch h)⟩
  | ok a => exact ⟨fun h => ⟨a, rfl, h⟩, fun ⟨_, h, h'⟩ => by cases h; exact h'⟩

theorem bind_eq_error {x : Run α} {f : α → Run β} {e : Stop} :
    (x >>= f) = .error e ↔ x = .error e ∨ ∃ a, x = .ok a ∧ f a = .error e := by
  cases x with
  | error e' =>
    exact ⟨fun h => .inl (by cases h; rfl), fun h => by
      rcases h with h | ⟨_, h, _⟩
      · cases h; rfl
      · cases h⟩
  | ok a =>
    exact ⟨fun h => .inr ⟨a, rfl, h⟩, fun h => by
      rcases h with h | ⟨_, h, h'⟩
      · cases h
      · cases h; exact h'⟩

@[simp] theorem ok_bind (a : α) (f : α → Run β) : ((Except.ok a : Run α) >>= f) = f a := rfl

@[simp] theorem error_bind (e : Stop) (f : α → Run β) :
    ((Except.error e : Run α) >>= f) = .error e := rfl

@[simp] theorem raise_bind (e : CmdError) (f : α → Run β) :
    ((raise e : Run α) >>= f) = raise e := rfl

/-! ## `collect` -/

theorem collectFrom_ok {g : Nat → Run α} {v : Nat → α} {cnt i : Nat}
    (h : ∀ j, i ≤ j → j < i + cnt → g j = .ok (v j)) :
    collectFrom g cnt i = .ok ((List.range' i cnt).map v) := by
  induction cnt generalizing i with
  | zero => rfl
  | succ cnt ih =>
    rw [collectFrom, h i (Nat.le_refl i) (by omega), ok_bind,
      ih (fun j h1 h2 => h j (by omega) (by omega))]
    simp [List.range'_succ]

/-- `collect` answers the list of values when every index has one. -/
theorem collect_ok {g : Nat → Run α} {v : Nat → α} {cnt : Nat}
    (h : ∀ j, j < cnt → g j = .ok (v j)) : collect cnt g = .ok ((List.range cnt).map v) := by
  rw [collect, collectFrom_ok (v := v) (fun j _ h2 => h j (by omega)), List.range_eq_range']

theorem collectFrom_error {g : Nat → Run α} {e : Stop} {cnt i k : Nat} (h1 : i ≤ k)
    (h2 : k < i + cnt) (hok : ∀ j, i ≤ j → j < k → ∃ v, g j = .ok v) (he : g k = .error e) :
    collectFrom g cnt i = .error e := by
  induction cnt generalizing i with
  | zero => omega
  | succ cnt ih =>
    rw [collectFrom]
    rcases Nat.eq_or_lt_of_le h1 with rfl | hlt
    · rw [he, error_bind]
    · obtain ⟨v, hv⟩ := hok i (Nat.le_refl i) hlt
      rw [hv, ok_bind, ih hlt (by omega) (fun j a b => hok j (by omega) b), error_bind]

/-- `collect` stops as its first stopping index does. -/
theorem collect_error {g : Nat → Run α} {e : Stop} {cnt k : Nat} (h : k < cnt)
    (hok : ∀ j, j < k → ∃ v, g j = .ok v) (he : g k = .error e) : collect cnt g = .error e :=
  collectFrom_error (Nat.zero_le k) (by omega) (fun j _ hj => hok j hj) he

theorem collectFrom_inv {g : Nat → Run α} {cnt i : Nat} {vs : List α}
    (h : collectFrom g cnt i = .ok vs) :
    vs.length = cnt ∧ ∀ j v, vs[j]? = some v → g (i + j) = .ok v := by
  induction cnt generalizing i vs with
  | zero => cases h; exact ⟨rfl, fun j v hj => by simp at hj⟩
  | succ cnt ih =>
    rw [collectFrom, bind_eq_ok] at h
    obtain ⟨a, ha, h⟩ := h
    obtain ⟨rest, hr, h⟩ := bind_eq_ok.mp h
    cases h
    obtain ⟨hl, hv⟩ := ih hr
    refine ⟨by simp [hl], fun j v hj => ?_⟩
    cases j with
    | zero => simp at hj; subst hj; exact ha
    | succ j =>
      have := hv j v (by simpa using hj)
      rwa [show i + (j + 1) = i + 1 + j by omega]

/-- What a successful `collect` answers: one value for each index. -/
theorem collect_inv {g : Nat → Run α} {cnt : Nat} {vs : List α} (h : collect cnt g = .ok vs) :
    vs.length = cnt ∧ ∀ j v, vs[j]? = some v → g j = .ok v := by
  obtain ⟨hl, hv⟩ := collectFrom_inv h
  exact ⟨hl, fun j v hj => by simpa using hv j v hj⟩

/-- A part of a rule that only reads: it answers a value or meets an unwritten element. -/
def Reads (r : Run α) : Prop := (∃ v, r = .ok v) ∨ ∃ id i, r = .error (.unwritten id i)

theorem collectFrom_reads {g : Nat → Run α} {cnt i : Nat} (h : ∀ j, Reads (g j)) :
    Reads (collectFrom g cnt i) := by
  induction cnt generalizing i with
  | zero => exact .inl ⟨_, rfl⟩
  | succ cnt ih =>
    rw [collectFrom]
    rcases h i with ⟨v, hv⟩ | ⟨id, k, he⟩
    · rcases ih (i := i + 1) with ⟨vs, hvs⟩ | ⟨id, k, he⟩
      · exact .inl ⟨v :: vs, by rw [hv, ok_bind, hvs, ok_bind]⟩
      · exact .inr ⟨id, k, by rw [hv, ok_bind, he, error_bind]⟩
    · exact .inr ⟨id, k, by rw [he, error_bind]⟩

/-- `collect` of reads only reads. -/
theorem collect_reads {g : Nat → Run α} {cnt : Nat} (h : ∀ j, Reads (g j)) :
    Reads (collect cnt g) := collectFrom_reads h

/-- `collect` of reads meets an unwritten element when one of its indices does. -/
theorem collect_unwritten {g : Nat → Run α} {cnt k : Nat} (h : ∀ j, Reads (g j)) (hk : k < cnt)
    (he : ∃ id i, g k = .error (.unwritten id i)) :
    ∃ id i, collect cnt g = .error (.unwritten id i) := by
  rcases collect_reads h (cnt := cnt) with ⟨vs, hvs⟩ | he'
  · obtain ⟨hl, hv⟩ := collect_inv hvs
    obtain ⟨id, i, he⟩ := he
    have := hv k vs[k] (List.getElem?_eq_getElem (hl ▸ hk))
    rw [he] at this
    cases this
  · exact he'

theorem Reads.bind {x : Run α} {f : α → Run β} (hx : Reads x) (hf : ∀ a, Reads (f a)) :
    Reads (x >>= f) := by
  rcases hx with ⟨a, rfl⟩ | ⟨id, i, rfl⟩
  · exact hf a
  · exact .inr ⟨id, i, rfl⟩

/-! ## Reading memories -/

theorem readElem_reads (d : Data) (id : ElemMem) (i : Nat) : Reads (readElem d id i) := by
  unfold readElem
  split
  · exact .inl ⟨_, rfl⟩
  · exact .inr ⟨_, _, rfl⟩

theorem readBit_reads (d : Data) (id : BitMem) (i : Nat) : Reads (readBit d id i) := by
  unfold readBit
  split
  · exact .inl ⟨_, rfl⟩
  · exact .inr ⟨_, _, rfl⟩

/-- Everything a command's Reads name is read with no error of its own. -/
theorem readSupport_reads (c : Ctx) (d : Data) : Reads (readSupport c d) :=
  collect_reads (readElem_reads d .L)

theorem readSwaps_reads (c : Ctx) (d : Data) : Reads (readSwaps c d) :=
  collect_reads (readElem_reads d .SWP)

theorem readPermuted_reads (c : Ctx) (d : Data) : Reads (readPermuted c d) :=
  collect_reads fun j => (readElem_reads d .PIDX j).bind fun i => readBit_reads d .C i.toNat

theorem readMessage_reads (c : Ctx) (d : Data) : Reads (readMessage c d) :=
  collect_reads fun r =>
    (readElem_reads d .SWP (c.code.mt + r)).bind fun i => readBit_reads d .W i.toNat

theorem readPst_reads (c : Ctx) (d : Data) (i : Nat) : Reads (readPst c d i) :=
  (collect_reads fun j => readElem_reads d .PST (i * c.code.t + j)).bind fun _ => .inl ⟨_, rfl⟩

theorem readSyndromeParts_reads (c : Ctx) (d : Data) : Reads (readSyndromeParts c d) := by
  refine collect_reads fun i => (readBit_reads d .W i).bind fun w => ?_
  cases w
  · exact .inl ⟨_, rfl⟩
  · exact readPst_reads c d i

theorem readBlock_reads (c : Code) (d : Data) (swp : List Elem) : Reads (readBlock c d swp) :=
  collect_reads fun _ => readBit_reads d .H _

theorem readDecode_reads (c : Ctx) (d : Data) : Reads (readDecode c d) :=
  (readPermuted_reads c d).bind fun w =>
    (readSyndromeParts_reads c (d.fillBit .W w)).bind fun _ =>
      (readSupport_reads c (d.fillBit .W w)).bind fun _ =>
        (readMessage_reads c (d.fillBit .W w)).bind fun _ =>
          (collect_reads fun i => readBit_reads (d.fillBit .W w) .SINV i).bind fun _ =>
            .inl ⟨_, rfl⟩

theorem readElem_ok {d : Data} {id : ElemMem} {i : Nat} {v : Elem}
    (h : (d.mems.elem id).read i = some v) : readElem d id i = .ok v := by simp [readElem, h]

theorem readElem_unwritten {d : Data} {id : ElemMem} {i : Nat}
    (h : (d.mems.elem id).read i = none) : readElem d id i = .error (.unwritten (.elem id) i) := by
  simp [readElem, h]

theorem readElem_inv {d : Data} {id : ElemMem} {i : Nat} {v : Elem} (h : readElem d id i = .ok v) :
    (d.mems.elem id).read i = some v := by
  unfold readElem at h
  split at h
  · next hv => cases h; exact hv
  · cases h

theorem readBit_ok {d : Data} {id : BitMem} {i : Nat} {v : Bool}
    (h : (d.mems.bit id).read i = some v) : readBit d id i = .ok v := by simp [readBit, h]

theorem readBit_unwritten {d : Data} {id : BitMem} {i : Nat}
    (h : (d.mems.bit id).read i = none) : readBit d id i = .error (.unwritten (.bit id) i) := by
  simp [readBit, h]

theorem readBit_inv {d : Data} {id : BitMem} {i : Nat} {v : Bool} (h : readBit d id i = .ok v) :
    (d.mems.bit id).read i = some v := by
  unfold readBit at h
  split at h
  · next hv => cases h; exact hv
  · cases h

/-! ## The checks a command begins with -/

/-- The context of a command that passes the NOCONFIG checks. -/
def State.ctx (s : State) (c : Code) : Ctx :=
  { code := c, gf := c.gf s.data, tMax := s.hw.tMax }

theorem configured_ok {hw : Synth} {d : Data} {c : Code} (h1 : d.cfg = some c)
    (h2 : d.fmod >>> c.m = 1#17) :
    configured hw d = .ok { code := c, gf := c.gf d, tMax := hw.tMax } := by
  simp [configured, h1, h2, Code.gf]

/-- Everything the NOCONFIG checks can do (`40_control.md` R203). -/
theorem configured_inv {hw : Synth} {d : Data} {r : Run Ctx} (h : configured hw d = r) :
    (d.cfg = none ∧ r = raise (.noconfig .notConfigured)) ∨
      ∃ c, d.cfg = some c ∧
        ((d.fmod >>> c.m ≠ 1#17 ∧ r = raise (.noconfig .modulusDegree)) ∨
          (d.fmod >>> c.m = 1#17 ∧
            r = .ok { code := c, gf := { m := c.m, f := d.fmod }, tMax := hw.tMax })) := by
  subst h
  unfold configured
  cases hc : d.cfg with
  | none => exact .inl ⟨rfl, rfl⟩
  | some c =>
    refine .inr ⟨c, rfl, ?_⟩
    by_cases hf : d.fmod >>> c.m = 1#17
    · exact .inr ⟨hf, by simp [hf]⟩
    · exact .inl ⟨hf, by simp [hf]⟩

theorem Poly.deg_eq_some {p : Poly} {n : Nat} : Poly.deg p = some n ↔ p.length = n + 1 := by
  cases p <;> simp [Poly.deg]

theorem Poly.deg_eq_none {p : Poly} : Poly.deg p = none ↔ p = [] := by cases p <;> simp [Poly.deg]

theorem gcheck_ok {c : Ctx} {d : Data} (h : d.gp.length = c.code.t + 1) :
    gcheck c d = .ok d.gp := by
  simp [gcheck, Poly.deg_eq_some.mpr h]

theorem gcheck_error {c : Ctx} {d : Data} (h : d.gp.length ≠ c.code.t + 1) :
    gcheck c d = raise (.gpoly (degField (Poly.deg d.gp))) := by
  have : Poly.deg d.gp ≠ some c.code.t := fun h' => h (Poly.deg_eq_some.mp h')
  simp [gcheck, this]

theorem representable_ok {c : Ctx} {p : Poly} (h : p.length ≤ c.tMax + 1) :
    representable c p = .ok p := by
  cases p with
  | nil => rfl
  | cons a q =>
    have : ¬c.tMax < q.length := by simp at h; omega
    simp [representable, Poly.deg, this]

theorem representable_error {c : Ctx} {p : Poly} (h : c.tMax + 1 < p.length) :
    representable c p = raise (.overflow (p.length - 1)) := by
  cases p with
  | nil => simp at h
  | cons a q =>
    have : c.tMax < q.length := by simp at h; omega
    simp [representable, Poly.deg, this]

/-! ## The ends of a command -/

@[simp] theorem finish_ok (s : State) (d : Data) : s.finish (.ok d) = .next (s.commit d) := rfl

@[simp] theorem finish_raise (s : State) (e : CmdError) :
    s.finish (raise e) = .next (s.takeError 0 e) := rfl

@[simp] theorem finish_raised (s : State) (n : Nat) (e : CmdError) :
    s.finish (.error (.raised n e)) = .next (s.takeError n e) := rfl

@[simp] theorem finish_unwritten (s : State) (id : MemId) (i : Nat) :
    s.finish (.error (.unwritten id i)) = .fault (.unwritten id i) := rfl

/-- Everything the completion event can do (`40_control.md` R204). -/
theorem finish_next {s t : State} {r : Run Data} (h : s.finish r = .next t) :
    (∃ d, r = .ok d ∧ t = s.commit d) ∨
      ∃ n e, r = .error (.raised n e) ∧ t = s.takeError n e := by
  match r with
  | .ok d => cases h; exact .inl ⟨d, rfl, rfl⟩
  | .error (.raised n e) => cases h; exact .inr ⟨n, e, rfl, rfl⟩
  | .error (.unwritten id i) => cases h

/-- A command that passes the NOCONFIG checks ends as its rule does on the data at acceptance. -/
theorem runCommand_of_runs {rule : Ctx → Data → Run Data} {s : State} {c : Code} (h : s.Runs c) :
    runCommand rule s = s.finish (rule (s.ctx c) s.data) := by
  obtain ⟨⟨hw, -⟩, h1, h2⟩ := h
  rw [runCommand, hw, configured_ok h1 h2, ok_bind]
  rfl

/-- Everything a command that needs a configuration can do. -/
theorem runCommand_next {rule : Ctx → Data → Run Data} {s t : State}
    (h : runCommand rule s = .next t) :
    (∃ c d, configured s.hw s.work = .ok c ∧ rule c s.work = .ok d ∧ t = s.commit d) ∨
      (∃ why, configured s.hw s.work = raise (.noconfig why) ∧
        t = s.takeError 0 (.noconfig why)) ∨
      ∃ c n e, configured s.hw s.work = .ok c ∧ rule c s.work = .error (.raised n e) ∧
        t = s.takeError n e := by
  rcases finish_next h with ⟨d, hd, rfl⟩ | ⟨n, e, he, rfl⟩
  · obtain ⟨c, hc, hd⟩ := bind_eq_ok.mp hd
    exact .inl ⟨c, d, hc, hd, rfl⟩
  · rcases bind_eq_error.mp he with he | ⟨c, hc, he⟩
    · rcases configured_inv he with ⟨-, hr⟩ | ⟨c, -, ⟨-, hr⟩ | ⟨-, hr⟩⟩
      · cases hr; exact .inr (.inl ⟨_, he, rfl⟩)
      · cases hr; exact .inr (.inl ⟨_, he, rfl⟩)
      · cases hr
    · exact .inr (.inr ⟨c, n, e, hc, he, rfl⟩)

end Sys2Proof.Machine
end

