-- ==== Sys2Proof/Laws/Field.lean ====
section
/-! SUPPORT. The first laws of field arithmetic: products are linear in each factor, and below 2^m when
the modulus has degree m. -/

namespace Sys2Proof.Machine

/-! ## Linearity -/

@[simp] theorem clmul_zero_left (b : Elem) (j : Nat) : clmul 0#16 b j = 0#32 := by
  induction j with
  | zero => rfl
  | succ j ih => simp [clmul, ih]

@[simp] theorem clmul_zero_right (a : Elem) (j : Nat) : clmul a 0#16 j = 0#32 := by
  induction j with
  | zero => rfl
  | succ j ih => simp [clmul, ih]

theorem clmul_xor_left (a a' b : Elem) (j : Nat) :
    clmul (a ^^^ a') b j = clmul a b j ^^^ clmul a' b j := by
  induction j with
  | zero => simp [clmul]
  | succ j ih =>
    simp only [clmul, ih]
    by_cases hb : b.getLsbD j = true
    · simp only [hb, if_true]
      rw [BitVec.setWidth_xor, BitVec.shiftLeft_xor_distrib]
      ac_rfl
    · simp [hb]

theorem clmul_xor_right (a b b' : Elem) (j : Nat) :
    clmul a (b ^^^ b') j = clmul a b j ^^^ clmul a b' j := by
  induction j with
  | zero => simp [clmul]
  | succ j ih =>
    simp only [clmul, ih, BitVec.getLsbD_xor]
    cases b.getLsbD j <;> cases b'.getLsbD j <;> simp <;> first | ac_rfl | skip
    rw [show ∀ x y z : BitVec 32, x ^^^ z ^^^ (y ^^^ z) = x ^^^ y ^^^ (z ^^^ z) by
      intros; ac_rfl, BitVec.xor_self, BitVec.xor_zero]

theorem GF.reduceFrom_xor (k : GF) (d : Nat) (c c' : BitVec 32) :
    k.reduceFrom d (c ^^^ c') = k.reduceFrom d c ^^^ k.reduceFrom d c' := by
  induction d generalizing c c' with
  | zero => rfl
  | succ d ih =>
    simp only [GF.reduceFrom, ← ih, BitVec.getLsbD_xor]
    congr 1
    cases c.getLsbD (k.m + d) <;> cases c'.getLsbD (k.m + d) <;> simp <;> first | ac_rfl | skip
    rw [show ∀ x y z : BitVec 32, x ^^^ z ^^^ (y ^^^ z) = x ^^^ y ^^^ (z ^^^ z) by
      intros; ac_rfl, BitVec.xor_self, BitVec.xor_zero]

@[simp] theorem GF.reduceFrom_zero (k : GF) (d : Nat) : k.reduceFrom d 0#32 = 0#32 := by
  induction d with
  | zero => rfl
  | succ d ih => simp [GF.reduceFrom, ih]

@[simp] theorem GF.mul_zero (k : GF) (a : Elem) : k.mul a 0#16 = 0#16 := by simp [GF.mul]

@[simp] theorem GF.zero_mul (k : GF) (a : Elem) : k.mul 0#16 a = 0#16 := by simp [GF.mul]

/-- ⊗ distributes over ⊕ on the left factor (`41_field.md` R231). -/
theorem GF.add_mul (k : GF) (a a' b : Elem) :
    k.mul (fieldAdd a a') b = fieldAdd (k.mul a b) (k.mul a' b) := by
  simp [GF.mul, fieldAdd, clmul_xor_left, GF.reduceFrom_xor, BitVec.setWidth_xor]

/-- ⊗ distributes over ⊕ on the right factor (`41_field.md` R231). -/
theorem GF.mul_add (k : GF) (a b b' : Elem) :
    k.mul a (fieldAdd b b') = fieldAdd (k.mul a b) (k.mul a b') := by
  simp [GF.mul, fieldAdd, clmul_xor_right, GF.reduceFrom_xor, BitVec.setWidth_xor]

/-! ## Bounds -/

theorem modulus_bits {f : BitVec 17} {m : Nat} (h : f >>> m = 1#17) (j : Nat) :
    f.getLsbD (m + j) = decide (j = 0) := by
  have := congrArg (fun x => BitVec.getLsbD x j) h
  simpa [BitVec.getLsbD_ushiftRight, BitVec.getLsbD_one, eq_comm] using this

theorem modulus_m_lt {f : BitVec 17} {m : Nat} (h : f >>> m = 1#17) : m < 17 := by
  by_contra hm
  have h0 := modulus_bits h 0
  simp only [Nat.add_zero, decide_true] at h0
  rw [BitVec.getLsbD_of_ge _ _ (by omega)] at h0
  cases h0

theorem GF.reduceFrom_high (k : GF) (hf : k.f >>> k.m = 1#17) (d : Nat) (hd : k.m + d ≤ 32)
    (c : BitVec 32) (hc : ∀ j, k.m + d ≤ j → c.getLsbD j = false) (j : Nat) (hj : k.m ≤ j) :
    (k.reduceFrom d c).getLsbD j = false := by
  induction d generalizing c with
  | zero => exact hc j hj
  | succ d ih =>
    simp only [GF.reduceFrom]
    refine ih (by omega) _ fun i hi => ?_
    split
    · next hbit =>
      obtain ⟨e, rfl⟩ : ∃ e, i = k.m + d + e := ⟨i - (k.m + d), by omega⟩
      have hb := modulus_bits hf e
      rw [BitVec.getLsbD_xor, BitVec.getLsbD_shiftLeft]
      have h1 : k.m + d + e - d = k.m + e := by omega
      have h2 : ¬k.m + d + e < d := by omega
      by_cases h32 : k.m + d + e < 32
      · rw [BitVec.getLsbD_setWidth, h1, hb]
        have h3 : k.m + e < 32 := by omega
        by_cases he : e = 0
        · subst he; simp at hbit ⊢; rw [hbit]; simp; omega
        · have := hc (k.m + d + e) (by omega)
          simp [this, he]
      · rw [BitVec.getLsbD_of_ge _ _ (by omega)]; simp [h32]
    · next hbit =>
      rcases Nat.eq_or_lt_of_le hi with rfl | hlt
      · simpa using hbit
      · exact hc i (by omega)

theorem clmul_high (a b : Elem) (n : Nat) (j : Nat) (hj : 16 + n ≤ j) :
    (clmul a b (n + 1)).getLsbD j = false := by
  suffices h : ∀ k, k ≤ n + 1 → (clmul a b k).getLsbD j = false from h _ (Nat.le_refl _)
  intro k
  induction k with
  | zero => intro _; simp [clmul]
  | succ k ih =>
    intro hk
    rw [clmul, BitVec.getLsbD_xor, ih (by omega)]
    split
    · rw [BitVec.getLsbD_shiftLeft, BitVec.getLsbD_setWidth, BitVec.getLsbD_of_ge a _ (by omega)]
      simp
    · simp

/-- A product is a field element (`41_field.md` R230: every operation is closed on [0, 2^m)). -/
theorem GF.mul_lt (k : GF) (hf : k.f >>> k.m = 1#17) (a b : Elem) :
    (k.mul a b).toNat < 2 ^ k.m := by
  have hm := modulus_m_lt hf
  rw [GF.mul]
  refine Nat.lt_pow_two_of_testBit _ fun j hj => ?_
  rw [← BitVec.getLsbD, BitVec.getLsbD_setWidth, k.reduceFrom_high hf 16 (by omega) _ ?_ j hj]
  · simp
  · intro i hi
    cases hk : k.m with
    | zero => simp [clmul]
    | succ n => exact clmul_high a b n i (by omega)

theorem fieldAdd_lt {m : Nat} {a b : Elem} (ha : a.toNat < 2 ^ m) (hb : b.toNat < 2 ^ m) :
    (fieldAdd a b).toNat < 2 ^ m := by
  rw [fieldAdd, BitVec.toNat_xor]; exact Nat.xor_lt_two_pow ha hb

theorem maskElem_lt (m : Nat) (v : Elem) : (maskElem m v).toNat < 2 ^ m := by
  rw [maskElem, BitVec.toNat_and, BitVec.toNat_ofNat]
  have h1 : v.toNat &&& (2 ^ m - 1) % 2 ^ 16 ≤ (2 ^ m - 1) % 2 ^ 16 := Nat.and_le_right
  have h2 : (2 ^ m - 1) % 2 ^ 16 ≤ 2 ^ m - 1 := Nat.mod_le _ _
  have h3 : 0 < 2 ^ m := Nat.two_pow_pos m
  omega

/-! ## Powers -/

theorem GF.powFrom_succ (k : GF) (a : Elem) (e : Nat) (acc : Elem) :
    k.powFrom a (e + 1) acc = k.mul (k.powFrom a e acc) a := by
  induction e generalizing acc with
  | zero => rfl
  | succ e ih => rw [GF.powFrom, ih]; rfl

@[simp] theorem GF.pow_zero (k : GF) (a : Elem) : k.pow a 0 = 1#16 := rfl

/-- a ^ (e + 1) = (a ^ e) ⊗ a (`41_field.md` R233). -/
theorem GF.pow_succ (k : GF) (a : Elem) (e : Nat) : k.pow a (e + 1) = k.mul (k.pow a e) a :=
  k.powFrom_succ a e 1#16

/-! ## The search for an inverse -/

theorem GF.findInv_some (k : GF) (a : Elem) {cnt b : Nat} {v : Elem}
    (h : k.findInv a cnt b = some v) :
    ∃ i, b ≤ i ∧ i < b + cnt ∧ v = BitVec.ofNat 16 i ∧ k.mul a v = 1#16 := by
  induction cnt generalizing b with
  | zero => cases h
  | succ cnt ih =>
    rw [GF.findInv] at h
    split at h
    · next hm => cases h; exact ⟨b, Nat.le_refl b, by omega, rfl, hm⟩
    · obtain ⟨i, h1, h2, h3, h4⟩ := ih h
      exact ⟨i, by omega, by omega, h3, h4⟩

theorem GF.findInv_none (k : GF) (a : Elem) {cnt b : Nat} (h : k.findInv a cnt b = none) (i : Nat)
    (h1 : b ≤ i) (h2 : i < b + cnt) : k.mul a (BitVec.ofNat 16 i) ≠ 1#16 := by
  induction cnt generalizing b with
  | zero => omega
  | succ cnt ih =>
    rw [GF.findInv] at h
    split at h
    · cases h
    · next hm =>
      rcases Nat.eq_or_lt_of_le h1 with rfl | hlt
      · exact hm
      · exact ih h hlt (by omega)

/-- Everything inv can do (`41_field.md` R232). -/
theorem GF.inv_cases (k : GF) (hm : k.m ≤ 16) (a : Elem) :
    (∃ b : Elem, k.inv a = .ok b ∧ b.toNat < 2 ^ k.m ∧ k.mul a b = 1#16) ∨
      (k.inv a = raise (.arith .fieldInverse) ∧
        ∀ b : Elem, b.toNat < 2 ^ k.m → k.mul a b ≠ 1#16) := by
  unfold GF.inv
  cases h : k.findInv a (2 ^ k.m) 0 with
  | some b =>
    obtain ⟨i, -, h2, rfl, h4⟩ := k.findInv_some a h
    have h16 : 2 ^ k.m ≤ 2 ^ 16 := Nat.pow_le_pow_right (by omega) hm
    refine .inl ⟨_, rfl, ?_, h4⟩
    rw [BitVec.toNat_ofNat]
    exact Nat.lt_of_le_of_lt (Nat.mod_le _ _) (by omega)
  | none =>
    refine .inr ⟨rfl, fun b hb => ?_⟩
    have := k.findInv_none a h b.toNat (Nat.zero_le _) (by omega)
    rwa [BitVec.ofNat_toNat, BitVec.setWidth_eq] at this

end Sys2Proof.Machine
end

