-- ==== Sys2Proof/Laws/PerInstr.lean ====
section
/-! SUPPORT. Per command: the fields of its encoding are the fields the opcode map gives it
(`30_encoding.md` R151, R157): no operand bit is dropped or moved. -/

namespace Sys2Proof

/-- The fields fit their widths (`30_encoding.md` R151). -/
structure Fields.fit (x : Fields) : Prop where
  opc : x.opc < 64
  rd : x.rd < 8
  ra : x.ra < 8
  rb : x.rb < 8
  z16 : x.z16 < 2
  imm : x.imm < 65536

theorem packFields_toNat (x : Fields) (h : x.fit) :
    (packFields x).toNat =
      x.opc * 67108864 + x.rd * 8388608 + x.ra * 1048576 + x.rb * 131072 + x.z16 * 65536 + x.imm := by
  obtain ⟨h1, h2, h3, h4, h5, h6⟩ := h
  have h : x.opc * 67108864 + x.rd * 8388608 + x.ra * 1048576 + x.rb * 131072 + x.z16 * 65536 + x.imm
      < 4294967296 := by omega
  rw [packFields, BitVec.toNat_ofNat]
  simp only [Nat.reducePow]
  exact Nat.mod_eq_of_lt h

/-- A field of a word as a number. -/
theorem extractLsb_toNat (w : Word) (hi lo : Nat) :
    (w.extractLsb hi lo).toNat = w.toNat / 2 ^ lo % 2 ^ (hi - lo + 1) := by
  rw [BitVec.extractLsb, BitVec.extractLsb'_toNat, Nat.shiftRight_eq_div_pow]

/-- Fields that fit are read back from the word they are packed into. -/
theorem fieldsOf_packFields (x : Fields) (h : x.fit) : fieldsOf (packFields x) = x := by
  have hv := packFields_toNat x h
  obtain ⟨h1, h2, h3, h4, h5, h6⟩ := h
  obtain ⟨opc, rd, ra, rb, z16, imm⟩ := x
  simp only [fieldsOf, extractLsb_toNat, hv, Nat.reducePow, Nat.reduceSub, Nat.reduceAdd,
    Fields.mk.injEq] at *
  refine ⟨?_, ?_, ?_, ?_, ?_, ?_⟩ <;> omega

theorem fit_formZ {opc : Nat} (h : opc < 64) : (formZ opc).fit :=
  ⟨h, by simp [formZ], by simp [formZ], by simp [formZ], by simp [formZ], by simp [formZ]⟩

theorem fit_formR {opc : Nat} (d a b : RegIx) (h : opc < 64) : (formR opc d a b).fit :=
  ⟨h, d.isLt, a.isLt, b.isLt, by simp [formR], by simp [formR]⟩

theorem fit_formI {opc : Nat} (d a : RegIx) {imm : Nat} (h : opc < 64) (hi : imm < 65536) :
    (formI opc d a imm).fit :=
  ⟨h, d.isLt, a.isLt, by simp [formI], by simp [formI], hi⟩

namespace Laws.EncodedFields

/-- The encoding of a well-formed command has the fields of its row. -/
def Statement (i : Instr) : Prop := i.wellFormed = true → fieldsOf (encode i) = i.fields

theorem nop : Statement .nop :=
  fun _ => fieldsOf_packFields _ (fit_formZ (by decide))

theorem config (m : Nat) (t : Nat) : Statement (.config m t) :=
  fun h => by
    have h' := Bool.and_eq_true_iff.mp h
    have hm := of_decide_eq_true h'.1
    have ht := of_decide_eq_true h'.2
    exact fieldsOf_packFields _ (fit_formI _ _ (by decide) (by omega))

theorem chkperm (tab : Table) : Statement (.chkperm tab) :=
  fun _ => fieldsOf_packFields _ (fit_formI _ _ (by decide) (by cases tab <;> decide))

theorem fldi (fd : RegIx) (imm : Nat) : Statement (.fldi fd imm) :=
  fun h => fieldsOf_packFields _ (fit_formI _ _ (by decide) (of_decide_eq_true h))

theorem fadd (fd : RegIx) (fa : RegIx) (fb : RegIx) : Statement (.fadd fd fa fb) :=
  fun _ => fieldsOf_packFields _ (fit_formR _ _ _ (by decide))

theorem fmul (fd : RegIx) (fa : RegIx) (fb : RegIx) : Statement (.fmul fd fa fb) :=
  fun _ => fieldsOf_packFields _ (fit_formR _ _ _ (by decide))

theorem finv (fd : RegIx) (fa : RegIx) : Statement (.finv fd fa) :=
  fun _ => fieldsOf_packFields _ (fit_formR _ _ _ (by decide))

theorem fpow (fd : RegIx) (fa : RegIx) (imm : Nat) : Statement (.fpow fd fa imm) :=
  fun h => fieldsOf_packFields _ (fit_formI _ _ (by decide) (of_decide_eq_true h))

theorem fldl (fd : RegIx) (imm : Nat) : Statement (.fldl fd imm) :=
  fun h => fieldsOf_packFields _ (fit_formI _ _ (by decide) (of_decide_eq_true h))

theorem pclr (pd : RegIx) : Statement (.pclr pd) :=
  fun _ => fieldsOf_packFields _ (fit_formR _ _ _ (by decide))

theorem pmov (pd : RegIx) (pa : RegIx) : Statement (.pmov pd pa) :=
  fun _ => fieldsOf_packFields _ (fit_formR _ _ _ (by decide))

theorem pldg (pd : RegIx) : Statement (.pldg pd) :=
  fun _ => fieldsOf_packFields _ (fit_formR _ _ _ (by decide))

theorem pldt (pd : RegIx) (imm : Nat) : Statement (.pldt pd imm) :=
  fun h => fieldsOf_packFields _ (fit_formI _ _ (by decide) (of_decide_eq_true h))

theorem pconst (pd : RegIx) (fa : RegIx) : Statement (.pconst pd fa) :=
  fun _ => fieldsOf_packFields _ (fit_formR _ _ _ (by decide))

theorem psetc (pd : RegIx) (fa : RegIx) (imm : Nat) : Statement (.psetc pd fa imm) :=
  fun h => fieldsOf_packFields _ (fit_formI _ _ (by decide) (of_decide_eq_true h))

theorem pgetc (fd : RegIx) (pa : RegIx) (imm : Nat) : Statement (.pgetc fd pa imm) :=
  fun h => fieldsOf_packFields _ (fit_formI _ _ (by decide) (of_decide_eq_true h))

theorem padd (pd : RegIx) (pa : RegIx) (pb : RegIx) : Statement (.padd pd pa pb) :=
  fun _ => fieldsOf_packFields _ (fit_formR _ _ _ (by decide))

theorem pmul (pd : RegIx) (pa : RegIx) (pb : RegIx) : Statement (.pmul pd pa pb) :=
  fun _ => fieldsOf_packFields _ (fit_formR _ _ _ (by decide))

theorem pmulm (pd : RegIx) (pa : RegIx) (pb : RegIx) : Statement (.pmulm pd pa pb) :=
  fun _ => fieldsOf_packFields _ (fit_formR _ _ _ (by decide))

theorem pmod (pd : RegIx) (pa : RegIx) : Statement (.pmod pd pa) :=
  fun _ => fieldsOf_packFields _ (fit_formR _ _ _ (by decide))

theorem pdivq (pd : RegIx) (pa : RegIx) (pb : RegIx) : Statement (.pdivq pd pa pb) :=
  fun _ => fieldsOf_packFields _ (fit_formR _ _ _ (by decide))

theorem pdivr (pd : RegIx) (pa : RegIx) (pb : RegIx) : Statement (.pdivr pd pa pb) :=
  fun _ => fieldsOf_packFields _ (fit_formR _ _ _ (by decide))

theorem pinvm (pd : RegIx) (pa : RegIx) : Statement (.pinvm pd pa) :=
  fun _ => fieldsOf_packFields _ (fit_formR _ _ _ (by decide))

theorem psqrm (pd : RegIx) (pa : RegIx) : Statement (.psqrm pd pa) :=
  fun _ => fieldsOf_packFields _ (fit_formR _ _ _ (by decide))

theorem psqrt (pd : RegIx) (pa : RegIx) : Statement (.psqrt pd pa) :=
  fun _ => fieldsOf_packFields _ (fit_formR _ _ _ (by decide))

theorem pshl (pd : RegIx) (pa : RegIx) (imm : Nat) : Statement (.pshl pd pa imm) :=
  fun h => fieldsOf_packFields _ (fit_formI _ _ (by decide) (of_decide_eq_true h))

theorem pscl (pd : RegIx) (pa : RegIx) (fb : RegIx) : Statement (.pscl pd pa fb) :=
  fun _ => fieldsOf_packFields _ (fit_formR _ _ _ (by decide))

theorem peval (fd : RegIx) (pa : RegIx) (fb : RegIx) : Statement (.peval fd pa fb) :=
  fun _ => fieldsOf_packFields _ (fit_formR _ _ _ (by decide))

theorem psetg (pa : RegIx) : Statement (.psetg pa) :=
  fun _ => fieldsOf_packFields _ (fit_formR _ _ _ (by decide))

theorem permc : Statement .permc :=
  fun _ => fieldsOf_packFields _ (fit_formZ (by decide))

theorem synd : Statement .synd :=
  fun _ => fieldsOf_packFields _ (fit_formZ (by decide))

theorem locator : Statement .locator :=
  fun _ => fieldsOf_packFields _ (fit_formZ (by decide))

theorem keyeq : Statement .keyeq :=
  fun _ => fieldsOf_packFields _ (fit_formZ (by decide))

theorem roots : Statement .roots :=
  fun _ => fieldsOf_packFields _ (fit_formZ (by decide))

theorem extract : Statement .extract :=
  fun _ => fieldsOf_packFields _ (fit_formZ (by decide))

theorem unscr : Statement .unscr :=
  fun _ => fieldsOf_packFields _ (fit_formZ (by decide))

theorem decode : Statement .decode :=
  fun _ => fieldsOf_packFields _ (fit_formZ (by decide))

theorem lgen (fa : RegIx) : Statement (.lgen fa) :=
  fun _ => fieldsOf_packFields _ (fit_formR _ _ _ (by decide))

theorem pstgen : Statement .pstgen :=
  fun _ => fieldsOf_packFields _ (fit_formZ (by decide))

theorem hgen : Statement .hgen :=
  fun _ => fieldsOf_packFields _ (fit_formZ (by decide))

theorem sysform : Statement .sysform :=
  fun _ => fieldsOf_packFields _ (fit_formZ (by decide))

theorem gextract : Statement .gextract :=
  fun _ => fieldsOf_packFields _ (fit_formZ (by decide))

end Laws.EncodedFields

end Sys2Proof
end

