-- ==== Sys2Proof/Laws/Polynomial.lean ====
section
/-! SUPPORT. The first laws of polynomial arithmetic: the coefficients and the length of each ring
operation, and that each keeps the canonical form (no zero at the end). -/

namespace Sys2Proof.Machine

/-- No zero stands at the end (log 10). -/
abbrev Poly.canonical (p : Poly) : Prop := p.getLast? ≠ some 0#16

/-! ## Coefficient lists -/

theorem Poly.getD_cons_eq (a : Elem) (p : Poly) (i : Nat) :
    (Poly.cons a p).getD i 0#16 = (a :: p).getD i 0#16 := by
  cases p with
  | nil =>
    by_cases ha : a = 0#16
    · subst ha; cases i <;> simp [Poly.cons]
    · simp [Poly.cons, ha]
  | cons b q => rfl

theorem Poly.canonical_cons (a : Elem) (p : Poly) (hp : Poly.canonical p) : Poly.canonical (Poly.cons a p) := by
  cases p with
  | nil => by_cases ha : a = 0#16 <;> simp [Poly.cons, Poly.canonical, ha]
  | cons b q => simpa [Poly.cons, Poly.canonical] using hp

theorem Poly.length_cons_le (a : Elem) (p : Poly) : (Poly.cons a p).length ≤ p.length + 1 := by
  cases p with
  | nil => by_cases ha : a = 0#16 <;> simp [Poly.cons, ha]
  | cons b q => simp [Poly.cons]

theorem Poly.mem_cons {a x : Elem} {p : Poly} (h : x ∈ Poly.cons a p) : x = a ∨ x ∈ p := by
  cases p with
  | nil =>
    by_cases ha : a = 0#16
    · simp [Poly.cons, ha] at h
    · simp only [Poly.cons, if_neg ha, List.mem_singleton] at h
      exact .inl h
  | cons b q => exact List.mem_cons.mp h

/-- The coefficients of a trimmed list are those of the list. -/
theorem Poly.getD_ofCoeffs (cs : List Elem) (i : Nat) :
    (Poly.ofCoeffs cs).getD i 0#16 = cs.getD i 0#16 := by
  induction cs generalizing i with
  | nil => rfl
  | cons a cs ih =>
    rw [Poly.ofCoeffs, Poly.getD_cons_eq]
    cases i with
    | zero => simp
    | succ i => simpa using ih i

theorem Poly.canonical_ofCoeffs (cs : List Elem) : Poly.canonical (Poly.ofCoeffs cs) := by
  induction cs with
  | nil => simp [Poly.ofCoeffs, Poly.canonical]
  | cons a cs ih => exact Poly.canonical_cons a _ ih

theorem Poly.length_ofCoeffs_le (cs : List Elem) : (Poly.ofCoeffs cs).length ≤ cs.length := by
  induction cs with
  | nil => simp [Poly.ofCoeffs]
  | cons a cs ih =>
    have := Poly.length_cons_le a (Poly.ofCoeffs cs)
    simp only [Poly.ofCoeffs, List.length_cons]
    omega

theorem Poly.mem_ofCoeffs {x : Elem} {cs : List Elem} (h : x ∈ Poly.ofCoeffs cs) : x ∈ cs := by
  induction cs with
  | nil => simp [Poly.ofCoeffs] at h
  | cons a cs ih =>
    rcases Poly.mem_cons h with rfl | h
    · simp
    · simp [ih h]

/-- Canonical polynomials with the same coefficients are equal. -/
theorem Poly.ext_getD {p q : Poly} (hp : Poly.canonical p) (hq : Poly.canonical q)
    (h : ∀ i, p.getD i 0#16 = q.getD i 0#16) : p = q := by
  induction p generalizing q with
  | nil =>
    cases hl : q.getLast? with
    | none => simpa [eq_comm] using hl
    | some v =>
      rw [List.getLast?_eq_getElem?] at hl
      have := h (q.length - 1)
      simp only [List.getD_eq_getElem?_getD, hl, Option.getD_some] at this
      subst this
      rw [← List.getLast?_eq_getElem?] at hl
      exact absurd hl hq
  | cons a p ih =>
    cases q with
    | nil =>
      cases hl : (a :: p).getLast? with
      | none => simp at hl
      | some v =>
        have hl' := hl
        rw [List.getLast?_eq_getElem?] at hl
        have := h ((a :: p).length - 1)
        rw [List.getD_nil, List.getD_eq_getElem?_getD, hl, Option.getD_some] at this
        subst this
        exact absurd hl' hp
    | cons b q =>
      have h0 : a = b := by simpa using h 0
      have ht : ∀ i, p.getD i 0#16 = q.getD i 0#16 := fun i => by simpa using h (i + 1)
      have hp' : Poly.canonical p := by
        cases p with
        | nil => simp [Poly.canonical]
        | cons c p => simpa [Poly.canonical] using hp
      have hq' : Poly.canonical q := by
        cases q with
        | nil => simp [Poly.canonical]
        | cons c q => simpa [Poly.canonical] using hq
      rw [h0, ih hp' hq' ht]

theorem getD_setAt (p : List Elem) (j i : Nat) (v : Elem) :
    (setAt p j v).getD i 0#16 = if i = j then v else p.getD i 0#16 := by
  induction j generalizing p i with
  | zero => cases p <;> cases i <;> simp [setAt]
  | succ j ih =>
    simp only [List.getD_eq_getElem?_getD] at ih ⊢
    cases p <;> cases i <;> simp [setAt, ih]

/-- Setting one coefficient changes that one and no other (`20_memory.md` R108, `42_poly.md` R271). -/
theorem Poly.getD_setCoeff (p : Poly) (j i : Nat) (v : Elem) :
    (Poly.setCoeff p j v).getD i 0#16 = if i = j then v else p.getD i 0#16 := by
  rw [Poly.setCoeff, Poly.getD_ofCoeffs, getD_setAt]

/-! ## Ring operations (`42_poly.md` R261) -/

theorem Poly.getD_add (p q : Poly) (i : Nat) :
    (Poly.add p q).getD i 0#16 = fieldAdd (p.getD i 0#16) (q.getD i 0#16) := by
  induction p generalizing q i with
  | nil => simp [Poly.add, fieldAdd]
  | cons a p ih =>
    cases q with
    | nil => simp [Poly.add, fieldAdd]
    | cons b q =>
      rw [Poly.add, Poly.getD_cons_eq]
      cases i with
      | zero => simp
      | succ i => simpa using ih q i

theorem Poly.canonical_add {p q : Poly} (hp : Poly.canonical p) (hq : Poly.canonical q) :
    Poly.canonical (Poly.add p q) := by
  induction p generalizing q with
  | nil => simpa [Poly.add] using hq
  | cons a p ih =>
    cases q with
    | nil => simpa [Poly.add] using hp
    | cons b q =>
      refine Poly.canonical_cons _ _ (ih ?_ ?_)
      · cases p with
        | nil => simp [Poly.canonical]
        | cons c p => simpa [Poly.canonical] using hp
      · cases q with
        | nil => simp [Poly.canonical]
        | cons c q => simpa [Poly.canonical] using hq

theorem Poly.length_add_le (p q : Poly) : (Poly.add p q).length ≤ max p.length q.length := by
  induction p generalizing q with
  | nil => simp [Poly.add]
  | cons a p ih =>
    cases q with
    | nil => simp [Poly.add]
    | cons b q =>
      have h1 := Poly.length_cons_le (fieldAdd a b) (Poly.add p q)
      have h2 := ih q
      simp only [Poly.add, List.length_cons]
      omega

theorem Poly.getD_scale (k : GF) (c : Elem) (p : Poly) (i : Nat) :
    (Poly.scale k c p).getD i 0#16 = k.mul c (p.getD i 0#16) := by
  rw [Poly.scale, Poly.getD_ofCoeffs]
  induction p generalizing i with
  | nil => simp
  | cons a p ih => cases i with
    | zero => simp
    | succ i => simpa using ih i

theorem Poly.canonical_scale (k : GF) (c : Elem) (p : Poly) : Poly.canonical (Poly.scale k c p) :=
  Poly.canonical_ofCoeffs _

theorem Poly.length_scale_le (k : GF) (c : Elem) (p : Poly) :
    (Poly.scale k c p).length ≤ p.length := by
  have := Poly.length_ofCoeffs_le (p.map (k.mul c))
  simpa [Poly.scale] using this

theorem Poly.getD_shift (s : Nat) (p : Poly) (i : Nat) :
    (Poly.shift s p).getD i 0#16 = if i < s then 0#16 else p.getD (i - s) 0#16 := by
  cases p with
  | nil => simp [Poly.shift]
  | cons a p =>
    rw [Poly.shift]
    by_cases h : i < s
    · rw [if_pos h, List.getD_append _ _ _ _ (by simpa using h), List.getD_replicate]; exact h
    · rw [if_neg h, List.getD_append_right _ _ _ _ (by simpa using h), List.length_replicate]

theorem Poly.canonical_shift (s : Nat) {p : Poly} (hp : Poly.canonical p) : Poly.canonical (Poly.shift s p) := by
  cases p with
  | nil => simp [Poly.shift, Poly.canonical]
  | cons a p => simpa [Poly.shift, Poly.canonical] using hp

theorem Poly.length_shift (s : Nat) (p : Poly) :
    (Poly.shift s p).length = if p = [] then 0 else s + p.length := by
  cases p <;> simp [Poly.shift]

theorem Poly.canonical_mul (k : GF) (p q : Poly) : Poly.canonical (Poly.mul k p q) := by
  induction p with
  | nil => simp [Poly.mul, Poly.canonical]
  | cons a p ih => exact Poly.canonical_add (Poly.canonical_scale k a q) (Poly.canonical_shift 1 ih)

/-! ## The Euclidean algorithm -/

/-- 0 has no inverse (`41_field.md` R232). -/
theorem GF.not_invertible_zero (k : GF) : ¬k.invertible 0#16 := by
  rintro ⟨b, -, h⟩
  simp at h

/-- A divisor whose leading coefficient has an inverse is not 0. -/
theorem Poly.Euclid.divisor_ne_nil {k : GF} {a g : Poly} {n : Nat} {ρ q : Nat → Poly}
    (h : Poly.Euclid k a g n ρ q) {i : Nat} (hi : i < n) : ρ (i + 1) ≠ [] := by
  intro hn
  have hu := h.unit i hi
  rw [hn] at hu
  exact k.not_invertible_zero hu

/-- No division yet: any sequence that begins with a and g. -/
theorem Poly.Euclid.zero {k : GF} {a g : Poly} {ρ q : Nat → Poly} (h0 : ρ 0 = a) (h1 : ρ 1 = g) :
    Poly.Euclid k a g 0 ρ q :=
  ⟨h0, h1, fun _ hi => absurd hi (Nat.not_lt_zero _), fun _ hi => absurd hi (Nat.not_lt_zero _)⟩

/-- One division more. -/
theorem Poly.Euclid.succ {k : GF} {a g : Poly} {n : Nat} {ρ q : Nat → Poly}
    (h : Poly.Euclid k a g n ρ q) (hu : k.invertible ((ρ (n + 1)).getLastD 0#16))
    (hd : Poly.wf k.m (q n) ∧ Poly.wf k.m (ρ (n + 2)) ∧ (ρ (n + 2)).length < (ρ (n + 1)).length ∧
      ρ n = Poly.add (Poly.mul k (q n) (ρ (n + 1))) (ρ (n + 2))) :
    Poly.Euclid k a g (n + 1) ρ q where
  first := h.first
  second := h.second
  unit i hi := by
    rcases Nat.lt_succ_iff_lt_or_eq.mp hi with hi | rfl
    · exact h.unit i hi
    · exact hu
  division i hi := by
    rcases Nat.lt_succ_iff_lt_or_eq.mp hi with hi | rfl
    · exact h.division i hi
    · exact hd

@[simp] theorem Poly.eliminations_zero (q : Nat → Poly) : Poly.eliminations q 0 = 0 := rfl

@[simp] theorem Poly.eliminations_one (q : Nat → Poly) : Poly.eliminations q 1 = 0 := rfl

theorem Poly.eliminations_succ (q : Nat → Poly) (n : Nat) :
    Poly.eliminations q (n + 2) =
      Poly.eliminations q (n + 1) + ((q (n + 1)).filter fun a => decide (a ≠ 0#16)).length := by
  simp [Poly.eliminations, List.range_succ, Nat.add_assoc]

end Sys2Proof.Machine
end

