-- ==== Sys2Proof/Tests/Slice0.lean ====
section
/-! SUPPORT. Tests: decoding of words written out from the spec, single commands on the spec's key K4
(`95_test_vectors.md` §1, §2, from which every expected value is taken), and, for every statement with
hypotheses, a named state and operands that meet them (`witness_…`). -/

open Sys2Proof Sys2Proof.Machine

namespace Sys2Proof.Tests

set_option Elab.async false

/-! ## Well-formedness: one ill-formed term per check -/

theorem test_wf_config_m : (Instr.config 32 2).wellFormed = false := by decide
theorem test_wf_config_t : (Instr.config 4 2048).wellFormed = false := by decide
theorem test_wf_fldi : (Instr.fldi 1 65536).wellFormed = false := by decide
theorem test_wf_fpow : (Instr.fpow 1 2 65536).wellFormed = false := by decide
theorem test_wf_fldl : (Instr.fldl 1 65536).wellFormed = false := by decide
theorem test_wf_pldt : (Instr.pldt 1 65536).wellFormed = false := by decide
theorem test_wf_psetc : (Instr.psetc 1 2 65536).wellFormed = false := by decide
theorem test_wf_pgetc : (Instr.pgetc 1 2 65536).wellFormed = false := by decide
theorem test_wf_pshl : (Instr.pshl 1 2 65536).wellFormed = false := by decide

/-! ## Decoding: the words of the rules' examples, one per command -/

theorem test_decode_control :
    decodeWord 0x00000000#32 = .ok .nop ∧ decodeWord 0x04000044#32 = .ok (.config 4 2) ∧
    decodeWord 0x08000000#32 = .ok (.chkperm .pidx) ∧
    decodeWord 0x08000001#32 = .ok (.chkperm .swp) := by decide

theorem test_decode_field :
    decodeWord 0x20800002#32 = .ok (.fldi 1 2) ∧ decodeWord 0x24A60000#32 = .ok (.fadd 1 2 3) ∧
    decodeWord 0x28A60000#32 = .ok (.fmul 1 2 3) ∧ decodeWord 0x2CA00000#32 = .ok (.finv 1 2) ∧
    decodeWord 0x30A0000F#32 = .ok (.fpow 1 2 15) ∧
    decodeWord 0x34800005#32 = .ok (.fldl 1 5) := by decide

theorem test_decode_poly_moves :
    decodeWord 0x41800000#32 = .ok (.pclr 3) ∧ decodeWord 0x44A00000#32 = .ok (.pmov 1 2) ∧
    decodeWord 0x48800000#32 = .ok (.pldg 1) ∧ decodeWord 0x4C800005#32 = .ok (.pldt 1 5) ∧
    decodeWord 0x50A00000#32 = .ok (.pconst 1 2) ∧
    decodeWord 0x55200001#32 = .ok (.psetc 2 2 1) ∧
    decodeWord 0x58A00001#32 = .ok (.pgetc 1 2 1) ∧
    decodeWord 0x8C100000#32 = .ok (.psetg 1) := by decide

theorem test_decode_poly_arith :
    decodeWord 0x5CA60000#32 = .ok (.padd 1 2 3) ∧ decodeWord 0x60A60000#32 = .ok (.pmul 1 2 3) ∧
    decodeWord 0x64A60000#32 = .ok (.pmulm 1 2 3) ∧ decodeWord 0x68B00000#32 = .ok (.pmod 1 3) ∧
    decodeWord 0x6CB40000#32 = .ok (.pdivq 1 3 2) ∧
    decodeWord 0x70B40000#32 = .ok (.pdivr 1 3 2) ∧ decodeWord 0x74A00000#32 = .ok (.pinvm 1 2) ∧
    decodeWord 0x78A00000#32 = .ok (.psqrm 1 2) ∧ decodeWord 0x7CA00000#32 = .ok (.psqrt 1 2) ∧
    decodeWord 0x80A00003#32 = .ok (.pshl 1 2 3) ∧ decodeWord 0x84A60000#32 = .ok (.pscl 1 2 3) ∧
    decodeWord 0x88A60000#32 = .ok (.peval 1 2 3) := by decide

theorem test_decode_decode :
    decodeWord 0xA0000000#32 = .ok .permc ∧ decodeWord 0xA4000000#32 = .ok .synd ∧
    decodeWord 0xA8000000#32 = .ok .locator ∧ decodeWord 0xAC000000#32 = .ok .keyeq ∧
    decodeWord 0xB0000000#32 = .ok .roots ∧ decodeWord 0xB4000000#32 = .ok .extract ∧
    decodeWord 0xB8000000#32 = .ok .unscr ∧ decodeWord 0xBC000000#32 = .ok .decode := by decide

theorem test_decode_keyside :
    decodeWord 0xC0000000#32 = .ok (.lgen 0) ∧ decodeWord 0xC0100000#32 = .ok (.lgen 1) ∧
    decodeWord 0xC4000000#32 = .ok .pstgen ∧ decodeWord 0xC8000000#32 = .ok .hgen ∧
    decodeWord 0xCC000000#32 = .ok .sysform ∧ decodeWord 0xD0000000#32 = .ok .gextract := by decide

/-- The ILLEGAL words of `95_test_vectors.md` §2.1. -/
theorem test_decode_illegal :
    decodeWord 0x00000001#32 = .error .immNotZero ∧
    decodeWord 0x00010000#32 = .error .bit16Set ∧
    decodeWord 0x00800000#32 = .error .rdNotZero ∧
    decodeWord 0x08000002#32 = .error .chkpermTable ∧
    decodeWord 0x0C000000#32 = .error .reservedOpcode ∧
    decodeWord 0x9C000000#32 = .error .reservedOpcode ∧
    decodeWord 0xFFFFFFFF#32 = .error .reservedOpcode ∧
    decodeWord 0x20900007#32 = .error .raNotZero ∧
    decodeWord 0x20820007#32 = .error .rbNotZero ∧
    decodeWord 0x26150000#32 = .error .bit16Set ∧
    decodeWord 0x8C900000#32 = .error .rdNotZero ∧
    decodeWord 0xC4000001#32 = .error .immNotZero := by decide

theorem test_encode :
    encode (.config 10 38) = 0x040004CA#32 ∧ encode (.fmul 5 1 2) = 0x2A940000#32 ∧
    encode (.psetg 5) = 0x8C500000#32 ∧ encode .decode = 0xBC000000#32 := by decide

/-! ## The key K4 (`95_test_vectors.md` §1.1) -/

def memOf {α : Type} (vs : List α) : Memory α := Memory.empty.writeRange 0 vs

def bitsOf (n w : Nat) : List Bool := (List.range n).map w.testBit

/-- K4's configuration, registers of the worked examples, and every memory but E, M and G written. -/
def k4data : Data :=
  { Data.reset with
    cfg := some { m := 4, t := 2 }
    fmod := 0x13
    clen := 16
    f := { RegFile.all 0 with r1 := 2, r2 := 7, r3 := 0xB }
    p := { RegFile.all [] with r0 := [6, 0xB], r2 := [5, 3], r3 := [7, 0, 1], r7 := [0, 1, 3] }
    gp := [8, 1, 1]
    mems :=
      { Memories.unwritten with
        l := memOf [0, 2, 4, 8, 3, 6, 0xC, 0xB, 5, 0xA, 7, 0xE, 0xF, 0xD, 9, 1]
        pst := memOf [0xF, 0xF, 5, 3, 0xE, 8, 5, 0xA, 6, 3, 0xE, 2, 0xC, 5, 1, 0xC,
                      6, 8, 0xD, 0xC, 0xC, 2, 9, 4, 0xD, 4, 9, 5, 0xF, 0xA, 0, 0xF]
        pidx := memOf [3, 8, 13, 2, 7, 12, 1, 6, 11, 0, 5, 10, 15, 4, 9, 14]
        swp := memOf [0, 1, 2, 3, 4, 5, 7, 9, 8, 6, 10, 11, 12, 13, 14, 15]
        h := memOf ([0xB541, 0xFC42, 0x4544, 0x3C08, 0xE950, 0x5860, 0xD980, 0xD600].flatMap
          (bitsOf 16))
        sinv := memOf ([0xFF, 0xFE, 0xFC, 0xF8, 0xF0, 0xE0, 0xC0, 0x80].flatMap (bitsOf 8))
        c := memOf (bitsOf 16 0x5A37)
        w := memOf (bitsOf 16 0xE768)
        mc := memOf (bitsOf 8 0xEF) } }

def k4 : State := { State.reset with data := k4data }

/-- K4 with a command accepted. -/
def k4busy (w : Word) : State := k4.accept w

/-- The configuration and registers KEYEQ needs of K5 (`95_test_vectors.md` §1.2, §2.6). -/
def k5 : State :=
  { State.reset with
    data := { Data.reset with
      cfg := some { m := 5, t := 4 }
      fmod := 0x25
      p := { RegFile.all [] with r2 := [8, 7, 4, 0xF] }
      gp := [0x1F, 0x1C, 0x1E, 0x18, 1] } }

/-- The data after a command that succeeds. -/
def dataAfter (i : Instr) (s : State) : Option Data :=
  match exec i s with
  | .next t => if t.done && !t.err then some t.data else none
  | _ => none

/-- Code, information and sub-step of a command that fails. -/
def errorAfter (i : Instr) (s : State) : Option (Nat × Nat × Nat) :=
  match exec i s with
  | .next t =>
    if t.err && !t.done then some (t.errcode.code.toNat, t.errinfo.toNat, t.errcode.sub.toNat)
    else none
  | _ => none

/-- The element at which a command faults. -/
def faultAfter (i : Instr) (s : State) : Option (MemId × Nat) :=
  match exec i s with
  | .fault (.unwritten id e) => some (id, e)
  | _ => none

/-- K4 with a memory unwritten. -/
def k4lacksElem (id : ElemMem) : State := { k4 with data := k4data.withElem id .empty }
def k4lacksBit (id : BitMem) : State := { k4 with data := k4data.withBit id .empty }

/-- What a host read returns. -/
def readOf (off : BitVec 12) (s : State) : Option Word :=
  match hostRead off s with
  | .next t => some t.prdata
  | _ => none

/-! ## Control and field commands (§2.1, §2.2) -/

theorem test_nop : dataAfter .nop State.reset = some Data.reset := by decide +kernel

theorem test_config :
    (dataAfter (.config 4 2) { k4 with data := { k4data with cfg := none } }).map
      (fun d => (d.cfg, d.gp, d.mems.l.read 1)) = some (some { m := 4, t := 2 }, [], none) := by
  decide +kernel

theorem test_config_param :
    errorAfter (.config 4 8) k4 = some (3, 0x104, 0) ∧
    errorAfter (.config 13 2) k4 = some (3, 0x4D, 0) := by decide +kernel

theorem test_noconfig :
    errorAfter (.fldi 1 7) State.reset = some (2, 0, 0) ∧
    errorAfter (.fldi 1 7) { k4 with data := { k4data with fmod := 0x25 } } = some (2, 1, 0) := by
  decide +kernel

theorem test_chkperm :
    (dataAfter (.chkperm .pidx) k4).isSome = true ∧
    errorAfter (.chkperm .swp)
      { k4 with data := k4data.withElem .SWP (k4data.mems.swp.write 15 0) } = some (11, 15, 0) := by
  decide +kernel

theorem test_fldi :
    (dataAfter (.fldi 1 15) k4).map (·.f.r1) = some 0xF ∧
    errorAfter (.fldi 3 16) k4 = some (4, 0x10, 0) := by decide +kernel

theorem test_fadd : (dataAfter (.fadd 1 2 3) k4).map (·.f.r1) = some 0xC := by decide +kernel
theorem test_fmul : (dataAfter (.fmul 1 2 3) k4).map (·.f.r1) = some 4 := by decide +kernel

theorem test_finv :
    (dataAfter (.finv 1 2) k4).map (·.f.r1) = some 6 ∧
    errorAfter (.finv 6 0) k4 = some (6, 1, 0) := by decide +kernel

theorem test_fpow :
    (dataAfter (.fpow 1 1 4) k4).map (·.f.r1) = some 3 ∧
    (dataAfter (.fpow 7 0 0) k4).map (·.f.r7) = some 1 := by decide +kernel

theorem test_fldl :
    (dataAfter (.fldl 1 5) k4).map (·.f.r1) = some 6 ∧
    errorAfter (.fldl 1 16) k4 = some (4, 0x10, 0) := by decide +kernel

/-! ## Polynomial commands (§2.3) -/

theorem test_pclr : (dataAfter (.pclr 3) k4).map (·.p.r3) = some [] := by decide +kernel
theorem test_pmov : (dataAfter (.pmov 1 2) k4).map (·.p.r1) = some [5, 3] := by decide +kernel

theorem test_pldg :
    (dataAfter (.pldg 1) k4).map (·.p.r1) = some [8, 1, 1] ∧
    errorAfter (.pldg 4) { k4 with data := { k4data with gp := [] } } = some (12, 0xFFFF, 0) := by
  decide +kernel

theorem test_pldt :
    (dataAfter (.pldt 1 5) k4).map (·.p.r1) = some [0xE, 2] ∧
    errorAfter (.pldt 1 16) k4 = some (4, 16, 0) := by decide +kernel

theorem test_pconst :
    (dataAfter (.pconst 1 2) k4).map (·.p.r1) = some [7] ∧
    (dataAfter (.pconst 2 0) k4).map (·.p.r2) = some [] := by decide +kernel

theorem test_psetc :
    (dataAfter (.psetc 2 2 1) k4).map (·.p.r2) = some [5, 7] ∧
    errorAfter (.psetc 4 2 65) k4 = some (4, 65, 0) := by decide +kernel

theorem test_pgetc :
    (dataAfter (.pgetc 1 2 1) k4).map (·.f.r1) = some 3 ∧
    errorAfter (.pgetc 4 3 65) k4 = some (4, 65, 0) := by decide +kernel

theorem test_padd : (dataAfter (.padd 1 2 3) k4).map (·.p.r1) = some [2, 3, 1] := by decide +kernel

theorem test_pmul :
    (dataAfter (.pmul 1 2 3) k4).map (·.p.r1) = some [8, 9, 5, 3] := by decide +kernel

theorem test_pmulm : (dataAfter (.pmulm 1 2 3) k4).map (·.p.r1) = some [0xD, 4] := by decide +kernel

theorem test_pmod :
    (dataAfter (.pmod 1 3) k4).map (·.p.r1) = some [0xF, 1] ∧
    errorAfter (.pmod 4 2) { k4 with data := { k4data with gp := [1, 0, 0, 1] } } =
      some (12, 3, 0) := by decide +kernel

theorem test_pdivq :
    (dataAfter (.pdivq 1 3 2) k4).map (·.p.r1) = some [1, 0xE] ∧
    errorAfter (.pdivq 4 3 1) k4 = some (6, 3, 0) := by decide +kernel

theorem test_pdivr :
    (dataAfter (.pdivr 1 3 2) k4).map (·.p.r1) = some [2] ∧
    (dataAfter (.pdivr 4 2 3) k4).map (·.p.r4) = some [5, 3] := by decide +kernel

theorem test_pinvm :
    (dataAfter (.pinvm 1 2) k4).map (·.p.r1) = some [2, 1] ∧
    errorAfter (.pinvm 4 1) k4 = some (6, 2, 0) := by decide +kernel

theorem test_psqrm : (dataAfter (.psqrm 1 2) k4).map (·.p.r1) = some [0xC, 5] := by decide +kernel
theorem test_psqrt : (dataAfter (.psqrt 1 2) k4).map (·.p.r1) = some [0xD, 4] := by decide +kernel

theorem test_pshl :
    (dataAfter (.pshl 1 2 3) k4).map (·.p.r1) = some [0, 0, 0, 5, 3] ∧
    errorAfter (.pshl 4 2 64) k4 = some (5, 65, 0) := by decide +kernel

theorem test_pscl : (dataAfter (.pscl 1 2 2) k4).map (·.p.r1) = some [8, 9] := by decide +kernel
theorem test_peval : (dataAfter (.peval 1 2 1) k4).map (·.f.r1) = some 3 := by decide +kernel

theorem test_psetg : (dataAfter (.psetg 2) k4).map (·.gp) = some [5, 3] := by decide +kernel

/-! ## Decode commands (§2.6) -/

theorem test_permc :
    (dataAfter .permc k4).map (·.mems.w) = some (memOf (bitsOf 16 0xE768)) ∧
    errorAfter .permc { k4 with data := { k4data with clen := 15 } } = some (7, 15, 0) := by
  decide +kernel

theorem test_synd :
    (dataAfter .synd { k4 with data := k4data.setP 0 [] }).map (·.p.r0) = some [6, 0xB] := by
  decide +kernel

theorem test_locator :
    (dataAfter .locator k4).map (·.p) =
      some { r0 := [6, 0xB], r1 := [0xB, 3], r2 := [0, 4], r3 := [0, 4], r4 := [1],
             r5 := [8, 1, 1], r6 := [], r7 := [0, 1, 3] } ∧
    (dataAfter .locator { k4 with data := k4data.setP 0 [] }).map (fun d => (d.degen, d.p.r7)) =
      some (1, [0, 1]) := by decide +kernel

theorem test_keyeq :
    (dataAfter .keyeq k5).map (fun d => (d.p.r3, d.p.r4, d.p.r5, d.p.r6, d.iter)) =
      some ([5, 8, 0x15], [0xA, 0xD], [8, 7, 4, 0xF], [1], 2) := by decide +kernel

theorem test_roots :
    (dataAfter .roots k4).map (fun d => (d.mems.e, d.mems.w, d.rootcnt)) =
      some (memOf (bitsOf 16 0x0801), memOf (bitsOf 16 0xEF69), 2) := by decide +kernel

theorem test_extract :
    (dataAfter .extract { k4 with data := k4data.fillBit .W (bitsOf 16 0xEF69) }).map (·.mems.mc) =
      some (memOf (bitsOf 8 0xEF)) := by decide +kernel

theorem test_unscr :
    (dataAfter .unscr k4).map (·.mems.msg) = some (memOf (bitsOf 8 0xA5)) := by decide +kernel

theorem test_decode :
    (dataAfter .decode k4).map (fun d => (d.mems.msg, d.mems.w, d.rootcnt)) =
      some (memOf (bitsOf 8 0xA5), memOf (bitsOf 16 0xEF69), 2) ∧
    errorAfter .decode { k4 with data := { k4data with gp := [8, 1] } } = some (12, 1, 3) := by
  decide +kernel

/-! ## Key-side commands (§2.4) -/

theorem test_lgen :
    (dataAfter (.lgen 1) { k4 with data := k4data.withElem .L .empty }).map (·.mems.l) =
      some k4data.mems.l ∧
    errorAfter (.lgen 0) k4 = some (8, 1, 0) := by decide +kernel

theorem test_pstgen :
    (dataAfter .pstgen { k4 with data := k4data.withElem .PST .empty }).map (·.mems.pst) =
      some k4data.mems.pst ∧
    errorAfter .pstgen { k4 with data := { k4data with gp := [3, 1, 1] } } = some (9, 6, 0) := by
  decide +kernel

theorem test_hgen :
    (dataAfter .hgen k4).map (·.mems.h) =
      some (memOf ([0xA053, 0xC43B, 0xBAC1, 0xC38D, 0xDAD8, 0x850E, 0xEDBE, 0xBDE8].flatMap
        (bitsOf 16))) ∧
    errorAfter .hgen { k4 with data := { k4data with gp := [1, 0, 1] } } = some (9, 15, 0) := by
  decide +kernel

theorem test_sysform :
    (dataAfter .sysform { k4 with data := k4data.withElem .SWP .empty }).map
      (fun d => (d.mems.swp, d.swapcnt)) = some (k4data.mems.swp, 2) ∧
    errorAfter .sysform { k4 with data := k4data.withBit .H (k4data.mems.h.write 16 true) } =
      some (10, 0x80000000, 0) := by decide +kernel

theorem test_gextract :
    (dataAfter .gextract k4).map (·.mems.g) =
      some (memOf ([0x0195, 0x0077, 0x060F, 0x08BA, 0x12AB, 0x201B, 0x42B6, 0x8293].flatMap
        (bitsOf 16))) ∧
    errorAfter .gextract
      { k4 with data := k4data.withElem .SWP (k4data.mems.swp.write 15 0) } = some (11, 15, 0) := by
  decide +kernel

/-! ## Host port, engine and reset (§2.5) -/

theorem test_reads_after_reset :
    readOf 0x000 State.reset = some 0x4D434E31#32 ∧ readOf 0x004 State.reset = some 0x80C#32 ∧
    readOf 0x00D State.reset = some 0#32 ∧ readOf 0x05C State.reset = some 0xFFFF#32 := by
  decide +kernel

theorem test_busy_status :
    readOf 0x00C (k4busy 0xBC000000) = some 0x09#32 ∧
    hostWrite 0x030 15 (k4busy 0xBC000000) = { k4busy 0xBC000000 with berr := true } := by
  decide +kernel

theorem test_mdata :
    readOf 0x048 { k4 with msel := 6, midx := 3 } = some 0xF8#32 ∧
    readOf 0x048 { k4 with msel := 1, midx := 11 } = some 2#32 := by decide +kernel

theorem test_mdata_write_masks :
    (hostWrite 0x048 0x12 { k4 with msel := 0, midx := 0 }).data.mems.l.read 0 = some 2 := by
  decide +kernel

theorem test_errcode_of_decode :
    (match step ({ k4 with data := { k4data with gp := [8, 1] } }.withFetchWord 32 0xBC000000) with
     | .next t => t.errcode.word
     | _ => 0) = 0x0000EF0C#32 := by decide +kernel

theorem test_advance_then_complete :
    (match step { k4busy 0xBC000000 with events := [.advance, .complete] } with
     | .next t => (match step t with
       | .next u => u.data.mems.msg
       | _ => .empty)
     | _ => .empty) = memOf (bitsOf 8 0xA5) := by decide +kernel

theorem test_fetch :
    (match step (State.reset.withFetchWord 32 0x20800007) with
     | .next t => t.errcode.word
     | _ => 0) = 0x0802#32 := by decide +kernel

theorem test_irq_after_nop :
    (match step ({ State.reset with doneIE := true }.withFetchWord 32 0) with
     | .next t => t.irq
     | _ => false) = true := by decide +kernel

/-! ## Witnesses: the common state -/

/-- The field and the Goppa polynomial of K4. -/
def k4gf : GF := { m := 4, f := 0x13 }

theorem k4_runs : k4.Runs { m := 4, t := 2 } := by decide +kernel

/-- Well-formedness of a polynomial as a check of its coefficients. -/
def polyCheck (m : Nat) (p : Poly) : Bool :=
  decide (p.getLast? ≠ some 0#16) && p.all fun a => decide (a.toNat < 2 ^ m)

theorem wf_of_check {m : Nat} {p : Poly} (h : polyCheck m p = true) : Poly.wf m p := by
  simp only [polyCheck, Bool.and_eq_true, decide_eq_true_eq, List.all_eq_true] at h
  exact h

theorem k4_sound : k4.Sound where
  hw := by decide
  data :=
    { cfg := by decide +kernel
      regs := by
        have all : ∀ i, polyCheck 4 (k4data.p.get i) = true := by decide +kernel
        exact ⟨by decide +kernel, fun i => wf_of_check (all i), wf_of_check (by decide +kernel)⟩
      elems := by intro id; cases id <;> decide +kernel
      bits := by intro id; cases id <;> decide +kernel }
  copy := by intro b hb; cases hb

theorem k4_fits : k4.Fits where
  sound := k4_sound
  data := by decide +kernel
  copy := by intro b hb; cases hb

theorem k4_follows : k4.CopyFollows := by intro b hb; cases hb

/-- A field element of K4 as a number below 16. -/
theorem elem_below_16 (a : Elem) (h : a.toNat < 2 ^ 4) : ∃ n : Fin 16, a = BitVec.ofNat 16 n.val :=
  ⟨⟨a.toNat, h⟩, by simp⟩

theorem k4_isField : k4gf.isField := by
  intro a h0 h
  obtain ⟨n, rfl⟩ := elem_below_16 a h
  have all : ∀ n : Fin 16, BitVec.ofNat 16 n.val ≠ 0#16 →
      ∃ b : Fin 16, k4gf.mul (BitVec.ofNat 16 n.val) (BitVec.ofNat 16 b.val) = 1#16 := by
    decide +kernel
  obtain ⟨b, hb⟩ := all n h0
  refine ⟨_, ?_, hb⟩
  show (BitVec.ofNat 16 b.val).toNat < 2 ^ 4
  have := b.isLt
  simp
  omega

/-- The inverses of GF(16) (`95_test_vectors.md` §2.2). -/
def inverses : List Elem := [0, 1, 9, 0xE, 0xD, 0xB, 7, 6, 0xF, 2, 0xC, 5, 0xA, 4, 3, 8]

/-- A check that l·z + n has the inverse ((n + l) + l·z) / (n² + n·l + 8·l²) modulo g. -/
def inverseCheck (n l : Elem) : Bool :=
  let norm := fieldAdd (k4gf.mul n (fieldAdd n l)) (k4gf.mul 8 (k4gf.mul l l))
  let v := inverses.getD norm.toNat 0
  let b := Poly.ofCoeffs [k4gf.mul v (fieldAdd n l), k4gf.mul v l]
  let q := Poly.ofCoeffs [k4gf.mul l (k4gf.mul v l)]
  polyCheck 4 b && polyCheck 4 q &&
    decide (Poly.mul k4gf (Poly.ofCoeffs [n, l]) b = Poly.add (Poly.mul k4gf q [8, 1, 1]) [1])

theorem invertible_of_check {n l : Elem} (h : inverseCheck n l = true) :
    Poly.invertibleMod k4gf [8, 1, 1] (Poly.ofCoeffs [n, l]) := by
  simp only [inverseCheck, Bool.and_eq_true, decide_eq_true_eq] at h
  exact ⟨_, wf_of_check h.1.1, _, wf_of_check h.1.2, h.2⟩

theorem inverse_checks : ∀ n l : Fin 16, (n.val ≠ 0 ∨ l.val ≠ 0) →
    inverseCheck (BitVec.ofNat 16 n.val) (BitVec.ofNat 16 l.val) = true := by decide +kernel

theorem k4_irreducible : Poly.irreducible k4gf [8, 1, 1] := by
  intro a hw h0 hl
  obtain ⟨hlast, hm⟩ := hw
  match a with
  | [] => exact absurd rfl h0
  | [x] =>
    obtain ⟨n, rfl⟩ := elem_below_16 x (hm x (by simp))
    have hn : n.val ≠ 0 := fun h => hlast (by simp [h])
    have hx : BitVec.ofNat 16 n.val ≠ 0#16 := fun h => hlast (by simp [h])
    have := invertible_of_check (inverse_checks n 0 (.inl hn))
    rwa [show Poly.ofCoeffs [BitVec.ofNat 16 n.val, BitVec.ofNat 16 (0 : Fin 16).val] =
      [BitVec.ofNat 16 n.val] by simp [Poly.ofCoeffs, Poly.cons, hx]] at this
  | [x, y] =>
    obtain ⟨n, rfl⟩ := elem_below_16 x (hm x (by simp))
    obtain ⟨l, rfl⟩ := elem_below_16 y (hm y (by simp))
    have hy : BitVec.ofNat 16 l.val ≠ 0#16 := fun h => hlast (by simp [h])
    have hn : l.val ≠ 0 := fun h => hy (by simp [h])
    have := invertible_of_check (inverse_checks n l (.inr hn))
    rwa [show Poly.ofCoeffs [BitVec.ofNat 16 n.val, BitVec.ofNat 16 l.val] =
      [BitVec.ofNat 16 n.val, BitVec.ofNat 16 l.val] by simp [Poly.ofCoeffs, Poly.cons, hy]] at this
  | _ :: _ :: _ :: _ =>
    simp only [List.length_cons, List.length_nil] at hl
    omega

/-! ## Witnesses: encoding and machine -/

theorem witness_EncodeThenDecode : (Instr.config 31 2047).wellFormed = true := by decide

theorem witness_LegalWordIsTheOneEncoding : decodeWord 0x0400FFFF#32 = .ok (.config 31 2047) := by
  decide

theorem witness_TableRowsSelectTheLegalWords :
    (⟨0x00000000#32, 0xFFFFFFFF#32⟩ : OpRow) ∈ opcodeRows ∧
    (⟨0x04000000#32, 0xFFFF0000#32⟩ : OpRow) ∈ opcodeRows := by decide

theorem witness_IllegalWordIsRecorded :
    ((0x0C000000#32).extractLsb' 26 6).toNat = 0x03 ∧
    ((0xFC000000#32).extractLsb' 26 6).toNat = 0x3F ∧
    (0x24010000#32).getLsbD 16 = true ∧
    (0x08000002#32).extractLsb' 26 6 = 0x02#6 ∧ (0x08000002#32).extractLsb' 1 15 ≠ 0#15 ∧
    { k4busy 0x00000001 with events := [.complete] }.busy = true ∧
    decodeWord { k4busy 0x00000001 with events := [.complete] }.cmd = .error .immNotZero := by
  decide +kernel

theorem witness_StepPerformsTheNextEvent :
    (k4busy 0x28A60000).busy = true ∧ decodeWord (k4busy 0x28A60000).cmd = .ok (.fmul 1 2 3) ∧
    { k4busy 0x28A60000 with events := [.complete] }.events = .complete :: [] ∧
    { k4 with events := [.read 0] }.events = .read 0 :: [] ∧
    { k4 with events := [.write 0 0] }.events = .write 0 0 :: [] ∧
    { k4 with events := [.complete] }.events = .complete :: [] ∧
    { k4busy 0xBC000000 with events := [.advance] }.events = .advance :: [] ∧
    (k4busy 0x28A60000).events = [] ∧ k4.busy = false ∧ k4.events = [] := by decide +kernel

theorem witness_CmdWriteAcceptsOrIsRefused :
    k4.rstN = true ∧ (0x017#12 &&& 0xFFC#12) = 0x014#12 ∧ k4.busy = false ∧ k4.err = false ∧
    (k4busy 0).rstN = true ∧ (k4busy 0).busy = true ∧
    { k4 with err := true }.busy = false ∧ { k4 with err := true }.err = true := by decide +kernel

theorem witness_CommandCommitsOrRecordsAnError :
    (∃ t, exec .nop k4 = .next t) ∧ ∃ t, exec (.finv 6 0) k4 = .next t := by
  refine ⟨⟨_, rfl⟩, ?_⟩
  have h : (match exec (.finv 6 0) k4 with | .next t => t.err | _ => false) = true := by
    decide +kernel
  split at h
  · next t ht => exact ⟨t, ht⟩
  · cases h

theorem witness_WritersOfCountersAndMemories : k4.Fresh ∧ ∃ t, exec (.psetg 2) k4 = .next t :=
  ⟨by decide +kernel, ⟨_, rfl⟩⟩

/-- K4 with FMOD of degree 5. -/
def k4degree5 : State := { k4 with data := { k4data with fmod := 0x25 } }

theorem witness_NoconfigIsCheckedFirst :
    Instr.fldi 1 7 ≠ .nop ∧ State.reset.Fresh ∧ State.reset.data.cfg = none ∧
    k4degree5.Fresh ∧ k4degree5.data.cfg = some { m := 4, t := 2 } ∧
    k4degree5.data.fmod >>> (4 : Nat) ≠ 1#17 := by decide +kernel

theorem witness_WrongDegreeOfGpIsReported :
    { k4 with data := { k4data with gp := [] } }.Runs { m := 4, t := 2 } ∧
    { k4 with data := { k4data with gp := [] } }.data.gp.length ≠ 2 + 1 ∧
    { k4 with data := { k4data with gp := [1, 0, 0, 1] } }.Runs { m := 4, t := 2 } ∧
    { k4 with data := { k4data with gp := [1, 0, 0, 1] } }.data.gp.length ≠ 2 + 1 ∧
    ∀ i : Fin 16, (k4.data.mems.l.read i).isSome = true := by
  decide +kernel

theorem witness_DoneAndErrStayExclusive :
    k4.FlagsExclusive ∧ (∃ t, step k4 = .next t) ∧ (k4busy 0).FlagsExclusive ∧
    ∃ t, step (k4busy 0) = .next t :=
  ⟨by decide +kernel, ⟨_, rfl⟩, by decide +kernel, ⟨_, rfl⟩⟩

theorem witness_InvariantsHoldAtReset :
    Config.reference.legal ∧ Synth.legal { mMax := 2, tMax := 2 } ∧
    Synth.legal { mMax := 16, tMax := 2047 } := by decide

theorem witness_WellFormedDataIsKept : k4.Sound ∧ ∃ t, step k4 = .next t := ⟨k4_sound, ⟨_, rfl⟩⟩

theorem witness_DegreesStayWithinTMax : k4.Fits ∧ ∃ t, step k4 = .next t := ⟨k4_fits, ⟨_, rfl⟩⟩

/-- K4 with a DECODE accepted and its first sub-step to come. -/
def k4decoding : State := { k4busy 0xBC000000 with events := [.advance] }

theorem advance_is_next : ∃ t, step k4decoding = .next t ∧ t.busy = true := by
  have h : (match step k4decoding with | .next t => t.busy | _ => false) = true := by
    decide +kernel
  split at h
  · next t ht => exact ⟨t, ht, h⟩
  · cases h

theorem witness_WorkingCopyFollowsTheState :
    k4.CopyFollows ∧ k4decoding.CopyFollows ∧ ∃ t, step k4decoding = .next t := by
  refine ⟨k4_follows, fun b hb => .inl ?_, ?_⟩
  · cases hb; exact ⟨rfl, rfl⟩
  · obtain ⟨t, ht, -⟩ := advance_is_next
    exact ⟨t, ht⟩

/-- An advance that goes on, and one that ends the command: the second sub-step finds PST unwritten in
neither; the third finds a Goppa polynomial of the wrong degree. -/
def k4failing : State :=
  { k4 with data := { k4data with gp := [8, 1] }
            cmd := 0xBC000000
            engine := some { copy := { k4data with gp := [8, 1] }, sub := 2 } }

theorem witness_SubStepsAreInvisible :
    (k4busy 0xBC000000).busy = true ∧
    (match advanceDecode (k4busy 0xBC000000) with | .next t => t.busy | _ => false) = true ∧
    k4failing.busy = true ∧
    (match advanceDecode k4failing with | .next t => t.busy | _ => true) = false := by
  decide +kernel

theorem witness_BusyLockout :
    (k4busy 0).rstN = true ∧ (k4busy 0).busy = true ∧
    (0x048#12 &&& 0xFFC#12) = 0x048#12 ∧ (0x063#12 &&& 0xFFC#12) = 0x060#12 ∧
    (0x07F#12 &&& 0xFFC#12) = 0x07C#12 ∧ (0x080#12 &&& 0xFFC#12) = 0x080#12 ∧
    (0x00B#12 &&& 0xFFC#12) = 0x008#12 ∧ (1#32).getLsbD 0 = true ∧ (2#32).getLsbD 0 = false ∧
    (0x00C#12 &&& 0xFFC#12) = 0x00C#12 ∧ (0x010#12 &&& 0xFFC#12) = 0x010#12 := by decide +kernel

theorem witness_ResetsRestoreTheResetState :
    k4.rstN = true ∧ (0x00B#12 &&& 0xFFC#12) = 0x008#12 ∧ (1#32).getLsbD 0 = true ∧
    (2#32).getLsbD 0 = false ∧
    { k4busy 0 with events := [.resetFalls] }.events = .resetFalls :: [] ∧
    { k4busy 0 with events := [.resetRises] }.events = .resetRises :: [] ∧
    { k4 with rstN := false }.rstN = false := by decide +kernel

theorem witness_ResetValuesAreRead :
    Config.reference.legal ∧ (0x007#12 &&& 0xFFC#12) ≠ 0x048#12 ∧
    (0x007#12 &&& 0xFFC#12) ≠ 0x058#12 := by decide

theorem witness_StatusReadsAndClears :
    k4.rstN = true ∧ (0x00F#12 &&& 0xFFC#12) = 0x00C#12 ∧ (0x014#12 &&& 0xFFC#12) = 0x014#12 ∧
    { k4 with err := true }.rstN = true ∧ { k4 with err := true }.busy = false := by decide +kernel

/-- What an outcome shows of a state, where it is a next state. -/
def seenIn {α : Type} (r : Host.Outcome State Fault Refusal) (view : State → α) : Option α :=
  match r with
  | .next t => some (view t)
  | _ => none

theorem next_of_seen {α : Type} {r : Host.Outcome State Fault Refusal} {view : State → α} {x : α}
    (h : seenIn r view = some x) : ∃ t, r = .next t ∧ view t = x := by
  cases r with
  | next t => exact ⟨t, rfl, Option.some.inj h⟩
  | fault _ => cases h
  | refused _ => cases h

/-- A busy block with both interrupts enabled. -/
def k4enabled (w : Word) : State := { k4busy w with doneIE := true, errIE := true }

theorem witness_InterruptReportsTheCompletion :
    ((k4enabled 0).FlagsExclusive ∧ (k4enabled 0).busy = true ∧ (k4enabled 0).rstN = true ∧
      ∃ t, exec .nop (k4enabled 0) = .next t ∧ (t.done, t.err, t.irq) = (true, false, true)) ∧
    -- a failing command: FINV of 0
    ((k4enabled 0x2F000000).FlagsExclusive ∧ (k4enabled 0x2F000000).busy = true ∧
      ∃ t, exec (.finv 6 0) (k4enabled 0x2F000000) = .next t ∧
        (t.done, t.err, t.irq) = (false, true, true)) ∧
    -- an ILLEGAL word
    ((k4enabled 0xFC000000).FlagsExclusive ∧ (k4enabled 0xFC000000).busy = true ∧
      ∃ t, completeCommand (k4enabled 0xFC000000) = .next t ∧
        (t.done, t.err, t.irq) = (false, true, true)) ∧
    -- an idle block with both interrupts enabled and only AERR, BERR and REJ set
    ({ k4 with doneIE := true, errIE := true, aerr := true, berr := true, rej := true }.rstN = true ∧
      { k4 with doneIE := true, errIE := true, aerr := true, berr := true, rej := true }.irq = false) :=
  ⟨⟨by decide +kernel, by decide +kernel, by decide +kernel, next_of_seen (by decide +kernel)⟩,
    ⟨by decide +kernel, by decide +kernel, next_of_seen (by decide +kernel)⟩,
    ⟨by decide +kernel, by decide +kernel, next_of_seen (by decide +kernel)⟩, rfl, by decide +kernel⟩

theorem witness_UnmappedOffsets :
    (0x04F#12 &&& 0xFFC#12) = 0x04C#12 ∧ 0x080#12 ≤ 0x080#12 ∧ 0x080#12 ≤ 0xFFF#12 := by decide

theorem witness_PlainReadsHaveNoSideEffect :
    (0x047#12 &&& 0xFFC#12) ≠ 0x048#12 ∧ (0x05C#12 &&& 0xFFC#12) ≠ 0x058#12 ∧ k4.busy = false ∧
    (0x01F#12 &&& 0xFFC#12) = 0x01C#12 ∧ k4.rstN = true ∧ k4.hw.legal ∧
    [0x003#12, 0x007#12, 0x00B#12, 0x013#12, 0x01B#12, 0x01F#12, 0x02F#12, 0x033#12, 0x037#12, 0x03B#12,
      0x03F#12, 0x043#12, 0x047#12, 0x053#12, 0x057#12].map (fun o => o &&& 0xFFC#12) =
    [0x000#12, 0x004#12, 0x008#12, 0x010#12, 0x018#12, 0x01C#12, 0x02C#12, 0x030#12, 0x034#12, 0x038#12,
      0x03C#12, 0x040#12, 0x044#12, 0x050#12, 0x054#12] := by decide +kernel

/-- ERRCODE and DSTAT as R38 and R43 lay them out, and the reserved bits of a write (R35, R41, R47). -/
theorem test_register_fields :
    readOf 0x018 { k4 with errcode := { code := 6, opc := 0x2F, sub := 3 } } = some 0xEF06#32 ∧
    readOf 0x034 { k4 with data := { k4data with degen := 2, iter := 5 } } = some 0x50002#32 ∧
    (hostWrite 0x02C 0xFFFFFFFF k4).data.fmod = 0x1FFFF#17 ∧
    readOf 0x044 (hostWrite 0x044 0xFFFFFFFF k4) = some 0x7FFFFFF#32 ∧
    readOf 0x010 (hostWrite 0x010 0xFFFFFFFE k4) = some 2#32 := by decide +kernel

/-! ## Witnesses: the ports -/

theorem witness_OutOfRangeMdata :
    State.reset.rstN = true ∧ State.reset.busy = false ∧ (0x04B#12 &&& 0xFFC#12) = 0x048#12 ∧
    State.reset.data.cfg = none ∧
    { k4 with midx := 16 }.data.cfg = some { m := 4, t := 2 } ∧
    portWords { m := 4, t := 2 } { k4 with midx := 16 }.msel.toNat ≤ { k4 with midx := 16 }.midx.toNat ∧
    portWords { m := 4, t := 2 } { k4 with msel := 12 }.msel.toNat ≤ { k4 with msel := 12 }.midx.toNat := by
  decide +kernel

theorem witness_MdataWriteThenRead :
    k4.hw.legal ∧ Code.legal k4.hw { m := 4, t := 2 } ∧ k4.rstN = true ∧ k4.busy = false ∧
    (0x048#12 &&& 0xFFC#12) = 0x048#12 ∧ k4.data.cfg = some { m := 4, t := 2 } ∧
    { k4 with midx := 15 }.midx.toNat < portWords { m := 4, t := 2 } k4.msel.toNat ∧
    { k4 with msel := 6, midx := 7 }.midx.toNat < portWords { m := 4, t := 2 } 6 ∧
    memOfSel 11 = some (.bit .M) ∧ (11#4) ≠ k4.msel ∧ 0 < portWords { m := 4, t := 2 } 11 ∧
    memOfSel 0 = some (.elem .L) ∧ (14 : Nat) ≠ { k4 with midx := 15 }.midx.toNat := by decide +kernel

theorem witness_MdataReadLayout :
    k4.rstN = true ∧ k4.busy = false ∧ (0x048#12 &&& 0xFFC#12) = 0x048#12 ∧
    k4.data.cfg = some { m := 4, t := 2 } ∧
    { k4 with midx := 15 }.midx.toNat < portWords { m := 4, t := 2 } 0 ∧
    memOfSel k4.msel = some (.elem .L) ∧ (k4.data.mems.elem .L).read 15 = some 1 ∧
    (Data.reset.mems.elem .L).read 15 = none ∧
    memOfSel { k4 with msel := 6, midx := 7 }.msel = some (.bit .SINV) ∧
    { k4 with msel := 6, midx := 7 }.midx.toNat < portWords { m := 4, t := 2 } 6 ∧
    (∀ b : Fin 8, (k4.data.mems.bit .SINV).read (7 * 8 + 0 + b.val) = some (decide (b.val = 7))) ∧
    memOfSel { k4 with msel := 9 }.msel = some (.bit .E) ∧
    (k4.data.mems.bit .E).read (0 * 16 + 0 + 15) = none := by decide +kernel

/-- The memories MSEL selects (`20_memory.md` R104): word 2 of L, PST, PIDX, SWP, word 1 of H and SINV,
word 0 of C, W and MC in K4. -/
theorem test_msel :
    readOf 0x048 { k4 with msel := 0, midx := 2 } = some 4#32 ∧
    readOf 0x048 { k4 with msel := 1, midx := 2 } = some 5#32 ∧
    readOf 0x048 { k4 with msel := 2, midx := 2 } = some 13#32 ∧
    readOf 0x048 { k4 with msel := 3, midx := 2 } = some 2#32 ∧
    readOf 0x048 { k4 with msel := 4, midx := 1 } = some 0xFC42#32 ∧
    readOf 0x048 { k4 with msel := 6, midx := 1 } = some 0xFE#32 ∧
    readOf 0x048 { k4 with msel := 7 } = some 0x5A37#32 ∧
    readOf 0x048 { k4 with msel := 8 } = some 0xE768#32 ∧
    readOf 0x048 { k4 with msel := 10 } = some 0xEF#32 := by decide +kernel

theorem witness_PolynomialPort :
    k4.rstN = true ∧ k4.busy = false ∧ (0x05B#12 &&& 0xFFC#12) = 0x058#12 ∧
    k4.data.cfg = some { m := 4, t := 2 } ∧
    { k4 with psel := 7, pcidx := 64 }.pcidx.toNat ≤ k4.hw.tMax ∧
    { k4 with psel := 7, pcidx := 64 }.psel.toNat = (7 : RegIx).val ∧
    { k4 with psel := 8 }.psel = 8#4 ∧ State.reset.data.cfg = none ∧
    9 ≤ { k4 with psel := 9 }.psel.toNat ∧
    k4.hw.tMax < { k4 with pcidx := 65 }.pcidx.toNat ∧
    (0x05F#12 &&& 0xFFC#12) = 0x05C#12 := by decide +kernel

/-- PDEG of P3 = z² + 7, of P1 = 0 and of no register (`10_state.md` R52). -/
theorem test_pdeg :
    readOf 0x05C { k4 with psel := 3 } = some 2#32 ∧
    readOf 0x05C { k4 with psel := 1 } = some 0xFFFF#32 ∧
    readOf 0x05C { k4 with psel := 8 } = some 2#32 ∧
    readOf 0x05C { k4 with psel := 9 } = some 0xFFFF#32 := by decide +kernel

theorem witness_FieldRegisterPort :
    k4.rstN = true ∧ k4.busy = false ∧
    (0x07F#12 &&& 0xFFC#12) = 0x060#12 + 4#12 * BitVec.ofNat 12 (7 : RegIx).val ∧
    (0x060#12 &&& 0xFFC#12) = 0x060#12 + 4#12 * BitVec.ofNat 12 (0 : RegIx).val ∧
    State.reset.data.cfg = none ∧ k4.data.cfg = some { m := 4, t := 2 } := by decide +kernel

/-! ## Witnesses: control and field commands -/

theorem witness_NopOnlySetsDone :
    State.reset.Fresh ∧ (0x00800000#32).extractLsb' 26 6 = 0#6 ∧ (0x00800000#32) ≠ 0#32 := by
  decide +kernel

theorem witness_ConfigSetsTheCode :
    k4.Fresh ∧ k4.data.fmod >>> 4 = 1#17 ∧ 4 * 3 < 2 ^ 4 ∧ 3 ≤ k4.hw.tMax ∧ 4 ≤ k4.hw.mMax ∧
    k4.data.cfg ≠ some { m := 4, t := 3 } ∧ k4.data.cfg = some { m := 4, t := 2 } ∧
    ¬(4 * 4 < 2 ^ 4) ∧ ¬(13 ≤ k4.hw.mMax) ∧ ¬(65 ≤ k4.hw.tMax) ∧
    k4.hw.legal ∧ k4.rstN = true ∧ Code.legal k4.hw { m := 4, t := 2 } ∧
    (0x023#12 &&& 0xFFC#12) = 0x020#12 ∧ (0x024#12 &&& 0xFFC#12) = 0x024#12 ∧
    (0x028#12 &&& 0xFFC#12) = 0x028#12 ∧ State.reset.data.cfg = none := by decide +kernel

/-- The value element i of a memory of field elements or indices holds in K4. -/
def k4elem (id : ElemMem) (i : Nat) : Elem := ((k4.data.mems.elem id).read i).getD 0

theorem witness_ChkpermFindsTheFirstRepeat :
    k4.Runs { m := 4, t := 2 } ∧
    (∀ i : Fin 16, k4.data.mems.pidx.read i = some (k4elem .PIDX i)) ∧
    (∀ i j : Fin 16, i < j → k4elem .PIDX i ≠ k4elem .PIDX j) ∧
    -- SWP(15) ← 0: the first repeat is at 15
    (∀ i : Fin 15, (k4.data.mems.swp.write 15 0).read i = some (k4elem .SWP i)) ∧
    (k4.data.mems.swp.write 15 0).read 15 = some 0 ∧ k4elem .SWP 0 = 0 ∧
    (∀ i j : Fin 15, i < j → k4elem .SWP i ≠ k4elem .SWP j) ∧
    -- PIDX unwritten
    Data.reset.mems.pidx.read 0 = none := by decide +kernel

theorem witness_FieldLoads :
    k4.Runs { m := 4, t := 2 } ∧ 15 < 2 ^ 4 ∧ k4.data.mems.l.read 15 = some 1 ∧ 2 ^ 4 ≤ 16 ∧
    { k4 with data := k4data.withElem .L .empty }.Runs { m := 4, t := 2 } ∧
    { k4 with data := k4data.withElem .L .empty }.data.mems.l.read 15 = none := by decide +kernel

theorem witness_FieldSumAndProduct : k4.Runs { m := 4, t := 2 } ∧ k4.Sound := ⟨k4_runs, k4_sound⟩

theorem witness_FieldInverse :
    k4.Runs { m := 4, t := 2 } ∧ k4.Sound ∧
    (k4gf.mul (k4.data.f.get 2) 6 = 1#16 ∧ (6#16).toNat < 2 ^ 4) ∧
    (∀ b : Elem, b.toNat < 2 ^ 4 → k4gf.mul (k4.data.f.get 0) b ≠ 1#16) ∧
    k4.data.f.get 0 = 0#16 := by
  refine ⟨k4_runs, k4_sound, by decide +kernel, fun b hb => ?_, by decide +kernel⟩
  obtain ⟨n, rfl⟩ := elem_below_16 b hb
  have all : ∀ n : Fin 16, k4gf.mul (k4.data.f.get 0) (BitVec.ofNat 16 n.val) ≠ 1#16 := by
    decide +kernel
  exact all n

theorem witness_FieldPower : k4.Runs { m := 4, t := 2 } := k4_runs

/-! ## Witnesses: polynomial commands -/

theorem witness_PolynomialMoves : k4.Runs { m := 4, t := 2 } ∧ k4.data.gp.length = 2 + 1 :=
  ⟨k4_runs, by decide +kernel⟩

theorem witness_TableEntryLoad :
    k4.Runs { m := 4, t := 2 } ∧ 15 < 2 ^ 4 ∧
    (∀ j : Fin 2, k4.data.mems.pst.read (15 * 2 + j) = some (k4elem .PST (15 * 2 + j))) ∧
    { k4 with data := k4data.withElem .PST .empty }.Runs { m := 4, t := 2 } ∧
    { k4 with data := k4data.withElem .PST .empty }.data.mems.pst.read (15 * 2 + 1) = none ∧
    2 ^ 4 ≤ 16 := by decide +kernel

theorem witness_CoefficientAccess :
    k4.Runs { m := 4, t := 2 } ∧ 64 ≤ k4.hw.tMax ∧ k4.hw.tMax < 65 := by decide +kernel

theorem witness_SumScaleAndShift :
    k4.Runs { m := 4, t := 2 } ∧ k4.Sound ∧ k4.data.p.get 1 = [] ∧
    (k4.data.p.get 2).length + 63 ≤ k4.hw.tMax + 1 ∧ k4.data.p.get 2 ≠ [] ∧
    k4.hw.tMax + 1 < (k4.data.p.get 2).length + 64 :=
  ⟨k4_runs, k4_sound, by decide +kernel, by decide +kernel, by decide +kernel, by decide +kernel⟩

/-- P2 = z^64 and P3 = z: the product has degree 65. -/
def k4long : State :=
  { k4 with data := { k4data with p := { RegFile.all [] with r2 := Poly.shift 64 [1], r3 := [0, 1] } } }

theorem long_sound : k4long.Sound where
  hw := by decide
  data :=
    { cfg := k4_sound.data.cfg
      regs := by
        have all : ∀ i, polyCheck 4 (k4long.data.p.get i) = true := by decide +kernel
        exact ⟨k4_sound.data.regs.1, fun i => wf_of_check (all i), k4_sound.data.regs.2.2⟩
      elems := k4_sound.data.elems
      bits := k4_sound.data.bits }
  copy := by intro b hb; cases hb

theorem witness_PolynomialProduct :
    (k4.Runs { m := 4, t := 2 } ∧ k4.Sound ∧ k4gf.isField ∧ k4.data.p.get 2 ≠ [] ∧
      k4.data.p.get 3 ≠ [] ∧
      (k4.data.p.get 2).length + (k4.data.p.get 3).length ≤ k4.hw.tMax + 2) ∧
    -- OVERFLOW(65)
    (k4long.Runs { m := 4, t := 2 } ∧ k4long.Sound ∧
      k4long.hw.tMax + 1 < (Poly.mul k4gf (k4long.data.p.get 2) (k4long.data.p.get 3)).length ∧
      errorAfter (.pmul 1 2 3) k4long = some (5, 65, 0)) :=
  ⟨⟨k4_runs, k4_sound, k4_isField, by decide +kernel, by decide +kernel, by decide +kernel⟩,
    by decide +kernel, long_sound, by decide +kernel, by decide +kernel⟩

theorem witness_PolynomialValue : k4.Runs { m := 4, t := 2 } ∧ k4.Sound := ⟨k4_runs, k4_sound⟩

/-- GF(2)[x] modulo x⁴: not a field; x has no inverse. -/
def k4reducible : State :=
  { k4 with data := { k4data with fmod := 0x10, gp := [8, 1, 2], p := k4data.p.set 4 [1, 2] } }

theorem reducible_runs : k4reducible.Runs { m := 4, t := 2 } := by decide +kernel

theorem reducible_sound : k4reducible.Sound where
  hw := by decide
  data :=
    { cfg := by decide +kernel
      regs := by
        have all : ∀ i, polyCheck 4 (k4reducible.data.p.get i) = true := by decide +kernel
        exact ⟨by decide +kernel, fun i => wf_of_check (all i), wf_of_check (by decide +kernel)⟩
      elems := by intro id; cases id <;> decide +kernel
      bits := by intro id; cases id <;> decide +kernel }
  copy := by intro b hb; cases hb

theorem x_not_invertible : ¬GF.invertible { m := 4, f := 0x10 } 2#16 := by
  rintro ⟨b, hb, h⟩
  obtain ⟨n, rfl⟩ := elem_below_16 b hb
  have all : ∀ n : Fin 16, GF.mul { m := 4, f := 0x10 } 2#16 (BitVec.ofNat 16 n.val) ≠ 1#16 := by
    decide +kernel
  exact all n h

theorem one_invertible : k4gf.invertible 1#16 := ⟨1#16, by decide, by decide +kernel⟩

theorem witness_DivisionWithRemainder :
    k4.Runs { m := 4, t := 2 } ∧ k4.Sound ∧ k4.data.p.get 3 ≠ [] ∧
    k4gf.invertible ((k4.data.p.get 3).getLastD 0#16) ∧ k4.data.p.get 1 = [] ∧
    k4reducible.Runs { m := 4, t := 2 } ∧ k4reducible.Sound ∧ k4reducible.data.p.get 4 ≠ [] ∧
    ¬GF.invertible { m := 4, f := 0x10 } ((k4reducible.data.p.get 4).getLastD 0#16) :=
  ⟨k4_runs, k4_sound, by decide +kernel, one_invertible, by decide +kernel, reducible_runs,
    reducible_sound, by decide +kernel, x_not_invertible⟩

theorem witness_ReductionModuloG :
    k4.Runs { m := 4, t := 2 } ∧ k4.Sound ∧ k4.data.gp.length = 2 + 1 ∧
    k4gf.invertible (k4.data.gp.getLastD 0#16) ∧
    k4reducible.Runs { m := 4, t := 2 } ∧ k4reducible.Sound ∧ k4reducible.data.gp.length = 2 + 1 ∧
    ¬GF.invertible { m := 4, f := 0x10 } (k4reducible.data.gp.getLastD 0#16) :=
  ⟨k4_runs, k4_sound, by decide +kernel, one_invertible, reducible_runs, reducible_sound,
    by decide +kernel, x_not_invertible⟩

/-- K4 with other polynomial registers and another Goppa polynomial. -/
def k4with (p : RegFile Sys2Proof.Poly) (gp : Sys2Proof.Poly) : State :=
  { k4 with data := { k4data with p := p, gp := gp } }

theorem k4with_runs (p : RegFile Sys2Proof.Poly) (gp : Sys2Proof.Poly) :
    (k4with p gp).Runs { m := 4, t := 2 } := ⟨⟨rfl, rfl⟩, rfl, k4_runs.2.2⟩

theorem k4with_sound {p : RegFile Sys2Proof.Poly} {gp : Sys2Proof.Poly}
    (hp : ∀ i, polyCheck 4 (p.get i) = true) (hg : polyCheck 4 gp = true) :
    (k4with p gp).Sound where
  hw := k4_sound.hw
  data :=
    { cfg := k4_sound.data.cfg
      regs := ⟨k4_sound.data.regs.1, fun i => wf_of_check (hp i), wf_of_check hg⟩
      elems := k4_sound.data.elems
      bits := k4_sound.data.bits }
  copy := by intro b hb; cases hb

/-- K4's size with another modulus, degree t, P0, P2 and Goppa polynomial; the memories hold no value
but K4's support. -/
def k4over (f : BitVec 17) (t : Nat) (p0 p2 gp : Sys2Proof.Poly) : State :=
  { k4 with
    data := { k4data with
      cfg := some { m := 4, t := t }
      fmod := f
      gp := gp
      p := { RegFile.all [] with r0 := p0, r2 := p2 }
      mems := { Memories.unwritten with l := k4data.mems.l } } }

theorem over_runs {f : BitVec 17} {t : Nat} {p0 p2 gp : Sys2Proof.Poly}
    (h : f >>> (4 : Nat) = 1#17) : (k4over f t p0 p2 gp).Runs { m := 4, t := t } :=
  ⟨⟨rfl, rfl⟩, rfl, h⟩

theorem over_sound {f : BitVec 17} {t : Nat} {p0 p2 gp : Sys2Proof.Poly}
    (ht : 2 ≤ t ∧ t ≤ 3) (h : (polyCheck 4 p0 && polyCheck 4 p2 && polyCheck 4 gp) = true) :
    (k4over f t p0 p2 gp).Sound := by
  simp only [Bool.and_eq_true] at h
  refine ⟨k4_sound.hw, ⟨?_, ⟨k4_sound.data.regs.1, fun i => ?_, wf_of_check h.2⟩, fun id => ?_,
    fun id => ?_⟩, by intro b hb; cases hb⟩
  · intro c hc
    cases hc
    exact ⟨show 2 ≤ 4 by decide, show 4 ≤ 12 by decide, ht.1, show t ≤ 64 by omega,
      show 4 * t < 2 ^ 4 by omega⟩
  · have zero : Sys2Proof.Machine.Poly.wf 4 [] := wf_of_check (by decide)
    match i with
    | 0 => exact wf_of_check h.1.1
    | 2 => exact wf_of_check h.1.2
    | 1 | 3 | 4 | 5 | 6 | 7 => exact zero
  · cases id with
    | L => exact k4_sound.data.elems .L
    | PST | PIDX | SWP => exact ⟨List.Pairwise.nil, by intro kv hkv; cases hkv⟩
  · cases id <;> exact ⟨List.Pairwise.nil, by intro kv hkv; cases hkv⟩

theorem getD_zero_mul (k : GF) (q g : Sys2Proof.Poly) (h : g.getD 0 0#16 = 0#16) :
    (Poly.mul k q g).getD 0 0#16 = 0#16 := by
  cases q with
  | nil => rfl
  | cons x q => rw [Poly.mul, Poly.getD_add, Poly.getD_scale, Poly.getD_shift, h]; simp [fieldAdd]

theorem getD_one_mul (k : GF) (q g : Sys2Proof.Poly) (h0 : g.getD 0 0#16 = 0#16)
    (h1 : g.getD 1 0#16 = 0#16) : (Poly.mul k q g).getD 1 0#16 = 0#16 := by
  cases q with
  | nil => rfl
  | cons x q =>
    rw [Poly.mul, Poly.getD_add, Poly.getD_scale, Poly.getD_shift, h1, if_neg (by decide),
      getD_zero_mul k q g h0]
    simp [fieldAdd]

/-- Modulo a g without a constant term, nothing without a constant term is congruent to 1. -/
theorem not_modEq_one {k : GF} {g a : Sys2Proof.Poly} (hg : g.getD 0 0#16 = 0#16)
    (ha : a.getD 0 0#16 = 0#16) : ¬Poly.modEq k g a [1#16] := by
  rintro ⟨q, -, h⟩
  have h' := congrArg (fun p : Sys2Proof.Poly => p.getD 0 0#16) h
  simp only [Poly.getD_add, getD_zero_mul k q g hg, ha] at h'
  exact absurd h' (by decide)

theorem z_not_invertible : ¬Poly.invertibleMod k4gf [0, 0, 1] [0, 1] := by
  rintro ⟨b, -, h⟩
  refine not_modEq_one rfl ?_ h
  rw [Poly.mul, Poly.getD_add, Poly.getD_scale, Poly.getD_shift]
  simp [fieldAdd]

theorem z_not_zero : ¬Poly.modEq k4gf [0, 0, 1] [0, 1] [] := by
  rintro ⟨q, -, h⟩
  have h' := congrArg (fun p : Sys2Proof.Poly => p.getD 1 0#16) h
  simp only [Poly.getD_add, getD_one_mul k4gf q [0, 0, 1] rfl rfl] at h'
  exact absurd h' (by decide)

/-- P2 = z and g = z²: no inverse. P0 = z. -/
def k4square : State := k4with { RegFile.all [] with r0 := [0, 1], r2 := [0, 1] } [0, 0, 1]

theorem square_runs : k4square.Runs { m := 4, t := 2 } := k4with_runs _ _

theorem square_sound : k4square.Sound := k4with_sound (by decide +kernel) (by decide +kernel)

theorem witness_InverseModuloG :
    k4.Runs { m := 4, t := 2 } ∧ k4.Sound ∧ k4.data.gp.length = 2 + 1 ∧ k4gf.isField ∧
    Poly.invertibleMod k4gf k4.data.gp (k4.data.p.get 2) ∧
    k4square.Runs { m := 4, t := 2 } ∧ k4square.Sound ∧ k4square.data.gp.length = 2 + 1 ∧
    ¬Poly.invertibleMod k4gf k4square.data.gp (k4square.data.p.get 2) :=
  ⟨k4_runs, k4_sound, by decide +kernel, k4_isField,
    invertible_of_check (n := 5) (l := 3) (by decide +kernel), square_runs, square_sound,
    by decide +kernel, z_not_invertible⟩

/-- Modulo f = x⁴: g's leading coefficient x has no inverse; nor has that of P2 = x·z + 1; P2 = 0 has
no inverse; P2 = 1 has one. -/
theorem witness_InverseModuloG_reducible :
    (k4reducible.Runs { m := 4, t := 2 } ∧ k4reducible.Sound ∧
      k4reducible.data.gp.length = 2 + 1 ∧ errorAfter (.pinvm 1 2) k4reducible = some (6, 1, 0)) ∧
    ((k4over 0x10 2 [] [1, 2] [8, 1, 1]).Runs { m := 4, t := 2 } ∧
      (k4over 0x10 2 [] [1, 2] [8, 1, 1]).Sound ∧
      errorAfter (.pinvm 1 2) (k4over 0x10 2 [] [1, 2] [8, 1, 1]) = some (6, 1, 0)) ∧
    ((k4over 0x10 2 [] [] [8, 1, 1]).Runs { m := 4, t := 2 } ∧
      (k4over 0x10 2 [] [] [8, 1, 1]).Sound ∧
      errorAfter (.pinvm 1 2) (k4over 0x10 2 [] [] [8, 1, 1]) = some (6, 2, 0)) ∧
    ((k4over 0x10 2 [] [1] [8, 1, 1]).Runs { m := 4, t := 2 } ∧
      (k4over 0x10 2 [] [1] [8, 1, 1]).Sound ∧
      (dataAfter (.pinvm 1 2) (k4over 0x10 2 [] [1] [8, 1, 1])).map (fun d => d.p.r1) = some [1]) :=
  ⟨⟨reducible_runs, reducible_sound, by decide +kernel, by decide +kernel⟩,
    ⟨over_runs (by decide), over_sound (by decide) (by decide +kernel), by decide +kernel⟩,
    ⟨over_runs (by decide), over_sound (by decide) (by decide +kernel), by decide +kernel⟩,
    over_runs (by decide), over_sound (by decide) (by decide +kernel), by decide +kernel⟩

theorem witness_SquareRootModuloG :
    k4.Runs { m := 4, t := 2 } ∧ k4.Sound ∧ k4.data.gp.length = 2 + 1 ∧
    k4gf.invertible (k4.data.gp.getLastD 0#16) ∧
    k4reducible.Runs { m := 4, t := 2 } ∧ k4reducible.Sound ∧ k4reducible.data.gp.length = 2 + 1 ∧
    ¬GF.invertible { m := 4, f := 0x10 } (k4reducible.data.gp.getLastD 0#16) :=
  witness_ReductionModuloG

/-! ## Witnesses: decode commands -/

/-- The value element i of a memory of bits holds in K4. -/
def k4bit (id : BitMem) (i : Nat) : Bool := ((k4.data.mems.bit id).read i).getD false

theorem witness_PermcReordersTheCiphertext :
    k4.Runs { m := 4, t := 2 } ∧ k4.data.clen.toNat = 2 ^ 4 ∧
    (∀ j : Fin 16, k4.data.mems.pidx.read j = some (k4elem .PIDX j) ∧
      k4.data.mems.c.read (k4elem .PIDX j).toNat = some (k4bit .C (k4elem .PIDX j).toNat)) ∧
    { k4 with data := { k4data with clen := 15 } }.Runs { m := 4, t := 2 } ∧
    { k4 with data := { k4data with clen := 15 } }.data.clen.toNat ≠ 2 ^ 4 := by decide +kernel

theorem witness_SyndromeIsTheSumOfEntries :
    k4.Runs { m := 4, t := 2 } ∧ (∀ i : Fin 16, k4.data.mems.w.read i = some (k4bit .W i)) ∧
    ∀ (i : Fin 16) (j : Fin 2),
      k4.data.mems.pst.read (i * 2 + j) = some (k4elem .PST (i * 2 + j)) := by decide +kernel

/-- The fault comes before MALFORMED. -/
theorem witness_PermcReordersTheCiphertext_unwritten :
    (k4lacksElem .PIDX).Runs { m := 4, t := 2 } ∧
    (k4lacksElem .PIDX).data.mems.pidx.read 15 = none ∧
    (k4lacksBit .C).Runs { m := 4, t := 2 } ∧
    (k4lacksBit .C).data.mems.pidx.read 15 = some 14 ∧ (k4lacksBit .C).data.mems.c.read 14 = none ∧
    (faultAfter .permc (k4lacksElem .PIDX)).isSome = true ∧
    (faultAfter .permc { k4 with data := { k4data.withBit .C .empty with clen := 15 } }).isSome = true := by
  decide +kernel

theorem witness_SyndromeIsTheSumOfEntries_unwritten :
    (k4lacksBit .W).Runs { m := 4, t := 2 } ∧ (k4lacksBit .W).data.mems.w.read 15 = none ∧
    (k4lacksElem .PST).Runs { m := 4, t := 2 } ∧ (k4lacksElem .PST).data.mems.w.read 15 = some true ∧
    (k4lacksElem .PST).data.mems.pst.read (15 * 2 + 1) = none ∧
    (faultAfter .synd (k4lacksBit .W)).isSome = true ∧
    (faultAfter .synd (k4lacksElem .PST)).isSome = true := by decide +kernel

theorem zero_modEq (g : Sys2Proof.Poly) : Poly.modEq k4gf g [] [] :=
  ⟨[], ⟨by simp, by simp⟩, rfl⟩

/-- P0 = 0xF·z + 0xF, the inverse of z modulo K4's g. -/
def k4single : State := k4with { RegFile.all [] with r0 := [0xF, 0xF] } [8, 1, 1]

/-- P0 = 1 and g = z² + z. -/
def k4general : State := k4with { RegFile.all [] with r0 := [1] } [0, 1, 1]

theorem witness_LocatorCases :
    k4gf.isField ∧
    -- S = 0
    ((k4with (.all []) [8, 1, 1]).Runs { m := 4, t := 2 } ∧ (k4with (.all []) [8, 1, 1]).Sound ∧
      Poly.modEq k4gf [8, 1, 1] (k4with (.all []) [8, 1, 1]).data.p.r0 []) ∧
    -- T = 0
    (k4single.Runs { m := 4, t := 2 } ∧ k4single.Sound ∧
      Poly.modEq k4gf [8, 1, 1] (Poly.mul k4gf k4single.data.p.r0 [0, 1]) [1]) ∧
    -- the general case
    (k4general.Runs { m := 4, t := 2 } ∧ k4general.Sound ∧
      Poly.invertibleMod k4gf [0, 1, 1] k4general.data.p.r0 ∧
      ¬Poly.modEq k4gf [0, 1, 1] (Poly.mul k4gf k4general.data.p.r0 [0, 1]) [1]) ∧
    -- no inverse
    (k4square.Runs { m := 4, t := 2 } ∧ k4square.Sound ∧
      ¬Poly.modEq k4gf [0, 0, 1] k4square.data.p.r0 [] ∧
      ¬Poly.invertibleMod k4gf [0, 0, 1] k4square.data.p.r0) :=
  ⟨k4_isField,
    ⟨k4with_runs _ _, k4with_sound (by decide +kernel) (by decide +kernel), zero_modEq _⟩,
    ⟨k4with_runs _ _, k4with_sound (by decide +kernel) (by decide +kernel),
      [0xF], wf_of_check (by decide +kernel), by decide +kernel⟩,
    ⟨k4with_runs _ _, k4with_sound (by decide +kernel) (by decide +kernel),
      ⟨[1], wf_of_check (by decide +kernel), [], ⟨by simp, by simp⟩, by decide +kernel⟩,
      not_modEq_one rfl (by decide +kernel)⟩,
    ⟨square_runs, square_sound, z_not_zero, z_not_invertible⟩⟩

/-- Reducible moduli: ARITH(1) at the leading coefficient of g; S = 0; ARITH(2) with S = z and g = z²;
an invertible S with ARITH(1) in the key equation (f = x⁴ + x² + x, g = z³ + z + 1); the general case. -/
theorem witness_LocatorCases_reducible :
    (k4reducible.Runs { m := 4, t := 2 } ∧ k4reducible.Sound ∧
      k4reducible.data.gp.length = 2 + 1 ∧ errorAfter .locator k4reducible = some (6, 1, 0)) ∧
    ((k4over 0x10 2 [] [] [8, 1, 1]).Sound ∧
      (dataAfter .locator (k4over 0x10 2 [] [] [8, 1, 1])).map (fun d => d.degen) = some 1#2) ∧
    ((k4over 0x10 2 [0, 1] [] [0, 0, 1]).Sound ∧
      errorAfter .locator (k4over 0x10 2 [0, 1] [] [0, 0, 1]) = some (6, 2, 0)) ∧
    ((k4over 0x16 3 [0, 0, 3] [] [1, 1, 0, 1]).Runs { m := 4, t := 3 } ∧
      (k4over 0x16 3 [0, 0, 3] [] [1, 1, 0, 1]).Sound ∧
      (invmod { m := 4, f := 0x16 } [0, 0, 3] [1, 1, 0, 1]).toOption.isSome = true ∧
      errorAfter .locator (k4over 0x16 3 [0, 0, 3] [] [1, 1, 0, 1]) = some (6, 1, 0)) ∧
    ((k4over 0x10 2 [1] [] [0, 1, 1]).Sound ∧
      (dataAfter .locator (k4over 0x10 2 [1] [] [0, 1, 1])).map (fun d => d.degen) = some 0#2) :=
  ⟨⟨reducible_runs, reducible_sound, by decide +kernel, by decide +kernel⟩,
    ⟨over_sound (by decide) (by decide +kernel), by decide +kernel⟩,
    ⟨over_sound (by decide) (by decide +kernel), by decide +kernel⟩,
    ⟨over_runs (by decide), over_sound (by decide) (by decide +kernel), by decide +kernel,
      by decide +kernel⟩,
    over_sound (by decide) (by decide +kernel), by decide +kernel⟩

theorem witness_LocatorNeverOverflows :
    k4.Runs { m := 4, t := 2 } ∧ k4.Sound ∧ k4.err = false ∧
    -- DECODE fails, with GPOLY in its third step
    (k4with k4data.p [8, 1]).Runs { m := 4, t := 2 } ∧ (k4with k4data.p [8, 1]).Sound ∧
    (k4with k4data.p [8, 1]).err = false ∧
    ∃ t, exec .decode (k4with k4data.p [8, 1]) = .next t ∧ t.err = true :=
  ⟨k4_runs, k4_sound, rfl, k4with_runs _ _, k4with_sound (by decide +kernel) (by decide +kernel), rfl,
    next_of_seen (by decide +kernel)⟩

theorem witness_KeyEquationIsSolved :
    k4.Runs { m := 4, t := 2 } ∧ k4.Sound ∧ k4.data.gp.length = 2 + 1 ∧ k4gf.isField ∧
    Sys2Proof.Machine.Poly.wf 4 [5, 3] ∧ Poly.modEq k4gf [8, 1, 1] k4.data.p.r2 [5, 3] ∧
    ([5, 3] : Sys2Proof.Poly).length ≤ 2 / 2 + 1 :=
  ⟨k4_runs, k4_sound, by decide +kernel, k4_isField, wf_of_check (by decide +kernel),
    ⟨[], ⟨by simp, by simp⟩, rfl⟩, by decide⟩

/-- Modulo f = x⁴ with t = 3: ARITH(1) at the leading coefficient x of τ; two eliminations by that of
τ = 3·z² + z + 1; and τ = 1, already low, with an invertible g. -/
theorem witness_KeyEquationIsSolved_reducible :
    ((k4over 0x10 3 [] [1, 1, 2] [8, 1, 1, 1]).Runs { m := 4, t := 3 } ∧
      (k4over 0x10 3 [] [1, 1, 2] [8, 1, 1, 1]).Sound ∧
      (k4over 0x10 3 [] [1, 1, 2] [8, 1, 1, 1]).data.gp.length = 3 + 1 ∧
      errorAfter .keyeq (k4over 0x10 3 [] [1, 1, 2] [8, 1, 1, 1]) = some (6, 1, 0)) ∧
    ((k4over 0x10 3 [] [1, 1, 3] [8, 1, 1, 1]).Sound ∧
      (dataAfter .keyeq (k4over 0x10 3 [] [1, 1, 3] [8, 1, 1, 1])).map (fun d => d.iter) = some 2) ∧
    (GF.invertible { m := 4, f := 0x10 } (([8, 1, 1, 1] : Sys2Proof.Poly).getLastD 0#16) ∧
      Poly.modEq { m := 4, f := 0x10 } [8, 1, 1, 1] [1] [1] ∧
      ([1] : Sys2Proof.Poly).length ≤ 3 / 2 + 1) :=
  ⟨⟨over_runs (by decide), over_sound (by decide) (by decide +kernel), by decide +kernel,
      by decide +kernel⟩,
    ⟨over_sound (by decide) (by decide +kernel), by decide +kernel⟩,
    ⟨1#16, by decide, by decide +kernel⟩, ⟨[], ⟨by simp, by simp⟩, rfl⟩, by decide⟩

theorem witness_RootsAreFlipped :
    k4.Runs { m := 4, t := 2 } ∧
    ∀ i : Fin 16, k4.data.mems.l.read i = some (k4elem .L i) ∧
      k4.data.mems.w.read i = some (k4bit .W i) := by decide +kernel

theorem witness_RootsAreFlipped_unwritten :
    (k4lacksElem .L).Runs { m := 4, t := 2 } ∧ (k4lacksElem .L).data.mems.l.read 15 = none ∧
    (k4lacksBit .W).Runs { m := 4, t := 2 } ∧ (k4lacksBit .W).data.mems.w.read 15 = none ∧
    (faultAfter .roots (k4lacksElem .L)).isSome = true ∧
    (faultAfter .roots (k4lacksBit .W)).isSome = true := by decide +kernel

theorem witness_ExtractAndUnscramble_unwritten :
    (k4lacksElem .SWP).Runs { m := 4, t := 2 } ∧
    (k4lacksElem .SWP).data.mems.swp.read (8 + 7) = none ∧
    (k4lacksBit .W).data.mems.swp.read (8 + 7) = some 15 ∧ (k4lacksBit .W).data.mems.w.read 15 = none ∧
    (k4lacksBit .MC).data.mems.mc.read 7 = none ∧
    (k4lacksBit .SINV).data.mems.sinv.read (7 * 8 + 7) = none ∧
    (faultAfter .extract (k4lacksElem .SWP)).isSome = true ∧
    (faultAfter .extract (k4lacksBit .W)).isSome = true ∧
    (faultAfter .unscr (k4lacksBit .MC)).isSome = true ∧
    (faultAfter .unscr (k4lacksBit .SINV)).isSome = true := by decide +kernel

theorem witness_ExtractAndUnscramble :
    k4.Runs { m := 4, t := 2 } ∧
    (∀ r : Fin 8, k4.data.mems.swp.read (8 + r) = some (k4elem .SWP (8 + r)) ∧
      k4.data.mems.w.read (k4elem .SWP (8 + r)).toNat =
        some (k4bit .W (k4elem .SWP (8 + r)).toNat)) ∧
    (∀ r : Fin 8, k4.data.mems.mc.read r = some (k4bit .MC r)) ∧
    ∀ r j : Fin 8, k4.data.mems.sinv.read (r * 8 + j) = some (k4bit .SINV (r * 8 + j)) := by
  decide +kernel

/-- K4 with a Goppa polynomial of the wrong degree: DECODE fails in its third step. -/
def k4third : State := k4with k4data.p [8, 1]

theorem third_step_fails :
    (match runAllOk [.permc, .synd] k4third with
     | some u => (match exec .locator u with
       | .next v => decide (v = u.takeError 0 (.gpoly 1))
       | _ => false)
     | none => false) = true := by decide +kernel

theorem k4_decodeReadsWritten : k4data.DecodeReadsWritten { m := 4, t := 2 } where
  permuted := by
    have all : ∀ j : Fin 16, k4data.mems.pidx.read j = some (k4elem .PIDX j) ∧
        k4data.mems.c.read (k4elem .PIDX j).toNat = some (k4bit .C (k4elem .PIDX j).toNat) ∧
        ∀ l : Fin 2, (k4data.mems.pst.read (j * 2 + l)).isSome = true := by decide +kernel
    intro j hj
    obtain ⟨h1, h2, h3⟩ := all ⟨j, hj⟩
    exact ⟨_, _, h1, h2, fun _ l hl => h3 ⟨l, hl⟩⟩
  support := by decide +kernel
  swaps := by
    have all : ∀ r : Fin 8, k4data.mems.swp.read (8 + r) = some (k4elem .SWP (8 + r)) ∧
        (k4elem .SWP (8 + r)).toNat < 16 := by decide +kernel
    intro r hr
    obtain ⟨h1, h2⟩ := all ⟨r, hr⟩
    exact ⟨_, h1, .inl h2⟩
  unscrambler := by decide +kernel

theorem third_decodeReadsWritten : k4third.data.DecodeReadsWritten { m := 4, t := 2 } where
  permuted := k4_decodeReadsWritten.permuted
  support := k4_decodeReadsWritten.support
  swaps := k4_decodeReadsWritten.swaps
  unscrambler := k4_decodeReadsWritten.unscrambler

/-- Without L, and with CLEN wrong as well, DECODE faults. -/
theorem lacking_not_written :
    ¬(k4lacksElem .L).data.DecodeReadsWritten { m := 4, t := 2 } := by
  intro h
  exact absurd (h.support 0 (by decide)) (by decide +kernel)

theorem witness_DecodeIsItsSixSteps_unwritten :
    (k4lacksElem .L).Runs { m := 4, t := 2 } ∧ (k4lacksElem .L).err = false ∧
    ¬(k4lacksElem .L).data.DecodeReadsWritten { m := 4, t := 2 } ∧
    (faultAfter .decode (k4lacksElem .L)).isSome = true ∧
    (faultAfter .decode (k4lacksElem .SWP)).isSome = true ∧
    (faultAfter .decode (k4lacksElem .PST)).isSome = true ∧
    (faultAfter .decode (k4lacksBit .SINV)).isSome = true ∧
    (faultAfter .decode
      { k4 with data := { k4data.withElem .L .empty with clen := 15 } }).isSome = true ∧
    -- W and MC are written by its own steps
    (faultAfter .decode (k4lacksBit .W)) = none ∧ (faultAfter .decode (k4lacksBit .MC)) = none :=
  ⟨by decide +kernel, rfl, lacking_not_written, by decide +kernel, by decide +kernel,
    by decide +kernel, by decide +kernel, by decide +kernel, by decide +kernel, by decide +kernel⟩

theorem witness_DecodeIsItsSixSteps :
    k4.Runs { m := 4, t := 2 } ∧ k4.err = false ∧
    (∃ t, runAllOk [.permc, .synd, .locator, .roots, .extract, .unscr] k4 = some t) ∧
    k4third.Runs { m := 4, t := 2 } ∧ k4third.err = false ∧
    k4third.data.DecodeReadsWritten { m := 4, t := 2 } ∧
    ∃ u, runAllOk [.permc, .synd] k4third = some u ∧ Fails .locator u 12#8 1#32 := by
  refine ⟨k4_runs, rfl, Option.isSome_iff_exists.mp (by decide +kernel), k4with_runs _ _, rfl,
    third_decodeReadsWritten, ?_⟩
  have h := third_step_fails
  split at h
  · next u hu =>
    refine ⟨u, hu, ?_⟩
    split at h
    · next v hv => rw [of_decide_eq_true h] at hv; exact hv
    · cases h
  · cases h

theorem witness_DecodeCompletes :
    k4.Runs { m := 4, t := 2 } ∧ k4.Sound ∧ k4.err = false ∧ k4.data.gp.length = 2 + 1 ∧
    k4gf.isField ∧ Poly.irreducible k4gf k4.data.gp ∧ k4.data.clen.toNat = 2 ^ 4 ∧
    (∀ i, i < 2 ^ 4 →
      (k4.data.mems.pidx.read i).isSome = true ∧ (k4.data.mems.c.read i).isSome = true ∧
      (k4.data.mems.l.read i).isSome = true ∧ (k4.data.mems.swp.read i).isSome = true) ∧
    (∀ i, i < 2 ^ 4 * 2 → (k4.data.mems.pst.read i).isSome = true) ∧
    ∀ i, i < (2 ^ 4 - 4 * 2) * (2 ^ 4 - 4 * 2) → (k4.data.mems.sinv.read i).isSome = true :=
  ⟨k4_runs, k4_sound, rfl, by decide +kernel, k4_isField, k4_irreducible, by decide +kernel,
    by decide +kernel, by decide +kernel, by decide +kernel⟩

/-! ## Witnesses: key-side commands -/

/-- The sequence 0, a, a ⊗ a, …. -/
def seqOf (a : Elem) : Nat → Elem
  | 0 => 0
  | 1 => a
  | i + 2 => k4gf.mul a (seqOf a (i + 1))

theorem witness_SupportFromGenerator :
    k4.Runs { m := 4, t := 2 } ∧
    (seqOf (k4.data.f.get 1) 0 = 0#16 ∧ seqOf (k4.data.f.get 1) 1 = k4.data.f.get 1 ∧
      (∀ i, seqOf (k4.data.f.get 1) (i + 2) =
        k4gf.mul (k4.data.f.get 1) (seqOf (k4.data.f.get 1) (i + 1))) ∧
      ∀ i j : Fin 16, i < j → seqOf (k4.data.f.get 1) i ≠ seqOf (k4.data.f.get 1) j) ∧
    -- FIELD(1) with F0 = 0
    (1 < 2 ^ 4 ∧ seqOf (k4.data.f.get 0) 0 = seqOf (k4.data.f.get 0) 1) := by
  exact ⟨k4_runs, ⟨rfl, rfl, fun _ => rfl, by decide +kernel⟩, by decide, by decide +kernel⟩

theorem invertible_of_ne {a : Elem} (h : a ≠ 0#16 ∧ a.toNat < 2 ^ 4) : k4gf.invertible a :=
  k4_isField a h.1 h.2

/-- At every element of K4's support the polynomial has an inverse. -/
theorem k4_values (i : Nat) (hi : i < 16) :
    k4gf.invertible (Poly.eval k4gf k4.data.gp (k4elem .L i)) := by
  have all : ∀ i : Fin 16, Poly.eval k4gf k4.data.gp (k4elem .L i) ≠ 0#16 ∧
      (Poly.eval k4gf k4.data.gp (k4elem .L i)).toNat < 2 ^ 4 := by decide +kernel
  exact invertible_of_ne (all ⟨i, hi⟩)

theorem k4_support (i : Nat) (hi : i < 16) : k4.data.mems.l.read i = some (k4elem .L i) := by
  have all : ∀ i : Fin 16, k4.data.mems.l.read i = some (k4elem .L i) := by decide +kernel
  exact all ⟨i, hi⟩

/-- Modulo f = x⁴, g = z² + x has the value x at L(0) = 0: not 0, and without an inverse. -/
theorem support_value_not_invertible :
    (k4over 0x10 2 [] [] [2, 0, 1]).Runs { m := 4, t := 2 } ∧
    (k4over 0x10 2 [] [] [2, 0, 1]).Sound ∧
    (k4over 0x10 2 [] [] [2, 0, 1]).data.gp.length = 2 + 1 ∧
    (k4over 0x10 2 [] [] [2, 0, 1]).data.mems.l.read 0 = some 0 ∧
    Poly.eval { m := 4, f := 0x10 } [2, 0, 1] 0 = 2#16 ∧
    ¬GF.invertible { m := 4, f := 0x10 } 2#16 :=
  ⟨over_runs (by decide), over_sound (by decide) (by decide +kernel), by decide +kernel,
    by decide +kernel, by decide +kernel, x_not_invertible⟩

theorem witness_PreSyndromeTable :
    k4.Runs { m := 4, t := 2 } ∧ k4.Sound ∧ k4.data.gp.length = 2 + 1 ∧
    k4gf.invertible (k4.data.gp.getLastD 0#16) ∧
    (∀ i, i < 16 → k4.data.mems.l.read i = some (k4elem .L i) ∧
      k4gf.invertible (Poly.eval k4gf k4.data.gp (k4elem .L i))) ∧
    -- g = z² + z + 3: the first root is L(6)
    (k4with k4data.p [3, 1, 1]).Runs { m := 4, t := 2 } ∧ (k4with k4data.p [3, 1, 1]).Sound ∧
    k4gf.invertible (([3, 1, 1] : Sys2Proof.Poly).getLastD 0#16) ∧
    (∀ j : Fin 6, k4gf.invertible (Poly.eval k4gf [3, 1, 1] (k4elem .L j))) ∧
    Poly.eval k4gf [3, 1, 1] (k4elem .L 6) = 0#16 := by
  have values : ∀ j : Fin 6, Poly.eval k4gf [3, 1, 1] (k4elem .L j) ≠ 0#16 ∧
      (Poly.eval k4gf [3, 1, 1] (k4elem .L j)).toNat < 2 ^ 4 := by decide +kernel
  exact ⟨k4_runs, k4_sound, by decide +kernel, one_invertible,
    fun i hi => ⟨k4_support i hi, k4_values i hi⟩, k4with_runs _ _,
    k4with_sound (by decide +kernel) (by decide +kernel), one_invertible,
    fun j => invertible_of_ne (values j), by decide +kernel⟩

/-- ARITH(1) at a value of g without an inverse, and at a leading coefficient without one. -/
theorem witness_PreSyndromeTable_reducible :
    errorAfter .pstgen (k4over 0x10 2 [] [] [2, 0, 1]) = some (6, 1, 0) ∧
    k4reducible.Runs { m := 4, t := 2 } ∧ k4reducible.Sound ∧
    k4reducible.data.gp.length = 2 + 1 ∧ k4reducible.data.mems.l.read 0 = some 0 ∧
    Poly.eval { m := 4, f := 0x10 } k4reducible.data.gp 0 ≠ 0#16 ∧
    ¬GF.invertible { m := 4, f := 0x10 } (k4reducible.data.gp.getLastD 0#16) ∧
    errorAfter .pstgen k4reducible = some (6, 1, 0) :=
  ⟨by decide +kernel, reducible_runs, reducible_sound, by decide +kernel, by decide +kernel,
    by decide +kernel, x_not_invertible, by decide +kernel⟩

theorem witness_ParityCheckMatrix :
    k4.Runs { m := 4, t := 2 } ∧ k4.Sound ∧ k4.data.gp.length = 2 + 1 ∧
    (∀ i, i < 16 → k4.data.mems.l.read i = some (k4elem .L i) ∧
      k4gf.invertible (Poly.eval k4gf k4.data.gp (k4elem .L i))) ∧
    -- g = z² + 1: the only root is L(15)
    (k4with k4data.p [1, 0, 1]).Runs { m := 4, t := 2 } ∧ (k4with k4data.p [1, 0, 1]).Sound ∧
    (∀ j : Fin 15, k4gf.invertible (Poly.eval k4gf [1, 0, 1] (k4elem .L j))) ∧
    Poly.eval k4gf [1, 0, 1] (k4elem .L 15) = 0#16 ∧
    -- ARITH(1) at a value without an inverse
    errorAfter .hgen (k4over 0x10 2 [] [] [2, 0, 1]) = some (6, 1, 0) := by
  have values : ∀ j : Fin 15, Poly.eval k4gf [1, 0, 1] (k4elem .L j) ≠ 0#16 ∧
      (Poly.eval k4gf [1, 0, 1] (k4elem .L j)).toNat < 2 ^ 4 := by decide +kernel
  exact ⟨k4_runs, k4_sound, by decide +kernel, fun i hi => ⟨k4_support i hi, k4_values i hi⟩,
    k4with_runs _ _, k4with_sound (by decide +kernel) (by decide +kernel),
    fun j => invertible_of_ne (values j), by decide +kernel, by decide +kernel⟩

/-- K4 with one element unwritten, the last of L, and an earlier root of g at L(6). -/
def k4rootBeforeGap : State :=
  { k4 with data := { k4data with
      gp := [3, 1, 1]
      mems := { k4data.mems with l := memOf [0, 2, 4, 8, 3, 6, 0xC, 0xB, 5, 0xA, 7, 0xE, 0xF, 0xD, 9] } } }

/-- The fault comes before GOPPA, and before GPOLY. -/
theorem witness_PreSyndromeTable_unwritten :
    k4rootBeforeGap.Runs { m := 4, t := 2 } ∧ k4rootBeforeGap.data.mems.l.read 15 = none ∧
    (faultAfter .pstgen k4rootBeforeGap).isSome = true ∧
    (faultAfter .pstgen { k4 with data := { k4data.withElem .L .empty with gp := [] } }).isSome = true := by
  decide +kernel

theorem witness_ParityCheckMatrix_unwritten :
    k4rootBeforeGap.Runs { m := 4, t := 2 } ∧ k4rootBeforeGap.data.mems.l.read 15 = none ∧
    (faultAfter .hgen k4rootBeforeGap).isSome = true := by decide +kernel

/-- The order of the columns before row j of SYSFORM on K4's reduced H (`95_test_vectors.md` §2.4.4). -/
def k4order (j : Nat) : List Nat :=
  if j ≤ 6 then List.range 16
  else if j = 7 then [0, 1, 2, 3, 4, 5, 7, 6, 8, 9, 10, 11, 12, 13, 14, 15]
  else [0, 1, 2, 3, 4, 5, 7, 9, 8, 6, 10, 11, 12, 13, 14, 15]

/-- A column of H, in an order of the columns, is the unit column e_j. -/
def unitIn (h : Nat → Nat → Bool) (v : List Nat) (j col : Nat) : Bool :=
  (List.range 8).all fun r => h r (v.getD col 0) == decide (r = j)

/-- Row j of SYSFORM goes from one order of the columns to the next. -/
def swapsRowCheck (h : Nat → Nat → Bool) (sw : Nat → List Nat) (j : Nat) : Bool :=
  if h j ((sw j).getD j 0) then sw (j + 1) == sw j
  else
    (List.range 16).any fun col =>
      decide (j < col) && unitIn h (sw j) j col &&
        ((List.range 16).all fun col' =>
          !(decide (j < col') && decide (col' < col) && unitIn h (sw j) j col')) &&
        sw (j + 1) == ((sw j).set j ((sw j).getD col 0)).set col ((sw j).getD j 0)

/-- Row r, column j of a matrix of K4's size in a memory of bits. -/
def bitAt (m : Memory Bool) (r j : Nat) : Bool := (m.read (r * 16 + j)).getD false

theorem witness_SystematicForm :
    k4.Runs { m := 4, t := 2 } ∧ k4order 0 = List.range 16 ∧
    (∀ (r : Fin 8) (j : Fin 16),
      k4.data.mems.h.read (r * 16 + j) = some (bitAt k4.data.mems.h r j)) ∧
    (∀ j : Fin 8, swapsRowCheck (bitAt k4.data.mems.h) k4order j = true) ∧
    (∀ j : Fin 8, unitIn (bitAt k4.data.mems.h) (k4order 8) j j = true) ∧
    -- all zeros: row 0 has no pivot column
    (∀ col : Fin 16, unitIn (fun _ _ => false) (List.range 16) 0 col = false) ∧
    -- the element (1, 0) set: the verification fails at column 0
    (∀ j : Fin 8, swapsRowCheck (bitAt (k4.data.mems.h.write 16 true)) k4order j = true) ∧
    unitIn (bitAt (k4.data.mems.h.write 16 true)) (k4order 8) 0 0 = false := by decide +kernel

theorem witness_SystematicForm_unwritten :
    (k4lacksBit .H).Runs { m := 4, t := 2 } ∧
    (k4lacksBit .H).data.mems.h.read (4 * 2 * 2 ^ 4 - 1) = none ∧
    (faultAfter .sysform (k4lacksBit .H)).isSome = true := by decide +kernel

/-- K4 with SWP(1) = SWP(0) = 0 and SWP(15) unwritten. -/
def k4repeatBeforeGap : State :=
  let swp := memOf [0, 0, 2, 3, 4, 5, 7, 9, 8, 6, 10, 11, 12, 13, 14]
  { k4 with data := k4data.withElem .SWP swp }

/-- The fault comes before PERM. -/
theorem witness_GeneratorMatrix_unwritten :
    (k4lacksElem .SWP).Runs { m := 4, t := 2 } ∧ (k4lacksElem .SWP).data.mems.swp.read 15 = none ∧
    (k4lacksBit .H).Runs { m := 4, t := 2 } ∧
    (∀ j : Fin 16, (k4lacksBit .H).data.mems.swp.read j = some (k4elem .SWP j)) ∧
    (k4lacksBit .H).data.mems.h.read (7 * 2 ^ 4 + (k4elem .SWP (8 + 7)).toNat) = none ∧
    (faultAfter .gextract (k4lacksBit .H)).isSome = true ∧
    (faultAfter .gextract k4repeatBeforeGap).isSome = true := by decide +kernel

theorem witness_GeneratorMatrix :
    k4.Runs { m := 4, t := 2 } ∧
    (∀ j : Fin 16, k4.data.mems.swp.read j = some (k4elem .SWP j) ∧ (k4elem .SWP j).toNat < 2 ^ 4) ∧
    (∀ i j : Fin 16, i < j → k4elem .SWP i ≠ k4elem .SWP j) ∧
    (∀ (r j : Fin 8), k4.data.mems.h.read (j * 2 ^ 4 + (k4elem .SWP (8 + r)).toNat) =
      some (bitAt k4.data.mems.h j (k4elem .SWP (8 + r)).toNat)) ∧
    -- SWP(15) ← 0: the first repeat is at 15
    (∀ i : Fin 15, (k4.data.mems.swp.write 15 0).read i = some (k4elem .SWP i)) ∧
    (k4.data.mems.swp.write 15 0).read 15 = some 0 ∧ k4elem .SWP 0 = 0 := by decide +kernel

end Sys2Proof.Tests
end

section
/-! SUPPORT. The field of a configuration as a ring of residues: GF(2)[x]/f (`41_field.md` R230, R231).
⊗ and ⊕ are its product and sum, and elements below 2^m are its residues, so ⊗ is commutative and
associative for every modulus of degree m. -/

namespace Sys2Proof.Machine

open Polynomial

/-! ## Bit vectors as polynomials over GF(2) -/

/-- The polynomial over GF(2) whose coefficient j is bit j (`00_scope.md` R9). -/
noncomputable def bitPoly {w : Nat} (v : BitVec w) : (ZMod 2)[X] :=
  ∑ j ∈ Finset.range w, if v.getLsbD j then X ^ j else 0

variable {w : Nat}

@[simp] theorem coeff_bitPoly (v : BitVec w) (i : Nat) :
    (bitPoly v).coeff i = if v.getLsbD i then 1 else 0 := by
  have hterm : ∀ j, (if v.getLsbD j then (X : (ZMod 2)[X]) ^ j else 0).coeff i =
      if j = i then (if v.getLsbD i then 1 else 0) else 0 := fun j => by
    by_cases hj : j = i
    · subst hj; cases v.getLsbD j <;> simp
    · cases v.getLsbD j <;> simp [coeff_X_pow, hj, Ne.symm hj]
  simp only [bitPoly, finsetSum_coeff, hterm, Finset.sum_ite_eq', Finset.mem_range]
  by_cases hi : i < w
  · simp [hi]
  · simp [hi, BitVec.getLsbD_of_ge v i (by omega)]

theorem bitPoly_injective {v v' : BitVec w} (h : bitPoly v = bitPoly v') : v = v' := by
  refine BitVec.eq_of_getLsbD_eq fun i _ => ?_
  have hi := congrArg (coeff · i) h
  simp only [coeff_bitPoly] at hi
  revert hi
  cases v.getLsbD i <;> cases v'.getLsbD i <;> simp

@[simp] theorem bitPoly_zero : bitPoly 0#w = 0 := by ext; simp

theorem bitPoly_xor (v v' : BitVec w) : bitPoly (v ^^^ v') = bitPoly v + bitPoly v' := by
  ext i
  simp only [coeff_bitPoly, coeff_add, BitVec.getLsbD_xor]
  cases v.getLsbD i <;> cases v'.getLsbD i <;> decide

/-- The polynomial does not depend on zeros above the highest bit. -/
theorem bitPoly_setWidth {u : Nat} (v : BitVec w) (h : ∀ i, u ≤ i → v.getLsbD i = false) :
    bitPoly (v.setWidth u) = bitPoly v := by
  ext i
  by_cases hi : i < u
  · simp [hi]
  · simp [BitVec.getLsbD_setWidth, hi, h i (by omega)]

/-- A shift that loses no bit multiplies by a power of x. -/
theorem bitPoly_shiftLeft (v : BitVec w) (d : Nat) (h : ∀ i, w ≤ i + d → v.getLsbD i = false) :
    bitPoly (v <<< d) = X ^ d * bitPoly v := by
  ext i
  rw [coeff_X_pow_mul']
  simp only [coeff_bitPoly, BitVec.getLsbD_shiftLeft]
  by_cases hd : d ≤ i
  · by_cases hi : i < w
    · simp [hd, hi]
    · simp [hd, hi, h (i - d) (by omega)]
  · simp [hd, Nat.lt_of_not_le hd]

theorem bitPoly_degree_lt (v : BitVec w) {m : Nat} (h : v.toNat < 2 ^ m) :
    (bitPoly v).degree < m := by
  refine (degree_lt_iff_coeff_zero _ _).mpr fun i hi => ?_
  have : v.getLsbD i = false :=
    Nat.testBit_lt_two_pow (Nat.lt_of_lt_of_le h (Nat.pow_le_pow_right (by omega) hi))
  simp [this]

/-- The carry-less product is the product of polynomials (`41_field.md` R231). -/
theorem bitPoly_clmul (a b : Elem) {j : Nat} (hj : j ≤ 16) :
    bitPoly (clmul a b j) =
      bitPoly a * ∑ i ∈ Finset.range j, if b.getLsbD i then X ^ i else 0 := by
  induction j with
  | zero => simp [clmul]
  | succ j ih =>
    have hwide : bitPoly (a.setWidth 32) = bitPoly a :=
      bitPoly_setWidth a fun i hi => BitVec.getLsbD_of_ge a i (by omega)
    have hshift : bitPoly (a.setWidth 32 <<< j) = X ^ j * bitPoly (a.setWidth 32) :=
      bitPoly_shiftLeft _ j fun i hi => by
        rw [BitVec.getLsbD_setWidth, BitVec.getLsbD_of_ge a i (by omega), Bool.and_false]
    rw [clmul, bitPoly_xor, ih (by omega), Finset.sum_range_succ, mul_add]
    cases b.getLsbD j
    · simp
    · simp [hshift, hwide, mul_comm]

/-! ## Residues modulo f -/

/-- What the field operations need of the modulus: degree m, and m above 0 (`40_control.md` R203). -/
structure GF.Proper (k : GF) : Prop where
  pos : 0 < k.m
  monic : k.f >>> k.m = 1#17

/-- The residue modulo f an element stands for (`41_field.md` R230). -/
noncomputable def GF.residue (k : GF) (a : Elem) : AdjoinRoot (bitPoly k.f) :=
  AdjoinRoot.mk (bitPoly k.f) (bitPoly a)

theorem GF.Proper.m_le {k : GF} (hk : k.Proper) : k.m ≤ 16 := by
  have := modulus_m_lt hk.monic
  omega

theorem GF.Proper.one_lt {k : GF} (hk : k.Proper) : (1#16).toNat < 2 ^ k.m :=
  Nat.one_lt_two_pow hk.pos.ne'

theorem GF.Proper.le_degree {k : GF} (hk : k.Proper) : (k.m : WithBot Nat) ≤ (bitPoly k.f).degree :=
  le_degree_of_ne_zero (by simpa using modulus_bits hk.monic 0)

/-- Elements below 2^m are determined by their residues. -/
theorem GF.residue_injective {k : GF} (hk : k.Proper) {a b : Elem} (ha : a.toNat < 2 ^ k.m)
    (hb : b.toNat < 2 ^ k.m) (h : k.residue a = k.residue b) : a = b := by
  have hdvd := AdjoinRoot.mk_eq_mk.mp h
  refine bitPoly_injective (sub_eq_zero.mp (eq_zero_of_dvd_of_degree_lt hdvd ?_))
  exact lt_of_lt_of_le ((degree_sub_le _ _).trans_lt
    (max_lt (bitPoly_degree_lt a ha) (bitPoly_degree_lt b hb))) hk.le_degree

@[simp] theorem GF.residue_zero (k : GF) : k.residue 0#16 = 0 := by simp [GF.residue]

@[simp] theorem GF.residue_add (k : GF) (a b : Elem) :
    k.residue (fieldAdd a b) = k.residue a + k.residue b := by
  simp [GF.residue, fieldAdd, bitPoly_xor]

@[simp] theorem GF.residue_one (k : GF) : k.residue 1#16 = 1 := by
  have : bitPoly 1#16 = 1 := by ext i; simp [coeff_one, BitVec.getLsbD_one, eq_comm]
  simp [GF.residue, this]

/-- Reduction keeps the residue (`41_field.md` R231). -/
theorem GF.mk_reduceFrom (k : GF) {d : Nat} (hd : d ≤ 16) (c : BitVec 32) :
    AdjoinRoot.mk (bitPoly k.f) (bitPoly (k.reduceFrom d c)) =
      AdjoinRoot.mk (bitPoly k.f) (bitPoly c) := by
  induction d generalizing c with
  | zero => rfl
  | succ d ih =>
    have hwide : bitPoly (k.f.setWidth 32) = bitPoly k.f :=
      bitPoly_setWidth _ fun i hi => BitVec.getLsbD_of_ge k.f i (by omega)
    have hshift : bitPoly (k.f.setWidth 32 <<< d) = X ^ d * bitPoly (k.f.setWidth 32) :=
      bitPoly_shiftLeft _ d fun i hi => by
        rw [BitVec.getLsbD_setWidth, BitVec.getLsbD_of_ge k.f i (by omega), Bool.and_false]
    rw [GF.reduceFrom, ih (by omega)]
    split
    · rw [bitPoly_xor, hshift, hwide]; simp
    · rfl

/-- ⊗ is the product of residues (`41_field.md` R231). -/
theorem GF.residue_mul {k : GF} (hk : k.Proper) (a : Elem) {b : Elem} (hb : b.toNat < 2 ^ k.m) :
    k.residue (k.mul a b) = k.residue a * k.residue b := by
  have hbits : ∑ i ∈ Finset.range k.m, (if b.getLsbD i then (X : (ZMod 2)[X]) ^ i else 0) =
      bitPoly b := by
    refine Finset.sum_subset (Finset.range_subset_range.mpr hk.m_le) fun i _ hi => ?_
    have : b.getLsbD i = false := Nat.testBit_lt_two_pow (Nat.lt_of_lt_of_le hb
      (Nat.pow_le_pow_right (by omega) (by simpa using hi)))
    simp [this]
  have hfit : ∀ i, 16 ≤ i → (k.reduceFrom 16 (clmul a b k.m)).getLsbD i = false := fun i hi =>
    k.reduceFrom_high hk.monic 16 (by have := hk.m_le; omega) _ (fun j hj => by
      obtain ⟨n, hn⟩ := Nat.exists_eq_succ_of_ne_zero hk.pos.ne'
      rw [hn]
      exact clmul_high a b n j (by omega)) i (hk.m_le.trans hi)
  rw [GF.residue, GF.mul, bitPoly_setWidth _ hfit, k.mk_reduceFrom (Nat.le_refl 16),
    bitPoly_clmul a b hk.m_le, hbits, map_mul]
  rfl

/-! ## The laws of ⊗ on elements below 2^m -/

theorem GF.mul_comm {k : GF} (hk : k.Proper) {a b : Elem} (ha : a.toNat < 2 ^ k.m)
    (hb : b.toNat < 2 ^ k.m) : k.mul a b = k.mul b a :=
  k.residue_injective hk (k.mul_lt hk.monic a b) (k.mul_lt hk.monic b a) (by
    rw [k.residue_mul hk a hb, k.residue_mul hk b ha]
    ring)

theorem GF.mul_assoc {k : GF} (hk : k.Proper) (a : Elem) {b c : Elem} (hb : b.toNat < 2 ^ k.m)
    (hc : c.toNat < 2 ^ k.m) : k.mul (k.mul a b) c = k.mul a (k.mul b c) :=
  k.residue_injective hk (k.mul_lt hk.monic _ _) (k.mul_lt hk.monic _ _) (by
    rw [k.residue_mul hk _ hc, k.residue_mul hk a hb, k.residue_mul hk a (k.mul_lt hk.monic b c),
      k.residue_mul hk b hc]
    ring)

theorem GF.mul_one {k : GF} (hk : k.Proper) {a : Elem} (ha : a.toNat < 2 ^ k.m) :
    k.mul a 1#16 = a :=
  k.residue_injective hk (k.mul_lt hk.monic _ _) ha (by
    rw [k.residue_mul hk a hk.one_lt, k.residue_one]
    ring)

end Sys2Proof.Machine
end

section
/-! SUPPORT. What the parts of a rule answer when they answer: a predicate on results with one law per
way of building a rule, and the laws of polynomial arithmetic over it: every operation answers
well-formed polynomials, and a remainder is shorter than its divisor (`42_poly.md` R260–R264,
`44_decode.md` R345). -/

namespace Sys2Proof.Machine

variable {α β : Type}

/-! ## Results of a rule -/

/-- If the part of a rule answers a value, the value satisfies P. -/
def Ensures (r : Run α) (P : α → Prop) : Prop := ∀ a, r = .ok a → P a

theorem Ensures.ok {P : α → Prop} {a : α} (h : P a) : Ensures (.ok a) P := fun _ ha => by
  cases ha; exact h

theorem Ensures.error {P : α → Prop} (e : Stop) : Ensures (.error e) P := fun _ ha => nomatch ha

theorem Ensures.raise {P : α → Prop} (e : CmdError) : Ensures (Machine.raise e) P := .error _

theorem Ensures.bind {P : α → Prop} {Q : β → Prop} {x : Run α} {f : α → Run β} (hx : Ensures x P)
    (hf : ∀ a, P a → Ensures (f a) Q) : Ensures (x >>= f) Q := fun b hb => by
  obtain ⟨a, ha, hb⟩ := bind_eq_ok.mp hb
  exact hf a (hx a ha) b hb

/-- A value of which nothing is needed. -/
theorem Ensures.any (r : Run α) : Ensures r fun _ => True := fun _ _ => trivial

theorem Ensures.collect {P : α → Prop} {g : Nat → Run α} {cnt : Nat} (h : ∀ i, Ensures (g i) P) :
    Ensures (collect cnt g) fun vs => vs.length = cnt ∧ ∀ v ∈ vs, P v := fun vs hvs => by
  obtain ⟨hlen, hval⟩ := collect_inv hvs
  refine ⟨hlen, fun v hv => ?_⟩
  obtain ⟨j, hj⟩ := List.mem_iff_getElem?.mp hv
  exact h j v (hval j v hj)

/-! ## Well-formed polynomials -/

/-- Well-formedness in terms of coefficients. -/
theorem Poly.wf_iff {m : Nat} {p : Poly} :
    Poly.wf m p ↔ Poly.canonical p ∧ ∀ i, (p.getD i 0#16).toNat < 2 ^ m := by
  refine and_congr_right fun _ => ⟨fun h i => ?_, fun h a ha => ?_⟩
  · by_cases hi : i < p.length
    · rw [List.getD_eq_getElem _ _ hi]; exact h _ (List.getElem_mem hi)
    · rw [List.getD_eq_default _ _ (by omega)]; exact Nat.two_pow_pos m
  · obtain ⟨i, hi, rfl⟩ := List.mem_iff_getElem.mp ha
    simpa [hi] using h i

theorem Poly.coeff_lt {m : Nat} {p : Poly} (h : Poly.wf m p) (i : Nat) :
    (Poly.coeff p i).toNat < 2 ^ m := (Poly.wf_iff.mp h).2 i

theorem Poly.lead_eq_getD (p : Poly) : Poly.lead p = p.getD (p.length - 1) 0#16 := by
  rw [Poly.lead, List.getLastD_eq_getLast?, List.getLast?_eq_getElem?, List.getD_eq_getElem?_getD]

theorem Poly.lead_lt {m : Nat} {p : Poly} (h : Poly.wf m p) : (Poly.lead p).toNat < 2 ^ m := by
  rw [Poly.lead_eq_getD]; exact Poly.coeff_lt h _

@[simp] theorem Poly.wf_nil (m : Nat) : Poly.wf m [] := by simp [Poly.wf]

theorem Poly.wf_ofCoeffs {m : Nat} {cs : List Elem} (h : ∀ a ∈ cs, a.toNat < 2 ^ m) :
    Poly.wf m (Poly.ofCoeffs cs) :=
  ⟨Poly.canonical_ofCoeffs cs, fun _ ha => h _ (Poly.mem_ofCoeffs ha)⟩

theorem Poly.wf_const {m : Nat} {a : Elem} (h : a.toNat < 2 ^ m) : Poly.wf m (Poly.const a) :=
  Poly.wf_ofCoeffs (cs := [a]) (by simpa using h)

theorem Poly.length_const_le (a : Elem) : (Poly.const a).length ≤ 1 := Poly.length_ofCoeffs_le [a]

theorem Poly.wf_setCoeff {m : Nat} {p : Poly} {v : Elem} (hp : Poly.wf m p) (j : Nat)
    (hv : v.toNat < 2 ^ m) : Poly.wf m (Poly.setCoeff p j v) := by
  refine Poly.wf_iff.mpr ⟨Poly.canonical_ofCoeffs _, fun i => ?_⟩
  rw [Poly.getD_setCoeff]
  split
  · exact hv
  · exact Poly.coeff_lt hp i

theorem length_setAt (p : List Elem) (j : Nat) (v : Elem) :
    (setAt p j v).length = max p.length (j + 1) := by
  induction j generalizing p with
  | zero => cases p <;> simp [setAt]
  | succ j ih => cases p <;> simp [setAt, ih]

theorem Poly.length_setCoeff_le (p : Poly) (j : Nat) (v : Elem) :
    (Poly.setCoeff p j v).length ≤ max p.length (j + 1) :=
  (Poly.length_ofCoeffs_le _).trans (length_setAt p j v).le

theorem Poly.wf_add {m : Nat} {p q : Poly} (hp : Poly.wf m p) (hq : Poly.wf m q) :
    Poly.wf m (Poly.add p q) := by
  refine Poly.wf_iff.mpr ⟨Poly.canonical_add hp.1 hq.1, fun i => ?_⟩
  rw [Poly.getD_add]
  exact fieldAdd_lt (Poly.coeff_lt hp i) (Poly.coeff_lt hq i)

theorem Poly.wf_shift {m : Nat} {p : Poly} (s : Nat) (hp : Poly.wf m p) :
    Poly.wf m (Poly.shift s p) := by
  refine Poly.wf_iff.mpr ⟨Poly.canonical_shift s hp.1, fun i => ?_⟩
  rw [Poly.getD_shift]
  split
  · exact Nat.two_pow_pos m
  · exact Poly.coeff_lt hp _

theorem Poly.length_shift_le (s : Nat) (p : Poly) : (Poly.shift s p).length ≤ s + p.length := by
  rw [Poly.length_shift]
  split <;> omega

theorem Poly.wf_sum {m : Nat} {ps : List Poly} (h : ∀ p ∈ ps, Poly.wf m p) {acc : Poly}
    (ha : Poly.wf m acc) : Poly.wf m (ps.foldl Poly.add acc) := by
  induction ps generalizing acc with
  | nil => exact ha
  | cons p ps ih =>
    rw [List.forall_mem_cons] at h
    exact ih h.2 (Poly.wf_add ha h.1)

theorem Poly.length_sum_le {n : Nat} {ps : List Poly} (h : ∀ p ∈ ps, p.length ≤ n) {acc : Poly}
    (ha : acc.length ≤ n) : (ps.foldl Poly.add acc).length ≤ n := by
  induction ps generalizing acc with
  | nil => exact ha
  | cons p ps ih =>
    rw [List.forall_mem_cons] at h
    exact ih h.2 ((Poly.length_add_le acc p).trans (max_le ha h.1))

/-- A canonical polynomial is no longer than its last non-zero coefficient. -/
theorem Poly.length_le_of_coeffs {p : Poly} {n : Nat} (hp : Poly.canonical p)
    (h : ∀ i, n ≤ i → p.getD i 0#16 = 0#16) : p.length ≤ n := by
  by_contra hn
  have hi : p.length - 1 < p.length := by omega
  have := h (p.length - 1) (by omega)
  rw [List.getD_eq_getElem _ _ hi] at this
  exact hp (by rw [List.getLast?_eq_getElem?, List.getElem?_eq_getElem hi, this])

section
variable {k : GF} (hk : k.Proper)
include hk

theorem Poly.wf_scale (c : Elem) (p : Poly) : Poly.wf k.m (Poly.scale k c p) := by
  refine Poly.wf_iff.mpr ⟨Poly.canonical_scale k c p, fun i => ?_⟩
  rw [Poly.getD_scale]
  exact k.mul_lt hk.monic _ _

theorem Poly.wf_mul (p q : Poly) : Poly.wf k.m (Poly.mul k p q) := by
  induction p with
  | nil => exact Poly.wf_nil _
  | cons a p ih => exact Poly.wf_add (Poly.wf_scale hk a q) (Poly.wf_shift 1 ih)

theorem Poly.eval_lt {p : Poly} (hp : Poly.wf k.m p) (x : Elem) :
    (Poly.eval k p x).toNat < 2 ^ k.m := by
  cases p with
  | nil => exact Nat.two_pow_pos k.m
  | cons a q => exact fieldAdd_lt (k.mul_lt hk.monic _ _) (hp.2 a (by simp))

theorem Poly.wf_z : Poly.wf k.m Poly.z :=
  ⟨by simp [Poly.z], by simpa [Poly.z] using hk.one_lt⟩

theorem GF.pow_lt (a : Elem) (e : Nat) : (k.pow a e).toNat < 2 ^ k.m := by
  cases e with
  | zero => exact hk.one_lt
  | succ e => rw [GF.pow_succ]; exact k.mul_lt hk.monic _ _

theorem GF.inv_ensures (a : Elem) :
    Ensures (k.inv a) fun b => b.toNat < 2 ^ k.m ∧ k.mul a b = 1#16 := by
  rcases k.inv_cases hk.m_le a with ⟨b, hb, hlt, hmul⟩ | ⟨hb, -⟩
  · rw [hb]; exact .ok ⟨hlt, hmul⟩
  · rw [hb]; exact .raise _

/-! ## Division (`42_poly.md` R262) -/

/-- Adding the right multiple of the divisor cancels the leading term (`42_poly.md` R262). -/
theorem Poly.length_cancel_lt {r b : Poly} {ib : Elem} (hr : Poly.wf k.m r) (hb : Poly.wf k.m b)
    (hr0 : r ≠ []) (hb0 : b ≠ []) (hle : b.length ≤ r.length) (hib : ib.toNat < 2 ^ k.m)
    (hinv : k.mul (Poly.lead b) ib = 1#16) :
    (Poly.add r (Poly.shift (r.length - b.length)
      (Poly.scale k (k.mul (Poly.lead r) ib) b))).length < r.length := by
  have hrpos := List.length_pos_iff.mpr hr0
  have hbpos := List.length_pos_iff.mpr hb0
  have hlead : k.mul (k.mul (Poly.lead r) ib) (Poly.lead b) = Poly.lead r := by
    rw [GF.mul_assoc hk _ hib (Poly.lead_lt hb), GF.mul_comm hk hib (Poly.lead_lt hb), hinv,
      GF.mul_one hk (Poly.lead_lt hr)]
  refine Nat.lt_of_le_pred hrpos (Poly.length_le_of_coeffs (Poly.canonical_add hr.1
    (Poly.canonical_shift _ (Poly.canonical_scale k _ b))) fun i hi => ?_)
  rw [Nat.pred_eq_sub_one] at hi
  rw [Poly.getD_add, Poly.getD_shift, if_neg (by omega), Poly.getD_scale]
  rcases Nat.eq_or_lt_of_le hi with rfl | hlt
  · rw [show r.length - 1 - (r.length - b.length) = b.length - 1 by omega, ← Poly.lead_eq_getD,
      ← Poly.lead_eq_getD, hlead, fieldAdd, BitVec.xor_self]
  · rw [List.getD_eq_default _ _ (by omega), List.getD_eq_default _ _ (by omega), GF.mul_zero]
    rfl

/-- The reduction loop ends with a remainder shorter than the divisor (`42_poly.md` R262). -/
theorem divLoop_keeps {b : Poly} {ib : Elem} (hb : Poly.wf k.m b) (hb0 : b ≠ [])
    (hib : ib.toNat < 2 ^ k.m) (hinv : k.mul (Poly.lead b) ib = 1#16) {n fuel : Nat} {q r : Poly}
    (hq : Poly.wf k.m q) (hqn : q.length ≤ n) (hr : Poly.wf k.m r) (hrn : r.length ≤ n)
    (hfuel : r.length ≤ fuel) :
    (Poly.wf k.m (divLoop k b ib fuel q r).1 ∧ (divLoop k b ib fuel q r).1.length ≤ n) ∧
      Poly.wf k.m (divLoop k b ib fuel q r).2 ∧
      (divLoop k b ib fuel q r).2.length < b.length := by
  have hbpos := List.length_pos_iff.mpr hb0
  induction fuel generalizing q r with
  | zero => exact ⟨⟨hq, hqn⟩, hr, by rw [divLoop]; dsimp only; omega⟩
  | succ fuel ih =>
    rw [divLoop]
    split
    · next hcond =>
      have hlt := Poly.length_cancel_lt hk hr hb hcond.1 hb0 hcond.2 hib hinv
      have hterm : (Poly.shift (r.length - b.length)
          (Poly.const (k.mul (Poly.lead r) ib))).length ≤ n := by
        have h1 := Poly.length_shift_le (r.length - b.length)
          (Poly.const (k.mul (Poly.lead r) ib))
        have h2 := Poly.length_const_le (k.mul (Poly.lead r) ib)
        omega
      exact ih (Poly.wf_add hq (Poly.wf_shift _ (Poly.wf_const (k.mul_lt hk.monic _ _))))
        ((Poly.length_add_le _ _).trans (max_le hqn hterm))
        (Poly.wf_add hr (Poly.wf_shift _ (Poly.wf_scale hk _ b))) (by omega) (by omega)
    · next hcond =>
      refine ⟨⟨hq, hqn⟩, hr, ?_⟩
      by_cases hr0 : r = []
      · simpa [hr0] using hbpos
      · exact Nat.lt_of_not_le fun hle => hcond ⟨hr0, hle⟩

theorem divmod_ensures {a b : Poly} (ha : Poly.wf k.m a) (hb : Poly.wf k.m b) :
    Ensures (divmod k a b) fun qr => (Poly.wf k.m qr.1 ∧ qr.1.length ≤ a.length) ∧
      Poly.wf k.m qr.2 ∧ qr.2.length < b.length := by
  unfold divmod
  split
  · exact .raise _
  · next hb0 =>
    refine .bind (GF.inv_ensures hk _) fun ib ⟨hib, hinv⟩ => .ok ?_
    exact divLoop_keeps hk hb hb0 hib hinv (Poly.wf_nil _) (Nat.zero_le _) ha (Nat.le_refl _)
      (Nat.le_refl _)

theorem polyMod_ensures {a g : Poly} (ha : Poly.wf k.m a) (hg : Poly.wf k.m g) :
    Ensures (polyMod k a g) fun r => Poly.wf k.m r ∧ r.length < g.length :=
  .bind (divmod_ensures hk ha hg) fun _ ⟨_, hr⟩ => .ok hr

/-! ## Inverse and square root modulo g (`42_poly.md` R263, R264) -/

theorem invLoop_ensures {fuel : Nat} {r0 r1 s0 s1 : Poly} (hr0 : Poly.wf k.m r0)
    (hr1 : Poly.wf k.m r1) (hs0 : Poly.wf k.m s0) (hs1 : Poly.wf k.m s1) :
    Ensures (invLoop k fuel r0 r1 s0 s1) fun rs => Poly.wf k.m rs.1 ∧ Poly.wf k.m rs.2 := by
  induction fuel generalizing r0 r1 s0 s1 with
  | zero => exact .ok ⟨hr0, hs0⟩
  | succ fuel ih =>
    rw [invLoop]
    split
    · exact .ok ⟨hr0, hs0⟩
    · exact .bind (divmod_ensures hk hr0 hr1) fun qr ⟨_, hr, _⟩ =>
        ih hr1 hr hs1 (Poly.wf_add hs0 (Poly.wf_mul hk _ _))

theorem invmod_ensures {a g : Poly} (ha : Poly.wf k.m a) (hg : Poly.wf k.m g) :
    Ensures (invmod k a g) fun r => Poly.wf k.m r ∧ r.length < g.length := by
  refine .bind (polyMod_ensures hk ha hg) fun r1 ⟨hr1, _⟩ => ?_
  refine .bind (invLoop_ensures hk hg hr1 (Poly.wf_nil _) (Poly.wf_const hk.one_lt)) fun rs _ => ?_
  split
  · exact .raise _
  · exact .bind (.any _) fun c _ => polyMod_ensures hk (Poly.wf_scale hk c _) hg

theorem squareLoop_ensures {g : Poly} (hg : Poly.wf k.m g) {j : Nat} {x : Poly}
    (hx : Poly.wf k.m x ∧ x.length < g.length) :
    Ensures (squareLoop k g j x) fun r => Poly.wf k.m r ∧ r.length < g.length := by
  induction j generalizing x with
  | zero => exact .ok hx
  | succ j ih => exact .bind (polyMod_ensures hk (Poly.wf_mul hk x x) hg) fun y hy => ih hy

theorem sqrtmod_ensures (t : Nat) {a g : Poly} (ha : Poly.wf k.m a) (hg : Poly.wf k.m g) :
    Ensures (sqrtmod k t a g) fun r => Poly.wf k.m r ∧ r.length < g.length :=
  .bind (polyMod_ensures hk ha hg) fun _ hx => squareLoop_ensures hk hg hx

end

/-! ## The key-equation core (`44_decode.md` R345) -/

/-- A well-formed polynomial with at most n coefficients. -/
abbrev Poly.within (m n : Nat) (p : Poly) : Prop := Poly.wf m p ∧ p.length ≤ n

/-- The bounds both loops of the key-equation recursion keep for a g of n coefficients: each companion
is as much shorter than g as the remainder beside it is long, so none outgrows g. -/
structure KeyEq.Bounded (k : GF) (n : Nat) (s : KeyEq) : Prop where
  r0 : Poly.within k.m n s.r0
  r1 : Poly.within k.m n s.r1
  u0 : Poly.within k.m n s.u0
  u1 : Poly.within k.m n s.u1
  old : s.u0.length + s.r1.length ≤ n + 1
  new : s.u1.length + s.r0.length ≤ n + 1

theorem Poly.length_addScaled_le (k : GF) (p q : Poly) (d : Nat) (c : Elem) :
    (Poly.add p (Poly.shift d (Poly.scale k c q))).length ≤ max p.length (d + q.length) := by
  have h1 := Poly.length_add_le p (Poly.shift d (Poly.scale k c q))
  have h2 := Poly.length_shift_le d (Poly.scale k c q)
  have h3 := Poly.length_scale_le k c q
  omega

section
variable {k : GF} (hk : k.Proper)
include hk

theorem eliminate_ensures {n fuel : Nat} {s : KeyEq} (hs : s.Bounded k n) (hr1 : s.r1 ≠ []) :
    Ensures (eliminate k fuel s) fun e => e.Bounded k n := by
  induction fuel generalizing s with
  | zero => exact .ok hs
  | succ fuel ih =>
    rw [eliminate]
    split
    · next hcond =>
      obtain ⟨⟨hr0w, hr0⟩, hr1b, ⟨hu0w, hu0⟩, hu1b, hold, hnew⟩ := hs
      refine .bind (.any _) fun ir _ => ih ?_ hr1
      have hpos := List.length_pos_iff.mpr hr1
      have hlen0 := Poly.length_addScaled_le k s.r0 s.r1 (s.r0.length - s.r1.length)
        (k.mul (Poly.lead s.r0) ir)
      have hlen1 := Poly.length_addScaled_le k s.u0 s.u1 (s.r0.length - s.r1.length)
        (k.mul (Poly.lead s.r0) ir)
      have hwf := fun p q : Poly => fun hp : Poly.wf k.m p =>
        Poly.wf_add hp (Poly.wf_shift (s.r0.length - s.r1.length)
          (Poly.wf_scale hk (k.mul (Poly.lead s.r0) ir) q))
      exact ⟨⟨hwf _ _ hr0w, by dsimp only; omega⟩, hr1b, ⟨hwf _ _ hu0w, by dsimp only; omega⟩, hu1b,
        by dsimp only; omega, by dsimp only; omega⟩
    · exact .ok hs

theorem keyLoop_ensures {n half fuel : Nat} {s : KeyEq} (hs : s.Bounded k n) :
    Ensures (keyLoop k half fuel s) fun e => e.Bounded k n := by
  induction fuel generalizing s with
  | zero => exact .ok hs
  | succ fuel ih =>
    rw [keyLoop]
    split
    · next hlong =>
      have hr1 : s.r1 ≠ [] := by rintro h; simp [h] at hlong
      exact .bind (eliminate_ensures hk hs hr1) fun e he =>
        ih ⟨he.r1, he.r0, he.u1, he.u0, he.new, he.old⟩
    · exact .ok hs

theorem keyeq_ensures (t : Nat) {tau g : Poly} (ht : Poly.wf k.m tau) (hg : Poly.wf k.m g) :
    Ensures (keyeq k t tau g) fun s =>
      Poly.within k.m g.length s.r0 ∧ Poly.within k.m g.length s.r1 ∧
        Poly.within k.m g.length s.u0 ∧ Poly.within k.m g.length s.u1 := by
  refine .bind (polyMod_ensures hk ht hg) fun r1 ⟨hr1, hlt⟩ => ?_
  have hone := Poly.length_const_le 1#16
  have hstart : KeyEq.Bounded k g.length
      { r0 := g, r1 := r1, u0 := [], u1 := Poly.const 1#16, it := 0 } :=
    ⟨⟨hg, Nat.le_refl _⟩, ⟨hr1, hlt.le⟩, ⟨Poly.wf_nil _, Nat.zero_le _⟩,
      ⟨Poly.wf_const hk.one_lt, by dsimp only; omega⟩, by simp; omega, by dsimp only; omega⟩
  refine .bind (keyLoop_ensures hk hstart) fun s hs => ?_
  exact .bind (polyMod_ensures hk hs.r1.1 hg) fun alpha ⟨hw, hl⟩ =>
    .ok ⟨hs.r0, ⟨hw, hl.le⟩, hs.u0, hs.u1⟩

end

end Sys2Proof.Machine
end

section
/-! SUPPORT. The two invariants of the data (`10_state.md` R54, R55; `20_memory.md` R104, R109) as one
predicate, with one rule per operation on the data: what has to be shown of the value an operation
stores. -/

namespace Sys2Proof.Machine

variable {fit : Prop} {hw : Synth}

/-! ## The predicates -/

/-- A polynomial register's content: well formed, and within T_MAX where `fit` asks for it. -/
structure Poly.Good (fit : Prop) (hw : Synth) (m : Nat) (p : Poly) : Prop where
  wf : Poly.wf m p
  fits : fit → p.length ≤ hw.tMax + 1

/-- Well-formed data, with polynomial registers within T_MAX where `fit` asks for it: each command is
gone through once for both invariants, `State.Sound` (`fit` is False) and `State.Fits` (True). -/
structure Data.Good (fit : Prop) (hw : Synth) (d : Data) : Prop where
  wf : d.wf hw
  fits : fit → d.polysFit hw

/-- The state with `Data.Good` data and working copy. -/
structure State.Good (fit : Prop) (s : State) : Prop where
  hw : s.hw.legal
  data : s.data.Good fit s.hw
  copy : ∀ b ∈ s.engine, b.copy.Good fit s.hw

theorem State.sound_iff_good {s : State} : s.Sound ↔ s.Good False :=
  ⟨fun h => ⟨h.hw, ⟨h.data, False.elim⟩, fun b hb => ⟨h.copy b hb, False.elim⟩⟩,
    fun h => ⟨h.hw, h.data.wf, fun b hb => (h.copy b hb).wf⟩⟩

theorem State.fits_iff_good {s : State} : s.Fits ↔ s.Good True :=
  ⟨fun h => ⟨h.sound.hw, ⟨h.sound.data, fun _ => h.data⟩,
      fun b hb => ⟨h.sound.copy b hb, fun _ => h.copy b hb⟩⟩,
    fun h => ⟨⟨h.hw, h.data.wf, fun b hb => (h.copy b hb).wf⟩, h.data.fits trivial,
      fun b hb => (h.copy b hb).fits trivial⟩⟩

theorem State.Good.work {s : State} (h : s.Good fit) : s.work.Good fit s.hw := by
  unfold State.work
  split
  · next b hb => exact h.copy b hb
  · exact h.data

theorem Poly.Good.of_le {m : Nat} {p q : Poly} (hp : Poly.Good fit hw m p) (hq : Poly.wf m q)
    (hle : q.length ≤ p.length) : Poly.Good fit hw m q :=
  ⟨hq, fun hfit => hle.trans (hp.fits hfit)⟩

theorem Poly.Good.nil (m : Nat) : Poly.Good fit hw m [] := ⟨Poly.wf_nil m, fun _ => by simp⟩

theorem Poly.Good.add {m : Nat} {p q : Poly} (hp : Poly.Good fit hw m p)
    (hq : Poly.Good fit hw m q) : Poly.Good fit hw m (Poly.add p q) :=
  ⟨Poly.wf_add hp.wf hq.wf,
    fun hfit => (Poly.length_add_le p q).trans (max_le (hp.fits hfit) (hq.fits hfit))⟩

theorem Poly.Good.setCoeff {m : Nat} {p : Poly} {v : Elem} {j : Nat} (hp : Poly.Good fit hw m p)
    (hj : j ≤ hw.tMax) (hv : v.toNat < 2 ^ m) : Poly.Good fit hw m (Poly.setCoeff p j v) :=
  ⟨Poly.wf_setCoeff hp.wf j hv, fun hfit => (Poly.length_setCoeff_le p j v).trans
    (max_le (hp.fits hfit) (Nat.succ_le_succ hj))⟩

/-! ## What good data hold -/

theorem Data.Good.f_lt {d : Data} (h : d.Good fit hw) (i : RegIx) :
    (d.f.get i).toNat < 2 ^ d.width := h.wf.regs.1 i

theorem Data.Good.p {d : Data} (h : d.Good fit hw) (i : RegIx) :
    Poly.Good fit hw d.width (d.p.get i) := ⟨h.wf.regs.2.1 i, fun hfit => (h.fits hfit).1 i⟩

theorem Data.Good.gp {d : Data} (h : d.Good fit hw) : Poly.Good fit hw d.width d.gp :=
  ⟨h.wf.regs.2.2, fun hfit => (h.fits hfit).2⟩

theorem readCells_mem {α : Type} {cs : List (Nat × α)} {i : Nat} {v : α}
    (h : readCells cs i = some v) : (i, v) ∈ cs := by
  induction cs with
  | nil => cases h
  | cons c cs ih =>
    obtain ⟨k, w⟩ := c
    rw [readCells] at h
    split at h
    · next hk => cases h; rw [hk]; exact List.mem_cons_self
    · exact List.mem_cons_of_mem _ (ih h)

theorem readElem_ensures {d : Data} (h : d.Good fit hw) (id : ElemMem) (i : Nat) :
    Ensures (readElem d id i) fun v => v.toNat < 2 ^ d.width := fun v hv =>
  ((h.wf.elems id).2 (i, v) (readCells_mem (readElem_inv hv))).2

/-! ## Operations on the data -/

/-- The counters, FMOD and CLEN are free. -/
theorem Data.Good.of_eq {d d' : Data} (h : d.Good fit hw) (hcfg : d'.cfg = d.cfg) (hf : d'.f = d.f)
    (hp : d'.p = d.p) (hgp : d'.gp = d.gp) (hmems : d'.mems = d.mems) : d'.Good fit hw := by
  obtain ⟨cfg, _, _, _, _, _, _, f, p, gp, mems⟩ := d'
  cases hcfg; cases hf; cases hp; cases hgp; cases hmems
  exact ⟨⟨h.wf.cfg, h.wf.regs, h.wf.elems, h.wf.bits⟩, h.fits⟩

theorem Data.Good.setF {d : Data} (h : d.Good fit hw) (i : RegIx) {v : Elem}
    (hv : v.toNat < 2 ^ d.width) : (d.setF i v).Good fit hw := by
  refine ⟨⟨h.wf.cfg, ⟨fun j => ?_, h.wf.regs.2⟩, h.wf.elems, h.wf.bits⟩, h.fits⟩
  rw [Data.setF_f, RegFile.get_set]
  split
  · exact hv
  · exact h.f_lt j

theorem Data.Good.withPolys {d : Data} (h : d.Good fit hw) {p : RegFile Poly}
    (hp : ∀ i, Poly.Good fit hw d.width (p.get i)) : Data.Good fit hw { d with p := p } :=
  ⟨⟨h.wf.cfg, ⟨h.f_lt, fun i => (hp i).wf, h.gp.wf⟩, h.wf.elems, h.wf.bits⟩,
    fun hfit => ⟨fun i => (hp i).fits hfit, h.gp.fits hfit⟩⟩

theorem Data.Good.setP {d : Data} (h : d.Good fit hw) (i : RegIx) {p : Poly}
    (hp : Poly.Good fit hw d.width p) : (d.setP i p).Good fit hw :=
  h.withPolys fun j => by
    rw [RegFile.get_set]
    split
    · exact hp
    · exact h.p j

theorem Data.Good.withGp {d : Data} (h : d.Good fit hw) {p : Poly}
    (hp : Poly.Good fit hw d.width p) : Data.Good fit hw { d with gp := p } :=
  ⟨⟨h.wf.cfg, ⟨h.f_lt, fun i => (h.p i).wf, hp.wf⟩, h.wf.elems, h.wf.bits⟩,
    fun hfit => ⟨fun i => (h.p i).fits hfit, hp.fits hfit⟩⟩

theorem Data.Good.withElem {d : Data} (h : d.Good fit hw) (id : ElemMem) {m : Memory Elem}
    (hm : m.wf) (hcells : ∀ kv ∈ m.cells, kv ∈ (d.mems.elem id).cells ∨
      kv.1 < d.elemCount id ∧ kv.2.toNat < 2 ^ d.width) : (d.withElem id m).Good fit hw := by
  refine ⟨⟨h.wf.cfg, h.wf.regs, fun id' => ?_, fun id' => ?_⟩, h.fits⟩
  · rw [Data.elemMemWf, Data.withElem_mems, Memories.elem_setElem]
    split
    · next hid =>
      subst hid
      exact ⟨hm, fun kv hkv => (hcells kv hkv).elim ((h.wf.elems id').2 kv) id⟩
    · exact h.wf.elems id'
  · rw [Data.bitMemWf, Data.withElem_mems, Memories.bit_setElem]
    exact h.wf.bits id'

theorem Data.Good.withBit {d : Data} (h : d.Good fit hw) (id : BitMem) {m : Memory Bool}
    (hm : m.wf) (hcells : ∀ kv ∈ m.cells, kv ∈ (d.mems.bit id).cells ∨ kv.1 < d.bitCount id) :
    (d.withBit id m).Good fit hw := by
  refine ⟨⟨h.wf.cfg, h.wf.regs, fun id' => ?_, fun id' => ?_⟩, h.fits⟩
  · rw [Data.elemMemWf, Data.withBit_mems, Memories.elem_setBit]
    exact h.wf.elems id'
  · rw [Data.bitMemWf, Data.withBit_mems, Memories.bit_setBit]
    split
    · next hid =>
      subst hid
      exact ⟨hm, fun kv hkv => (hcells kv hkv).elim ((h.wf.bits id').2 kv) id⟩
    · exact h.wf.bits id'

theorem Data.Good.writeBits {d : Data} (h : d.Good fit hw) (id : BitMem) {i : Nat} {vs : List Bool}
    (hlen : i + vs.length ≤ d.bitCount id) :
    (d.withBit id ((d.mems.bit id).writeRange i vs)).Good fit hw :=
  h.withBit id (Memory.wf_writeRange _ _ _ (h.wf.bits id).1) fun kv hkv =>
    (mem_writeRange _ _ _ kv hkv).imp_right fun ⟨_, hlt, _⟩ => Nat.lt_of_lt_of_le hlt hlen

theorem Data.Good.fillBit {d : Data} (h : d.Good fit hw) (id : BitMem) {vs : List Bool}
    (hlen : vs.length ≤ d.bitCount id) : (d.fillBit id vs).Good fit hw :=
  h.writeBits id (by omega)

theorem Data.Good.fillElem {d : Data} (h : d.Good fit hw) (id : ElemMem) {vs : List Elem}
    (hlen : vs.length ≤ d.elemCount id) (hvs : ∀ v ∈ vs, v.toNat < 2 ^ d.width) :
    (d.fillElem id vs).Good fit hw :=
  h.withElem id (Memory.wf_writeRange _ _ _ (h.wf.elems id).1) fun kv hkv =>
    (mem_writeRange _ _ _ kv hkv).imp_right fun ⟨_, hlt, hmem⟩ => ⟨by omega, hvs _ hmem⟩

theorem Memories.elem_unwritten (id : ElemMem) : Memories.unwritten.elem id = .empty := by
  cases id <;> rfl

theorem Memories.bit_unwritten (id : BitMem) : Memories.unwritten.bit id = .empty := by
  cases id <;> rfl

/-- Cleared registers and unwritten memories are good under every legal configuration
(`10_state.md` R60, `40_control.md` R201). -/
theorem Data.good_of_cleared {d : Data} (hcfg : d.cfgWf hw) (hf : d.f = .all 0#16)
    (hp : d.p = .all []) (hgp : d.gp = []) (hmems : d.mems = .unwritten) : d.Good fit hw := by
  have hnil : Poly.Good fit hw d.width [] := .nil _
  refine ⟨⟨hcfg, ⟨fun i => ?_, fun i => ?_, ?_⟩, fun id => ?_, fun id => ?_⟩,
    fun hfit => ⟨fun i => ?_, ?_⟩⟩
  · rw [hf, RegFile.get_all]; exact Nat.two_pow_pos _
  · rw [hp, RegFile.get_all]; exact hnil.wf
  · rw [hgp]; exact hnil.wf
  · rw [Data.elemMemWf, hmems, Memories.elem_unwritten]
    exact ⟨Memory.wf_empty, fun _ hkv => nomatch hkv⟩
  · rw [Data.bitMemWf, hmems, Memories.bit_unwritten]
    exact ⟨Memory.wf_empty, fun _ hkv => nomatch hkv⟩
  · rw [hp, RegFile.get_all]; exact hnil.fits hfit
  · rw [hgp]; exact hnil.fits hfit

theorem Data.good_reset : Data.reset.Good fit hw :=
  Data.good_of_cleared (fun _ hc => nomatch hc) rfl rfl rfl rfl

/-! ## The state -/

theorem State.Good.commit {s : State} (h : s.Good fit) {d : Data} (hd : d.Good fit s.hw) :
    (s.commit d).Good fit := ⟨h.hw, hd, fun _ hb => nomatch hb⟩

theorem State.Good.takeError {s : State} (h : s.Good fit) (n : Nat) (e : CmdError) :
    (s.takeError n e).Good fit := ⟨h.hw, h.data, fun _ hb => nomatch hb⟩

theorem State.good_resetOf (h : hw.legal) : (State.resetOf hw).Good fit :=
  ⟨h, Data.good_reset, fun _ hb => nomatch hb⟩

end Sys2Proof.Machine
end

section
/-! SUPPORT. Every command keeps the data good (`10_state.md` R54, R55; `42_poly.md` R260): the reads
and checks a rule begins with, the rules that are more than one operation, then the dispatch. -/

namespace Sys2Proof.Machine

variable {fit : Prop} {hw : Synth}

/-! ## Registers and the g-check -/

theorem RegFile.forall_get {α : Type} {P : α → Prop} {v0 v1 v2 v3 v4 v5 v6 v7 : α} (h0 : P v0)
    (h1 : P v1) (h2 : P v2) (h3 : P v3) (h4 : P v4) (h5 : P v5) (h6 : P v6) (h7 : P v7)
    (i : RegIx) : P (RegFile.get ⟨v0, v1, v2, v3, v4, v5, v6, v7⟩ i) := by
  match i with
  | 0 => exact h0
  | 1 => exact h1
  | 2 => exact h2
  | 3 => exact h3
  | 4 => exact h4
  | 5 => exact h5
  | 6 => exact h6
  | 7 => exact h7

/-- What follows the g-check works with GP (`42_poly.md` R265). -/
theorem Ensures.gcheck {α : Type} {P : α → Prop} {c : Ctx} {d : Data} {f : Poly → Run α}
    (hf : Ensures (f d.gp) P) : Ensures (gcheck c d >>= f) P := by
  unfold Machine.gcheck
  split
  · exact .error _
  · exact hf

/-! ## A command that has passed the NOCONFIG checks -/

/-- The NOCONFIG checks passed on good data, with context c (`40_control.md` R203). -/
structure Ready (fit : Prop) (hw : Synth) (c : Ctx) (d : Data) : Prop where
  good : d.Good fit hw
  cfg : d.cfg = some c.code
  gf : c.gf.m = c.code.m
  monic : c.gf.f >>> c.gf.m = 1#17
  tMax : c.tMax = hw.tMax

theorem ready_of_configured {c : Ctx} {d : Data} (hd : d.Good fit hw)
    (h : configured hw d = .ok c) : Ready fit hw c d := by
  rcases configured_inv h with ⟨-, hr⟩ | ⟨code, hcfg, ⟨-, hr⟩ | ⟨hf, hr⟩⟩
  · cases hr
  · cases hr
  · cases hr
    exact ⟨hd, hcfg, rfl, hf, rfl⟩

section
variable {c : Ctx} {d : Data} (h : Ready fit hw c d)
include h

theorem Ready.legal : c.code.legal hw := h.good.wf.cfg c.code h.cfg

theorem Ready.proper : c.gf.Proper :=
  ⟨by have h2 := h.legal.1; have := h.gf; omega, h.monic⟩

theorem Ready.width : d.width = c.gf.m := by rw [Data.width, h.cfg, h.gf]

theorem Ready.n : c.code.n = 2 ^ c.gf.m := by rw [Code.n, h.gf]

theorem Ready.elemCount (id : ElemMem) : d.elemCount id = c.code.elemCount id := by
  rw [Data.elemCount, h.cfg]

theorem Ready.bitCount (id : BitMem) : d.bitCount id = c.code.rows id * c.code.cols id := by
  rw [Data.bitCount, h.cfg]

theorem Ready.f_lt (i : RegIx) : (d.f.get i).toNat < 2 ^ c.gf.m := h.width ▸ h.good.f_lt i

theorem Ready.p (i : RegIx) : Poly.Good fit hw c.gf.m (d.p.get i) := h.width ▸ h.good.p i

theorem Ready.gp : Poly.Good fit hw c.gf.m d.gp := h.width ▸ h.good.gp

theorem Ready.mul_lt (a b : Elem) : (c.gf.mul a b).toNat < 2 ^ c.gf.m := c.gf.mul_lt h.monic a b

theorem Ready.setF (i : RegIx) {v : Elem} (hv : v.toNat < 2 ^ c.gf.m) : (d.setF i v).Good fit hw :=
  h.good.setF i (h.width.symm ▸ hv)

theorem Ready.setP (i : RegIx) {p : Poly} (hp : Poly.Good fit hw c.gf.m p) :
    (d.setP i p).Good fit hw := h.good.setP i (h.width.symm ▸ hp)

theorem Ready.withPolys {p : RegFile Poly} (hp : ∀ i, Poly.Good fit hw c.gf.m (p.get i)) :
    Data.Good fit hw { d with p := p } := h.good.withPolys (h.width.symm ▸ hp)

theorem Ready.fillBit (id : BitMem) {vs : List Bool}
    (hlen : vs.length = c.code.rows id * c.code.cols id) : (d.fillBit id vs).Good fit hw :=
  h.good.fillBit id (by rw [h.bitCount, hlen])

theorem Ready.fillElem (id : ElemMem) {vs : List Elem} (hlen : vs.length = c.code.elemCount id)
    (hvs : ∀ v ∈ vs, v.toNat < 2 ^ c.gf.m) : (d.fillElem id vs).Good fit hw :=
  h.good.fillElem id (by rw [h.elemCount, hlen]) (h.width.symm ▸ hvs)

/-! ## Operands and reads -/

theorem Ready.elemImm (imm : Nat) : Ensures (elemImm c imm) fun v => v.toNat < 2 ^ c.gf.m := by
  unfold Machine.elemImm
  split
  · exact .raise _
  · next himm =>
    refine .ok ?_
    rw [← h.n, BitVec.toNat_ofNat]
    exact (Nat.mod_le _ _).trans_lt (Nat.lt_of_not_le himm)

theorem Ready.coeffImm (imm : Nat) : Ensures (coeffImm c imm) fun j => j ≤ hw.tMax := by
  unfold Machine.coeffImm
  split
  · exact .raise _
  · next himm => exact .ok (h.tMax ▸ Nat.le_of_not_lt himm)

theorem Ready.representable {p : Poly} (hp : Poly.wf c.gf.m p) :
    Ensures (representable c p) (Poly.Good fit hw c.gf.m) := fun q hq => by
  by_cases hlen : p.length ≤ c.tMax + 1
  · rw [representable_ok hlen] at hq
    cases hq
    exact ⟨hp, fun _ => h.tMax ▸ hlen⟩
  · rw [representable_error (Nat.lt_of_not_le hlen)] at hq
    cases hq

theorem Ready.shiftChecked {p : Poly} (hp : Poly.Good fit hw c.gf.m p) (s : Nat) :
    Ensures (shiftChecked c p s) (Poly.Good fit hw c.gf.m) := by
  unfold Machine.shiftChecked
  split
  · exact .ok hp
  · next deg hdeg =>
    split
    · exact .raise _
    · next hle =>
      have hlen := Poly.deg_eq_some.mp hdeg
      have hshift := Poly.length_shift_le s p
      have htMax := h.tMax
      exact .ok ⟨Poly.wf_shift s hp.wf, fun _ => by omega⟩

theorem Ready.readElem (id : ElemMem) (i : Nat) :
    Ensures (readElem d id i) fun v => v.toNat < 2 ^ c.gf.m :=
  h.width ▸ readElem_ensures h.good id i

theorem Ready.readPst (i : Nat) :
    Ensures (readPst c d i) fun p => Poly.wf c.gf.m p ∧ p.length ≤ hw.tMax + 1 :=
  .bind (.collect fun _ => h.readElem _ _) fun cs ⟨hlen, hcs⟩ => .ok ⟨Poly.wf_ofCoeffs hcs, by
    have hle := Poly.length_ofCoeffs_le cs
    obtain ⟨-, -, -, ht, -⟩ := h.legal
    omega⟩

/-! ## The decode commands (`44_decode.md` R340–R352) -/

theorem Ready.permcRule : Ensures (permcRule c d) (Data.Good fit hw) := by
  refine .bind (.collect fun _ => .any _) fun w ⟨hlen, _⟩ => ?_
  split
  · exact .raise _
  · exact .ok (h.fillBit .W (hlen.trans (Nat.one_mul _).symm))

theorem Ready.syndRule : Ensures (syndRule c d) (Data.Good fit hw) := by
  have hpart : ∀ i, Ensures (syndromePart c d i) fun p =>
      Poly.wf c.gf.m p ∧ p.length ≤ hw.tMax + 1 := fun i => .bind (.any _) fun w _ => by
    split
    · exact h.readPst i
    · exact .ok ⟨Poly.wf_nil _, by simp⟩
  exact .bind (.collect hpart) fun parts ⟨_, hparts⟩ => .ok (h.setP 0
    ⟨Poly.wf_sum (fun p hp => (hparts p hp).1) (Poly.wf_nil _),
      fun _ => Poly.length_sum_le (fun p hp => (hparts p hp).2) (by simp)⟩)

theorem Ready.polyZ : Poly.Good fit hw c.gf.m Poly.z :=
  ⟨Poly.wf_z h.proper, fun _ => by
    obtain ⟨-, -, ht, hle, -⟩ := h.legal
    simp only [Poly.z, List.length_cons, List.length_nil]
    omega⟩

theorem Ready.degenerate (why : BitVec 2) : (d.degenerate why).Good fit hw :=
  (h.withPolys (RegFile.forall_get (h.p 0) (.nil _) (.nil _) (.nil _)
    (.nil _) (.nil _) (.nil _) h.polyZ)).of_eq rfl rfl rfl rfl rfl

/-- A polynomial no longer than g fits a register. -/
theorem Ready.of_within {p : Poly} (hp : Poly.within c.gf.m d.gp.length p) :
    Poly.Good fit hw c.gf.m p := h.gp.of_le hp.1 hp.2

theorem Ready.of_remainder {p : Poly} (hp : Poly.wf c.gf.m p ∧ p.length < d.gp.length) :
    Poly.Good fit hw c.gf.m p := h.of_within ⟨hp.1, hp.2.le⟩

/-- A command that stores a remainder modulo g (`42_poly.md` R275, R276, R279–R281). -/
theorem Ready.storeRemainder (pd : RegIx) {rem : Poly → Run Poly}
    (hrem : Ensures (rem d.gp) fun p => Poly.wf c.gf.m p ∧ p.length < d.gp.length) :
    Ensures (do
      let g ← gcheck c d
      let p ← rem g
      Except.ok (d.setP pd p) : Run Data) (Data.Good fit hw) :=
  .gcheck (.bind hrem fun _ hp => .ok (h.setP pd (h.of_remainder hp)))

theorem Ready.sigma_wf (alpha gamma : Poly) : Poly.wf c.gf.m (sigmaOf c.gf alpha gamma) :=
  Poly.wf_add (Poly.wf_mul h.proper _ _) (Poly.wf_shift 1 (Poly.wf_mul h.proper _ _))

theorem Ready.locatorRule : Ensures (locatorRule c d) (Data.Good fit hw) := by
  have hk := h.proper
  have hg := h.gp.wf
  refine .gcheck (.bind (polyMod_ensures hk (h.p 0).wf hg) fun syn ⟨hsyn, _⟩ => ?_)
  split
  · exact .ok (h.degenerate _)
  · refine .bind (invmod_ensures hk hsyn hg) fun inv ⟨hinv, _⟩ => ?_
    refine .bind (polyMod_ensures hk (Poly.wf_add hinv (Poly.wf_z hk)) hg) fun t ht => ?_
    split
    · exact .ok (h.degenerate _)
    · refine .bind (sqrtmod_ensures hk _ ht.1 hg) fun tau htau => ?_
      refine .bind (keyeq_ensures hk _ htau.1 hg) fun ke ⟨hr0, hr1, hu0, hu1⟩ => ?_
      refine .bind (h.representable (h.sigma_wf _ _)) fun sigma hsigma => .ok ?_
      exact (h.withPolys (RegFile.forall_get (h.p 0)
        (h.of_remainder ht) (h.of_remainder htau) (h.of_within hr1) (h.of_within hu1)
        (h.of_within hr0) (h.of_within hu0) hsigma)).of_eq rfl rfl rfl rfl rfl

theorem Ready.rootsRule : Ensures (rootsRule c d) (Data.Good fit hw) := by
  refine .bind (.collect fun _ => .any _) fun ews ⟨hlen, _⟩ => .ok ?_
  have hE := h.fillBit .E (vs := ews.map Prod.fst) (by
    rw [List.length_map, hlen]; exact (Nat.one_mul _).symm)
  have hW := hE.fillBit .W (vs := ews.map fun ew => ew.2 ^^ ew.1) (by
    rw [List.length_map, hlen]; exact ((h.bitCount .W).trans (Nat.one_mul _)).ge)
  exact hW.of_eq rfl rfl rfl rfl rfl

theorem Ready.extractRule : Ensures (extractRule c d) (Data.Good fit hw) :=
  .bind (.collect fun _ => .any _) fun _ ⟨hlen, _⟩ =>
    .ok (h.fillBit .MC (hlen.trans (Nat.one_mul _).symm))

theorem Ready.unscrRule : Ensures (unscrRule c d) (Data.Good fit hw) :=
  .bind (.collect fun _ => .any _) fun _ ⟨hlen, _⟩ =>
    .ok (h.fillBit .M (hlen.trans (Nat.one_mul _).symm))

end

end Sys2Proof.Machine
end

section
/-! SUPPORT. Every command keeps the data good, continued: DECODE, the key-side commands
(`43_keyside.md`), CONFIG, and the dispatch. -/

namespace Sys2Proof.Machine

variable {fit : Prop} {hw : Synth}

/-! ## DECODE (`44_decode.md` R354) -/

theorem inSubStep_eq_ok {α : Type} {n : Nat} {r : Run α} {a : α} :
    inSubStep n r = .ok a ↔ r = .ok a := by
  unfold inSubStep
  split
  · exact ⟨(nomatch ·), (nomatch ·)⟩
  · rfl

/-- A sub-step's result is that of its rule. -/
theorem Ensures.inSubStep {α : Type} {P : α → Prop} {r : Run α} (n : Nat) (h : Ensures r P) :
    Ensures (inSubStep n r) P := fun a ha => h a (inSubStep_eq_ok.mp ha)

/-- The commands of DECODE's sub-steps leave the configuration and FMOD alone. -/
theorem decodeStep_sameCode (n : Nat) (c : Ctx) (d : Data) :
    Ensures (decodeStep n c d) fun d' => d'.cfg = d.cfg ∧ d'.fmod = d.fmod := by
  refine .inSubStep n ?_
  split
  · refine .bind (.any _) fun _ _ => .bind (.any _) fun w _ => ?_
    split
    · exact .raise _
    · exact .ok ⟨rfl, rfl⟩
  · exact .bind (.any _) fun _ _ => .ok ⟨rfl, rfl⟩
  · refine .bind (.any _) fun _ _ => .bind (.any _) fun _ _ => ?_
    split
    · exact .ok ⟨rfl, rfl⟩
    · refine .bind (.any _) fun _ _ => .bind (.any _) fun _ _ => ?_
      split
      · exact .ok ⟨rfl, rfl⟩
      · exact .bind (.any _) fun _ _ => .bind (.any _) fun _ _ => .bind (.any _) fun _ _ =>
          .ok ⟨rfl, rfl⟩
  · exact .bind (.any _) fun _ _ => .ok ⟨rfl, rfl⟩
  · exact .bind (.any _) fun _ _ => .ok ⟨rfl, rfl⟩
  · exact .bind (.any _) fun _ _ => .ok ⟨rfl, rfl⟩
  · exact .ok ⟨rfl, rfl⟩

/-- The NOCONFIG checks give the same after a sub-step (`40_control.md` R203). -/
theorem configured_decodeStep {n : Nat} {c : Ctx} {d d' : Data} (h : decodeStep n c d = .ok d') :
    configured hw d' = configured hw d := by
  obtain ⟨hcfg, hfmod⟩ := decodeStep_sameCode n c d d' h
  rw [configured, configured, hcfg, hfmod]

theorem Ready.decodeStep {c : Ctx} {d : Data} (h : Ready fit hw c d) (n : Nat) :
    Ensures (decodeStep n c d) fun d' => Ready fit hw c d' := fun d' hd' => by
  have hgood : Ensures (Machine.decodeStep n c d) (Data.Good fit hw) := by
    refine .inSubStep n ?_
    split
    · exact .bind (.any _) fun _ _ => h.permcRule
    · exact h.syndRule
    · exact h.locatorRule
    · exact h.rootsRule
    · exact h.extractRule
    · exact h.unscrRule
    · exact .ok h.good
  obtain ⟨hcfg, -⟩ := decodeStep_sameCode n c d d' hd'
  exact ⟨hgood d' hd', hcfg.trans h.cfg, h.gf, h.monic, h.tMax⟩

theorem Ready.decodeSteps {c : Ctx} {d : Data} (h : Ready fit hw c d) (cnt n : Nat) :
    Ensures (decodeSteps c cnt n d) (Data.Good fit hw) := by
  induction cnt generalizing n d with
  | zero => exact .ok h.good
  | succ cnt ih => exact .bind (h.decodeStep (n + 1)) fun d' hd' => ih hd' (n + 1)

/-! ## The key-side commands (`43_keyside.md` R300–R308) -/

theorem length_powersFrom (k : GF) (a : Elem) (cnt : Nat) (x : Elem) :
    (powersFrom k a cnt x).length = cnt := by
  induction cnt generalizing x with
  | zero => rfl
  | succ cnt ih => rw [powersFrom, List.length_cons, ih]

theorem powersFrom_lt {k : GF} (hk : k.Proper) (a : Elem) {cnt : Nat} {x : Elem}
    (hx : x.toNat < 2 ^ k.m) : ∀ v ∈ powersFrom k a cnt x, v.toNat < 2 ^ k.m := by
  induction cnt generalizing x with
  | zero => exact fun v hv => nomatch hv
  | succ cnt ih => exact List.forall_mem_cons.mpr ⟨hx, ih (k.mul_lt hk.monic a x)⟩

theorem length_swapAt (s : List Nat) (i j : Nat) : (swapAt s i j).length = s.length := by
  simp [swapAt]

theorem swapAt_lt {s : List Nat} {n : Nat} (hn : 0 < n) (hs : ∀ x ∈ s, x < n) (i j : Nat) :
    ∀ x ∈ swapAt s i j, x < n := fun x hx => by
  have hget : ∀ i, s.getD i 0 < n := fun i => by
    by_cases hi : i < s.length
    · rw [List.getD_eq_getElem _ _ hi]; exact hs _ (List.getElem_mem hi)
    · rw [List.getD_eq_default _ _ (by omega)]; exact hn
  rcases List.mem_or_eq_of_mem_set hx with hx | rfl
  · rcases List.mem_or_eq_of_mem_set hx with hx | rfl
    · exact hs x hx
    · exact hget _
  · exact hget _

/-- SYSFORM's swaps stay a list of as many positions below n (`43_keyside.md` R306). -/
theorem sysformSwaps_ensures (h : BitMatrix) (mt : Nat) {n : Nat} (hn : 0 < n) (js : List Nat)
    {s : List Nat} {cnt : Nat} (hlen : s.length = n) (hs : ∀ x ∈ s, x < n) :
    Ensures (sysformSwaps h mt js s cnt) fun sc => sc.1.length = n ∧ ∀ x ∈ sc.1, x < n := by
  induction js generalizing s cnt with
  | nil => exact .ok ⟨hlen, hs⟩
  | cons j js ih =>
    rw [sysformSwaps]
    split
    · exact ih hlen hs
    · split
      · exact .raise _
      · exact ih ((length_swapAt _ _ _).trans hlen) (swapAt_lt hn hs _ _)

section
variable {c : Ctx} {d : Data} (h : Ready fit hw c d)
include h

theorem Ready.pstEntry {g : Poly} (hg : Poly.wf c.gf.m g) (i : Nat) {x : Elem}
    (hx : x.toNat < 2 ^ c.gf.m) : Ensures (pstEntry c g i x) fun cs =>
      cs.length = c.code.t ∧ ∀ v ∈ cs, v.toNat < 2 ^ c.gf.m := by
  unfold Machine.pstEntry
  split
  · exact .raise _
  · have hlin : Poly.wf c.gf.m (Poly.ofCoeffs [x, 1#16]) :=
      Poly.wf_ofCoeffs (List.forall_mem_cons.mpr
        ⟨hx, List.forall_mem_singleton.mpr h.proper.one_lt⟩)
    refine .bind (invmod_ensures h.proper hlin hg) fun p ⟨hp, _⟩ => .ok ⟨?_, fun v hv => ?_⟩
    · rw [Poly.toCoeffs, List.length_map, List.length_range]
    · obtain ⟨j, -, rfl⟩ := List.mem_map.mp hv
      exact Poly.coeff_lt hp j

theorem Ready.readSupport : Ensures (readSupport c d) fun l =>
    l.length = c.code.n ∧ ∀ v ∈ l, v.toNat < 2 ^ c.gf.m := .collect fun _ => h.readElem _ _

omit h in
theorem getD_lt {m : Nat} {vs : List Elem} (h : ∀ v ∈ vs, v.toNat < 2 ^ m) (i : Nat) :
    (vs.getD i 0#16).toNat < 2 ^ m := by
  by_cases hi : i < vs.length
  · rw [List.getD_eq_getElem _ _ hi]; exact h _ (List.getElem_mem hi)
  · rw [List.getD_eq_default _ _ (by omega)]; exact Nat.two_pow_pos m

omit h in
theorem length_hBits (c : Code) (columns : List (List Elem)) :
    (hBits c columns).length = c.mt * columns.length := by
  simp [hBits, List.length_flatMap]

/-- GEXTRACT writes elements of G only (`43_keyside.md` R308). -/
theorem Ready.gCells_lt {swp : List Elem} (hswp : ∀ v ∈ swp, v.toNat < 2 ^ c.gf.m)
    (block : List Bool) :
    ∀ kv ∈ gCells c.code swp block, kv.1 < c.code.k * c.code.n := fun kv hkv => by
  obtain ⟨x, hx, rfl⟩ := List.mem_map.mp hkv
  have hrow : x / c.code.n < c.code.k := Nat.div_lt_of_lt_mul (by
    rw [Nat.mul_comm]; exact List.mem_range.mp hx)
  have hcol := getD_lt hswp (x % c.code.n)
  rw [← h.n] at hcol
  calc x / c.code.n * c.code.n + (swp.getD (x % c.code.n) 0#16).toNat
      < x / c.code.n * c.code.n + c.code.n := Nat.add_lt_add_left hcol _
    _ = (x / c.code.n + 1) * c.code.n := (Nat.succ_mul _ _).symm
    _ ≤ c.code.k * c.code.n := Nat.mul_le_mul_right _ hrow

end

/-! ## Commands -/

/-- A CONFIG that succeeds changes nothing, or wipes the data for a legal configuration
(`40_control.md` R201). -/
theorem configRule_ok {m t : Nat} {d d' : Data} (h : configRule hw m t d = .ok d') :
    d' = d ∨ Code.legal hw { m := m, t := t } ∧ d' = d.wiped { m := m, t := t } := by
  unfold configRule at h
  dsimp only at h
  split_ifs at h with hm ht hmt hf hcfg <;> cases h
  · exact .inl rfl
  · exact .inr ⟨⟨hm.1, hm.2, ht.1, ht.2, Nat.lt_of_not_le hmt⟩, rfl⟩

/-- Wherever the outcome is a next state, that state is good. -/
def EndsGood (fit : Prop) (r : Host.Outcome State Fault Refusal) : Prop :=
  ∀ t, r = .next t → t.Good fit

variable {s : State} (hs : s.Good fit)
include hs

theorem finish_good {r : Run Data} (hr : Ensures r (Data.Good fit s.hw)) :
    EndsGood fit (s.finish r) := fun t ht => by
  rcases finish_next ht with ⟨d, hd, rfl⟩ | ⟨n, e, -, rfl⟩
  · exact hs.commit (hr d hd)
  · exact hs.takeError n e

/-- A command keeps the state good when its rule does on data that pass the NOCONFIG checks. -/
theorem runCommand_good {rule : Ctx → Data → Run Data}
    (hr : ∀ c d, Ready fit s.hw c d → Ensures (rule c d) (Data.Good fit s.hw)) :
    EndsGood fit (runCommand rule s) :=
  finish_good hs fun d hd => by
    obtain ⟨c, hc, hd⟩ := bind_eq_ok.mp hd
    exact hr c _ (ready_of_configured hs.work hc) d hd

theorem execConfig_good (m t : Nat) : EndsGood fit (execConfig m t s) :=
  finish_good hs fun d hd => by
    rcases configRule_ok hd with rfl | ⟨hlegal, rfl⟩
    · exact hs.work
    · exact Data.good_of_cleared (fun c hc => by cases hc; exact hlegal) rfl rfl rfl rfl

theorem execKeyeq_good : EndsGood fit (execKeyeq s) := runCommand_good hs fun c d h => by
  refine .gcheck (.bind (keyeq_ensures h.proper _ (h.p 2).wf h.gp.wf)
    fun ke ⟨hr0, hr1, hu0, hu1⟩ => .ok ?_)
  exact (h.withPolys (RegFile.forall_get (h.p 0) (h.p 1) (h.p 2) (h.of_within hr1)
    (h.of_within hu1) (h.of_within hr0) (h.of_within hu0) (h.p 7))).of_eq rfl rfl rfl rfl rfl

theorem execLgen_good (fa : RegIx) : EndsGood fit (execLgen fa s) :=
  runCommand_good hs fun c d h => by
    dsimp only
    split
    · exact .raise _
    · refine .ok (h.fillElem .L ?_ ?_)
      · have hpos : 0 < c.code.n := Nat.two_pow_pos _
        rw [supportOf, List.length_cons, length_powersFrom]
        exact Nat.sub_add_cancel hpos
      · exact List.forall_mem_cons.mpr ⟨Nat.two_pow_pos _, powersFrom_lt h.proper _ (h.f_lt fa)⟩

theorem execPstgen_good : EndsGood fit (execPstgen s) := runCommand_good hs fun c d h => by
  refine .bind h.readSupport fun l ⟨_, hl⟩ => .gcheck ?_
  refine .bind (.collect fun i => h.pstEntry h.gp.wf i (getD_lt hl i)) fun es ⟨hlen, hes⟩ => ?_
  refine .ok (h.fillElem .PST ?_ fun v hv => ?_)
  · have hsum := List.sum_eq_card_nsmul (es.map List.length) c.code.t fun x hx => by
      obtain ⟨cs, hcs, rfl⟩ := List.mem_map.mp hx
      exact (hes cs hcs).1
    rw [List.length_flatten, hsum, List.length_map, hlen]
    rfl
  · obtain ⟨cs, hcs, hv⟩ := List.mem_flatten.mp hv
    exact (hes cs hcs).2 v hv

theorem execHgen_good : EndsGood fit (execHgen s) := runCommand_good hs fun c d h => by
  refine .bind (.any _) fun l _ => .bind (.any _) fun g _ => ?_
  exact .bind (.collect fun _ => .any _) fun columns ⟨hlen, _⟩ => .ok (h.fillBit .H (by
    rw [length_hBits, hlen]; rfl))

theorem execSysform_good : EndsGood fit (execSysform s) := runCommand_good hs fun c d h => by
  refine .bind (.any _) fun bits _ => ?_
  refine .bind (sysformSwaps_ensures _ _ (Nat.two_pow_pos _) _ List.length_range
    fun x hx => List.mem_range.mp hx) fun sc ⟨hlen, hsc⟩ => ?_
  split
  · exact .raise _
  · have hswp : (d.fillElem .SWP (sc.1.map (BitVec.ofNat 16))).Good fit s.hw :=
      h.fillElem .SWP (by rw [List.length_map, hlen]; rfl) fun v hv => by
        obtain ⟨x, hx, rfl⟩ := List.mem_map.mp hv
        rw [← h.n, BitVec.toNat_ofNat]
        exact (Nat.mod_le _ _).trans_lt (hsc x hx)
    exact .ok (hswp.of_eq rfl rfl rfl rfl rfl)

theorem execGextract_good : EndsGood fit (execGextract s) := runCommand_good hs fun c d h => by
  refine .bind (.collect fun _ => h.readElem _ _) fun swp ⟨_, hswp⟩ => ?_
  refine .bind (.any _) fun block _ => ?_
  split
  · exact .raise _
  · refine .ok (h.good.withBit .G (Memory.wf_writeAll _ _ (h.good.wf.bits .G).1) fun kv hkv => ?_)
    refine (mem_writeAll _ _ kv hkv).imp_right fun hkv => ?_
    rw [h.bitCount]
    exact h.gCells_lt hswp block kv hkv

/-- Every command keeps the state good. -/
theorem exec_good (i : Instr) : EndsGood fit (exec i s) := by
  cases i with
  | nop => exact finish_good hs (.ok hs.work)
  | config m t => exact execConfig_good hs m t
  | chkperm tab =>
    change EndsGood fit (execChkperm tab s)
    exact runCommand_good hs fun _ _ h => .bind (.any _) fun _ _ => .ok h.good
  | fldi fd imm =>
    change EndsGood fit (execFldi fd imm s)
    exact runCommand_good hs fun _ _ h =>
      .bind (h.elemImm imm) fun _ hv => .ok (h.setF fd hv)
  | fadd fd fa fb =>
    change EndsGood fit (execFadd fd fa fb s)
    exact runCommand_good hs fun _ _ h =>
      .ok (h.setF fd (fieldAdd_lt (h.f_lt fa) (h.f_lt fb)))
  | fmul fd fa fb =>
    change EndsGood fit (execFmul fd fa fb s)
    exact runCommand_good hs fun _ _ h => .ok (h.setF fd (h.mul_lt _ _))
  | finv fd fa =>
    change EndsGood fit (execFinv fd fa s)
    exact runCommand_good hs fun _ _ h =>
      .bind (GF.inv_ensures h.proper _) fun _ hv => .ok (h.setF fd hv.1)
  | fpow fd fa imm =>
    change EndsGood fit (execFpow fd fa imm s)
    exact runCommand_good hs fun _ _ h => .ok (h.setF fd (GF.pow_lt h.proper _ _))
  | fldl fd imm =>
    change EndsGood fit (execFldl fd imm s)
    exact runCommand_good hs fun _ _ h =>
      .bind (.any _) fun i _ => .bind (h.readElem .L i) fun _ hv => .ok (h.setF fd hv)
  | pclr pd =>
    change EndsGood fit (execPclr pd s)
    exact runCommand_good hs fun _ _ h => .ok (h.setP pd (.nil _))
  | pmov pd pa =>
    change EndsGood fit (execPmov pd pa s)
    exact runCommand_good hs fun _ _ h => .ok (h.setP pd (h.p pa))
  | pldg pd =>
    change EndsGood fit (execPldg pd s)
    exact runCommand_good hs fun _ _ h => .gcheck (.ok (h.setP pd h.gp))
  | pldt pd imm =>
    change EndsGood fit (execPldt pd imm s)
    exact runCommand_good hs fun _ _ h =>
      .bind (.any _) fun i _ => .bind (h.readPst i) fun _ ⟨hp, hle⟩ =>
        .ok (h.setP pd ⟨hp, fun _ => hle⟩)
  | pconst pd fa =>
    change EndsGood fit (execPconst pd fa s)
    exact runCommand_good hs fun _ _ h => .ok (h.setP pd
      ⟨Poly.wf_const (h.f_lt fa), fun _ => (Poly.length_const_le _).trans (Nat.le_add_left _ _)⟩)
  | psetc pd fa imm =>
    change EndsGood fit (execPsetc pd fa imm s)
    exact runCommand_good hs fun _ _ h =>
      .bind (h.coeffImm imm) fun j hj => .ok (h.setP pd ((h.p pd).setCoeff hj (h.f_lt fa)))
  | pgetc fd pa imm =>
    change EndsGood fit (execPgetc fd pa imm s)
    exact runCommand_good hs fun _ _ h =>
      .bind (.any _) fun j _ => .ok (h.setF fd (Poly.coeff_lt (h.p pa).wf j))
  | padd pd pa pb =>
    change EndsGood fit (execPadd pd pa pb s)
    exact runCommand_good hs fun _ _ h => .ok (h.setP pd ((h.p pa).add (h.p pb)))
  | pmul pd pa pb =>
    change EndsGood fit (execPmul pd pa pb s)
    exact runCommand_good hs fun _ _ h =>
      .bind (h.representable (Poly.wf_mul h.proper _ _)) fun _ hp => .ok (h.setP pd hp)
  | pmulm pd pa pb =>
    change EndsGood fit (execPmulm pd pa pb s)
    exact runCommand_good hs fun _ _ h => h.storeRemainder pd
      (polyMod_ensures h.proper (Poly.wf_mul h.proper _ _) h.gp.wf)
  | pmod pd pa =>
    change EndsGood fit (execPmod pd pa s)
    exact runCommand_good hs fun _ _ h => h.storeRemainder pd
      (polyMod_ensures h.proper (h.p pa).wf h.gp.wf)
  | pdivq pd pa pb =>
    change EndsGood fit (execPdivq pd pa pb s)
    exact runCommand_good hs fun _ _ h =>
      .bind (divmod_ensures h.proper (h.p pa).wf (h.p pb).wf) fun _ ⟨⟨hq, hle⟩, _⟩ =>
        .ok (h.setP pd ((h.p pa).of_le hq hle))
  | pdivr pd pa pb =>
    change EndsGood fit (execPdivr pd pa pb s)
    exact runCommand_good hs fun _ _ h =>
      .bind (divmod_ensures h.proper (h.p pa).wf (h.p pb).wf) fun _ ⟨_, hr, hlt⟩ =>
        .ok (h.setP pd ((h.p pb).of_le hr hlt.le))
  | pinvm pd pa =>
    change EndsGood fit (execPinvm pd pa s)
    exact runCommand_good hs fun _ _ h => h.storeRemainder pd
      (invmod_ensures h.proper (h.p pa).wf h.gp.wf)
  | psqrm pd pa =>
    change EndsGood fit (execPsqrm pd pa s)
    exact runCommand_good hs fun _ _ h => h.storeRemainder pd
      (polyMod_ensures h.proper (Poly.wf_mul h.proper _ _) h.gp.wf)
  | psqrt pd pa =>
    change EndsGood fit (execPsqrt pd pa s)
    exact runCommand_good hs fun _ _ h => h.storeRemainder pd
      (sqrtmod_ensures h.proper _ (h.p pa).wf h.gp.wf)
  | pshl pd pa imm =>
    change EndsGood fit (execPshl pd pa imm s)
    exact runCommand_good hs fun _ _ h =>
      .bind (h.shiftChecked (h.p pa) imm) fun _ hp => .ok (h.setP pd hp)
  | pscl pd pa fb =>
    change EndsGood fit (execPscl pd pa fb s)
    exact runCommand_good hs fun _ _ h => .ok (h.setP pd
      ((h.p pa).of_le (Poly.wf_scale h.proper _ _) (Poly.length_scale_le _ _ _)))
  | peval fd pa fb =>
    change EndsGood fit (execPeval fd pa fb s)
    exact runCommand_good hs fun _ _ h =>
      .ok (h.setF fd (Poly.eval_lt h.proper (h.p pa).wf _))
  | psetg pa =>
    change EndsGood fit (execPsetg pa s)
    exact runCommand_good hs fun _ _ h => .ok (h.good.withGp (h.good.p pa))
  | permc =>
    change EndsGood fit (execPermc s)
    exact runCommand_good hs fun _ _ h => h.permcRule
  | synd =>
    change EndsGood fit (execSynd s)
    exact runCommand_good hs fun _ _ h => h.syndRule
  | locator =>
    change EndsGood fit (execLocator s)
    exact runCommand_good hs fun _ _ h => h.locatorRule
  | keyeq => exact execKeyeq_good hs
  | roots =>
    change EndsGood fit (execRoots s)
    exact runCommand_good hs fun _ _ h => h.rootsRule
  | extract =>
    change EndsGood fit (execExtract s)
    exact runCommand_good hs fun _ _ h => h.extractRule
  | unscr =>
    change EndsGood fit (execUnscr s)
    exact runCommand_good hs fun _ _ h => h.unscrRule
  | decode =>
    change EndsGood fit (execDecode s)
    exact runCommand_good hs fun _ _ h => h.decodeSteps _ _
  | lgen fa => exact execLgen_good hs fa
  | pstgen => exact execPstgen_good hs
  | hgen => exact execHgen_good hs
  | sysform => exact execSysform_good hs
  | gextract => exact execGextract_good hs

end Sys2Proof.Machine
end

section
/-! SUPPORT. What a step can do: the ends of a command, the host port, the progress of a DECODE, and
with them the invariants of the state (`10_state.md` R54, R55, R58; `20_memory.md` R120). -/

namespace Sys2Proof.Machine

variable {fit : Prop} {s t : State}

/-! ## What the port leaves alone -/

/-- The parts of the state a busy command and its completion depend on are the same. -/
structure State.SameCore (s t : State) : Prop where
  hw : t.hw = s.hw
  data : t.data = s.data
  engine : t.engine = s.engine
  cmd : t.cmd = s.cmd

theorem State.Good.of_core (hs : s.Good fit) (h : s.SameCore t) : t.Good fit :=
  ⟨h.hw ▸ hs.hw, by rw [h.hw, h.data]; exact hs.data, by rw [h.hw, h.engine]; exact hs.copy⟩

theorem State.CopyFollows.of_core (hs : s.CopyFollows) (h : s.SameCore t) : t.CopyFollows := by
  rw [State.CopyFollows, h.hw, h.data, h.engine, h.cmd]; exact hs

theorem State.CopyFollows.of_idle (h : t.engine = none) : t.CopyFollows := fun b hb => by
  rw [h] at hb; cases hb

theorem State.copyFollows_accept (s : State) (w : Word) : (s.accept w).CopyFollows := fun b hb => by
  cases hb; exact .inl ⟨rfl, rfl⟩

theorem State.engine_of_idle (h : s.busy = false) : s.engine = none := by
  simpa [State.busy] using h

/-! ## Reads -/

theorem readMdata_core (h : readMdata s = .next t) : s.SameCore t := by
  unfold readMdata at h
  split at h
  · cases h; exact ⟨rfl, rfl, rfl, rfl⟩
  · split at h <;> cases h <;> exact ⟨rfl, rfl, rfl, rfl⟩

theorem readPcdata_core (s : State) : s.SameCore (readPcdata s) := by
  unfold readPcdata
  split <;> exact ⟨rfl, rfl, rfl, rfl⟩

/-- A read changes no more than port registers and flags (`20_memory.md` R113). -/
theorem hostRead_core {off : BitVec 12} (h : hostRead off s = .next t) : s.SameCore t := by
  unfold hostRead at h
  dsimp only at h
  split at h
  · cases h; exact ⟨rfl, rfl, rfl, rfl⟩
  split at h
  · cases h; exact ⟨rfl, rfl, rfl, rfl⟩
  split at h
  · exact readMdata_core h
  · cases h; exact readPcdata_core s
  · cases h; exact ⟨rfl, rfl, rfl, rfl⟩

/-! ## Writes -/

theorem clearStatus_core (s : State) (w : Word) : s.SameCore (s.clearStatus w) := by
  unfold State.clearStatus
  split <;> exact ⟨rfl, rfl, rfl, rfl⟩

theorem writeReg_ctrl (w : Word) (s : State) :
    writeReg .ctrl w s = if w.getLsbD 0 then s.softReset else s := rfl

theorem writeReg_cmd (w : Word) (s : State) :
    writeReg .cmd w s = if s.err then { s with rej := true } else s.accept w := rfl

theorem writeMdata_engine (w : Word) (s : State) : (writeMdata w s).engine = s.engine := by
  unfold writeMdata
  split <;> rfl

theorem writePcdata_engine (w : Word) (s : State) : (writePcdata w s).engine = s.engine := by
  unfold writePcdata
  split <;> rfl

/-- Everything a register write can do to the parts a command depends on: nothing, the soft reset, an
acceptance, or, to a register that is locked while busy, new data. -/
theorem writeReg_cases (r : Reg) (w : Word) (s : State) :
    s.SameCore (writeReg r w s) ∨ writeReg r w s = s.softReset ∨ writeReg r w s = s.accept w ∨
      r.writeLocked = true ∧ (writeReg r w s).engine = s.engine := by
  cases r with
  | ctrl =>
    rw [writeReg_ctrl]
    split
    · exact .inr (.inl rfl)
    · exact .inl ⟨rfl, rfl, rfl, rfl⟩
  | status => exact .inl (clearStatus_core s w)
  | cmd =>
    rw [writeReg_cmd]
    split
    · exact .inl ⟨rfl, rfl, rfl, rfl⟩
    · exact .inr (.inr (.inl rfl))
  | fmod | clen | f => exact .inr (.inr (.inr ⟨rfl, rfl⟩))
  | mdata => exact .inr (.inr (.inr ⟨rfl, writeMdata_engine w s⟩))
  | pcdata => exact .inr (.inr (.inr ⟨rfl, writePcdata_engine w s⟩))
  | _ => exact .inl ⟨rfl, rfl, rfl, rfl⟩

/-- A host write leaves the working copy what the rules make of the data (`20_memory.md` R121). -/
theorem hostWrite_copyFollows (hs : s.CopyFollows) (off : BitVec 12) (w : Word) :
    (hostWrite off w s).CopyFollows := by
  unfold hostWrite
  dsimp only
  split
  · exact hs
  split
  · exact hs.of_core ⟨rfl, rfl, rfl, rfl⟩
  next hopen =>
  rcases writeReg_cases (regAt off) w s with h | h | h | ⟨hlock, hengine⟩
  · exact hs.of_core h
  · rw [h]; exact .of_idle rfl
  · rw [h]; exact s.copyFollows_accept w
  · have hidle : s.busy = false := by simpa [hlock] using hopen
    exact .of_idle (hengine.trans (State.engine_of_idle hidle))

/-! ## Data written by the port -/

/-- The bits of a memory word lie within the memory (`20_memory.md` R104, R110). -/
theorem Code.wordBase_add_wordBits_le (c : Code) (id : BitMem) {i : Nat}
    (h : i < c.wordCount (.bit id)) :
    c.wordBase id i + c.wordBits id i ≤ c.rows id * c.cols id := by
  have hrow : i / rowWords (c.cols id) < c.rows id :=
    Nat.div_lt_of_lt_mul (by rwa [Nat.mul_comm])
  have hpos : 0 < rowWords (c.cols id) := Nat.pos_of_ne_zero fun h0 => by
    rw [Code.wordCount, h0] at h; omega
  have hword : i % rowWords (c.cols id) < (c.cols id + 31) / 32 := Nat.mod_lt i hpos
  have hmul := Nat.mul_le_mul_right (c.cols id) hrow
  rw [Nat.succ_mul] at hmul
  unfold Code.wordBase Code.wordBits
  omega

theorem Data.width_of_cfg {d : Data} {c : Code} (h : d.cfg = some c) : d.width = c.m := by
  rw [Data.width, h]

theorem writePortWord_good {hw : Synth} {d : Data} {c : Code} {id : MemId} {i : Nat}
    (hd : d.Good fit hw) (hc : d.cfg = some c) (hi : i < c.wordCount id) (w : Word) :
    (writePortWord c d id i w).Good fit hw := by
  cases id with
  | elem e =>
    refine hd.withElem e (Memory.wf_write _ _ _ (hd.wf.elems e).1) fun kv hkv => ?_
    rcases mem_writeCells _ _ _ kv hkv with rfl | hkv
    · refine .inr ⟨?_, ?_⟩
      · rw [Data.elemCount, hc]; exact hi
      · rw [Data.width_of_cfg hc]; exact maskElem_lt _ _
    · exact .inl hkv
  | bit b =>
    refine hd.writeBits b ?_
    rw [Data.bitCount, hc, bitsOfWord, List.length_map, List.length_range]
    exact c.wordBase_add_wordBits_le b hi

theorem State.portTarget_inv {c : Code} {id : MemId} (h : s.portTarget = some (c, id)) :
    s.data.cfg = some c ∧ s.midx.toNat < c.wordCount id := by
  unfold State.portTarget at h
  split at h
  · next hc _ =>
    split at h
    · next hlt => cases h; exact ⟨hc, hlt⟩
    · cases h
  · cases h

theorem State.polyTarget_inv {c : Code} {p : Poly} (h : s.polyTarget = some (c, p)) :
    s.data.cfg = some c ∧ s.data.polyAt s.psel = some p ∧ s.pcidx.toNat ≤ s.hw.tMax := by
  unfold State.polyTarget at h
  split at h
  · next hc hp =>
    split at h
    · next hle => cases h; exact ⟨hc, hp, hle⟩
    · cases h
  · cases h

theorem Data.Good.polyAt {hw : Synth} {d : Data} (hd : d.Good fit hw) {sel : BitVec 4} {p : Poly}
    (h : d.polyAt sel = some p) : Poly.Good fit hw d.width p := by
  unfold Data.polyAt at h
  split at h
  · cases h; exact hd.p _
  · split at h
    · cases h; exact hd.gp
    · cases h

theorem Data.Good.setPolyAt {hw : Synth} {d : Data} (hd : d.Good fit hw) (sel : BitVec 4) {p : Poly}
    (hp : Poly.Good fit hw d.width p) : (d.setPolyAt sel p).Good fit hw := by
  unfold Data.setPolyAt
  split
  · exact hd.setP _ hp
  · split
    · exact hd.withGp hp
    · exact hd

theorem Data.hostElem_lt (d : Data) (w : Word) : (d.hostElem w).toNat < 2 ^ d.width := by
  unfold Data.hostElem
  split
  · next hc => rw [Data.width_of_cfg hc]; exact maskElem_lt _ _
  · exact Nat.two_pow_pos _

/-- New data in a good state. -/
theorem State.Good.withData (hs : s.Good fit) (hhw : t.hw = s.hw) (hengine : t.engine = s.engine)
    (hdata : t.data.Good fit s.hw) : t.Good fit :=
  ⟨hhw ▸ hs.hw, hhw.symm ▸ hdata, by rw [hhw, hengine]; exact hs.copy⟩

theorem writeMdata_good (hs : s.Good fit) (w : Word) : (writeMdata w s).Good fit := by
  unfold writeMdata
  split
  · exact hs.of_core ⟨rfl, rfl, rfl, rfl⟩
  · next c id h =>
    obtain ⟨hc, hlt⟩ := State.portTarget_inv h
    exact hs.withData rfl rfl (writePortWord_good hs.data hc hlt w)

theorem writePcdata_good (hs : s.Good fit) (w : Word) : (writePcdata w s).Good fit := by
  unfold writePcdata
  split
  · exact hs.of_core ⟨rfl, rfl, rfl, rfl⟩
  · next c p h =>
    obtain ⟨hc, hp, hle⟩ := State.polyTarget_inv h
    exact hs.withData rfl rfl (hs.data.setPolyAt _ ((hs.data.polyAt hp).setCoeff hle
      (Data.width_of_cfg hc ▸ maskElem_lt _ _)))

theorem State.Good.accept (hs : s.Good fit) (w : Word) : (s.accept w).Good fit :=
  ⟨hs.hw, hs.data, fun b hb => by cases hb; exact hs.data⟩

theorem State.Good.cleared (hs : s.Good fit) (hhw : t.hw = s.hw) (hdata : t.data = .reset)
    (hengine : t.engine = none) : t.Good fit :=
  ⟨hhw ▸ hs.hw, hdata ▸ Data.good_reset, fun b hb => by rw [hengine] at hb; cases hb⟩

theorem writeReg_good (hs : s.Good fit) (r : Reg) (w : Word) : (writeReg r w s).Good fit := by
  cases r with
  | ctrl =>
    rw [writeReg_ctrl]
    split
    · exact hs.cleared rfl rfl rfl
    · exact hs
  | status => exact hs.of_core (clearStatus_core s w)
  | cmd =>
    rw [writeReg_cmd]
    split
    · exact hs.of_core ⟨rfl, rfl, rfl, rfl⟩
    · exact hs.accept w
  | fmod | clen => exact hs.withData rfl rfl (hs.data.of_eq rfl rfl rfl rfl rfl)
  | mdata => exact writeMdata_good hs w
  | pcdata => exact writePcdata_good hs w
  | f i => exact hs.withData rfl rfl (hs.data.setF i (s.data.hostElem_lt w))
  | _ => exact hs.of_core ⟨rfl, rfl, rfl, rfl⟩

theorem hostWrite_good (hs : s.Good fit) (off : BitVec 12) (w : Word) :
    (hostWrite off w s).Good fit := by
  unfold hostWrite
  dsimp only
  split
  · exact hs
  split
  · exact hs.of_core ⟨rfl, rfl, rfl, rfl⟩
  · exact writeReg_good hs _ w

/-! ## The engine -/

/-- Every command ends through the completion event (`40_control.md` R204). -/
theorem exec_eq_finish (i : Instr) (s : State) : ∃ r, exec i s = s.finish r := by
  unfold exec
  split <;> exact ⟨_, rfl⟩

theorem completeCommand_eq_finish (s : State) : ∃ r, completeCommand s = s.finish r := by
  unfold completeCommand
  split
  · exact exec_eq_finish _ s
  · exact ⟨.error (.raised 0 (.illegal s.cmd)), rfl⟩

/-- A completion leaves no command busy (`40_control.md` R204). -/
theorem completeCommand_engine (h : completeCommand s = .next t) : t.engine = none := by
  obtain ⟨r, hr⟩ := completeCommand_eq_finish s
  rcases finish_next (hr.symm.trans h) with ⟨d, -, rfl⟩ | ⟨n, e, -, rfl⟩
  · rfl
  · rfl

theorem completeCommand_good (hs : s.Good fit) : EndsGood fit (completeCommand s) := by
  unfold completeCommand
  split
  · exact exec_good hs _
  · exact finish_good hs (.error (.raised 0 (.illegal s.cmd)))

/-- Everything an advance can do (`10_state.md` R36, log 4). -/
theorem advanceDecode_next (h : advanceDecode s = .next t) :
    t = s ∨ (s.busy = true ∧ decodeWord s.cmd = .ok .decode ∧ s.sub < 6 ∧
      ((∃ d, nextSubStep s = .ok d ∧
          t = { s with engine := some { copy := d, sub := s.sub + 1 } }) ∨
        ∃ n e, nextSubStep s = .error (.raised n e) ∧ t = s.takeError n e)) := by
  unfold advanceDecode at h
  split at h
  · next hcond =>
    obtain ⟨hbusy, hdec, hsub⟩ := hcond
    refine .inr ⟨hbusy, hdec, hsub, ?_⟩
    split at h
    · next d hd => cases h; exact .inl ⟨d, hd, rfl⟩
    · next n e he => cases h; exact .inr ⟨n, e, he, rfl⟩
    · cases h
  · cases h; exact .inl rfl

/-- The next sub-step is the rule's, in the context of the NOCONFIG checks. -/
theorem nextSubStep_ok {d : Data} (h : nextSubStep s = .ok d) :
    ∃ c, configured s.hw s.work = .ok c ∧ decodeStep (s.sub + 1) c s.work = .ok d :=
  bind_eq_ok.mp h

theorem advanceDecode_good (hs : s.Good fit) : EndsGood fit (advanceDecode s) := fun t ht => by
  rcases advanceDecode_next ht with rfl | ⟨-, -, -, ⟨d, hd, rfl⟩ | ⟨n, e, -, rfl⟩⟩
  · exact hs
  · obtain ⟨c, hc, hd⟩ := nextSubStep_ok hd
    refine ⟨hs.hw, hs.data, fun b hb => ?_⟩
    cases hb
    exact ((ready_of_configured hs.work hc).decodeStep _ d hd).good
  · exact hs.takeError n e

/-! ## The progress of a DECODE -/

/-- One sub-step more, at the end. -/
theorem decodeSteps_concat {c : Ctx} {cnt n : Nat} {d d' : Data}
    (h : decodeSteps c cnt n d = .ok d') :
    decodeSteps c (cnt + 1) n d = decodeStep (n + cnt + 1) c d' := by
  induction cnt generalizing n d with
  | zero =>
    cases h
    rw [decodeSteps, Nat.add_zero]
    cases decodeStep (n + 1) c d' <;> rfl
  | succ cnt ih =>
    obtain ⟨d1, hd1, h⟩ := bind_eq_ok.mp h
    rw [decodeSteps, hd1, ok_bind, ih h]
    congr 1
    omega

theorem configured_decodeSteps {hw : Synth} {c : Ctx} {cnt n : Nat} {d d' : Data}
    (h : decodeSteps c cnt n d = .ok d') : configured hw d' = configured hw d := by
  induction cnt generalizing n d with
  | zero => cases h; rfl
  | succ cnt ih =>
    obtain ⟨d1, hd1, h⟩ := bind_eq_ok.mp h
    rw [ih h, configured_decodeStep hd1]

/-- Both readings of `CopyFollows` in one: the copy is the result of the sub-steps that have run. -/
theorem State.CopyFollows.steps (hs : s.CopyFollows) {b : Busy} (hb : s.engine = some b) {c : Ctx}
    (hc : configured s.hw b.copy = .ok c) :
    configured s.hw s.data = .ok c ∧ decodeSteps c b.sub 0 s.data = .ok b.copy := by
  rcases hs b hb with ⟨hsub, hcopy⟩ | ⟨-, -, -, c', hc', hsteps⟩
  · rw [hsub, ← hcopy]; exact ⟨hc, rfl⟩
  · rw [configured_decodeSteps hsteps, hc'] at hc
    cases hc
    exact ⟨hc', hsteps⟩

theorem advanceDecode_copyFollows (hs : s.CopyFollows) (h : advanceDecode s = .next t) :
    t.CopyFollows := by
  rcases advanceDecode_next h with rfl | ⟨hbusy, hdec, hsub, ⟨d, hd, rfl⟩ | ⟨n, e, -, rfl⟩⟩
  · exact hs
  · obtain ⟨b, hb⟩ := Option.isSome_iff_exists.mp hbusy
    obtain ⟨c, hc, hstep⟩ := nextSubStep_ok hd
    have hwork : s.work = b.copy := by rw [State.work, hb]
    have hnum : s.sub = b.sub := by rw [State.sub, hb]
    rw [hwork] at hc hstep
    rw [hnum] at hstep hsub
    obtain ⟨hcdata, hsteps⟩ := hs.steps hb hc
    intro b' hb'
    cases hb'
    refine .inr ⟨Nat.le_add_left _ _, by dsimp only; omega, hdec, c, hcdata, ?_⟩
    rw [hnum, decodeSteps_concat hsteps, Nat.zero_add]
    exact hstep
  · exact .of_idle rfl

/-- The completion of a DECODE: the sub-steps that are left (`44_decode.md` R354). -/
theorem completeCommand_decode (hdec : decodeWord s.cmd = .ok .decode) :
    completeCommand s = s.finish (do
      let c ← configured s.hw s.work
      decodeSteps c (6 - s.sub) s.sub s.work) := by
  rw [completeCommand, hdec]
  rfl

/-- Running the next sub-step first makes no difference to the sub-steps that are left. -/
theorem decodeSteps_eq_nextSubStep (hsub : s.sub < 6) :
    (do let c ← configured s.hw s.work
        decodeSteps c (6 - s.sub) s.sub s.work) =
      (do let d ← nextSubStep s
          let c ← configured s.hw d
          decodeSteps c (6 - (s.sub + 1)) (s.sub + 1) d) := by
  rw [nextSubStep]
  cases hc : configured s.hw s.work with
  | error e => rfl
  | ok c =>
    rw [ok_bind, ok_bind, show 6 - s.sub = 6 - (s.sub + 1) + 1 by omega, decodeSteps]
    cases hd : decodeStep (s.sub + 1) c s.work with
    | error e => rfl
    | ok d => rw [ok_bind, ok_bind, configured_decodeStep hd, hc, ok_bind]

theorem finish_withEngine (s : State) (b : Option Busy) (r : Run Data) :
    State.finish { s with engine := b } r = s.finish r := by
  match r with
  | .ok d => rfl
  | .error (.raised n e) => rfl
  | .error (.unwritten id i) => rfl

/-! ## Steps -/

theorem idle_good (hs : s.Good fit) : EndsGood fit (idle s) := fun t ht => by
  unfold idle at ht
  split at ht
  · exact completeCommand_good hs t ht
  · cases ht; exact hs

theorem idle_copyFollows (hs : s.CopyFollows) (h : idle s = .next t) : t.CopyFollows := by
  unfold idle at h
  split at h
  · exact .of_idle (completeCommand_engine h)
  · cases h; exact hs

theorem perform_good (hs : s.Good fit) (e : Event) : EndsGood fit (perform e s) := fun t ht => by
  cases e with
  | read off => exact hs.of_core (hostRead_core ht)
  | write off w => cases ht; exact hostWrite_good hs off w
  | complete => exact idle_good hs t ht
  | advance => exact advanceDecode_good hs t ht
  | resetFalls | resetRises => cases ht; exact hs.cleared rfl rfl rfl

theorem perform_copyFollows (hs : s.CopyFollows) {e : Event} (h : perform e s = .next t) :
    t.CopyFollows := by
  cases e with
  | read off => exact hs.of_core (hostRead_core h)
  | write off w => cases h; exact hostWrite_copyFollows hs off w
  | complete => exact idle_copyFollows hs h
  | advance => exact advanceDecode_copyFollows hs h
  | resetFalls | resetRises => cases h; exact .of_idle rfl

theorem State.core_events (s : State) (es : List Event) : s.SameCore { s with events := es } :=
  ⟨rfl, rfl, rfl, rfl⟩

/-- Every step is the performance of an event in the state without it; with no event left, of a
completion (log 2). -/
theorem step_eq_perform (s : State) : ∃ e es, step s = perform e { s with events := es } := by
  unfold step
  split
  · next h => exact ⟨.complete, [], by rw [← h]; rfl⟩
  · next e es _ => exact ⟨e, es, rfl⟩

theorem step_good (hs : s.Good fit) : EndsGood fit (step s) := by
  obtain ⟨e, es, he⟩ := step_eq_perform s
  rw [he]
  exact perform_good (hs.of_core (s.core_events es)) e

/-! ## The obligations -/

/-- Settles O14: each command, each port write and each sub-step keeps the data good. -/
theorem wellFormedDataIsKept : Obligations.WellFormedDataIsKept := by
  intro s t hs ht
  exact State.sound_iff_good.mpr (step_good (State.sound_iff_good.mp hs) t ht)

/-- Settles O15: as O14, with the degree bound. Remainders are shorter than g, and the companions of
the key equation grow only as its remainders shrink (`44_decode.md` R345). -/
theorem degreesStayWithinTMax : Obligations.DegreesStayWithinTMax := by
  intro s t hs ht
  exact State.fits_iff_good.mpr (step_good (State.fits_iff_good.mp hs) t ht)

/-- Settles O16: a completion ends the copy, an advance adds one sub-step to it, and the port cannot
write the data while a command is busy. -/
theorem workingCopyFollowsTheState : Obligations.WorkingCopyFollowsTheState := by
  intro s t hs ht
  obtain ⟨e, es, he⟩ := step_eq_perform s
  rw [he] at ht
  exact perform_copyFollows (State.CopyFollows.of_core hs (s.core_events es)) ht

/-- Settles O17: the completion of a DECODE begins with the sub-step an advance runs. -/
theorem subStepsAreInvisible : Obligations.SubStepsAreInvisible := by
  intro s t hbusy ht
  rcases advanceDecode_next ht with rfl | ⟨-, hdec, hsub, ⟨d, hd, rfl⟩ | ⟨n, e, he, rfl⟩⟩
  · exact ⟨rfl, fun _ => rfl, fun hidle => (Bool.false_ne_true (hidle.symm.trans hbusy)).elim⟩
  · refine ⟨rfl, fun _ => ?_, fun hidle => (Bool.false_ne_true hidle.symm).elim⟩
    have hrest := completeCommand_decode
      (s := { s with engine := some { copy := d, sub := s.sub + 1 } }) hdec
    rw [hrest, finish_withEngine, completeCommand_decode hdec, decodeSteps_eq_nextSubStep hsub, hd,
      ok_bind]
    rfl
  · refine ⟨rfl, fun h => (Bool.false_ne_true h).elim, fun _ => ?_⟩
    rw [completeCommand_decode hdec, decodeSteps_eq_nextSubStep hsub, he, error_bind, finish_raised]

/-- Settles O13: the reset data are cleared, no flag is set, and no command is busy. -/
theorem invariantsHoldAtReset : Obligations.InvariantsHoldAtReset := by
  have hall : ∀ hw : Synth, hw.legal → (State.resetOf hw).Fits ∧ (State.resetOf hw).FlagsExclusive ∧
      (State.resetOf hw).CopyFollows := fun hw h =>
    ⟨State.fits_iff_good.mpr (State.good_resetOf h),
      ⟨fun h => Bool.false_ne_true h.1, fun h => (Bool.false_ne_true h).elim⟩, .of_idle rfl⟩
  exact ⟨hall, hall Config.reference (by decide)⟩

end Sys2Proof.Machine
end

section
/-! SUPPORT. The register map from the offset's side (`10_state.md` R31–R53, R61; `20_memory.md` R102),
and what a host access that is not refused does. -/

namespace Sys2Proof.Machine

variable {s : State} {off : BitVec 12} {r : Reg}

/-! ## The register map -/

/-- The offset of a register (`10_state.md` R31–R53). The unmapped offsets have none in common; theirs
here is the first of them (R61). -/
def Reg.offset : Reg → BitVec 12
  | .id => 0x000#12
  | .hwcfg => 0x004#12
  | .ctrl => 0x008#12
  | .status => 0x00C#12
  | .ie => 0x010#12
  | .cmd => 0x014#12
  | .errcode => 0x018#12
  | .errinfo => 0x01C#12
  | .param => 0x020#12
  | .nval => 0x024#12
  | .kval => 0x028#12
  | .fmod => 0x02C#12
  | .clen => 0x030#12
  | .dstat => 0x034#12
  | .rootcnt => 0x038#12
  | .swapcnt => 0x03C#12
  | .msel => 0x040#12
  | .midx => 0x044#12
  | .mdata => 0x048#12
  | .psel => 0x050#12
  | .pcidx => 0x054#12
  | .pcdata => 0x058#12
  | .pdeg => 0x05C#12
  | .f i => 0x060#12 + 4#12 * BitVec.ofNat 12 i.val
  | .unmapped => 0x04C#12

/-- An offset that reaches a register is the register's own, bits [1:0] aside (`20_memory.md` R102). -/
theorem offset_of_regAt (hr : regAt off ≠ .unmapped) :
    off &&& 0xFFC#12 = (regAt off).offset := by
  revert hr
  unfold regAt
  split <;> intro hr
  case h_32 => exact absurd rfl hr
  all_goals exact BitVec.eq_of_toNat_eq (by assumption)

/-- The register at a register's own offset (`20_memory.md` R102). -/
theorem regAt_of_offset (h : off &&& 0xFFC#12 = r.offset) : regAt off = r := by
  unfold regAt
  rw [h]
  cases r with
  | f i =>
    match i with
    | 0 | 1 | 2 | 3 | 4 | 5 | 6 | 7 => rfl
  | _ => rfl

theorem regAt_eq_iff (hr : r ≠ .unmapped) : regAt off = r ↔ off &&& 0xFFC#12 = r.offset :=
  ⟨fun h => by subst h; exact offset_of_regAt hr, regAt_of_offset⟩

/-- Masking bits [1:0] leaves the word number alone (`20_memory.md` R102). -/
theorem offset_div_four (off : BitVec 12) : (off &&& 0xFFC#12).toNat / 4 = off.toNat / 4 := by
  have hlt : off.toNat / 4 < 2 ^ 10 := by omega
  rw [BitVec.toNat_and, Nat.and_div_two_pow (n := 2)]
  exact Nat.and_two_pow_sub_one_of_lt_two_pow hlt

/-- The registers end at 0x07F (`10_state.md` R61). -/
theorem Reg.offset_lt (r : Reg) : r.offset.toNat < 0x080 := by
  cases r with
  | f i =>
    match i with
    | 0 | 1 | 2 | 3 | 4 | 5 | 6 | 7 => decide
  | _ => decide

theorem regAt_unmapped (h : off &&& 0xFFC#12 = 0x04C#12 ∨ 0x080#12 ≤ off) :
    regAt off = .unmapped := by
  rcases h with h | h
  · exact regAt_of_offset (r := .unmapped) h
  · by_contra hr
    have hdiv := offset_div_four off
    have hlt := (regAt off).offset_lt
    rw [offset_of_regAt hr] at hdiv
    have hge : 0x080 ≤ off.toNat := h
    omega

/-! ## Accesses that are not refused -/

/-- A read of a register whose value is plain (`20_memory.md` R113). -/
theorem hostRead_plain (hrst : s.rstN = true) (hreg : regAt off = r)
    (hopen : (s.busy && r.readLocked) = false) (hm : r ≠ .mdata) (hp : r ≠ .pcdata) :
    hostRead off s = .next { s with prdata := s.regValue r } := by
  unfold hostRead
  subst hreg
  simp only [hrst, hopen, Bool.true_eq_false, Bool.false_eq_true, if_false]

/-- A write with rst_n = 1 that is not refused is that of its register (`20_memory.md` R121). -/
theorem hostWrite_open (hrst : s.rstN = true) (hreg : regAt off = r)
    (hopen : (s.busy && r.writeLocked) = false) (w : Word) :
    hostWrite off w s = writeReg r w s := by
  unfold hostWrite
  subst hreg
  simp [hrst, hopen]

/-- A write to a locked register while busy only sets BERR (`20_memory.md` R121). -/
theorem hostWrite_locked (hrst : s.rstN = true) (hreg : regAt off = r) (hbusy : s.busy = true)
    (hlock : r.writeLocked = true) (w : Word) : hostWrite off w s = { s with berr := true } := by
  unfold hostWrite
  subst hreg
  simp [hrst, hbusy, hlock]

/-! ## STATUS (`10_state.md` R34) -/

theorem getLsbD_flagBit (b : Bool) {i : Nat} (hi : i < 32) (j : Nat) :
    (flagBit b i).getLsbD j = (b && decide (j = i)) := by
  cases b with
  | false => simp [flagBit]
  | true =>
    simp only [flagBit, if_true, BitVec.getLsbD_shiftLeft, BitVec.getLsbD_one, Bool.true_and]
    by_cases hj : j = i
    · simp [hj, hi]
    · simp [hj]; omega

/-- The bits of STATUS (`10_state.md` R34). -/
theorem getLsbD_statusWord (s : State) (j : Nat) :
    s.statusWord.getLsbD j =
      (s.busy && decide (j = 0) || s.done && decide (j = 1) || s.err && decide (j = 2) ||
        s.cfgOk && decide (j = 3) || s.aerr && decide (j = 4) || s.berr && decide (j = 5) ||
        s.rej && decide (j = 6)) := by
  simp [State.statusWord, getLsbD_flagBit]

/-- A write to STATUS clears the W1C bits at which it has a 1 (`10_state.md` R34). -/
theorem State.clearStatus_eq (s : State) (w : Word) :
    s.clearStatus w =
      { s with done := s.done && !w.getLsbD 1, err := s.err && !w.getLsbD 2,
               aerr := s.aerr && !w.getLsbD 4, berr := s.berr && !w.getLsbD 5,
               rej := s.rej && !w.getLsbD 6 } := by
  unfold State.clearStatus
  cases h : w.getLsbD 2 <;> simp [State.releaseError]

/-- The layout HWCFG and PARAM share, as one number (`10_state.md` R32, R40). -/
theorem paramLayout_eq {m t : Nat} (hm : m < 32) (ht : t < 2048) :
    (BitVec.ofNat 5 m).setWidth 32 ||| ((BitVec.ofNat 11 t).setWidth 32 <<< 5) =
      BitVec.ofNat 32 (m + 32 * t) := by
  have hlow : (BitVec.ofNat 5 m).setWidth 32 = BitVec.ofNat 32 m := by
    refine BitVec.eq_of_toNat_eq ?_
    simp only [BitVec.toNat_setWidth, BitVec.toNat_ofNat]
    omega
  have hhigh : (BitVec.ofNat 11 t).setWidth 32 <<< 5 = BitVec.ofNat 32 (32 * t) := by
    refine BitVec.eq_of_toNat_eq ?_
    simp only [BitVec.toNat_shiftLeft, BitVec.toNat_setWidth, BitVec.toNat_ofNat, Nat.shiftLeft_eq]
    omega
  have hor : 32 * t ||| m = 32 * t + m := (Nat.two_pow_add_eq_or_of_lt (i := 5) hm t).symm
  refine BitVec.eq_of_toNat_eq ?_
  rw [hlow, hhigh, BitVec.toNat_or, BitVec.toNat_ofNat, BitVec.toNat_ofNat, BitVec.toNat_ofNat,
    Nat.mod_eq_of_lt (a := m) (by omega), Nat.mod_eq_of_lt (a := 32 * t) (by omega), Nat.lor_comm,
    hor]
  omega

/-! ## After reset (`10_state.md` R60) -/

/-- The value of a register after reset (`10_state.md` R60). -/
theorem regValue_resetOf {hw : Synth} (h : hw.legal) (r : Reg) :
    (State.resetOf hw).regValue r =
      if r = .id then 0x4D434E31#32
      else if r = .hwcfg then BitVec.ofNat 32 (hw.mMax + 32 * hw.tMax)
      else if r = .pdeg then 0x0000FFFF#32
      else 0#32 := by
  cases r with
  | hwcfg =>
    obtain ⟨-, hm, -, ht⟩ := h
    exact paramLayout_eq (m := hw.mMax) (t := hw.tMax) (by omega) (by omega)
  | f i =>
    match i with
    | 0 | 1 | 2 | 3 | 4 | 5 | 6 | 7 => rfl
  | status => simp [State.regValue, State.statusWord, State.busy, State.cfgOk, State.resetOf,
      Data.reset, flagBit]
  | ie => simp [State.regValue, State.ieWord, State.resetOf, flagBit]
  | errcode => simp [State.regValue, ErrCode.word, State.resetOf]
  | dstat => simp [State.regValue, Data.dstatWord, State.resetOf, Data.reset]
  | _ => rfl

/-! ## The obligations -/

/-- Settles O7: the register at 0x014 is CMD, and a write to it has three cases. -/
theorem cmdWriteAcceptsOrIsRefused : Obligations.CmdWriteAcceptsOrIsRefused := by
  refine ⟨fun s off w hrst hoff => ?_, fun _ => rfl⟩
  have hreg : regAt off = .cmd := regAt_of_offset hoff
  refine ⟨fun hidle herr => ?_, fun hbusy => ?_, fun hidle herr => ?_, ?_⟩
  · rw [hostWrite_open hrst hreg (by simp [hidle]), writeReg_cmd, if_neg (by simp [herr])]
    rfl
  · exact hostWrite_locked hrst hreg hbusy rfl w
  · rw [hostWrite_open hrst hreg (by simp [hidle]), writeReg_cmd, if_pos herr]
  · exact hostRead_plain hrst hreg (Bool.and_false _) nofun nofun

/-- Settles O21: from the bits of STATUS, its W1C write, and the acceptance that ERR = 0 allows. -/
theorem statusReadsAndClears : Obligations.StatusReadsAndClears := by
  intro s off off' w w' hrst hoff hoff'
  have hreg : regAt off = .status := regAt_of_offset hoff
  have hwrite : ∀ w, hostWrite off w s = s.clearStatus w :=
    hostWrite_open hrst hreg (Bool.and_false _)
  have hrelease : hostWrite off 0x00000004#32 s = { s with err := false } := by
    rw [hwrite, State.clearStatus_eq]
    simp
  refine ⟨⟨s.statusWord, hostRead_plain hrst hreg (Bool.and_false _) nofun nofun, ?_⟩, ?_,
    hrelease, fun hidle => ?_⟩
  · refine ⟨?_, ?_, ?_, ?_, ?_, ?_, ?_, fun j hj => ?_⟩
    case refine_8 =>
      have hne : ∀ i, i < 7 → j ≠ i := fun i hi => by omega
      rw [getLsbD_statusWord]
      simp [hne]
    all_goals
      rw [getLsbD_statusWord]
      simp [State.busy, State.cfgOk]
  · rw [hwrite, State.clearStatus_eq]
  · have hopen : (State.busy { s with err := false } && Reg.writeLocked .cmd) = false :=
      (congrArg (· && _) hidle).trans rfl
    rw [hrelease]
    exact hostWrite_open (s := { s with err := false }) hrst (regAt_of_offset hoff') hopen w'

/-- Settles O23: no register lies at such an offset. -/
theorem unmappedOffsets : Obligations.UnmappedOffsets := by
  intro s off w hoff
  have hreg := regAt_unmapped hoff
  by_cases hrst : s.rstN = true
  · exact ⟨hostRead_plain hrst hreg (Bool.and_false _) nofun nofun,
      hostWrite_open hrst hreg (Bool.and_false _) w⟩
  · simp [hostRead, hostWrite, hrst]

/-- Settles O29: the register at 0x060 + 4·i is Fi. -/
theorem fieldRegisterPort : Obligations.FieldRegisterPort := by
  intro s off w i hrst hidle hoff
  have hreg : regAt off = .f i := regAt_of_offset hoff
  have hwrite : hostWrite off w s = { s with data := s.data.setF i (s.data.hostElem w) } :=
    hostWrite_open hrst hreg (by simp [hidle]) w
  refine ⟨hostRead_plain hrst hreg (by simp [hidle]) nofun nofun, fun hcfg => ?_,
    fun c hcfg => ?_⟩
  · rw [hwrite, Data.hostElem, hcfg]
    rfl
  · rw [hwrite, Data.hostElem, hcfg]
    rfl

/-- Settles O20: from the value of each register after reset. -/
theorem resetValuesAreRead : Obligations.ResetValuesAreRead := by
  intro hw off hlegal
  refine ⟨fun hmdata hpcdata => ?_, rfl, fun i => RegFile.get_all _ i, rfl, fun id e => ?_,
    fun id e => ?_⟩
  · rw [hostRead_plain (r := regAt off) rfl rfl rfl
      (fun h => hmdata ((regAt_eq_iff (r := .mdata) nofun).mp h))
      (fun h => hpcdata ((regAt_eq_iff (r := .pcdata) nofun).mp h)),
      regValue_resetOf hlegal]
    simp only [regAt_eq_iff (r := .id) nofun, regAt_eq_iff (r := .hwcfg) nofun,
      regAt_eq_iff (r := .pdeg) nofun]
    rfl
  · exact (congrArg (Memory.read · e) (Memories.elem_unwritten id)).trans (Memory.read_empty e)
  · exact (congrArg (Memory.read · e) (Memories.bit_unwritten id)).trans (Memory.read_empty e)

end Sys2Proof.Machine
end

section
/-! SUPPORT. What each command writes (`20_memory.md` R127; `70_reset_and_hazards.md` R464, R466):
the data as parts, the commands that write each part, and one rule per way of building new data. -/

namespace Sys2Proof.Machine

/-! ## The parts of the data -/

/-- The parts of the data but the register files F and P (`10_state.md` R40–R45, R55, R57). -/
inductive DataPart
  | cfg | fmod | clen | gp | degen | iter | rootcnt | swapcnt
  | elem (id : ElemMem)
  | bit (id : BitMem)

/-- The part holds in d' what it holds in d. -/
def DataPart.Same (d d' : Data) : DataPart → Prop
  | .cfg => d'.cfg = d.cfg
  | .fmod => d'.fmod = d.fmod
  | .clen => d'.clen = d.clen
  | .gp => d'.gp = d.gp
  | .degen => d'.degen = d.degen
  | .iter => d'.iter = d.iter
  | .rootcnt => d'.rootcnt = d.rootcnt
  | .swapcnt => d'.swapcnt = d.swapcnt
  | .elem id => d'.mems.elem id = d.mems.elem id
  | .bit id => d'.mems.bit id = d.mems.bit id

/-- The commands other than CONFIG that write the part (`20_memory.md` R127,
`70_reset_and_hazards.md` R464, R466). -/
def DataPart.WrittenBy (i : Instr) : DataPart → Prop
  | .cfg | .fmod | .clen | .elem .PIDX | .bit .SINV | .bit .C => False
  | .gp => ∃ pa, i = .psetg pa
  | .degen => i = .locator ∨ i = .decode
  | .iter => i = .locator ∨ i = .keyeq ∨ i = .decode
  | .rootcnt | .bit .E => i = .roots ∨ i = .decode
  | .swapcnt | .elem .SWP => i = .sysform
  | .elem .L => ∃ fa, i = .lgen fa
  | .elem .PST => i = .pstgen
  | .bit .H => i = .hgen
  | .bit .G => i = .gextract
  | .bit .W => i = .permc ∨ i = .roots ∨ i = .decode
  | .bit .MC => i = .extract ∨ i = .decode
  | .bit .M => i = .unscr ∨ i = .decode

/-- d' differs from d in F, P and the parts in W only. -/
def Data.WritesOnly (W : DataPart → Prop) (d d' : Data) : Prop := ∀ x, ¬W x → x.Same d d'

section
variable {W : DataPart → Prop} {d d' d'' : Data}

theorem DataPart.Same.trans {x : DataPart} (h : x.Same d d') (h' : x.Same d' d'') :
    x.Same d d'' := by
  cases x <;> exact Eq.trans h' h

theorem Data.WritesOnly.trans (h : d.WritesOnly W d') (h' : d'.WritesOnly W d'') :
    d.WritesOnly W d'' := fun x hx => (h x hx).trans (h' x hx)

/-- The register files are no part. -/
theorem Data.WritesOnly.regs (d : Data) (f : RegFile Elem) (p : RegFile Poly) :
    d.WritesOnly W { d with f := f, p := p } := fun x _ => by cases x <;> rfl

theorem Data.WritesOnly.refl (d : Data) : d.WritesOnly W d := .regs d d.f d.p

theorem Data.WritesOnly.withElem (d : Data) {id : ElemMem} (m : Memory Elem) (h : W (.elem id)) :
    d.WritesOnly W (d.withElem id m) := fun x hx => by
  cases x with
  | elem id' =>
    have hid : id' ≠ id := by rintro rfl; exact hx h
    exact (Memories.elem_setElem _ _ _ _).trans (if_neg hid)
  | bit id' => exact Memories.bit_setElem _ _ _ _
  | _ => rfl

theorem Data.WritesOnly.withBit (d : Data) {id : BitMem} (m : Memory Bool) (h : W (.bit id)) :
    d.WritesOnly W (d.withBit id m) := fun x hx => by
  cases x with
  | bit id' =>
    have hid : id' ≠ id := by rintro rfl; exact hx h
    exact (Memories.bit_setBit _ _ _ _).trans (if_neg hid)
  | elem id' => exact Memories.elem_setBit _ _ _ _
  | _ => rfl

theorem Data.WritesOnly.fillElem (d : Data) {id : ElemMem} (vs : List Elem) (h : W (.elem id)) :
    d.WritesOnly W (d.fillElem id vs) := .withElem d _ h

theorem Data.WritesOnly.fillBit (d : Data) {id : BitMem} (vs : List Bool) (h : W (.bit id)) :
    d.WritesOnly W (d.fillBit id vs) := .withBit d _ h

/-- New contents of P with DEGEN and ITER, as LOCATOR and KEYEQ leave them (`44_decode.md` R344,
R346). -/
theorem Data.WritesOnly.locate (d : Data) (p : RegFile Poly) (degen : BitVec 2) (iter : BitVec 16)
    (hdegen : W .degen ∨ degen = d.degen) (hiter : W .iter) :
    d.WritesOnly W { d with p := p, degen := degen, iter := iter } := fun x hx => by
  cases x with
  | degen => exact hdegen.resolve_left hx
  | iter => exact absurd hiter hx
  | _ => rfl

theorem Data.WritesOnly.withGp (d : Data) (p : Poly) (h : W .gp) :
    d.WritesOnly W { d with gp := p } := fun x hx => by
  cases x with
  | gp => exact absurd h hx
  | _ => rfl

theorem Data.WritesOnly.withRootcnt (d : Data) (n : BitVec 17) (h : W .rootcnt) :
    d.WritesOnly W { d with rootcnt := n } := fun x hx => by
  cases x with
  | rootcnt => exact absurd h hx
  | _ => rfl

theorem Data.WritesOnly.withSwapcnt (d : Data) (n : BitVec 17) (h : W .swapcnt) :
    d.WritesOnly W { d with swapcnt := n } := fun x hx => by
  cases x with
  | swapcnt => exact absurd h hx
  | _ => rfl

/-! ## The rules DECODE shares with its steps (`44_decode.md` R340–R354) -/

variable (c : Ctx) (d : Data)

theorem permcRule_writesOnly (h : W (.bit .W)) : Ensures (permcRule c d) (d.WritesOnly W) :=
  .bind (.any _) fun w _ => by
    split
    · exact .raise _
    · exact .ok (.fillBit d w h)

theorem syndRule_writesOnly : Ensures (syndRule c d) (d.WritesOnly W) :=
  .bind (.any _) fun _ _ => .ok (.regs d _ _)

theorem locatorRule_writesOnly (hdegen : W .degen) (hiter : W .iter) :
    Ensures (locatorRule c d) (d.WritesOnly W) := by
  refine .bind (.any _) fun _ _ => .bind (.any _) fun _ _ => ?_
  split
  · exact .ok (.locate d _ _ _ (.inl hdegen) hiter)
  · refine .bind (.any _) fun _ _ => .bind (.any _) fun _ _ => ?_
    split
    · exact .ok (.locate d _ _ _ (.inl hdegen) hiter)
    · exact .bind (.any _) fun _ _ => .bind (.any _) fun _ _ => .bind (.any _) fun _ _ =>
        .ok (.locate d _ _ _ (.inl hdegen) hiter)

theorem rootsRule_writesOnly (hE : W (.bit .E)) (hW : W (.bit .W)) (hcnt : W .rootcnt) :
    Ensures (rootsRule c d) (d.WritesOnly W) :=
  .bind (.any _) fun _ _ =>
    .ok (((Data.WritesOnly.fillBit d _ hE).trans (.fillBit _ _ hW)).trans (.withRootcnt _ _ hcnt))

theorem extractRule_writesOnly (h : W (.bit .MC)) : Ensures (extractRule c d) (d.WritesOnly W) :=
  .bind (.any _) fun mc _ => .ok (.fillBit d mc h)

theorem unscrRule_writesOnly (h : W (.bit .M)) : Ensures (unscrRule c d) (d.WritesOnly W) :=
  .bind (.any _) fun m _ => .ok (.fillBit d m h)

/-- A sub-step of DECODE writes what its command writes. -/
theorem decodeStep_writesOnly (n : Nat) :
    Ensures (decodeStep n c d) (d.WritesOnly (DataPart.WrittenBy .decode)) := by
  refine .inSubStep n ?_
  split
  · exact .bind (.any _) fun _ _ => permcRule_writesOnly c d (.inr (.inr rfl))
  · exact syndRule_writesOnly c d
  · exact locatorRule_writesOnly c d (.inr rfl) (.inr (.inr rfl))
  · exact rootsRule_writesOnly c d (.inr rfl) (.inr (.inr rfl)) (.inr rfl)
  · exact extractRule_writesOnly c d (.inr rfl)
  · exact unscrRule_writesOnly c d (.inr rfl)
  · exact .ok (.refl d)

theorem decodeSteps_writesOnly (cnt n : Nat) :
    Ensures (decodeSteps c cnt n d) (d.WritesOnly (DataPart.WrittenBy .decode)) := by
  induction cnt generalizing n d with
  | zero => exact .ok (.refl d)
  | succ cnt ih =>
    exact .bind (decodeStep_writesOnly c d (n + 1)) fun d' hd' d'' hd'' =>
      hd'.trans (ih d' (n + 1) d'' hd'')

end

/-! ## Commands -/

/-- Wherever the outcome is a next state, its data differ from those of s in F, P and the parts in W
only. -/
def EndsWritingOnly (W : DataPart → Prop) (s : State) (r : Host.Outcome State Fault Refusal) :
    Prop := ∀ t, r = .next t → s.data.WritesOnly W t.data

section
variable {W : DataPart → Prop} {s : State}

theorem finish_writesOnly {r : Run Data} (hr : Ensures r (s.data.WritesOnly W)) :
    EndsWritingOnly W s (s.finish r) := fun t ht => by
  rcases finish_next ht with ⟨d, hd, rfl⟩ | ⟨n, e, -, rfl⟩
  · exact hr d hd
  · exact .refl _

variable (hs : s.Fresh)
include hs

/-- A command writes what its rule writes. -/
theorem runCommand_writesOnly {rule : Ctx → Data → Run Data}
    (hr : ∀ c d, Ensures (rule c d) (d.WritesOnly W)) : EndsWritingOnly W s (runCommand rule s) :=
  finish_writesOnly (.bind (.any _) fun c _ => hs.1 ▸ hr c s.work)

/-- A CONFIG writes neither FMOD nor CLEN (`40_control.md` R201). -/
theorem execConfig_keeps_fmod_clen {m n : Nat} {t : State} (h : execConfig m n s = .next t) :
    t.data.fmod = s.data.fmod ∧ t.data.clen = s.data.clen := by
  rcases finish_next h with ⟨d, hd, rfl⟩ | ⟨_, _, -, rfl⟩
  · rw [hs.1] at hd
    rcases configRule_ok hd with rfl | ⟨-, rfl⟩
    · exact ⟨rfl, rfl⟩
    · exact ⟨rfl, rfl⟩
  · exact ⟨rfl, rfl⟩

/-- A command other than CONFIG writes only the parts it is a writer of. -/
theorem exec_writesOnly {i : Instr} (hi : ∀ m t, i ≠ .config m t) :
    EndsWritingOnly (DataPart.WrittenBy i) s (exec i s) := by
  unfold exec
  cases i with
  | config m t => exact absurd rfl (hi m t)
  | nop => exact finish_writesOnly (.ok (hs.1 ▸ .refl _))
  | chkperm tab =>
    refine runCommand_writesOnly hs fun c d => ?_
    exact .bind (.any _) fun _ _ => .ok (.refl d)
  | fadd | fmul | fpow | peval | pclr | pmov | pconst | padd | pscl =>
    refine runCommand_writesOnly hs fun c d => ?_
    exact .ok (.regs d _ _)
  | fldi | finv | pgetc | pldg | psetc | pmul | pdivq | pdivr | pshl =>
    refine runCommand_writesOnly hs fun c d => ?_
    exact .bind (.any _) fun _ _ => .ok (.regs d _ _)
  | fldl | pldt | pmulm | pmod | pinvm | psqrm | psqrt =>
    refine runCommand_writesOnly hs fun c d => ?_
    exact .bind (.any _) fun _ _ => .bind (.any _) fun _ _ => .ok (.regs d _ _)
  | psetg pa =>
    refine runCommand_writesOnly hs fun c d => ?_
    exact .ok (.withGp d _ ⟨pa, rfl⟩)
  | permc => exact runCommand_writesOnly hs fun c d => permcRule_writesOnly c d (.inl rfl)
  | synd => exact runCommand_writesOnly hs fun c d => syndRule_writesOnly c d
  | locator =>
    exact runCommand_writesOnly hs fun c d => locatorRule_writesOnly c d (.inl rfl) (.inl rfl)
  | keyeq =>
    refine runCommand_writesOnly hs fun c d => ?_
    exact .bind (.any _) fun _ _ => .bind (.any _) fun _ _ =>
      .ok (.locate d _ _ _ (.inr rfl) (.inr (.inl rfl)))
  | roots =>
    exact runCommand_writesOnly hs fun c d =>
      rootsRule_writesOnly c d (.inl rfl) (.inr (.inl rfl)) (.inl rfl)
  | extract => exact runCommand_writesOnly hs fun c d => extractRule_writesOnly c d (.inl rfl)
  | unscr => exact runCommand_writesOnly hs fun c d => unscrRule_writesOnly c d (.inl rfl)
  | decode => exact runCommand_writesOnly hs fun c d => decodeSteps_writesOnly c d _ _
  | lgen fa =>
    refine runCommand_writesOnly hs fun c d => ?_
    dsimp only
    split
    · exact .raise _
    · exact .ok (.fillElem d _ ⟨fa, rfl⟩)
  | pstgen =>
    refine runCommand_writesOnly hs fun c d => ?_
    exact .bind (.any _) fun _ _ => .bind (.any _) fun _ _ => .bind (.any _) fun _ _ =>
      .ok (.fillElem d _ rfl)
  | hgen =>
    refine runCommand_writesOnly hs fun c d => ?_
    exact .bind (.any _) fun _ _ => .bind (.any _) fun _ _ => .bind (.any _) fun _ _ =>
      .ok (.fillBit d _ rfl)
  | sysform =>
    refine runCommand_writesOnly hs fun c d => ?_
    refine .bind (.any _) fun _ _ => .bind (.any _) fun _ _ => ?_
    split
    · exact .raise _
    · refine .ok (.trans (d' := d.fillElem .SWP _) ?_ (.withSwapcnt _ _ rfl))
      exact .fillElem d _ rfl
  | gextract =>
    refine runCommand_writesOnly hs fun c d => ?_
    refine .bind (.any _) fun _ _ => .bind (.any _) fun _ _ => ?_
    split
    · exact .raise _
    · exact .ok (.withBit d _ rfl)

end

/-! ## The obligations -/

/-- Settles O9: each part is the same, or the command is one of its writers. -/
theorem writersOfCountersAndMemories : Obligations.WritersOfCountersAndMemories := by
  intro i s t hs ht
  by_cases hconfig : ∃ m t', i = .config m t'
  · obtain ⟨m, t', rfl⟩ := hconfig
    obtain ⟨hfmod, hclen⟩ := execConfig_keeps_fmod_clen hs ht
    exact ⟨hfmod, hclen, .inl ⟨m, t', rfl⟩⟩
  · have h := exec_writesOnly hs (fun m t' hi => hconfig ⟨m, t', hi⟩) t ht
    have same_or (x : DataPart) : x.Same s.data t.data ∨ x.WrittenBy i :=
      or_iff_not_imp_right.mpr (h x)
    exact ⟨h .fmod id, h .clen id, .inr ⟨h .cfg id, same_or .gp, same_or .degen, same_or .iter,
      same_or .rootcnt, same_or .swapcnt, same_or (.elem .L), same_or (.elem .PST),
      h (.elem .PIDX) id, same_or (.elem .SWP), same_or (.bit .H), same_or (.bit .G),
      h (.bit .SINV) id, h (.bit .C) id, same_or (.bit .W), same_or (.bit .E), same_or (.bit .MC),
      same_or (.bit .M)⟩⟩

end Sys2Proof.Machine
end

section
/-! SUPPORT. A step by the event it performs (`20_memory.md` R120; log 1, log 2). -/

namespace Sys2Proof.Machine

variable {s : State}

theorem step_of_event {e : Event} {es : List Event} (h : s.events = e :: es) :
    step s = perform e { s with events := es } := by rw [step, h]

theorem step_of_no_event (h : s.events = []) : step s = idle s := by rw [step, h]

theorem completeCommand_of_decode {i : Instr} (h : decodeWord s.cmd = .ok i) :
    completeCommand s = exec i s := by rw [completeCommand, h]

/-- A busy command completes as the command its accepted word decodes to (`40_control.md` R203). -/
theorem idle_of_busy {i : Instr} (hbusy : s.busy = true) (h : decodeWord s.cmd = .ok i) :
    idle s = exec i s := by rw [idle, if_pos hbusy, completeCommand_of_decode h]

/-- On an idle block there is nothing to complete (`70_reset_and_hazards.md` R452). -/
theorem idle_of_not_busy (h : s.busy = false) : idle s = .next s := by
  rw [idle, if_neg (by simp [h])]

/-- Settles O6: the head of the list of events is performed; a completion is what an empty list
stands for (log 2). -/
theorem stepPerformsTheNextEvent : Obligations.StepPerformsTheNextEvent := by
  intro s es
  refine ⟨fun i hbusy hdec hes => ?_, fun hidle hes => ?_, step_of_event,
    fun off => step_of_event, fun off w => step_of_event, fun i hbusy hdec hes => ?_,
    fun hidle hes => ?_⟩
  · exact (step_of_event hes).trans (idle_of_busy (s := { s with events := es }) hbusy hdec)
  · exact (step_of_event hes).trans (idle_of_not_busy (s := { s with events := es }) hidle)
  · exact (step_of_no_event hes).trans (idle_of_busy hbusy hdec)
  · exact (step_of_no_event hes).trans (idle_of_not_busy hidle)

end Sys2Proof.Machine
end

section
/-! SUPPORT. The register map from the register's side, the accesses that are refused or ignored
(`20_memory.md` R102, R121), and the fields of the plain registers (`10_state.md` R31–R50). -/

namespace Sys2Proof.Machine

variable {s : State} {off : BitVec 12} {r : Reg} {w : Word}

/-! ## The register map -/

/-- Bits [1:0] of an offset select nothing (`20_memory.md` R102). -/
theorem regAt_mask (off : BitVec 12) : regAt (off &&& 0xFFC#12) = regAt off := by
  simp only [regAt, BitVec.and_assoc, BitVec.and_self]

theorem hostRead_mask (off : BitVec 12) (s : State) :
    hostRead (off &&& 0xFFC#12) s = hostRead off s := by
  unfold hostRead
  rw [regAt_mask]

theorem hostWrite_mask (off : BitVec 12) (w : Word) (s : State) :
    hostWrite (off &&& 0xFFC#12) w s = hostWrite off w s := by
  unfold hostWrite
  rw [regAt_mask]

theorem regAt_eq_unmapped_iff :
    regAt off = .unmapped ↔ off &&& 0xFFC#12 = 0x04C#12 ∨ 0x080#12 ≤ off &&& 0xFFC#12 := by
  refine ⟨fun h => ?_, fun h => ?_⟩
  · have hmapped : ∀ k < 32, k ≠ 19 → regAt (BitVec.ofNat 12 (4 * k)) ≠ .unmapped := by decide
    by_contra! hne
    obtain ⟨hhole, hlt⟩ := hne
    have hlt : (off &&& 0xFFC#12).toNat < 0x080 := BitVec.not_le.mp hlt
    have hmod : (off &&& 0xFFC#12).toNat % 4 = 0 := by
      rw [BitVec.toNat_and, Nat.and_mod_two_pow (n := 2)]
      exact Nat.and_zero _
    have hword : BitVec.ofNat 12 (4 * ((off &&& 0xFFC#12).toNat / 4)) = off &&& 0xFFC#12 := by
      rw [show 4 * ((off &&& 0xFFC#12).toNat / 4) = (off &&& 0xFFC#12).toNat by omega,
        BitVec.ofNat_toNat, BitVec.setWidth_eq]
    refine hmapped ((off &&& 0xFFC#12).toNat / 4) (by omega) (fun hk => hhole ?_) ?_
    · rw [← hword, hk]
    · rw [hword, regAt_mask, h]
  · rw [← regAt_mask]
    exact regAt_unmapped (h.imp_left fun h => by rw [h]; rfl)

/-- What holds of every register at its own offset, and of the unmapped ones, holds of every
offset. -/
theorem regAt_cases {P : Reg → BitVec 12 → Prop} (hreg : ∀ r, r ≠ .unmapped → P r r.offset)
    (hun : ∀ o, o = 0x04C#12 ∨ 0x080#12 ≤ o → P .unmapped o) (off : BitVec 12) :
    P (regAt off) (off &&& 0xFFC#12) := by
  by_cases h : regAt off = .unmapped
  · rw [h]; exact hun _ (regAt_eq_unmapped_iff.mp h)
  · rw [offset_of_regAt h]; exact hreg _ h

/-- The offsets whose reads are refused while busy (`20_memory.md` R121). -/
theorem readLocked_regAt (off : BitVec 12) :
    (regAt off).readLocked = true ↔
      (off &&& 0xFFC#12 ∈ [0x048#12, 0x058#12, 0x05C#12] ∨
        0x060#12 ≤ off &&& 0xFFC#12 ∧ off &&& 0xFFC#12 ≤ 0x07C#12) := by
  refine regAt_cases (P := fun r o => r.readLocked = true ↔
    (o ∈ [0x048#12, 0x058#12, 0x05C#12] ∨ 0x060#12 ≤ o ∧ o ≤ 0x07C#12)) (fun r hr => ?_)
    (fun o ho => ?_) off
  · cases r with
    | f i => revert i; decide
    | unmapped => exact absurd rfl hr
    | _ => decide
  · simp only [Reg.readLocked, Bool.false_eq_true, false_iff, List.mem_cons, List.not_mem_nil,
      or_false]
    bv_omega

/-- The offsets whose writes are refused while busy (`20_memory.md` R121). -/
theorem writeLocked_regAt (off : BitVec 12) :
    (regAt off).writeLocked = true ↔
      (off &&& 0xFFC#12 ∈ [0x014#12, 0x02C#12, 0x030#12, 0x040#12, 0x044#12, 0x048#12, 0x050#12,
          0x054#12, 0x058#12] ∨
        0x060#12 ≤ off &&& 0xFFC#12 ∧ off &&& 0xFFC#12 ≤ 0x07C#12) := by
  refine regAt_cases (P := fun r o => r.writeLocked = true ↔
    (o ∈ [0x014#12, 0x02C#12, 0x030#12, 0x040#12, 0x044#12, 0x048#12, 0x050#12, 0x054#12,
        0x058#12] ∨
      0x060#12 ≤ o ∧ o ≤ 0x07C#12)) (fun r hr => ?_) (fun o ho => ?_) off
  · cases r with
    | f i => revert i; decide
    | unmapped => exact absurd rfl hr
    | _ => decide
  · simp only [Reg.writeLocked, Bool.false_eq_true, false_iff, List.mem_cons, List.not_mem_nil,
      or_false]
    bv_omega

/-! ## Accesses that are refused or ignored -/

/-- While rst_n is 0 a read returns 0 (`70_reset_and_hazards.md` R450). -/
theorem hostRead_inReset (h : s.rstN = false) : hostRead off s = .next { s with prdata := 0#32 } :=
  if_pos h

/-- While rst_n is 0 a write is ignored (`70_reset_and_hazards.md` R450). -/
theorem hostWrite_inReset (h : s.rstN = false) : hostWrite off w s = s := if_pos h

/-- A read of a locked register while busy returns 0 and sets BERR (`20_memory.md` R121). -/
theorem hostRead_locked (hrst : s.rstN = true) (hbusy : s.busy = true)
    (hlock : (regAt off).readLocked = true) :
    hostRead off s = .next { s with berr := true, prdata := 0#32 } := by
  simp [hostRead, hrst, hbusy, hlock]

/-- A read of a register that is never locked, busy or not (`20_memory.md` R113, R121). -/
theorem hostRead_unlocked (hrst : s.rstN = true) (hreg : regAt off = r)
    (hopen : r.readLocked = false) : hostRead off s = .next { s with prdata := s.regValue r } :=
  hostRead_plain hrst hreg (by simp [hopen]) (by rintro rfl; cases hopen)
    (by rintro rfl; cases hopen)

/-- The registers the host cannot write (`10_state.md` R31–R52). -/
def Reg.readOnly : List Reg :=
  [.id, .hwcfg, .errcode, .errinfo, .param, .nval, .kval, .dstat, .rootcnt, .swapcnt, .pdeg]

/-- A write to a read-only register is ignored (`20_memory.md` R113). -/
theorem hostWrite_readOnly
    (h : off &&& 0xFFC#12 ∈ [0x000#12, 0x004#12, 0x018#12, 0x01C#12, 0x020#12, 0x024#12, 0x028#12,
      0x034#12, 0x038#12, 0x03C#12, 0x05C#12]) : hostWrite off w s = s := by
  obtain ⟨r, hr, hoff⟩ : ∃ r ∈ Reg.readOnly, r.offset = off &&& 0xFFC#12 := List.mem_map.mp h
  have hsame : r.writeLocked = false ∧ writeReg r w s = s := by
    simp only [Reg.readOnly, List.mem_cons, List.not_mem_nil, or_false] at hr
    rcases hr with rfl | rfl | rfl | rfl | rfl | rfl | rfl | rfl | rfl | rfl | rfl <;>
      exact ⟨rfl, rfl⟩
  cases hrst : s.rstN with
  | false => exact hostWrite_inReset hrst
  | true =>
    rw [hostWrite_open hrst (regAt_of_offset hoff.symm) (by simp [hsame.1]), hsame.2]

theorem regValue_withPrdata (s : State) (v : Word) (r : Reg) :
    State.regValue { s with prdata := v } r = s.regValue r := by cases r <;> rfl

/-- A read of any register but the data windows returns what it returns again, and changes nothing
but BERR where it is refused (`20_memory.md` R113, R121). -/
theorem hostRead_idempotent (hm : regAt off ≠ .mdata) (hp : regAt off ≠ .pcdata) :
    ∃ (v : Word) (refused : Bool), hostRead off s =
        .next { s with prdata := v, berr := s.berr || refused } ∧
      hostRead off { s with prdata := v, berr := s.berr || refused } =
        .next { s with prdata := v, berr := s.berr || refused } ∧
      (s.busy = false → refused = false) := by
  rcases Bool.eq_false_or_eq_true s.rstN with hrst | hrst
  · cases hlock : s.busy && (regAt off).readLocked with
    | false =>
      refine ⟨s.regValue (regAt off), false, ?_, ?_, fun _ => rfl⟩
      · rw [hostRead_plain hrst rfl hlock hm hp, Bool.or_false]
      · rw [Bool.or_false]
        refine (hostRead_plain (s := { s with prdata := _ }) hrst rfl hlock hm hp).trans ?_
        rw [regValue_withPrdata]
    | true =>
      obtain ⟨hbusy, hlock⟩ := Bool.and_eq_true_iff.mp hlock
      refine ⟨0#32, true, ?_, ?_, fun hidle => ?_⟩
      · rw [hostRead_locked hrst hbusy hlock, Bool.or_true]
      · rw [Bool.or_true]
        exact hostRead_locked (s := { s with prdata := 0#32, berr := true }) hrst hbusy hlock
      · exact absurd (hidle.symm.trans hbusy) Bool.false_ne_true
  · refine ⟨0#32, false, ?_, hostRead_inReset hrst, fun _ => rfl⟩
    rw [hostRead_inReset hrst, Bool.or_false]

/-! ## The fields of the plain registers -/

/-- The bits of IE (`10_state.md` R35). -/
theorem getLsbD_ieWord (s : State) (j : Nat) :
    s.ieWord.getLsbD j = (s.doneIE && decide (j = 0) || s.errIE && decide (j = 1)) := by
  simp [State.ieWord, getLsbD_flagBit]

/-- A field of a register is read at its own place. -/
theorem extractLsb'_field {n : Nat} (x : BitVec n) {k : Nat} (h : k + n ≤ 32) :
    (x.setWidth 32 <<< k).extractLsb' k n = x := by
  refine BitVec.eq_of_getLsbD_eq fun i hi => ?_
  have hwide : k + i < 32 ∧ i < 32 := by omega
  simp [hi, hwide]

/-- A field of a register leaves no bit in another's place. -/
theorem extractLsb'_field_of_disjoint {n : Nat} (x : BitVec n) {k j l : Nat}
    (h : j + l ≤ k ∨ k + n ≤ j) : (x.setWidth 32 <<< k).extractLsb' j l = 0#l := by
  refine BitVec.eq_of_getLsbD_eq fun i hi => ?_
  rcases h with h | h
  · have hlow : j + i < k := by omega
    simp [hlow]
  · have hhigh : x.getLsbD (j + i - k) = false := BitVec.getLsbD_of_ge x _ (by omega)
    simp [hhigh]

/-- The fields of ERRCODE (`10_state.md` R38). -/
theorem ErrCode.word_fields (e : ErrCode) :
    e.word.extractLsb' 0 8 = e.code ∧ e.word.extractLsb' 8 6 = e.opc ∧
      e.word.extractLsb' 14 3 = e.sub ∧ e.word.extractLsb' 17 15 = 0#15 := by
  have hword : e.word =
      e.code.setWidth 32 <<< 0 ||| e.opc.setWidth 32 <<< 8 ||| e.sub.setWidth 32 <<< 14 := by
    rw [BitVec.shiftLeft_zero]; rfl
  simp [hword, BitVec.extractLsb'_or, extractLsb'_field, extractLsb'_field_of_disjoint,
    -BitVec.shiftLeft_zero]

/-- The fields of DSTAT (`10_state.md` R43). -/
theorem Data.dstatWord_fields (d : Data) :
    d.dstatWord.extractLsb' 0 2 = d.degen ∧ d.dstatWord.extractLsb' 2 14 = 0#14 ∧
      d.dstatWord.extractLsb' 16 16 = d.iter := by
  have hword : d.dstatWord = d.iter.setWidth 32 <<< 16 ||| d.degen.setWidth 32 <<< 0 := by
    rw [BitVec.shiftLeft_zero]; rfl
  simp [hword, BitVec.extractLsb'_or, extractLsb'_field, extractLsb'_field_of_disjoint,
    -BitVec.shiftLeft_zero]

/-! ## The obligations -/

/-- Settles O18: by which registers are locked, and what a write to each of the others does. -/
theorem busyLockout : Obligations.BusyLockout := by
  intro s off w hrst hbusy
  have hwrite {r : Reg} (hreg : regAt off = r) (hopen : r.writeLocked = false) :
      hostWrite off w s = writeReg r w s := hostWrite_open hrst hreg (by simp [hopen]) w
  refine ⟨fun hoff => ?_, fun hoff => ?_, fun hoff => ?_, fun hoff hbit => ?_, fun hoff => ?_,
    fun hoff => ?_, fun hoff => ?_⟩
  · exact hostRead_locked hrst hbusy ((readLocked_regAt off).mpr hoff)
  · exact hostRead_unlocked hrst rfl (Bool.eq_false_iff.mpr (mt (readLocked_regAt off).mp hoff))
  · exact hostWrite_locked hrst rfl hbusy ((writeLocked_regAt off).mpr hoff) w
  · rw [hwrite (regAt_of_offset (r := .ctrl) hoff) rfl, writeReg_ctrl, if_pos hbit, State.softReset,
      hrst]
    rfl
  · exact (hwrite (regAt_of_offset (r := .status) hoff) rfl).trans (s.clearStatus_eq w)
  · exact hwrite (regAt_of_offset (r := .ie) hoff) rfl
  · rcases hoff with ⟨hoff, hbit⟩ | hoff | hoff
    · rw [hwrite (regAt_of_offset (r := .ctrl) hoff) rfl, writeReg_ctrl,
        if_neg (Bool.eq_false_iff.mp hbit)]
    · by_cases hun : off &&& 0xFFC#12 = 0x04C#12
      · exact hwrite (regAt_eq_unmapped_iff.mpr (.inl hun)) rfl
      · refine hostWrite_readOnly ?_
        simpa [hun] using hoff
    · exact hwrite (regAt_eq_unmapped_iff.mpr (.inr hoff)) rfl

/-- Settles O24: an access sees only the register, whose value does not depend on the last read. -/
theorem plainReadsHaveNoSideEffect : Obligations.PlainReadsHaveNoSideEffect := by
  intro s off w
  refine ⟨(hostRead_mask off s).symm, (hostWrite_mask off w s).symm, fun hmdata hpcdata => ?_,
    hostWrite_readOnly, fun hrst => ?_⟩
  · exact hostRead_idempotent (mt (regAt_eq_iff (r := .mdata) nofun).mp hmdata)
      (mt (regAt_eq_iff (r := .pcdata) nofun).mp hpcdata)
  · have hread (r : Reg) (hopen : r.readLocked = false) (hoff : off &&& 0xFFC#12 = r.offset) :
        hostRead off s = .next { s with prdata := s.regValue r } :=
      hostRead_unlocked hrst (regAt_of_offset hoff) hopen
    have hwrite (r : Reg) (hidle : s.busy = false) (hoff : off &&& 0xFFC#12 = r.offset) :
        hostWrite off w s = writeReg r w s :=
      hostWrite_open hrst (regAt_of_offset hoff) (by simp [hidle]) w
    refine ⟨hread .id rfl, fun hoff hlegal => ?_, hread .ctrl rfl, fun hoff => ⟨?_, ?_⟩,
      fun hoff => ?_, hread .errinfo rfl,
      fun hoff => ⟨hread .fmod rfl hoff, fun hidle => hwrite .fmod hidle hoff⟩,
      fun hoff => ⟨hread .clen rfl hoff, fun hidle => hwrite .clen hidle hoff⟩,
      fun hoff => ?_, hread .rootcnt rfl, hread .swapcnt rfl,
      fun hoff => ⟨hread .msel rfl hoff, fun hidle => hwrite .msel hidle hoff⟩,
      fun hoff => ⟨hread .midx rfl hoff, fun hidle => hwrite .midx hidle hoff⟩,
      fun hoff => ⟨hread .psel rfl hoff, fun hidle => hwrite .psel hidle hoff⟩,
      fun hoff => ⟨hread .pcidx rfl hoff, fun hidle => hwrite .pcidx hidle hoff⟩⟩
    · obtain ⟨-, hm, -, ht⟩ := hlegal
      rw [hread .hwcfg rfl hoff, State.regValue, hwcfgWord, paramLayout_eq (by omega) (by omega)]
    · refine ⟨s.ieWord, hread .ie rfl hoff, ?_, ?_, fun j hj => ?_⟩
      · rw [getLsbD_ieWord]; simp
      · rw [getLsbD_ieWord]; simp
      · have hne : j ≠ 0 ∧ j ≠ 1 := by omega
        simp [getLsbD_ieWord, hne]
    · exact hostWrite_open hrst (regAt_of_offset (r := .ie) hoff) (Bool.and_false _) w
    · exact ⟨s.errcode.word, hread .errcode rfl hoff, s.errcode.word_fields⟩
    · exact ⟨s.data.dstatWord, hread .dstat rfl hoff, s.data.dstatWord_fields⟩

end Sys2Proof.Machine
end

section
/-! SUPPORT. The polynomial port (`20_memory.md` R108, R109; `10_state.md` R49, R52): the register
PSEL selects, and the accesses in and out of range. -/

namespace Sys2Proof.Machine

variable {s : State} {off : BitVec 12} {r : Reg} {w : Word}

/-! ## Accesses to an idle block -/

theorem hostRead_pcdata (hrst : s.rstN = true) (hidle : s.busy = false)
    (hoff : off &&& 0xFFC#12 = 0x058#12) : hostRead off s = .next (readPcdata s) := by
  simp [hostRead, hrst, hidle, regAt_of_offset (r := .pcdata) hoff]

theorem hostWrite_idle (hrst : s.rstN = true) (hidle : s.busy = false)
    (hoff : off &&& 0xFFC#12 = r.offset) (w : Word) : hostWrite off w s = writeReg r w s :=
  hostWrite_open hrst (regAt_of_offset hoff) (by simp [hidle]) w

/-! ## The register PSEL selects (`10_state.md` R49) -/

section
variable {d : Data} {sel : BitVec 4} {i : RegIx}

theorem regIx_of_sel (h : sel.toNat = i.val) : Fin.ofNat 8 sel.toNat = i :=
  Fin.ext (by rw [h]; exact Nat.mod_eq_of_lt i.isLt)

theorem Data.polyAt_reg (d : Data) (h : sel.toNat = i.val) : d.polyAt sel = some (d.p.get i) := by
  rw [Data.polyAt, if_pos (h ▸ i.isLt), regIx_of_sel h]

theorem Data.setPolyAt_reg (d : Data) (h : sel.toNat = i.val) (q : Poly) :
    d.setPolyAt sel q = d.setP i q := by
  rw [Data.setPolyAt, if_pos (h ▸ i.isLt), regIx_of_sel h]

theorem Data.polyAt_gp (d : Data) (h : sel = 8#4) : d.polyAt sel = some d.gp := by subst h; rfl

theorem Data.setPolyAt_gp (d : Data) (h : sel = 8#4) (q : Poly) :
    d.setPolyAt sel q = { d with gp := q } := by subst h; rfl

theorem Data.polyAt_none (d : Data) (h : 9 ≤ sel.toNat) : d.polyAt sel = none := by
  rw [Data.polyAt, if_neg (by omega), if_neg (by omega)]

end

/-! ## PCDATA (`20_memory.md` R108, R109) -/

theorem State.polyTarget_of_le {c : Code} {p : Poly} (hc : s.data.cfg = some c)
    (hp : s.data.polyAt s.psel = some p) (hle : s.pcidx.toNat ≤ s.hw.tMax) :
    s.polyTarget = some (c, p) := by
  rw [State.polyTarget, hc, hp]
  exact if_pos hle

theorem State.polyTarget_none
    (h : s.data.cfg = none ∨ 9 ≤ s.psel.toNat ∨ s.hw.tMax < s.pcidx.toNat) :
    s.polyTarget = none := by
  by_contra hne
  obtain ⟨⟨c, p⟩, ht⟩ := Option.ne_none_iff_exists'.mp hne
  obtain ⟨hc, hp, hle⟩ := State.polyTarget_inv ht
  rcases h with h | h | h
  · rw [h] at hc; cases hc
  · rw [Data.polyAt_none _ h] at hp; cases hp
  · omega

/-- An access in range reads one coefficient, and writes it as one field element. -/
theorem pcdata_inRange {c : Code} {p : Poly} (ht : s.polyTarget = some (c, p)) (w : Word) :
    readPcdata s = { s with pcidx := s.pcidx + 1#11,
                            prdata := (p.getD s.pcidx.toNat 0#16).setWidth 32 } ∧
      writePcdata w s = { s with
        pcidx := s.pcidx + 1#11
        data := s.data.setPolyAt s.psel
          (Poly.setCoeff p s.pcidx.toNat (maskElem c.m (w.setWidth 16))) } := by
  rw [readPcdata, writePcdata, ht]
  exact ⟨rfl, rfl⟩

theorem pcdata_outOfRange (ht : s.polyTarget = none) (w : Word) :
    readPcdata s = { s with aerr := true, pcidx := s.pcidx + 1#11, prdata := 0#32 } ∧
      writePcdata w s = { s with aerr := true, pcidx := s.pcidx + 1#11 } := by
  rw [readPcdata, writePcdata, ht]
  exact ⟨rfl, rfl⟩

/-! ## PDEG (`10_state.md` R52) -/

theorem degField_word (p : Poly) :
    (degField (Poly.deg p)).setWidth 32 =
      if p = [] then 0x0000FFFF#32 else (BitVec.ofNat 16 (p.length - 1)).setWidth 32 := by
  cases p <;> rfl

theorem State.pdegWord_some {p : Poly} (h : s.data.polyAt s.psel = some p) :
    s.pdegWord =
      if p = [] then 0x0000FFFF#32 else (BitVec.ofNat 16 (p.length - 1)).setWidth 32 := by
  rw [State.pdegWord, h]
  exact degField_word p

theorem State.pdegWord_none (h : s.data.polyAt s.psel = none) : s.pdegWord = 0x0000FFFF#32 := by
  rw [State.pdegWord, h]

/-! ## The obligation -/

/-- Settles O28: the register PSEL selects, and one coefficient of it set. -/
theorem polynomialPort : Obligations.PolynomialPort := by
  intro s off w hrst hidle
  refine ⟨fun hoff => ?_, fun hoff => ?_⟩
  · have hread := hostRead_pcdata hrst hidle hoff
    have hwrite : hostWrite off w s = writePcdata w s :=
      hostWrite_idle (r := .pcdata) hrst hidle hoff w
    have hset (p : Poly) (j : Nat) (v : Elem) :
        (Poly.setCoeff p j v).getLast? ≠ some 0#16 ∧
          ∀ i, (Poly.setCoeff p j v).getD i 0#16 = if i = j then v else p.getD i 0#16 :=
      ⟨Poly.canonical_ofCoeffs _, fun i => Poly.getD_setCoeff p j i v⟩
    refine ⟨fun c hc hle => ⟨fun i hi => ?_, fun hgp => ?_⟩, fun hout => ?_⟩
    · obtain ⟨hr, hw⟩ := pcdata_inRange (State.polyTarget_of_le hc (s.data.polyAt_reg hi) hle) w
      refine ⟨by rw [hread, hr], _, ?_, hset _ _ _⟩
      rw [hwrite, hw, s.data.setPolyAt_reg hi]
      rfl
    · obtain ⟨hr, hw⟩ := pcdata_inRange (State.polyTarget_of_le hc (s.data.polyAt_gp hgp) hle) w
      refine ⟨by rw [hread, hr], _, ?_, hset _ _ _⟩
      rw [hwrite, hw, s.data.setPolyAt_gp hgp]
      rfl
    · obtain ⟨hr, hw⟩ := pcdata_outOfRange (State.polyTarget_none hout) w
      exact ⟨by rw [hread, hr], by rw [hwrite, hw]⟩
  · have hread : hostRead off s = .next { s with prdata := s.pdegWord } :=
      hostRead_plain hrst (regAt_of_offset (r := .pdeg) hoff) (by simp [hidle]) nofun nofun
    refine ⟨fun i hi => ?_, fun hgp => ?_, fun hnone => ?_⟩
    · rw [hread, State.pdegWord_some (s.data.polyAt_reg hi)]
    · rw [hread, State.pdegWord_some (s.data.polyAt_gp hgp)]
    · rw [hread, State.pdegWord_none (s.data.polyAt_none hnone)]

end Sys2Proof.Machine
end

section
/-! SUPPORT. The memory port (`20_memory.md` R104–R110): the memory MSEL selects and its words, and
what reading and writing a word does to them. -/

namespace Sys2Proof.Machine

/-! ## The memory MSEL selects (`20_memory.md` R104) -/

section
variable {c : Code} {sel : BitVec 4}

/-- The table of sizes in words is the memories' own (`20_memory.md` R104). -/
theorem portWords_of_memOfSel {id : MemId} (h : memOfSel sel = some id) :
    portWords c sel.toNat = c.wordCount id := by
  unfold memOfSel at h
  split at h <;> cases h
  all_goals
    next hsel =>
    simp [hsel, portWords, Code.wordCount, Code.elemCount, Code.rows, Code.cols, rowWords, Code.n,
      Code.k, Code.mt]

theorem portWords_of_none (h : memOfSel sel = none) : portWords c sel.toNat = 0 := by
  unfold memOfSel at h
  split at h
  case h_13 => simp only [portWords]
  all_goals cases h

/-- The storage bits of a memory of field elements or indices (`20_memory.md` R109). -/
theorem portMask_elem {e : ElemMem} (h : memOfSel sel = some (.elem e)) (i : Nat) :
    portMask c sel.toNat i = BitVec.ofNat 32 (2 ^ c.m - 1) := by
  unfold memOfSel at h
  split at h <;> cases h
  all_goals
    next hsel => simp [hsel, portMask]

/-- The storage bits of a memory of bits (`20_memory.md` R110). -/
theorem portMask_bit {b : BitMem} (h : memOfSel sel = some (.bit b)) (i : Nat) :
    portMask c sel.toNat i = BitVec.ofNat 32 (2 ^ c.wordBits b i - 1) := by
  unfold memOfSel at h
  split at h <;> cases h
  all_goals
    next hsel => simp [hsel, portMask, Code.wordBits, Code.cols, rowWords, Code.n, Code.k, Code.mt]

theorem memOfSel_injective {a b : BitVec 4} {id : MemId} (ha : memOfSel a = some id)
    (hb : memOfSel b = some id) : a = b := by
  have hall : ∀ a b : BitVec 4, memOfSel a ≠ none → memOfSel a = memOfSel b → a = b := by decide
  exact hall a b (by simp [ha]) (ha.trans hb.symm)

end

/-! ## Words -/

theorem getLsbD_wordOfBits (bs : List Bool) {j : Nat} (hj : j < 32) :
    (wordOfBits bs).getLsbD j = bs.getD j false := by
  induction bs generalizing j with
  | nil => simp [wordOfBits]
  | cons b bs ih =>
    rw [wordOfBits, BitVec.getLsbD_or, BitVec.getLsbD_shiftLeft]
    cases j with
    | zero => cases b <;> simp
    | succ j =>
      have hlow : (if b then 1#32 else 0#32).getLsbD (j + 1) = false := by cases b <;> simp
      rw [hlow, Nat.add_sub_cancel, ih (by omega)]
      simp [hj]

theorem getLsbD_wordOfBits_map (v : Nat → Bool) (k : Nat) {j : Nat} (hj : j < 32) :
    (wordOfBits ((List.range k).map v)).getLsbD j = (decide (j < k) && v j) := by
  rw [getLsbD_wordOfBits _ hj, List.getD_eq_getElem?_getD]
  by_cases hk : j < k <;> simp [hk]

theorem getLsbD_lowMask {n : Nat} (k j : Nat) :
    (BitVec.ofNat n (2 ^ k - 1)).getLsbD j = (decide (j < n) && decide (j < k)) := by
  rw [BitVec.getLsbD_ofNat, Nat.testBit_two_pow_sub_one]

/-- Storing the low bits of a word keeps those bits (`20_memory.md` R110). -/
theorem wordOfBits_bitsOfWord (w : Word) (k : Nat) :
    wordOfBits (bitsOfWord w k) = w &&& BitVec.ofNat 32 (2 ^ k - 1) := by
  refine BitVec.eq_of_getLsbD_eq fun j hj => ?_
  rw [bitsOfWord, getLsbD_wordOfBits_map _ _ hj, BitVec.getLsbD_and, getLsbD_lowMask]
  simp [hj, Bool.and_comm]

/-- Storing the low m bits of a word keeps those bits (`20_memory.md` R109). -/
theorem setWidth_maskElem {m : Nat} (hm : m ≤ 16) (w : Word) :
    (maskElem m (w.setWidth 16)).setWidth 32 = w &&& BitVec.ofNat 32 (2 ^ m - 1) := by
  refine BitVec.eq_of_getLsbD_eq fun j hj => ?_
  rw [BitVec.getLsbD_setWidth, maskElem, BitVec.getLsbD_and, BitVec.getLsbD_and, getLsbD_lowMask,
    getLsbD_lowMask, BitVec.getLsbD_setWidth]
  by_cases hk : j < m
  · have h16 : j < 16 := by omega
    simp [hk, hj, h16]
  · simp [hk]

/-! ## The bits of a word of a memory of bits (`20_memory.md` R104, R110) -/

theorem Code.lt_wordBits_iff {c : Code} {id : BitMem} {i j : Nat} :
    j < c.wordBits id i ↔ j < 32 ∧ 32 * (i % rowWords (c.cols id)) + j < c.cols id := by
  rw [Code.wordBits]
  omega

/-- The number of an element says which word it lies in. -/
theorem Code.word_of_element {c : Code} {id : BitMem} {i j : Nat} (hj : j < c.wordBits id i) :
    (c.wordBase id i + j) / c.cols id * rowWords (c.cols id) +
      (c.wordBase id i + j) % c.cols id / 32 = i := by
  obtain ⟨h32, hcols⟩ := Code.lt_wordBits_iff.mp hj
  have hbase : c.wordBase id i + j =
      32 * (i % rowWords (c.cols id)) + j + i / rowWords (c.cols id) * c.cols id := by
    rw [Code.wordBase]; omega
  have hword : (32 * (i % rowWords (c.cols id)) + j) / 32 = i % rowWords (c.cols id) := by omega
  rw [hbase, Nat.add_mul_div_right _ _ (by omega), Nat.add_mul_mod_self_right,
    Nat.div_eq_of_lt hcols, Nat.mod_eq_of_lt hcols, hword, Nat.zero_add, Nat.mul_comm]
  exact Nat.div_add_mod i _

/-- Different words share no element. -/
theorem Code.words_disjoint {c : Code} {id : BitMem} {i i' j j' : Nat} (hne : i' ≠ i)
    (hj : j < c.wordBits id i) (hj' : j' < c.wordBits id i') :
    c.wordBase id i' + j' ≠ c.wordBase id i + j := fun h =>
  hne (by rw [← Code.word_of_element hj', h, Code.word_of_element hj])

/-! ## Reading a word (`20_memory.md` R105) -/

section
variable {c : Code} {d : Data} {i : Nat}

theorem readPortWord_elem {e : ElemMem} {v : Elem} (h : (d.mems.elem e).read i = some v) :
    readPortWord c d (.elem e) i = .ok (v.setWidth 32) := by
  rw [readPortWord, readElem_ok h, ok_bind]

theorem readPortWord_elem_unwritten {e : ElemMem} (h : (d.mems.elem e).read i = none) :
    readPortWord c d (.elem e) i = .error (.unwritten (.elem e) i) := by
  rw [readPortWord, readElem_unwritten h, error_bind]

theorem readPortWord_bit {b : BitMem} {v : Nat → Bool}
    (h : ∀ j, j < c.wordBits b i → (d.mems.bit b).read (c.wordBase b i + j) = some (v j)) :
    readPortWord c d (.bit b) i = .ok (wordOfBits ((List.range (c.wordBits b i)).map v)) := by
  rw [readPortWord, collect_ok fun j hj => readBit_ok (h j hj), ok_bind]

/-- `collect` stops where one of its indices does. -/
theorem collectFrom_eq_error {α : Type} {g : Nat → Run α} {e : Stop} {cnt i : Nat}
    (h : collectFrom g cnt i = .error e) : ∃ j, g j = .error e := by
  induction cnt generalizing i with
  | zero => cases h
  | succ cnt ih =>
    rcases bind_eq_error.mp h with h | ⟨v, -, h⟩
    · exact ⟨i, h⟩
    · rcases bind_eq_error.mp h with h | ⟨vs, -, h⟩
      · exact ih h
      · cases h

theorem readBit_error {b : BitMem} {e : Stop} (h : readBit d b i = .error e) :
    e = .unwritten (.bit b) i := by
  unfold readBit at h
  split at h <;> cases h
  rfl

theorem readPortWord_bit_unwritten {b : BitMem} {j : Nat} (hj : j < c.wordBits b i)
    (h : (d.mems.bit b).read (c.wordBase b i + j) = none) :
    ∃ e, readPortWord c d (.bit b) i = .error (.unwritten (.bit b) e) := by
  obtain ⟨id, e, he⟩ := collect_unwritten (g := fun j => readBit d b (c.wordBase b i + j))
    (fun j => readBit_reads d b _) hj ⟨_, _, readBit_unwritten h⟩
  obtain ⟨j', hj'⟩ := collectFrom_eq_error he
  cases readBit_error hj'
  exact ⟨_, by rw [readPortWord, he, error_bind]⟩

theorem collectFrom_congr {α : Type} {g g' : Nat → Run α} {cnt i : Nat}
    (h : ∀ j, i ≤ j → j < i + cnt → g j = g' j) : collectFrom g cnt i = collectFrom g' cnt i := by
  induction cnt generalizing i with
  | zero => rfl
  | succ cnt ih =>
    rw [collectFrom, collectFrom, h i (Nat.le_refl i) (by omega),
      ih fun j h1 h2 => h j (by omega) (by omega)]

/-- A word depends on its own elements only. -/
theorem readPortWord_elem_congr {d' : Data} {e : ElemMem}
    (h : (d'.mems.elem e).read i = (d.mems.elem e).read i) :
    readPortWord c d' (.elem e) i = readPortWord c d (.elem e) i := by
  have helem : readElem d' e i = readElem d e i := by unfold readElem; rw [h]
  rw [readPortWord, readPortWord, helem]

theorem readPortWord_bit_congr {d' : Data} {b : BitMem}
    (h : ∀ j, j < c.wordBits b i → (d'.mems.bit b).read (c.wordBase b i + j) =
      (d.mems.bit b).read (c.wordBase b i + j)) :
    readPortWord c d' (.bit b) i = readPortWord c d (.bit b) i := by
  have hbits : collect (c.wordBits b i) (fun j => readBit d' b (c.wordBase b i + j)) =
      collect (c.wordBits b i) (fun j => readBit d b (c.wordBase b i + j)) :=
    collectFrom_congr fun j _ hj => by unfold readBit; rw [h j (by omega)]
  rw [readPortWord, readPortWord, hbits]

/-! ## Writing a word (`20_memory.md` R107, R109) -/

/-- A write changes nothing but the memories. -/
theorem writePortWord_eq (c : Code) (d : Data) (id : MemId) (i : Nat) (w : Word) :
    writePortWord c d id i w = { d with mems := (writePortWord c d id i w).mems } := by
  cases id <;> rfl

theorem elem_writePortWord (c : Code) (d : Data) (e e' : ElemMem) (i j : Nat) (w : Word) :
    ((writePortWord c d (.elem e) i w).mems.elem e').read j =
      if e' = e ∧ j = i then some (maskElem c.m (w.setWidth 16)) else (d.mems.elem e').read j := by
  rw [writePortWord, Data.withElem_mems, Memories.elem_setElem]
  by_cases he : e' = e
  · subst he
    simp [Memory.read_write]
  · simp [he]

theorem bit_writePortWord (c : Code) (d : Data) (b b' : BitMem) (i j : Nat) (w : Word) :
    ((writePortWord c d (.bit b) i w).mems.bit b').read j =
      if b' = b ∧ c.wordBase b i ≤ j ∧ j < c.wordBase b i + c.wordBits b i
      then some (w.getLsbD (j - c.wordBase b i)) else (d.mems.bit b').read j := by
  rw [writePortWord, Data.withBit_mems, Memories.bit_setBit]
  by_cases hb : b' = b
  · subst hb
    rw [if_pos rfl, Memory.read_writeRange, bitsOfWord, List.length_map, List.length_range]
    simp only [true_and]
    split
    · next hin =>
      have hlt : j - c.wordBase b' i < c.wordBits b' i := by omega
      simp [hlt]
    · rfl
  · simp [hb]

/-- What was written is read back, on the storage bits (`20_memory.md` R105, R107, R109, R110). -/
theorem readPortWord_writePortWord_same {sel : BitVec 4} {id : MemId}
    (hsel : memOfSel sel = some id) (hm : c.m ≤ 16) (w : Word) :
    readPortWord c (writePortWord c d id i w) id i = .ok (w &&& portMask c sel.toNat i) := by
  cases id with
  | elem e =>
    rw [readPortWord_elem ((elem_writePortWord c d e e i i w).trans (if_pos ⟨rfl, rfl⟩)),
      setWidth_maskElem hm, portMask_elem hsel]
  | bit b =>
    have hbits (j : Nat) (hj : j < c.wordBits b i) :
        ((writePortWord c d (.bit b) i w).mems.bit b).read (c.wordBase b i + j) =
          some (w.getLsbD j) := by
      rw [bit_writePortWord, if_pos ⟨rfl, by omega, by omega⟩, Nat.add_sub_cancel_left]
    rw [readPortWord_bit hbits, portMask_bit hsel]
    exact congrArg _ (wordOfBits_bitsOfWord w _)

/-- Every other word is read as before (`20_memory.md` R107). -/
theorem readPortWord_writePortWord_other {id id' : MemId} {j : Nat} (w : Word)
    (h : id' ≠ id ∨ j ≠ i) :
    readPortWord c (writePortWord c d id i w) id' j = readPortWord c d id' j := by
  cases id' with
  | elem e' =>
    refine readPortWord_elem_congr ?_
    cases id with
    | elem e =>
      refine (elem_writePortWord c d e e' i j w).trans (if_neg fun ⟨he, hj⟩ => ?_)
      exact h.elim (· (congrArg _ he)) (· hj)
    | bit b => exact congrArg (Memory.read · j) (Memories.elem_setBit _ _ _ _)
  | bit b' =>
    refine readPortWord_bit_congr fun l hl => ?_
    cases id with
    | elem e => exact congrArg (Memory.read · _) (Memories.bit_setElem _ _ _ _)
    | bit b =>
      refine (bit_writePortWord c d b b' i _ w).trans (if_neg fun ⟨hb, hge, hlt⟩ => ?_)
      subst hb
      have hne : j ≠ i := h.resolve_left (· rfl)
      exact Code.words_disjoint hne (j := c.wordBase b' j + l - c.wordBase b' i) (by omega) hl
        (by omega)

end

/-! ## MDATA on an idle block (`20_memory.md` R105–R107) -/

section
variable {s : State} {off : BitVec 12} {c : Code}

theorem hostRead_mdata (hrst : s.rstN = true) (hidle : s.busy = false)
    (hoff : off &&& 0xFFC#12 = 0x048#12) : hostRead off s = readMdata s := by
  simp [hostRead, hrst, hidle, regAt_of_offset (r := .mdata) hoff]

theorem hostWrite_mdata (hrst : s.rstN = true) (hidle : s.busy = false)
    (hoff : off &&& 0xFFC#12 = 0x048#12) (w : Word) : hostWrite off w s = writeMdata w s :=
  hostWrite_idle (r := .mdata) hrst hidle hoff w

theorem State.portTarget_of_lt (hc : s.data.cfg = some c)
    (hlt : s.midx.toNat < portWords c s.msel.toNat) :
    ∃ id, memOfSel s.msel = some id ∧ s.portTarget = some (c, id) := by
  cases hsel : memOfSel s.msel with
  | none => rw [portWords_of_none hsel] at hlt; omega
  | some id =>
    rw [portWords_of_memOfSel hsel] at hlt
    refine ⟨id, rfl, ?_⟩
    rw [State.portTarget, hc, hsel]
    exact if_pos hlt

theorem State.portTarget_none (h : s.data.cfg = none ∨
    ∃ c, s.data.cfg = some c ∧ portWords c s.msel.toNat ≤ s.midx.toNat) : s.portTarget = none := by
  rcases h with h | ⟨c, hc, hle⟩
  · rw [State.portTarget, h]
  · cases hsel : memOfSel s.msel with
    | none => rw [State.portTarget, hc, hsel]
    | some id =>
      rw [portWords_of_memOfSel hsel] at hle
      rw [State.portTarget, hc, hsel]
      exact if_neg (by omega)

theorem readMdata_ok {id : MemId} {x : Word} (ht : s.portTarget = some (c, id))
    (h : readPortWord c s.data id s.midx.toNat = .ok x) :
    readMdata s = .next { s with midx := s.midx + 1#27, prdata := x } := by
  rw [readMdata, ht]
  simp only [h]

theorem readMdata_unwritten {id mem : MemId} {e : Nat} (ht : s.portTarget = some (c, id))
    (h : readPortWord c s.data id s.midx.toNat = .error (.unwritten mem e)) :
    readMdata s = .fault (.unwritten mem e) := by
  rw [readMdata, ht]
  simp only [h]

end

/-! ## The obligations -/

/-- Settles O25: such an access reaches no word. -/
theorem outOfRangeMdata : Obligations.OutOfRangeMdata := by
  intro s off w hrst hidle hoff hout
  have ht := State.portTarget_none hout
  refine ⟨?_, ?_⟩
  · rw [hostRead_mdata hrst hidle hoff, readMdata, ht]
  · rw [hostWrite_mdata hrst hidle hoff, writeMdata, ht]

/-- Settles O26: the words of a memory share no element, and each element keeps its storage bits. -/
theorem mdataWriteThenRead : Obligations.MdataWriteThenRead := by
  intro s off w c hhw hlegal hrst hidle hoff hc hlt
  obtain ⟨id, hsel, ht⟩ := State.portTarget_of_lt hc hlt
  have hm : c.m ≤ 16 := by
    obtain ⟨-, hmax, -⟩ := hhw
    obtain ⟨-, hm, -⟩ := hlegal
    omega
  have hdata := writePortWord_eq c s.data id s.midx.toNat w
  generalize (writePortWord c s.data id s.midx.toNat w).mems = ms at hdata
  refine ⟨ms, ?_, ?_, fun sel id' j hsel' hne _ => ?_⟩
  · rw [hostWrite_mdata hrst hidle hoff, writeMdata, ht, ← hdata]
  · refine (hostRead_mdata (s := { s with data := { s.data with mems := ms } }) hrst hidle
      hoff).trans (readMdata_ok ht ?_)
    rw [← hdata]
    exact readPortWord_writePortWord_same hsel hm w
  · rw [← hdata]
    refine readPortWord_writePortWord_other w (hne.imp_left fun hne hid => hne ?_)
    exact memOfSel_injective hsel' (hid ▸ hsel)

/-- Settles O27: each MSEL value names a memory and its row length, and a word is read element by
element. -/
theorem mdataReadLayout : Obligations.MdataReadLayout := by
  intro s off c hrst hidle hoff hc hlt
  obtain ⟨id', hsel', ht⟩ := State.portTarget_of_lt hc hlt
  have hread := hostRead_mdata hrst hidle hoff
  refine ⟨fun id mem hmem => ?_, fun id mem cols hmem => ?_⟩
  · have hsel : memOfSel s.msel = some (.elem id) ∧ mem = s.data.mems.elem id := by
      rcases hmem with ⟨h, rfl, rfl⟩ | ⟨h, rfl, rfl⟩ | ⟨h, rfl, rfl⟩ | ⟨h, rfl, rfl⟩ <;>
        exact ⟨h ▸ rfl, rfl⟩
    obtain ⟨hsel, rfl⟩ := hsel
    cases hsel'.symm.trans hsel
    refine ⟨fun v hv => ?_, fun hv => ?_⟩
    · rw [hread, readMdata_ok ht (readPortWord_elem hv)]
    · rw [hread, readMdata_unwritten ht (readPortWord_elem_unwritten hv)]
  · have hsel : memOfSel s.msel = some (.bit id) ∧ mem = s.data.mems.bit id ∧ cols = c.cols id := by
      rcases hmem with ⟨h, rfl, rfl, rfl⟩ | ⟨h, rfl, rfl, rfl⟩ | ⟨h, rfl, rfl, rfl⟩ |
        ⟨h, rfl, rfl, rfl⟩ | ⟨h, rfl, rfl, rfl⟩ | ⟨h, rfl, rfl, rfl⟩ | ⟨h, rfl, rfl, rfl⟩ |
        ⟨h, rfl, rfl, rfl⟩ <;> exact ⟨h ▸ rfl, rfl, rfl⟩
    obtain ⟨hsel, rfl, rfl⟩ := hsel
    cases hsel'.symm.trans hsel
    refine ⟨fun v hv => ?_, fun b hb hcols hnone => ?_⟩
    · refine ⟨_, hread.trans (readMdata_ok ht (readPortWord_bit (v := v) fun j hj => ?_)),
        fun b hb => ?_⟩
      · obtain ⟨h32, hcols⟩ := Code.lt_wordBits_iff.mp hj
        exact hv j h32 hcols
      · rw [getLsbD_wordOfBits_map v _ hb]
        simp only [Code.lt_wordBits_iff, hb, true_and]
        rfl
    · obtain ⟨e, he⟩ :=
        readPortWord_bit_unwritten (c := c) (Code.lt_wordBits_iff.mpr ⟨hb, hcols⟩) hnone
      exact ⟨e, hread.trans (readMdata_unwritten ht he)⟩

end Sys2Proof.Machine
end

section
/-! SUPPORT. The decoder and the encoder as inverses (`30_encoding.md` R151–R158): a word is its
fields, and on fields that pass the checks of R156 the opcode map and the encoder's table undo each
other. -/

namespace Sys2Proof

/-! ## A word and its fields (`30_encoding.md` R151) -/

theorem fieldsOf_fit (w : Word) : (fieldsOf w).fit :=
  ⟨BitVec.isLt _, BitVec.isLt _, BitVec.isLt _, BitVec.isLt _, BitVec.isLt _, BitVec.isLt _⟩

theorem packFields_fieldsOf (w : Word) : packFields (fieldsOf w) = w := by
  refine BitVec.eq_of_toNat_eq ?_
  rw [packFields_toNat _ (fieldsOf_fit w)]
  simp only [fieldsOf, extractLsb_toNat, Nat.reducePow, Nat.reduceSub, Nat.reduceAdd]
  have := w.isLt
  omega

theorem fieldsOf_injective : Function.Injective fieldsOf :=
  Function.LeftInverse.injective packFields_fieldsOf

/-- The fields of a masked word are the masked fields. -/
theorem fieldsOf_and (v w : Word) : fieldsOf (v &&& w) =
    { opc := (fieldsOf v).opc &&& (fieldsOf w).opc, rd := (fieldsOf v).rd &&& (fieldsOf w).rd,
      ra := (fieldsOf v).ra &&& (fieldsOf w).ra, rb := (fieldsOf v).rb &&& (fieldsOf w).rb,
      z16 := (fieldsOf v).z16 &&& (fieldsOf w).z16,
      imm := (fieldsOf v).imm &&& (fieldsOf w).imm } := by
  simp only [fieldsOf, BitVec.extractLsb, BitVec.extractLsb'_and, BitVec.toNat_and]

@[simp] theorem regOf_val (r : RegIx) : regOf r.val = r := Fin.ofNat_val_eq_self r

@[simp] theorem regOf_zero : regOf 0 = 0 := rfl

theorem val_regOf {n : Nat} (h : n < 8) : (regOf n).val = n := Nat.mod_eq_of_lt h

/-! ## The decoder's checks (`30_encoding.md` R156) -/

/-- The fields pass every check of R156. -/
structure Fields.Legal (fmt : Format) (x : Fields) : Prop where
  z16 : x.z16 = 0
  rd : fmt.usesRd = false → x.rd = 0
  ra : fmt.usesRa = false → x.ra = 0
  rb : fmt.usesRb = false → x.rb = 0
  imm : fmt.usesImm = false → x.imm = 0
  table : x.opc = 0x02 → x.imm / 2 = 0

theorem fieldFault_eq_none_iff {fmt : Format} {x : Fields} :
    fieldFault fmt x = none ↔ x.Legal fmt := by
  rw [fieldFault]
  refine ⟨fun h => ?_, fun ⟨hz, hd, ha, hb, hi, ht⟩ => ?_⟩
  · split_ifs at h with hz hd ha hb hi ht
    exact ⟨not_not.mp hz, fun hu => not_not.mp (not_and.mp hd hu),
      fun hu => not_not.mp (not_and.mp ha hu), fun hu => not_not.mp (not_and.mp hb hu),
      fun hu => not_not.mp (not_and.mp hi hu), fun hc => not_not.mp (not_and.mp ht hc)⟩
  · rw [if_neg (not_not.mpr hz), if_neg fun h => h.2 (hd h.1), if_neg fun h => h.2 (ha h.1),
      if_neg fun h => h.2 (hb h.1), if_neg fun h => h.2 (hi h.1), if_neg fun h => h.2 (ht h.1)]

theorem decodeWord_eq_ok_iff {w : Word} {i : Instr} :
    decodeWord w = .ok i ↔ instrOf (fieldsOf w) = some i ∧ (fieldsOf w).Legal i.format := by
  rw [← fieldFault_eq_none_iff, decodeWord]
  cases instrOf (fieldsOf w) with
  | none => simp
  | some j =>
    simp only [Option.some.injEq]
    constructor
    · intro h
      split at h
      next => nomatch h
      next hf => cases h; exact ⟨rfl, hf⟩
    · rintro ⟨rfl, hf⟩
      rw [hf]

/-! ## Encoding and decoding -/

theorem instrOf_fields {i : Instr} (h : i.wellFormed = true) : instrOf i.fields = some i := by
  cases i
  case config m t =>
    obtain ⟨hm, -⟩ : m < 32 ∧ t < 2048 := by simpa [Instr.wellFormed] using h
    have hmod : (t * 32 + m) % 32 = m := by omega
    have hdiv : (t * 32 + m) / 32 = t := by omega
    simp [Instr.fields, formI, instrOf, hmod, hdiv]
  case chkperm tab => cases tab <;> rfl
  all_goals simp [Instr.fields, formZ, formR, formI, instrOf]

theorem fields_legal (i : Instr) : i.fields.Legal i.format := by
  cases i
  case chkperm tab => cases tab <;> constructor <;> decide
  all_goals
    constructor <;>
      simp [Instr.fields, formZ, formR, formI, Instr.format, Format.usesRd, Format.usesRa,
        Format.usesRb, Format.usesImm]

/-- No field of a legal word is lost: the encoder's table gives the command's fields back. -/
theorem fields_of_instrOf {x : Fields} {i : Instr} (hx : x.fit) (hi : instrOf x = some i)
    (hl : x.Legal i.format) : i.wellFormed = true ∧ i.fields = x := by
  obtain ⟨opc, rd, ra, rb, z16, imm⟩ := x
  obtain ⟨-, hrd, hra, hrb, -, himm⟩ := hx
  obtain ⟨hz, hd, ha, hb, hunused, htable⟩ := hl
  simp only [instrOf] at *
  split at hi <;> cases hi
  case h_2.refl => -- CONFIG: m and t are the digits of IMM
    have hdigits : imm / 32 * 32 + imm % 32 = imm := Nat.div_add_mod' imm 32
    have ht : imm / 32 < 2048 := by omega
    simp_all [Instr.wellFormed, Instr.fields, Instr.format, Format.usesRd, Format.usesRa,
      Format.usesRb, formI, Nat.mod_lt]
  case h_3.refl => -- CHKPERM: IMM is 0 or 1
    have hbit : (if imm % 2 = 0 then Table.pidx else Table.swp).bit = imm := by
      have : imm < 2 := by have := htable rfl; omega
      interval_cases imm <;> rfl
    simp_all [Instr.wellFormed, Instr.fields, Instr.format, Format.usesRd, Format.usesRa,
      Format.usesRb, formI]
  all_goals
    simp_all [Instr.wellFormed, Instr.fields, Instr.format, Format.usesRd, Format.usesRa,
      Format.usesRb, Format.usesImm, formZ, formR, formI, val_regOf]

theorem fieldsOf_encode : ∀ i : Instr, i.wellFormed = true → fieldsOf (encode i) = i.fields
  | .nop => Laws.EncodedFields.nop
  | .config m t => Laws.EncodedFields.config m t
  | .chkperm tab => Laws.EncodedFields.chkperm tab
  | .fldi fd imm => Laws.EncodedFields.fldi fd imm
  | .fadd fd fa fb => Laws.EncodedFields.fadd fd fa fb
  | .fmul fd fa fb => Laws.EncodedFields.fmul fd fa fb
  | .finv fd fa => Laws.EncodedFields.finv fd fa
  | .fpow fd fa imm => Laws.EncodedFields.fpow fd fa imm
  | .fldl fd imm => Laws.EncodedFields.fldl fd imm
  | .pclr pd => Laws.EncodedFields.pclr pd
  | .pmov pd pa => Laws.EncodedFields.pmov pd pa
  | .pldg pd => Laws.EncodedFields.pldg pd
  | .pldt pd imm => Laws.EncodedFields.pldt pd imm
  | .pconst pd fa => Laws.EncodedFields.pconst pd fa
  | .psetc pd fa imm => Laws.EncodedFields.psetc pd fa imm
  | .pgetc fd pa imm => Laws.EncodedFields.pgetc fd pa imm
  | .padd pd pa pb => Laws.EncodedFields.padd pd pa pb
  | .pmul pd pa pb => Laws.EncodedFields.pmul pd pa pb
  | .pmulm pd pa pb => Laws.EncodedFields.pmulm pd pa pb
  | .pmod pd pa => Laws.EncodedFields.pmod pd pa
  | .pdivq pd pa pb => Laws.EncodedFields.pdivq pd pa pb
  | .pdivr pd pa pb => Laws.EncodedFields.pdivr pd pa pb
  | .pinvm pd pa => Laws.EncodedFields.pinvm pd pa
  | .psqrm pd pa => Laws.EncodedFields.psqrm pd pa
  | .psqrt pd pa => Laws.EncodedFields.psqrt pd pa
  | .pshl pd pa imm => Laws.EncodedFields.pshl pd pa imm
  | .pscl pd pa fb => Laws.EncodedFields.pscl pd pa fb
  | .peval fd pa fb => Laws.EncodedFields.peval fd pa fb
  | .psetg pa => Laws.EncodedFields.psetg pa
  | .permc => Laws.EncodedFields.permc
  | .synd => Laws.EncodedFields.synd
  | .locator => Laws.EncodedFields.locator
  | .keyeq => Laws.EncodedFields.keyeq
  | .roots => Laws.EncodedFields.roots
  | .extract => Laws.EncodedFields.extract
  | .unscr => Laws.EncodedFields.unscr
  | .decode => Laws.EncodedFields.decode
  | .lgen fa => Laws.EncodedFields.lgen fa
  | .pstgen => Laws.EncodedFields.pstgen
  | .hgen => Laws.EncodedFields.hgen
  | .sysform => Laws.EncodedFields.sysform
  | .gextract => Laws.EncodedFields.gextract

/-! ## The obligations -/

/-- Settles O2: the word's fields are the command's, they pass the checks, and the opcode map reads
the command from them. -/
theorem encodeThenDecode : Obligations.EncodeThenDecode := fun i h => by
  rw [decodeWord_eq_ok_iff, fieldsOf_encode i h]
  exact ⟨instrOf_fields h, fields_legal i⟩

/-- Settles O3: the command decoded from a legal word has the word's fields. -/
theorem legalWordIsTheOneEncoding : Obligations.LegalWordIsTheOneEncoding := fun w i h => by
  obtain ⟨hi, hl⟩ := decodeWord_eq_ok_iff.mp h
  obtain ⟨hwf, hfields⟩ := fields_of_instrOf (fieldsOf_fit w) hi hl
  exact ⟨hwf, by rw [encode, hfields, packFields_fieldsOf]⟩

/-- Settles O1: each word is decoded. -/
theorem specWordsDecode : Obligations.SpecWordsDecode := by
  refine ⟨?_, ?_, ?_, ?_, ?_⟩ <;> decide

end Sys2Proof
end

section
/-! SUPPORT. The legal words by opcode and format: the opcode map's (match, mask) rows select them
(`30_encoding.md` R156, R157), and every other word is ILLEGAL (R158, R159, R400). -/

namespace Sys2Proof

/-! ## The legal words -/

/-- The format of an opcode number; `none` for the reserved numbers (`30_encoding.md` R157, R159). -/
def formatAt (opc : Nat) : Option Format := (instrOf (formZ opc)).map Instr.format

theorem map_format_instrOf (x : Fields) : (instrOf x).map Instr.format = formatAt x.opc := by
  obtain ⟨opc, rd, ra, rb, z16, imm⟩ := x
  simp only [formatAt, instrOf, formZ]
  split <;> rfl

/-- Legality depends on the opcode's format and the fields only. -/
theorem exists_decodeWord_eq_ok_iff {w : Word} : (∃ i, decodeWord w = .ok i) ↔
    ∃ fmt, formatAt (fieldsOf w).opc = some fmt ∧ (fieldsOf w).Legal fmt := by
  simp [decodeWord_eq_ok_iff, ← map_format_instrOf]

theorem exists_decodeWord_eq_error_iff {w : Word} : (∃ why, decodeWord w = .error why) ↔
    ∀ fmt, formatAt (fieldsOf w).opc = some fmt → ¬(fieldsOf w).Legal fmt := by
  have hnot : (∃ why, decodeWord w = .error why) ↔ ¬∃ i, decodeWord w = .ok i := by
    cases decodeWord w <;> simp
  simp only [hnot, exists_decodeWord_eq_ok_iff, not_exists, not_and]

theorem z16_eq_one {w : Word} (h : w.getLsbD 16 = true) : (fieldsOf w).z16 = 1 := by
  rw [BitVec.getLsbD, Nat.testBit_eq_decide_div_mod_eq, decide_eq_true_eq] at h
  exact (extractLsb_toNat w 16 16).trans h

theorem toNat_tableBits (w : Word) : (w.extractLsb' 1 15).toNat = (fieldsOf w).imm / 2 := by
  rw [BitVec.extractLsb'_toNat, Nat.shiftRight_eq_div_pow]
  simp only [fieldsOf, extractLsb_toNat, Nat.reducePow, Nat.reduceSub, Nat.reduceAdd]
  omega

/-! ## The rows of the opcode map -/

/-- The mask of a k-bit field: every bit is fixed unless the format uses the field. -/
def fixedBits (used : Bool) (k : Nat) : Nat := if used then 0 else 2 ^ k - 1

/-- The bits of IMM the opcode fixes whatever its format: CHKPERM's IMM[15:1]. -/
def tableMask (opc : Nat) : Nat := if opc = 0x02 then 2 ^ 16 - 2 else 0

/-- The fields of the mask of a row, by its opcode and format. -/
def maskFields (opc : Nat) (fmt : Format) : Fields where
  opc := 2 ^ 6 - 1
  rd := fixedBits fmt.usesRd 3
  ra := fixedBits fmt.usesRa 3
  rb := fixedBits fmt.usesRb 3
  z16 := 2 ^ 1 - 1
  imm := fixedBits fmt.usesImm 16 ||| tableMask opc

/-- The row of an opcode with its format. -/
def formatRow (opc : Nat) (fmt : Format) : OpRow :=
  ⟨packFields (formZ opc), packFields (maskFields opc fmt)⟩

theorem opcodeRows_eq : opcodeRows =
    (List.range 64).filterMap fun opc => (formatAt opc).map (formatRow opc) := by decide

theorem mem_opcodeRows_iff {r : OpRow} :
    r ∈ opcodeRows ↔ ∃ opc < 64, ∃ fmt, formatAt opc = some fmt ∧ formatRow opc fmt = r := by
  simp [opcodeRows_eq]

theorem fixedBits_lt (used : Bool) (k : Nat) : fixedBits used k < 2 ^ k := by
  have := Nat.two_pow_pos k
  cases used <;> simp [fixedBits]

theorem tableMask_lt (opc : Nat) : tableMask opc < 2 ^ 16 := by
  unfold tableMask
  split <;> decide

theorem maskFields_fit (opc : Nat) (fmt : Format) : (maskFields opc fmt).fit where
  opc := Nat.lt_add_one _
  rd := fixedBits_lt _ _
  ra := fixedBits_lt _ _
  rb := fixedBits_lt _ _
  z16 := Nat.lt_add_one _
  imm := Nat.or_lt_two_pow (fixedBits_lt _ _) (tableMask_lt opc)

theorem and_fixedBits_eq_zero_iff {used : Bool} {k n : Nat} (h : n < 2 ^ k) :
    n &&& fixedBits used k = 0 ↔ (used = false → n = 0) := by
  cases used
  · simp [fixedBits, Nat.and_two_pow_sub_one_of_lt_two_pow h]
  · simp [fixedBits]

theorem and_allButBit0_eq_zero_iff {n : Nat} (h : n < 2 ^ 16) :
    n &&& 2 ^ 16 - 2 = 0 ↔ n / 2 = 0 := by
  have hdiv : (n &&& 2 ^ 16 - 2) / 2 = n / 2 :=
    (Nat.and_div_two_pow (n := 1)).trans
      (Nat.and_two_pow_sub_one_of_lt_two_pow (n := 15) (by omega))
  have hmod : (n &&& 2 ^ 16 - 2) % 2 = 0 :=
    (Nat.and_mod_two_pow (n := 1)).trans (Nat.and_zero _)
  omega

theorem and_tableMask_eq_zero_iff {opc n : Nat} (h : n < 2 ^ 16) :
    n &&& tableMask opc = 0 ↔ (opc = 0x02 → n / 2 = 0) := by
  by_cases hopc : opc = 0x02
  · simp only [tableMask, hopc, if_true, forall_const, and_allButBit0_eq_zero_iff h]
  · simp [tableMask, hopc]

/-- A row selects the words of its opcode that pass the checks of its format. -/
theorem and_mask_eq_match_iff {w : Word} {opc : Nat} {fmt : Format} (h : opc < 64) :
    w &&& (formatRow opc fmt).mask = (formatRow opc fmt).matchBits ↔
      (fieldsOf w).opc = opc ∧ (fieldsOf w).Legal fmt := by
  obtain ⟨hopc, hrd, hra, hrb, hz, himm⟩ := fieldsOf_fit w
  rw [← fieldsOf_injective.eq_iff, fieldsOf_and, formatRow, fieldsOf_packFields _ (fit_formZ h),
    fieldsOf_packFields _ (maskFields_fit opc fmt)]
  simp only [maskFields, formZ, Fields.mk.injEq, Nat.and_or_distrib_left, Nat.or_eq_zero_iff]
  rw [Nat.and_two_pow_sub_one_of_lt_two_pow hopc, Nat.and_two_pow_sub_one_of_lt_two_pow hz,
    and_fixedBits_eq_zero_iff hrd, and_fixedBits_eq_zero_iff hra, and_fixedBits_eq_zero_iff hrb,
    and_fixedBits_eq_zero_iff himm, and_tableMask_eq_zero_iff himm]
  refine and_congr_right fun hw => ?_
  subst hw
  exact ⟨fun ⟨hd, ha, hb, hz, hi, ht⟩ => ⟨hz, hd, ha, hb, hi, ht⟩,
    fun ⟨hz, hd, ha, hb, hi, ht⟩ => ⟨hd, ha, hb, hz, hi, ht⟩⟩

/-! ## The obligations -/

/-- Settles O4: the rows are those of the opcodes with a format, and a row fixes the opcode. -/
theorem tableRowsSelectTheLegalWords : Obligations.TableRowsSelectTheLegalWords := by
  refine ⟨fun w => ?_, rfl, by decide, fun r hr r' hr' hne w hsel => hne ?_⟩
  · rw [exists_decodeWord_eq_ok_iff]
    constructor
    · rintro ⟨fmt, hfmt, hl⟩
      have hopc := (fieldsOf_fit w).opc
      exact ⟨_, mem_opcodeRows_iff.mpr ⟨_, hopc, fmt, hfmt, rfl⟩,
        (and_mask_eq_match_iff hopc).mpr ⟨rfl, hl⟩⟩
    · rintro ⟨r, hr, hsel⟩
      obtain ⟨opc, hopc, fmt, hfmt, rfl⟩ := mem_opcodeRows_iff.mp hr
      obtain ⟨rfl, hl⟩ := (and_mask_eq_match_iff hopc).mp hsel
      exact ⟨fmt, hfmt, hl⟩
  · obtain ⟨opc, hopc, fmt, hfmt, rfl⟩ := mem_opcodeRows_iff.mp hr
    obtain ⟨opc', hopc', fmt', hfmt', rfl⟩ := mem_opcodeRows_iff.mp hr'
    obtain ⟨rfl, -⟩ := (and_mask_eq_match_iff hopc).mp hsel.1
    obtain ⟨rfl, -⟩ := (and_mask_eq_match_iff hopc').mp hsel.2
    cases hfmt.symm.trans hfmt'
    rfl

end Sys2Proof

namespace Sys2Proof.Machine

/-- At its completion an ILLEGAL word raises the error that names it (`60_exceptions.md` R401). -/
theorem completeCommand_of_illegal {s : State} {why : Illegal} (h : decodeWord s.cmd = .error why) :
    completeCommand s = .next (s.takeError 0 (.illegal s.cmd)) := by rw [completeCommand, h]

/-- Settles O5: a reserved opcode has no format, bit 16 and CHKPERM's IMM[15:1] fail a check, and
the completion takes the error. -/
theorem illegalWordIsRecorded : Obligations.IllegalWordIsRecorded := by
  refine ⟨fun w hw => ?_, fun w hw => ?_, fun w hopc himm => ?_,
    fun s es hbusy ⟨why, hill⟩ hes => ?_⟩
  · change (fieldsOf w).opc ∈ _ at hw
    have hres : formatAt (fieldsOf w).opc = none := by
      generalize (fieldsOf w).opc = opc at hw
      revert opc
      decide
    simp [exists_decodeWord_eq_error_iff, hres]
  · refine exists_decodeWord_eq_error_iff.mpr fun fmt _ hl => ?_
    exact one_ne_zero ((z16_eq_one hw).symm.trans hl.z16)
  · refine exists_decodeWord_eq_error_iff.mpr fun fmt _ hl => himm ?_
    have htable := hl.table (congrArg BitVec.toNat hopc)
    exact BitVec.eq_of_toNat_eq ((toNat_tableBits w).trans htable)
  · have hbusy' : ({ s with events := es } : State).busy = true := hbusy
    rw [step_of_event hes, perform, if_pos hbusy']
    exact completeCommand_of_illegal (s := { s with events := es }) hill

end Sys2Proof.Machine
end

section
/-! SUPPORT. The control commands (`40_control.md` R200–R203): the NOCONFIG checks as the first thing a
command does, CONFIG's two ends, and the scan of an index table. -/

namespace Sys2Proof.Machine

variable {s : State}

/-! ## NOCONFIG (`40_control.md` R203) -/

/-- Every command but NOP and CONFIG begins with the NOCONFIG checks. -/
theorem exec_eq_runCommand {i : Instr} (hnop : i ≠ .nop) (hconfig : ∀ m t, i ≠ .config m t)
    (s : State) : ∃ rule, exec i s = runCommand rule s := by
  unfold exec
  cases i with
  | nop => exact absurd rfl hnop
  | config m t => exact absurd rfl (hconfig m t)
  | _ => exact ⟨_, rfl⟩

/-- A failed NOCONFIG check is the command's error, whatever its rule. -/
theorem runCommand_of_noconfig {rule : Ctx → Data → Run Data} {why : NoConfig} (hs : s.Fresh)
    (h : configured s.hw s.data = raise (.noconfig why)) :
    runCommand rule s = .next (s.takeError 0 (.noconfig why)) := by
  rw [runCommand, hs.1, h, raise_bind, finish_raise]

/-- Settles O10: the checks come before the rule, and each has its own information. -/
theorem noconfigIsCheckedFirst : Obligations.NoconfigIsCheckedFirst := by
  intro i s hnop hconfig hs
  obtain ⟨rule, hrule⟩ := exec_eq_runCommand hnop hconfig s
  refine ⟨fun hcfg => ?_, fun c hcfg hfmod => ?_⟩
  · have hcheck : configured s.hw s.data = raise (.noconfig .notConfigured) := by
      rw [configured, hcfg]
    exact hrule.trans (runCommand_of_noconfig hs hcheck)
  · have hcheck : configured s.hw s.data = raise (.noconfig .modulusDegree) := by
      rw [configured, hcfg]
      exact if_pos hfmod
    exact hrule.trans (runCommand_of_noconfig hs hcheck)

/-! ## NOP (`40_control.md` R200) -/

/-- Settles O30: NOP commits the working copy, and a legal word is the one encoding of its
command. -/
theorem nopOnlySetsDone : Obligations.NopOnlySetsDone := by
  refine ⟨fun s hs => ?_, by decide, fun w hopc hw => ?_⟩
  · change s.finish (.ok s.work) = _
    rw [hs.1, finish_ok]
    rfl
  · cases hdec : decodeWord w with
    | error why => exact ⟨why, rfl⟩
    | ok i =>
      have hfields : (fieldsOf w).opc = 0 := congrArg BitVec.toNat hopc
      have hi : i = .nop := by
        have hrow := (decodeWord_eq_ok_iff.mp hdec).1
        simpa [instrOf, hfields] using hrow.symm
      obtain ⟨-, hword⟩ := legalWordIsTheOneEncoding w i hdec
      rw [hi] at hword
      exact absurd hword.symm hw

/-! ## CONFIG (`40_control.md` R201) -/

section
variable {hw : Synth} {m t : Nat} {d : Data}

theorem configRule_of_legal (h : Code.legal hw { m := m, t := t }) (hf : d.fmod >>> m = 1#17) :
    configRule hw m t d =
      .ok (if d.cfg = some { m := m, t := t } then d else d.wiped { m := m, t := t }) := by
  obtain ⟨hm, hm', ht, ht', hmt⟩ := h
  rw [configRule, if_neg (not_not.mpr ⟨hm, hm'⟩), if_neg (not_not.mpr ⟨ht, ht'⟩),
    if_neg (Nat.not_le.mpr hmt), if_neg (not_not.mpr hf), apply_ite Except.ok]

theorem configRule_of_not_legal
    (h : ¬(Code.legal hw { m := m, t := t } ∧ d.fmod >>> m = 1#17)) :
    configRule hw m t d = raise (.param (t * 32 + m)) := by
  unfold configRule
  dsimp only
  split_ifs with hm ht hmt hf hcfg
  · rfl
  · rfl
  · exact absurd ⟨⟨hm.1, hm.2, ht.1, ht.2, Nat.lt_of_not_le hmt⟩, not_not.mp hf⟩ h
  · exact absurd ⟨⟨hm.1, hm.2, ht.1, ht.2, Nat.lt_of_not_le hmt⟩, not_not.mp hf⟩ h
  all_goals rfl

end

/-- The end of a CONFIG on a fresh working copy is that of its rule. -/
theorem exec_config (hs : s.Fresh) (m t : Nat) :
    exec (.config m t) s = s.finish (configRule s.hw m t s.data) :=
  congrArg (fun d => s.finish (configRule s.hw m t d)) hs.1

/-- PARAM of a legal configuration (`10_state.md` R40). -/
theorem Code.paramWord_of_legal {hw : Synth} {c : Code} (hhw : hw.legal) (hc : c.legal hw) :
    c.paramWord = BitVec.ofNat 32 (c.m + 32 * c.t) := by
  obtain ⟨-, hmMax, -, htMax⟩ := hhw
  obtain ⟨-, hm, -, ht, -⟩ := hc
  exact paramLayout_eq (by omega) (by omega)

theorem Data.whenConfigured_some {d : Data} {c : Code} (h : d.cfg = some c) (view : Code → Word) :
    d.whenConfigured view = view c := by rw [Data.whenConfigured, h]

theorem Data.whenConfigured_none {d : Data} (h : d.cfg = none) (view : Code → Word) :
    d.whenConfigured view = 0#32 := by rw [Data.whenConfigured, h]

/-- A read of one of the three views of the configuration (`10_state.md` R40). -/
theorem hostRead_view {off : BitVec 12} {r : Reg} {view : Code → Word} (hrst : s.rstN = true)
    (hoff : off &&& 0xFFC#12 = r.offset) (hopen : r.readLocked = false)
    (hval : s.regValue r = s.data.whenConfigured view) :
    hostRead off s = .next { s with prdata := s.data.whenConfigured view } :=
  hval ▸ hostRead_unlocked hrst (regAt_of_offset hoff) hopen

/-- Settles O31: from the two ends of CONFIG's rule and the views of the configuration. -/
theorem configSetsTheCode : Obligations.ConfigSetsTheCode := by
  refine ⟨fun s m t hs => ?_, fun s off hhw hrst => ?_⟩
  · have hlegal : (2 ≤ m ∧ m ≤ s.hw.mMax ∧ 2 ≤ t ∧ t ≤ s.hw.tMax ∧ m * t < 2 ^ m ∧
        s.data.fmod >>> m = 1#17) ↔
        Code.legal s.hw { m := m, t := t } ∧ s.data.fmod >>> m = 1#17 := by
      simp only [Code.legal, and_assoc]
    dsimp only
    rw [hlegal]
    refine ⟨fun ⟨h, hf⟩ hcfg => ?_, fun ⟨h, hf⟩ hcfg => ?_, fun h => ?_⟩
    · rw [Succeeds, exec_config hs, configRule_of_legal h hf, if_neg hcfg]
      rfl
    · rw [Succeeds, exec_config hs, configRule_of_legal h hf, if_pos hcfg]
      rfl
    · rw [Fails, exec_config hs, configRule_of_not_legal h]
      rfl
  · have hparam (h : off &&& 0xFFC#12 = 0x020#12) := hostRead_view (r := .param) hrst h rfl rfl
    have hnval (h : off &&& 0xFFC#12 = 0x024#12) := hostRead_view (r := .nval) hrst h rfl rfl
    have hkval (h : off &&& 0xFFC#12 = 0x028#12) := hostRead_view (r := .kval) hrst h rfl rfl
    refine ⟨fun c hcfg hc => ⟨fun h => ?_, fun h => ?_, fun h => ?_⟩, fun hcfg hoff => ?_⟩
    · rw [hparam h, Data.whenConfigured_some hcfg, Code.paramWord_of_legal hhw hc]
    · rw [hnval h, Data.whenConfigured_some hcfg, Code.n]
    · rw [hkval h, Data.whenConfigured_some hcfg, Code.k, Code.n, Code.mt]
    · simp only [List.mem_cons, List.not_mem_nil, or_false] at hoff
      rcases hoff with h | h | h
      · rw [hparam h, Data.whenConfigured_none hcfg]
      · rw [hnval h, Data.whenConfigured_none hcfg]
      · rw [hkval h, Data.whenConfigured_none hcfg]

/-! ## CHKPERM (`40_control.md` R202) -/

section
variable {d : Data} {id : ElemMem} {v : Nat → Elem} {k cnt : Nat}

/-- The entries scanned before index k, the last one first. -/
def scanned (v : Nat → Elem) (k : Nat) : List Elem := ((List.range k).map v).reverse

theorem scanned_succ (v : Nat → Elem) (k : Nat) : scanned v (k + 1) = v k :: scanned v k := by
  simp [scanned, List.range_succ]

theorem mem_scanned_iff {a : Elem} : a ∈ scanned v k ↔ ∃ j < k, v j = a := by
  simp [scanned]

theorem readPermFrom_distinct (hk : readElem d id k = .ok (v k)) (hne : ∀ j, j < k → v j ≠ v k) :
    readPermFrom d id (cnt + 1) k (scanned v k) =
      readPermFrom d id cnt (k + 1) (scanned v (k + 1)) := by
  have hnew : v k ∉ scanned v k := fun h => by
    obtain ⟨j, hj, hjk⟩ := mem_scanned_iff.mp h
    exact hne j hj hjk
  rw [readPermFrom, hk, ok_bind, if_neg hnew, scanned_succ]

theorem readPermFrom_repeat (hk : readElem d id k = .ok (v k)) (hrep : ∃ j, j < k ∧ v j = v k) :
    readPermFrom d id (cnt + 1) k (scanned v k) = raise (.perm k) := by
  rw [readPermFrom, hk, ok_bind, if_pos (mem_scanned_iff.mpr hrep)]

theorem readPermFrom_unwritten (hk : (d.mems.elem id).read k = none) (seen : List Elem) :
    readPermFrom d id (cnt + 1) k seen = .error (.unwritten (.elem id) k) := by
  rw [readPermFrom, readElem_unwritten hk, error_bind]

/-- The scan goes past distinct written entries. -/
theorem readPermFrom_skip (hread : ∀ j, j < k → (d.mems.elem id).read j = some (v j))
    (hne : ∀ i j, i < j → j < k → v i ≠ v j) :
    readPermFrom d id (k + cnt) 0 [] = readPermFrom d id cnt k (scanned v k) := by
  induction k generalizing cnt with
  | zero => rw [Nat.zero_add]; rfl
  | succ k ih =>
    have hlt : ∀ j, j < k → j < k + 1 := fun j hj => Nat.lt_succ_of_lt hj
    rw [Nat.add_right_comm, Nat.add_assoc,
      ih (fun j hj => hread j (hlt j hj)) fun i j hij hj => hne i j hij (hlt j hj)]
    exact readPermFrom_distinct (readElem_ok (hread k k.lt_succ_self))
      fun j hj => hne j k hj k.lt_succ_self

end

/-- CHKPERM ends as the scan of its table does. -/
theorem exec_chkperm {c : Code} (h : s.Runs c) (tab : Table) :
    exec (.chkperm tab) s =
      s.finish (readPermFrom s.data (tableMem tab) (2 ^ c.m) 0 [] >>= fun _ => .ok s.data) := by
  change execChkperm tab s = _
  rw [execChkperm, runCommand_of_runs h]
  rfl

/-- Settles O32: the scan goes past distinct entries, to the end or to the index that stops it. -/
theorem chkpermFindsTheFirstRepeat : Obligations.ChkpermFindsTheFirstRepeat := by
  intro s c tab v hs table
  have htable : table = s.data.mems.elem (tableMem tab) := by cases tab <;> rfl
  rw [htable]
  refine ⟨fun hread hne => ?_, fun i hi hread hne => ?_⟩
  · rw [Succeeds, exec_chkperm hs, ← Nat.add_zero (2 ^ c.m), readPermFrom_skip hread hne]
    rfl
  · obtain ⟨cnt, hcnt⟩ : ∃ cnt, 2 ^ c.m = i + (cnt + 1) := ⟨2 ^ c.m - i - 1, by omega⟩
    have hscan := exec_chkperm hs tab
    rw [hcnt, readPermFrom_skip hread hne] at hscan
    refine ⟨fun hv hrep => ?_, fun hnone => ?_⟩
    · rw [Fails, hscan, readPermFrom_repeat (readElem_ok hv) hrep]
      rfl
    · rw [hscan, readPermFrom_unwritten hnone]
      rfl

end Sys2Proof.Machine
end

section
/-! SUPPORT. Which errors a rule can raise, by the sub-step number they carry (`10_state.md` R38): the
law of each way of building a rule, then the parts of the rules. Only DECODE's sub-steps number their
errors. -/

namespace Sys2Proof.Machine

variable {α β : Type} {n : Nat}

/-! ## The ways of building a rule -/

/-- An error the part of a rule raises carries a sub-step number of at most n. -/
def RaisesUpTo (n : Nat) (r : Run α) : Prop := ∀ sub e, r = .error (.raised sub e) → sub ≤ n

theorem RaisesUpTo.ok (a : α) : RaisesUpTo n (.ok a) := fun _ _ h => nomatch h

/-- `raise` numbers no sub-step (`00_scope.md` R12). -/
theorem RaisesUpTo.raise (e : CmdError) : RaisesUpTo n (Machine.raise e : Run α) := fun _ _ h => by
  cases h; exact Nat.zero_le n

theorem RaisesUpTo.bind {x : Run α} {f : α → Run β} (hx : RaisesUpTo n x)
    (hf : ∀ a, RaisesUpTo n (f a)) : RaisesUpTo n (x >>= f) := fun sub e h => by
  rcases bind_eq_error.mp h with h | ⟨a, -, h⟩
  · exact hx sub e h
  · exact hf a sub e h

theorem RaisesUpTo.of_reads {r : Run α} (h : Reads r) : RaisesUpTo n r := fun sub e he => by
  rcases h with ⟨a, rfl⟩ | ⟨id, i, rfl⟩
  · cases he
  · cases he

theorem RaisesUpTo.collect {g : Nat → Run α} {cnt : Nat} (h : ∀ i, RaisesUpTo n (g i)) :
    RaisesUpTo n (collect cnt g) := fun sub e he => by
  obtain ⟨i, hi⟩ := collectFrom_eq_error he
  exact h i sub e hi

/-- The errors of a sub-step of DECODE carry its number, whatever its rule (`44_decode.md` R354). -/
theorem RaisesUpTo.inSubStep {sub : Nat} (hsub : sub ≤ n) (r : Run α) :
    RaisesUpTo n (inSubStep sub r) := fun sub' e h => by
  unfold Machine.inSubStep at h
  split at h
  · cases h; exact hsub
  · next hraised => exact absurd h (hraised _ _)

/-! ## Checks and operands -/

section
variable (c : Ctx) (d : Data) (k : GF)

theorem configured_raises (hw : Synth) : RaisesUpTo n (configured hw d) := by
  unfold configured
  split
  · exact .raise _
  · split
    · exact .raise _
    · exact .ok _

theorem gcheck_raises : RaisesUpTo n (gcheck c d) := by
  unfold gcheck
  split
  · exact .raise _
  · exact .ok _

theorem elemImm_raises (imm : Nat) : RaisesUpTo n (elemImm c imm) := by
  unfold elemImm
  split
  · exact .raise _
  · exact .ok _

theorem supportImm_raises (imm : Nat) : RaisesUpTo n (supportImm c imm) := by
  unfold supportImm
  split
  · exact .raise _
  · exact .ok _

theorem coeffImm_raises (imm : Nat) : RaisesUpTo n (coeffImm c imm) := by
  unfold coeffImm
  split
  · exact .raise _
  · exact .ok _

theorem representable_raises (p : Poly) : RaisesUpTo n (representable c p) := by
  unfold representable
  split
  · exact .ok _
  · split
    · exact .raise _
    · exact .ok _

theorem shiftChecked_raises (p : Poly) (s : Nat) : RaisesUpTo n (shiftChecked c p s) := by
  unfold shiftChecked
  split
  · exact .ok _
  · split
    · exact .raise _
    · exact .ok _

theorem readPermFrom_raises (id : ElemMem) (cnt i : Nat) (seen : List Elem) :
    RaisesUpTo n (readPermFrom d id cnt i seen) := by
  induction cnt generalizing i seen with
  | zero => exact .ok _
  | succ cnt ih =>
    refine .bind (.of_reads (readElem_reads d id i)) fun v => ?_
    split
    · exact .raise _
    · exact ih (i + 1) (v :: seen)

/-! ## Arithmetic (`41_field.md` R232; `42_poly.md` R262–R264; `44_decode.md` R345) -/

theorem GF.inv_raises (a : Elem) : RaisesUpTo n (k.inv a) := by
  unfold GF.inv
  split
  · exact .ok _
  · exact .raise _

theorem divmod_raises (a b : Poly) : RaisesUpTo n (divmod k a b) := by
  unfold divmod
  split
  · exact .raise _
  · exact .bind (k.inv_raises _) fun _ => .ok _

theorem polyMod_raises (a g : Poly) : RaisesUpTo n (polyMod k a g) :=
  .bind (divmod_raises k a g) fun _ => .ok _

theorem invLoop_raises (fuel : Nat) (r0 r1 s0 s1 : Poly) :
    RaisesUpTo n (invLoop k fuel r0 r1 s0 s1) := by
  induction fuel generalizing r0 r1 s0 s1 with
  | zero => exact .ok _
  | succ fuel ih =>
    unfold invLoop
    split
    · exact .ok _
    · exact .bind (divmod_raises k r0 r1) fun _ => ih _ _ _ _

theorem invmod_raises (a g : Poly) : RaisesUpTo n (invmod k a g) := by
  refine .bind (polyMod_raises k a g) fun r1 => .bind (invLoop_raises k _ _ _ _ _) fun rs => ?_
  split
  · exact .raise _
  · exact .bind (k.inv_raises _) fun _ => polyMod_raises k _ g

theorem squareLoop_raises (g : Poly) (j : Nat) (x : Poly) : RaisesUpTo n (squareLoop k g j x) := by
  induction j generalizing x with
  | zero => exact .ok _
  | succ j ih => exact .bind (polyMod_raises k _ g) ih

theorem sqrtmod_raises (t : Nat) (a g : Poly) : RaisesUpTo n (sqrtmod k t a g) :=
  .bind (polyMod_raises k a g) fun _ => squareLoop_raises k g _ _

theorem eliminate_raises (fuel : Nat) (s : KeyEq) : RaisesUpTo n (eliminate k fuel s) := by
  induction fuel generalizing s with
  | zero => exact .ok _
  | succ fuel ih =>
    unfold eliminate
    split
    · exact .bind (k.inv_raises _) fun _ => ih _
    · exact .ok _

theorem keyLoop_raises (half fuel : Nat) (s : KeyEq) : RaisesUpTo n (keyLoop k half fuel s) := by
  induction fuel generalizing s with
  | zero => exact .ok _
  | succ fuel ih =>
    unfold keyLoop
    split
    · exact .bind (eliminate_raises k _ s) fun _ => ih _
    · exact .ok _

theorem keyeq_raises (t : Nat) (tau g : Poly) : RaisesUpTo n (keyeq k t tau g) :=
  .bind (polyMod_raises k tau g) fun _ => .bind (keyLoop_raises k _ _ _) fun _ =>
    .bind (polyMod_raises k _ g) fun _ => .ok _

/-! ## The rules of the decode commands (`44_decode.md` R340–R354) -/

theorem permcRule_raises : RaisesUpTo n (permcRule c d) := by
  refine .bind (.of_reads (readPermuted_reads c d)) fun w => ?_
  split
  · exact .raise _
  · exact .ok _

theorem syndRule_raises : RaisesUpTo n (syndRule c d) :=
  .bind (.of_reads (readSyndromeParts_reads c d)) fun _ => .ok _

theorem locatorRule_raises : RaisesUpTo n (locatorRule c d) := by
  refine .bind (gcheck_raises c d) fun g => .bind (polyMod_raises _ _ _) fun syn => ?_
  split
  · exact .ok _
  · refine .bind (invmod_raises _ _ _) fun _ => .bind (polyMod_raises _ _ _) fun t => ?_
    split
    · exact .ok _
    · exact .bind (sqrtmod_raises _ _ _ _) fun _ => .bind (keyeq_raises _ _ _ _) fun _ =>
        .bind (representable_raises c _) fun _ => .ok _

theorem rootAt_reads (i : Nat) : Reads (rootAt c d i) :=
  (readElem_reads d .L i).bind fun _ => (readBit_reads d .W i).bind fun _ => .inl ⟨_, rfl⟩

theorem rootsRule_raises : RaisesUpTo n (rootsRule c d) :=
  .bind (.of_reads (collect_reads (rootAt_reads c d))) fun _ => .ok _

theorem extractRule_raises : RaisesUpTo n (extractRule c d) :=
  .bind (.of_reads (readMessage_reads c d)) fun _ => .ok _

theorem unscrambledBit_reads (j : Nat) : Reads (unscrambledBit c d j) :=
  (collect_reads fun r => (readBit_reads d .MC r).bind fun _ =>
    (readBit_reads d .SINV _).bind fun _ => .inl ⟨_, rfl⟩).bind fun _ => .inl ⟨_, rfl⟩

theorem unscrRule_raises : RaisesUpTo n (unscrRule c d) :=
  .bind (.of_reads (collect_reads (unscrambledBit_reads c d))) fun _ => .ok _

/-- The errors of DECODE carry the number of one of the sub-steps that ran. -/
theorem decodeSteps_raises {cnt from_ : Nat} (h : from_ + cnt ≤ n ∨ cnt = 0) :
    RaisesUpTo n (decodeSteps c cnt from_ d) := by
  induction cnt generalizing from_ d with
  | zero => exact .ok d
  | succ cnt ih =>
    have hle : from_ + (cnt + 1) ≤ n := h.resolve_right cnt.succ_ne_zero
    exact .bind (.inSubStep (by omega) _) fun d' => ih d' (.inl (by omega))

/-! ## The rules of the key-side commands (`43_keyside.md` R302–R306) -/

theorem pstEntry_raises (g : Poly) (i : Nat) (x : Elem) : RaisesUpTo n (pstEntry c g i x) := by
  unfold pstEntry
  split
  · exact .raise _
  · exact .bind (invmod_raises _ _ _) fun _ => .ok _

theorem hColumn_raises (g : Poly) (j : Nat) (x : Elem) : RaisesUpTo n (hColumn c g j x) := by
  unfold hColumn
  dsimp only
  split
  · exact .raise _
  · exact .bind (c.gf.inv_raises _) fun _ => .ok _

theorem sysformSwaps_raises (h : BitMatrix) (mt : Nat) (js s : List Nat) (cnt : Nat) :
    RaisesUpTo n (sysformSwaps h mt js s cnt) := by
  induction js generalizing s cnt with
  | nil => exact .ok _
  | cons j js ih =>
    unfold sysformSwaps
    split
    · exact ih s cnt
    · split
      · exact .raise _
      · exact ih _ _

theorem sysformRule_raises : RaisesUpTo n (sysformRule c d) := by
  refine .bind (.of_reads (collect_reads (readBit_reads d .H))) fun bits =>
    .bind (sysformSwaps_raises _ _ _ _ _) fun sc => ?_
  split
  · exact .raise _
  · exact .ok _

end

/-! ## The completion of a command -/

/-- The command ends as a rule whose errors carry a sub-step number of at most n. -/
def EndsUpTo (n : Nat) (s : State) (o : Host.Outcome State Fault Refusal) : Prop :=
  ∃ r, RaisesUpTo n r ∧ o = s.finish r

variable {s : State}

theorem runCommand_endsUpTo {rule : Ctx → Data → Run Data} (h : ∀ c d, RaisesUpTo n (rule c d)) :
    EndsUpTo n s (runCommand rule s) :=
  ⟨_, .bind (configured_raises s.work s.hw) fun c => h c s.work, rfl⟩

theorem configRule_raises (hw : Synth) (m t : Nat) (d : Data) :
    RaisesUpTo n (configRule hw m t d) := by
  by_cases h : Code.legal hw { m := m, t := t } ∧ d.fmod >>> m = 1#17
  · rw [configRule_of_legal h.1 h.2]; exact .ok _
  · rw [configRule_of_not_legal h]; exact .raise _

/-- The errors of a command other than DECODE carry no sub-step number (`10_state.md` R38). -/
theorem exec_endsUpTo_zero {i : Instr} (hi : i ≠ .decode) : EndsUpTo 0 s (exec i s) := by
  unfold exec
  cases i with
  | decode => exact absurd rfl hi
  | nop => exact ⟨_, .ok _, rfl⟩
  | config m t => exact ⟨_, configRule_raises s.hw m t s.work, rfl⟩
  | chkperm tab =>
    exact runCommand_endsUpTo fun _ d => .bind (readPermFrom_raises d _ _ _ _) fun _ => .ok _
  | fadd | fmul | fpow | peval | pclr | pmov | pconst | padd | pscl | psetg =>
    exact runCommand_endsUpTo fun _ _ => .ok _
  | fldi => exact runCommand_endsUpTo fun c _ => .bind (elemImm_raises c _) fun _ => .ok _
  | finv => exact runCommand_endsUpTo fun c _ => .bind (c.gf.inv_raises _) fun _ => .ok _
  | fldl =>
    exact runCommand_endsUpTo fun c d => .bind (supportImm_raises c _) fun i =>
      .bind (.of_reads (readElem_reads d .L i)) fun _ => .ok _
  | pldt =>
    exact runCommand_endsUpTo fun c d => .bind (supportImm_raises c _) fun i =>
      .bind (.of_reads (readPst_reads c d i)) fun _ => .ok _
  | psetc | pgetc =>
    exact runCommand_endsUpTo fun c _ => .bind (coeffImm_raises c _) fun _ => .ok _
  | pmul => exact runCommand_endsUpTo fun c _ => .bind (representable_raises c _) fun _ => .ok _
  | pshl => exact runCommand_endsUpTo fun c _ => .bind (shiftChecked_raises c _ _) fun _ => .ok _
  | pdivq | pdivr =>
    exact runCommand_endsUpTo fun c _ => .bind (divmod_raises c.gf _ _) fun _ => .ok _
  | pldg => exact runCommand_endsUpTo fun c d => .bind (gcheck_raises c d) fun _ => .ok _
  | pmulm | pmod | psqrm =>
    exact runCommand_endsUpTo fun c d => .bind (gcheck_raises c d) fun g =>
      .bind (polyMod_raises c.gf _ g) fun _ => .ok _
  | pinvm =>
    exact runCommand_endsUpTo fun c d => .bind (gcheck_raises c d) fun g =>
      .bind (invmod_raises c.gf _ g) fun _ => .ok _
  | psqrt =>
    exact runCommand_endsUpTo fun c d => .bind (gcheck_raises c d) fun g =>
      .bind (sqrtmod_raises c.gf _ _ g) fun _ => .ok _
  | keyeq =>
    exact runCommand_endsUpTo fun c d => .bind (gcheck_raises c d) fun g =>
      .bind (keyeq_raises c.gf _ _ g) fun _ => .ok _
  | permc => exact runCommand_endsUpTo permcRule_raises
  | synd => exact runCommand_endsUpTo syndRule_raises
  | locator => exact runCommand_endsUpTo locatorRule_raises
  | roots => exact runCommand_endsUpTo rootsRule_raises
  | extract => exact runCommand_endsUpTo extractRule_raises
  | unscr => exact runCommand_endsUpTo unscrRule_raises
  | lgen =>
    refine runCommand_endsUpTo fun c d => ?_
    dsimp only
    split
    · exact .raise _
    · exact .ok _
  | pstgen =>
    exact runCommand_endsUpTo fun c d => .bind (.of_reads (readSupport_reads c d)) fun l =>
      .bind (gcheck_raises c d) fun g => .bind (.collect fun i => pstEntry_raises c g i _) fun _ =>
        .ok _
  | hgen =>
    exact runCommand_endsUpTo fun c d => .bind (.of_reads (readSupport_reads c d)) fun l =>
      .bind (gcheck_raises c d) fun g => .bind (.collect fun j => hColumn_raises c g j _) fun _ =>
        .ok _
  | sysform => exact runCommand_endsUpTo sysformRule_raises
  | gextract =>
    refine runCommand_endsUpTo fun c d => .bind (.of_reads (readSwaps_reads c d)) fun swp =>
      .bind (.of_reads (readBlock_reads c.code d swp)) fun block => ?_
    split
    · exact .raise _
    · exact .ok _

theorem exec_decode_endsUpTo (s : State) : EndsUpTo 6 s (exec .decode s) :=
  runCommand_endsUpTo fun c d => decodeSteps_raises c d (by omega)

/-- An error's code is one of the twelve (`60_exceptions.md` R400). -/
theorem CmdError.code_mem_range (e : CmdError) : 1 ≤ e.code.toNat ∧ e.code.toNat ≤ 12 := by
  cases e <;> simp [CmdError.code]

/-- The two next states of a completion (`40_control.md` R204). -/
theorem EndsUpTo.next {o : Host.Outcome State Fault Refusal} (h : EndsUpTo n s o) {t : State}
    (ht : o = .next t) :
    (∃ d, t = s.commit d) ∨ ∃ sub e, sub ≤ n ∧ t = s.takeError sub e := by
  obtain ⟨r, hr, rfl⟩ := h
  rcases finish_next ht with ⟨d, -, ht⟩ | ⟨sub, e, he, ht⟩
  · exact .inl ⟨d, ht⟩
  · exact .inr ⟨sub, e, hr sub e he, ht⟩

/-- Settles O8: a completion commits or takes an error, and only DECODE's errors carry a sub-step
number, of at most 6. -/
theorem commandCommitsOrRecordsAnError : Obligations.CommandCommitsOrRecordsAnError := by
  intro i s t ht
  have hends : (∃ d, t = s.commit d) ∨
      ∃ sub e, sub ≤ 6 ∧ (sub ≠ 0 → i = .decode) ∧ t = s.takeError sub e := by
    by_cases hi : i = .decode
    · subst hi
      refine ((exec_decode_endsUpTo s).next ht).imp_right fun ⟨sub, e, hsub, ht⟩ => ?_
      exact ⟨sub, e, hsub, fun _ => rfl, ht⟩
    · refine ((exec_endsUpTo_zero hi).next ht).imp_right fun ⟨sub, e, hsub, ht⟩ => ?_
      exact ⟨sub, e, by omega, fun h => absurd (Nat.le_zero.mp hsub) h, ht⟩
  rcases hends with ⟨d, rfl⟩ | ⟨sub, e, hsub, hdecode, rfl⟩
  · exact .inl ⟨d, rfl⟩
  · obtain ⟨hlow, hhigh⟩ := e.code_mem_range
    refine .inr ⟨e.code, e.info, BitVec.ofNat 3 sub, hlow, hhigh, ?_, fun h => hdecode ?_, rfl⟩
    · exact (Nat.mod_le sub 8).trans hsub
    · rintro rfl
      exact h rfl

end Sys2Proof.Machine
end

section
/-! SUPPORT. The field commands (`41_field.md` R230–R239): what each ends as once the NOCONFIG checks
pass, the product as a remainder modulo f, and the inverse as the only one below 2^m. -/

namespace Sys2Proof.Machine

open Polynomial

/-! ## Ends of the commands that pass the NOCONFIG checks (`40_control.md` R203) -/

section
variable {s : State} {c : Code} (hs : s.Runs c)
include hs

/-- A command that passes the NOCONFIG checks on sound data computes in a proper field. -/
theorem State.Runs.ready (hsound : s.Sound) : Ready False s.hw (s.ctx c) s.data := by
  obtain ⟨-, hcfg, hfmod⟩ := hs
  exact ready_of_configured (State.sound_iff_good.mp hsound).data (configured_ok hcfg hfmod)

theorem exec_fldi (fd : RegIx) (imm : Nat) :
    exec (.fldi fd imm) s =
      s.finish (elemImm (s.ctx c) imm >>= fun v => .ok (s.data.setF fd v)) := by
  rw [exec, execFldi, runCommand_of_runs hs]

theorem exec_fldl (fd : RegIx) (imm : Nat) :
    exec (.fldl fd imm) s =
      s.finish (supportImm (s.ctx c) imm >>= fun i =>
        readElem s.data .L i >>= fun v => .ok (s.data.setF fd v)) := by
  rw [exec, execFldl, runCommand_of_runs hs]

theorem exec_finv (fd fa : RegIx) :
    exec (.finv fd fa) s =
      s.finish ((c.gf s.data).inv (s.data.f.get fa) >>= fun v => .ok (s.data.setF fd v)) := by
  rw [exec, execFinv, runCommand_of_runs hs]
  rfl

theorem exec_fadd (fd fa fb : RegIx) :
    exec (.fadd fd fa fb) s =
      s.finish (.ok (s.data.setF fd (fieldAdd (s.data.f.get fa) (s.data.f.get fb)))) := by
  rw [exec, execFadd, runCommand_of_runs hs]

theorem exec_fmul (fd fa fb : RegIx) :
    exec (.fmul fd fa fb) s =
      s.finish (.ok (s.data.setF fd ((c.gf s.data).mul (s.data.f.get fa) (s.data.f.get fb)))) := by
  rw [exec, execFmul, runCommand_of_runs hs]
  rfl

theorem exec_fpow (fd fa : RegIx) (imm : Nat) :
    exec (.fpow fd fa imm) s =
      s.finish (.ok (s.data.setF fd ((c.gf s.data).pow (s.data.f.get fa) imm))) := by
  rw [exec, execFpow, runCommand_of_runs hs]
  rfl

end

/-! ## Loads (`41_field.md` R234, R239) -/

section
variable {x : Ctx} {imm : Nat}

theorem elemImm_ok (h : imm < x.code.n) : elemImm x imm = .ok (BitVec.ofNat 16 imm) :=
  if_neg (Nat.not_le.mpr h)

theorem elemImm_error (h : x.code.n ≤ imm) : elemImm x imm = raise (.operand imm) := if_pos h

theorem supportImm_ok (h : imm < x.code.n) : supportImm x imm = .ok imm :=
  if_neg (Nat.not_le.mpr h)

theorem supportImm_error (h : x.code.n ≤ imm) : supportImm x imm = raise (.operand imm) := if_pos h

end

/-- Settles O33: the range check of the immediate, then for FLDL the read of L. -/
theorem fieldLoads : Obligations.FieldLoads := by
  intro s c fd imm hs
  refine ⟨fun himm => ⟨?_, fun v hv => ?_, fun hnone => ?_⟩, fun himm => ⟨?_, ?_⟩⟩
  · rw [Succeeds, exec_fldi hs, elemImm_ok himm]
    rfl
  · rw [Succeeds, exec_fldl hs, supportImm_ok himm, ok_bind, readElem_ok (id := .L) hv]
    rfl
  · rw [exec_fldl hs, supportImm_ok himm, ok_bind, readElem_unwritten (id := .L) hnone]
    rfl
  · rw [Fails, exec_fldi hs, elemImm_error himm]
    rfl
  · rw [Fails, exec_fldl hs, supportImm_error himm]
    rfl

/-! ## The sum and the product (`41_field.md` R231, R235, R236) -/

/-- The polynomial of a bit vector, summed over any range that covers its bits. -/
theorem sum_range_eq_bitPoly {w n : Nat} (v : BitVec w) (h : w ≤ n) :
    (∑ j ∈ Finset.range n, if v.getLsbD j then (X : (ZMod 2)[X]) ^ j else 0) = bitPoly v := by
  refine (Finset.sum_subset (Finset.range_subset_range.mpr h) fun j _ hj => ?_).symm
  rw [BitVec.getLsbD_of_ge v j (by simpa using hj)]
  rfl

/-- a ⊗ b differs from the product of the polynomials by a multiple of f (`41_field.md` R231). -/
theorem GF.exists_bitPoly_mul_eq {k : GF} (hk : k.Proper) (a : Elem) {b : Elem}
    (hb : b.toNat < 2 ^ k.m) :
    ∃ q, bitPoly a * bitPoly b = q * bitPoly k.f + bitPoly (k.mul a b) := by
  have hmk : AdjoinRoot.mk (bitPoly k.f) (bitPoly a * bitPoly b) =
      AdjoinRoot.mk (bitPoly k.f) (bitPoly (k.mul a b)) := by
    rw [map_mul]
    exact (k.residue_mul hk a hb).symm
  obtain ⟨q, hq⟩ := AdjoinRoot.mk_eq_mk.mp hmk
  exact ⟨q, by linear_combination hq⟩

/-- Settles O34: ⊗ is reduction of the product modulo f, and the statement's sums are the
polynomials of the operands. -/
theorem fieldSumAndProduct : Obligations.FieldSumAndProduct := by
  intro s c fd fa fb hs hsound
  refine ⟨exec_fadd hs fd fa fb, ?_⟩
  have hready := hs.ready hsound
  obtain ⟨q, hq⟩ := GF.exists_bitPoly_mul_eq hready.proper (s.data.f.get fa) (hready.f_lt fb)
  refine ⟨_, exec_fmul hs fd fa fb, hready.mul_lt _ _, q, ?_⟩
  simp only [sum_range_eq_bitPoly _ (show 16 ≤ 17 by decide), sum_range_eq_bitPoly _ (le_refl 17)]
  exact hq

/-! ## The inverse (`41_field.md` R232, R237) -/

/-- An element has at most one inverse below 2^m (log 14): a left and a right inverse of its residue
are equal. -/
theorem GF.inverse_unique {k : GF} (hk : k.Proper) {a b b' : Elem} (hb : b.toNat < 2 ^ k.m)
    (hb' : b'.toNat < 2 ^ k.m) (h : k.mul a b = 1#16) (h' : k.mul a b' = 1#16) : b = b' := by
  have hright : k.residue a * k.residue b = 1 := by rw [← k.residue_mul hk a hb, h, k.residue_one]
  have hright' : k.residue a * k.residue b' = 1 := by
    rw [← k.residue_mul hk a hb', h', k.residue_one]
  have hleft : k.residue b * k.residue a = 1 := by linear_combination hright
  exact k.residue_injective hk hb hb' (left_inv_eq_right_inv hleft hright')

theorem GF.inv_eq_ok {k : GF} (hk : k.Proper) {a b : Elem} (hb : b.toNat < 2 ^ k.m)
    (hab : k.mul a b = 1#16) : k.inv a = .ok b := by
  rcases k.inv_cases hk.m_le a with ⟨b', hinv, hb', hab'⟩ | ⟨-, hnone⟩
  · rw [hinv, GF.inverse_unique hk hb hb' hab hab']
  · exact absurd hab (hnone b hb)

theorem GF.inv_eq_raise {k : GF} (hk : k.Proper) {a : Elem}
    (hnone : ∀ b : Elem, b.toNat < 2 ^ k.m → k.mul a b ≠ 1#16) :
    k.inv a = raise (.arith .fieldInverse) := by
  rcases k.inv_cases hk.m_le a with ⟨b, -, hb, hab⟩ | ⟨hinv, -⟩
  · exact absurd hab (hnone b hb)
  · exact hinv

/-- Settles O35: the inverse found is the only one, and 0 ⊗ b is never 1. -/
theorem fieldInverse : Obligations.FieldInverse := by
  intro s c fd fa hs hsound k a
  have hk : k.Proper := (hs.ready hsound).proper
  have hfails (hnone : ∀ b : Elem, b.toNat < 2 ^ c.m → k.mul a b ≠ 1#16) :
      Fails (.finv fd fa) s 6#8 1#32 := by
    rw [Fails, exec_finv hs, GF.inv_eq_raise hk hnone]
    rfl
  refine ⟨fun b hb hab => ?_, hfails, fun hzero => hfails fun b _ => ?_⟩
  · rw [Succeeds, exec_finv hs, GF.inv_eq_ok hk hb hab]
    rfl
  · rw [hzero, k.zero_mul]
    decide

/-! ## The power (`41_field.md` R233, R238) -/

/-- Settles O36: the powers of the operand satisfy the recursion. -/
theorem fieldPower : Obligations.FieldPower := by
  intro s c fd fa hs
  exact ⟨(c.gf s.data).pow (s.data.f.get fa), GF.pow_zero _ _, GF.pow_succ _ _,
    exec_fpow hs fd fa⟩

end Sys2Proof.Machine
end

section
/-! SUPPORT. What the polynomial commands end as once the NOCONFIG checks pass (`42_poly.md`
R265–R285), and what is settled by it alone: the g-check, the moves, the table entry, the access to
one coefficient, the sum, the scaling and the shift. -/

namespace Sys2Proof.Machine

variable {s : State} {c : Code}

/-! ## Ends of the commands that pass the NOCONFIG checks (`40_control.md` R203) -/

/-- A command that stores a polynomial (`42_poly.md` R266–R283) ends in success when its result has
a value. -/
theorem succeeds_setP {i : Instr} {pd : RegIx} {r : Run Poly} {p : Poly}
    (hi : exec i s = s.finish (r >>= fun p => .ok (s.data.setP pd p))) (hr : r = .ok p) :
    Succeeds i s { s.data with p := s.data.p.set pd p } := by
  rw [Succeeds, hi, hr]
  rfl

/-- A command that stores a polynomial reports the error its result raises. -/
theorem fails_setP {i : Instr} {pd : RegIx} {r : Run Poly} {e : CmdError}
    (hi : exec i s = s.finish (r >>= fun p => .ok (s.data.setP pd p))) (hr : r = raise e) :
    Fails i s e.code e.info := by
  rw [Fails, hi, hr]
  rfl

section
variable (hs : s.Runs c)
include hs

theorem exec_pclr (pd : RegIx) : exec (.pclr pd) s = s.finish (.ok (s.data.setP pd [])) := by
  rw [exec, execPclr, runCommand_of_runs hs]

theorem exec_pmov (pd pa : RegIx) :
    exec (.pmov pd pa) s = s.finish (.ok (s.data.setP pd (s.data.p.get pa))) := by
  rw [exec, execPmov, runCommand_of_runs hs]

theorem exec_pldg (pd : RegIx) :
    exec (.pldg pd) s =
      s.finish (gcheck (s.ctx c) s.data >>= fun g => .ok (s.data.setP pd g)) := by
  rw [exec, execPldg, runCommand_of_runs hs]

theorem exec_pldt (pd : RegIx) (imm : Nat) :
    exec (.pldt pd imm) s =
      s.finish (supportImm (s.ctx c) imm >>= fun i =>
        readPst (s.ctx c) s.data i >>= fun p => .ok (s.data.setP pd p)) := by
  rw [exec, execPldt, runCommand_of_runs hs]

theorem exec_pconst (pd fa : RegIx) :
    exec (.pconst pd fa) s = s.finish (.ok (s.data.setP pd (Poly.const (s.data.f.get fa)))) := by
  rw [exec, execPconst, runCommand_of_runs hs]

theorem exec_psetc (pd fa : RegIx) (imm : Nat) :
    exec (.psetc pd fa imm) s =
      s.finish (coeffImm (s.ctx c) imm >>= fun j =>
        .ok (s.data.setP pd (Poly.setCoeff (s.data.p.get pd) j (s.data.f.get fa)))) := by
  rw [exec, execPsetc, runCommand_of_runs hs]

theorem exec_pgetc (fd pa : RegIx) (imm : Nat) :
    exec (.pgetc fd pa imm) s =
      s.finish (coeffImm (s.ctx c) imm >>= fun j =>
        .ok (s.data.setF fd (Poly.coeff (s.data.p.get pa) j))) := by
  rw [exec, execPgetc, runCommand_of_runs hs]

theorem exec_padd (pd pa pb : RegIx) :
    exec (.padd pd pa pb) s =
      s.finish (.ok (s.data.setP pd (Poly.add (s.data.p.get pa) (s.data.p.get pb)))) := by
  rw [exec, execPadd, runCommand_of_runs hs]

theorem exec_pscl (pd pa fb : RegIx) :
    exec (.pscl pd pa fb) s =
      s.finish (.ok (s.data.setP pd
        (Poly.scale (c.gf s.data) (s.data.f.get fb) (s.data.p.get pa)))) := by
  rw [exec, execPscl, runCommand_of_runs hs]
  rfl

theorem exec_pshl (pd pa : RegIx) (imm : Nat) :
    exec (.pshl pd pa imm) s =
      s.finish (shiftChecked (s.ctx c) (s.data.p.get pa) imm >>= fun p =>
        .ok (s.data.setP pd p)) := by
  rw [exec, execPshl, runCommand_of_runs hs]

theorem exec_pmul (pd pa pb : RegIx) :
    exec (.pmul pd pa pb) s =
      s.finish (representable (s.ctx c)
        (Poly.mul (c.gf s.data) (s.data.p.get pa) (s.data.p.get pb)) >>= fun p =>
          .ok (s.data.setP pd p)) := by
  rw [exec, execPmul, runCommand_of_runs hs]
  rfl

theorem exec_pdivq (pd pa pb : RegIx) :
    exec (.pdivq pd pa pb) s =
      s.finish (divmod (c.gf s.data) (s.data.p.get pa) (s.data.p.get pb) >>= fun qr =>
        .ok (s.data.setP pd qr.1)) := by
  rw [exec, execPdivq, runCommand_of_runs hs]
  rfl

theorem exec_pdivr (pd pa pb : RegIx) :
    exec (.pdivr pd pa pb) s =
      s.finish (divmod (c.gf s.data) (s.data.p.get pa) (s.data.p.get pb) >>= fun qr =>
        .ok (s.data.setP pd qr.2)) := by
  rw [exec, execPdivr, runCommand_of_runs hs]
  rfl

theorem exec_pmod (pd pa : RegIx) :
    exec (.pmod pd pa) s =
      s.finish (gcheck (s.ctx c) s.data >>= fun g =>
        polyMod (c.gf s.data) (s.data.p.get pa) g >>= fun p => .ok (s.data.setP pd p)) := by
  rw [exec, execPmod, runCommand_of_runs hs]
  rfl

theorem exec_pmulm (pd pa pb : RegIx) :
    exec (.pmulm pd pa pb) s =
      s.finish (gcheck (s.ctx c) s.data >>= fun g =>
        polyMod (c.gf s.data) (Poly.mul (c.gf s.data) (s.data.p.get pa) (s.data.p.get pb)) g >>=
          fun p => .ok (s.data.setP pd p)) := by
  rw [exec, execPmulm, runCommand_of_runs hs]
  rfl

theorem exec_psqrm (pd pa : RegIx) :
    exec (.psqrm pd pa) s =
      s.finish (gcheck (s.ctx c) s.data >>= fun g =>
        polyMod (c.gf s.data) (Poly.mul (c.gf s.data) (s.data.p.get pa) (s.data.p.get pa)) g >>=
          fun p => .ok (s.data.setP pd p)) := by
  rw [exec, execPsqrm, runCommand_of_runs hs]
  rfl

theorem exec_pinvm (pd pa : RegIx) :
    exec (.pinvm pd pa) s =
      s.finish (gcheck (s.ctx c) s.data >>= fun g =>
        invmod (c.gf s.data) (s.data.p.get pa) g >>= fun p => .ok (s.data.setP pd p)) := by
  rw [exec, execPinvm, runCommand_of_runs hs]
  rfl

theorem exec_psqrt (pd pa : RegIx) :
    exec (.psqrt pd pa) s =
      s.finish (gcheck (s.ctx c) s.data >>= fun g =>
        sqrtmod (c.gf s.data) c.t (s.data.p.get pa) g >>= fun p => .ok (s.data.setP pd p)) := by
  rw [exec, execPsqrt, runCommand_of_runs hs]
  rfl

theorem exec_peval (fd pa fb : RegIx) :
    exec (.peval fd pa fb) s =
      s.finish (.ok (s.data.setF fd
        (Poly.eval (c.gf s.data) (s.data.p.get pa) (s.data.f.get fb)))) := by
  rw [exec, execPeval, runCommand_of_runs hs]
  rfl

theorem exec_psetg (pa : RegIx) :
    exec (.psetg pa) s = s.finish (.ok { s.data with gp := s.data.p.get pa }) := by
  rw [exec, execPsetg, runCommand_of_runs hs]

end

/-! ## The g-check (`42_poly.md` R265) -/

/-- ERRINFO of GPOLY: the degree of GP, 0xFFFF for the zero polynomial (`60_exceptions.md` R401). -/
theorem CmdError.gpoly_info (p : Poly) :
    (CmdError.gpoly (degField (Poly.deg p))).info =
      if p = [] then 0x0000FFFF#32 else (BitVec.ofNat 16 (p.length - 1)).setWidth 32 := by
  cases p with
  | nil => rfl
  | cons a q => rfl

theorem readSupport_ok_of_isSome {x : Ctx} {d : Data}
    (h : ∀ e, e < x.code.n → (d.mems.l.read e).isSome = true) : ∃ l, readSupport x d = .ok l := by
  have hread : ∀ e, e < x.code.n → readElem d .L e = .ok ((d.mems.l.read e).getD 0#16) :=
    fun e he => by
      obtain ⟨v, hv⟩ := Option.isSome_iff_exists.mp (h e he)
      rw [readElem_ok (id := .L) hv, hv, Option.getD_some]
  exact ⟨_, collect_ok hread⟩

/-- Settles O11: after their Reads the ten commands begin with the g-check. -/
theorem wrongDegreeOfGpIsReported : Obligations.WrongDegreeOfGpIsReported := by
  intro i s c hs hgp hi
  suffices hcheck : ∃ rest : Poly → Run Data,
      exec i s = s.finish (gcheck (s.ctx c) s.data >>= rest) by
    obtain ⟨rest, hexec⟩ := hcheck
    rw [Fails, hexec, gcheck_error hgp, raise_bind, finish_raise, ← CmdError.gpoly_info]
    rfl
  rcases hi with ⟨_, rfl⟩ | ⟨_, _, _, rfl⟩ | ⟨_, _, rfl⟩ | ⟨_, _, rfl⟩ | ⟨_, _, rfl⟩ | ⟨_, _, rfl⟩ |
    ⟨hi, hl⟩ | rfl | rfl
  · exact ⟨_, exec_pldg hs _⟩
  · exact ⟨_, exec_pmulm hs _ _ _⟩
  · exact ⟨_, exec_pmod hs _ _⟩
  · exact ⟨_, exec_pinvm hs _ _⟩
  · exact ⟨_, exec_psqrm hs _ _⟩
  · exact ⟨_, exec_psqrt hs _ _⟩
  · obtain ⟨l, hread⟩ := readSupport_ok_of_isSome (x := s.ctx c) hl
    rcases hi with rfl | rfl
    · exact ⟨_, by rw [exec, execPstgen, runCommand_of_runs hs, hread, ok_bind]⟩
    · exact ⟨_, by rw [exec, execHgen, runCommand_of_runs hs, hread, ok_bind]⟩
  · exact ⟨_, by rw [exec, execLocator, runCommand_of_runs hs, locatorRule]⟩
  · exact ⟨_, by rw [exec, execKeyeq, runCommand_of_runs hs]⟩

/-! ## Moves (`42_poly.md` R266–R268, R270, R285) -/

/-- Settles O37: each move stores its source, PLDG once GP has passed the g-check. -/
theorem polynomialMoves : Obligations.PolynomialMoves := by
  intro s c pd pa fa hs
  refine ⟨exec_pclr hs pd, exec_pmov hs pd pa, exec_pconst hs pd fa, exec_psetg hs pa,
    fun hgp => ?_⟩
  exact succeeds_setP (exec_pldg hs pd) (gcheck_ok hgp)

/-! ## The table entry (`42_poly.md` R269) -/

theorem readPst_ok {x : Ctx} {d : Data} {i : Nat} {v : Nat → Elem}
    (h : ∀ j, j < x.code.t → d.mems.pst.read (i * x.code.t + j) = some (v j)) :
    readPst x d i = .ok (Poly.ofCoeffs ((List.range x.code.t).map v)) := by
  rw [readPst, collect_ok fun j hj => readElem_ok (id := .PST) (h j hj), ok_bind]

theorem readElem_error {d : Data} {id : ElemMem} {i : Nat} {e : Stop}
    (h : readElem d id i = .error e) : e = .unwritten (.elem id) i := by
  unfold readElem at h
  split at h <;> cases h
  rfl

theorem readPst_unwritten {x : Ctx} {d : Data} {i j : Nat} (hj : j < x.code.t)
    (h : d.mems.pst.read (i * x.code.t + j) = none) :
    ∃ e, readPst x d i = .error (.unwritten (.elem .PST) e) := by
  obtain ⟨id, e, hstop⟩ := collect_unwritten (fun j => readElem_reads d .PST (i * x.code.t + j)) hj
    ⟨_, _, readElem_unwritten (id := .PST) h⟩
  obtain ⟨l, hl⟩ := collectFrom_eq_error hstop
  cases readElem_error hl
  exact ⟨_, by rw [readPst, hstop, error_bind]⟩

/-- Settles O38: the range check of the immediate, then the read of the t coefficients. -/
theorem tableEntryLoad : Obligations.TableEntryLoad := by
  intro s c pd imm hs
  refine ⟨fun himm => ⟨fun v hv => ?_, fun j hj hnone => ?_⟩, fun himm => ?_⟩
  · have hread := readPst_ok (x := s.ctx c) hv
    refine ⟨Poly.ofCoeffs ((List.range c.t).map v), ?_, Poly.canonical_ofCoeffs _, ?_,
      fun j hj => ?_⟩
    · rw [Succeeds, exec_pldt hs, supportImm_ok himm, ok_bind, hread]
      rfl
    · exact (Poly.length_ofCoeffs_le _).trans (by simp)
    · rw [Poly.getD_ofCoeffs]
      simp [hj]
  · obtain ⟨e, hread⟩ := readPst_unwritten (x := s.ctx c) hj hnone
    exact ⟨e, by rw [exec_pldt hs, supportImm_ok himm, ok_bind, hread]; rfl⟩
  · rw [Fails, exec_pldt hs, supportImm_error himm]
    rfl

/-! ## Access to one coefficient (`42_poly.md` R271, R272) -/

theorem coeffImm_ok {x : Ctx} {imm : Nat} (h : imm ≤ x.tMax) : coeffImm x imm = .ok imm :=
  if_neg (Nat.not_lt.mpr h)

theorem coeffImm_error {x : Ctx} {imm : Nat} (h : x.tMax < imm) :
    coeffImm x imm = raise (.operand imm) := if_pos h

/-- Settles O39: the range check of the immediate, then one coefficient set or read. -/
theorem coefficientAccess : Obligations.CoefficientAccess := by
  intro s c pd fa fd pa imm hs
  refine ⟨fun himm => ⟨⟨Poly.setCoeff (s.data.p.get pd) imm (s.data.f.get fa), ?_,
    Poly.canonical_ofCoeffs _, fun j => Poly.getD_setCoeff _ imm j _⟩, ?_⟩, fun himm => ⟨?_, ?_⟩⟩
  · rw [Succeeds, exec_psetc hs, coeffImm_ok himm]
    rfl
  · rw [Succeeds, exec_pgetc hs, coeffImm_ok himm]
    rfl
  · rw [Fails, exec_psetc hs, coeffImm_error himm]
    rfl
  · rw [Fails, exec_pgetc hs, coeffImm_error himm]
    rfl

/-! ## Sum, scaling and shift (`42_poly.md` R273, R282, R283) -/

theorem shiftChecked_ok {x : Ctx} {p : Poly} {n : Nat} (h : p = [] ∨ p.length + n ≤ x.tMax + 1) :
    shiftChecked x p n = .ok (Poly.shift n p) := by
  cases p with
  | nil => rfl
  | cons a q =>
    have hle : ¬x.tMax < q.length + n := by simp at h; omega
    simp [shiftChecked, Poly.deg, hle]

theorem shiftChecked_error {x : Ctx} {p : Poly} {n : Nat} (hp : p ≠ [])
    (h : x.tMax + 1 < p.length + n) :
    shiftChecked x p n = raise (.overflow (p.length - 1 + n)) := by
  cases p with
  | nil => exact absurd rfl hp
  | cons a q =>
    have hlt : x.tMax < q.length + n := by simp at h; omega
    simp [shiftChecked, Poly.deg, hlt]

/-- Settles O40: the coefficients of the three results are known, and PSHL checks the degree. -/
theorem sumScaleAndShift : Obligations.SumScaleAndShift := by
  intro s c pd pa pb fb imm hs hsound a b
  have ha : Poly.canonical a := ((hs.ready hsound).p pa).wf.1
  have hb : Poly.canonical b := ((hs.ready hsound).p pb).wf.1
  refine ⟨⟨_, exec_padd hs pd pa pb, Poly.canonical_add ha hb, Poly.getD_add a b⟩,
    ⟨_, exec_pscl hs pd pa fb, Poly.canonical_scale _ _ a, Poly.getD_scale _ _ a⟩,
    fun hfit => ⟨_, ?_, Poly.canonical_shift imm ha, Poly.getD_shift imm a⟩, fun ha0 hlong => ?_⟩
  · exact succeeds_setP (exec_pshl hs pd pa imm) (shiftChecked_ok hfit)
  · exact fails_setP (exec_pshl hs pd pa imm) (shiftChecked_error ha0 hlong)

end Sys2Proof.Machine
end

section
/-! SUPPORT. The polynomials over the field of a configuration as polynomials over its residues
(`42_poly.md` R260–R262): sums and products are those of a commutative ring of characteristic 2,
every polynomial of that ring is stored by exactly one well-formed list, and congruence modulo g is
divisibility by g. -/

namespace Sys2Proof.Machine

open Polynomial

/-! ## Residues of elements -/

/-- The ring GF(2)[x]/f (`41_field.md` R230). -/
abbrev GF.Residues (k : GF) : Type := AdjoinRoot (bitPoly k.f)

theorem GF.residues_two (k : GF) : (2 : k.Residues) = 0 := by
  have h := map_ofNat (algebraMap (ZMod 2) k.Residues) 2
  rw [← h, show (OfNat.ofNat 2 : ZMod 2) = 0 from rfl, map_zero]

theorem zero_lt_two_pow (m : Nat) : (0#16).toNat < 2 ^ m := Nat.two_pow_pos m

theorem bitPoly_two : bitPoly 2#16 = X := by
  have h : bitPoly (1#16 <<< 1) = X ^ 1 * bitPoly 1#16 :=
    bitPoly_shiftLeft _ 1 fun i hi => by simp [BitVec.getLsbD_one]; omega
  have h1 : bitPoly 1#16 = 1 := by ext i; simp [coeff_one, BitVec.getLsbD_one, eq_comm]
  simpa [h1] using h

section
variable {k : GF} (hk : k.Proper)
include hk

/-- Every residue is that of an element below 2^m: constants are, and so are sums and, as ⊗ answers
elements below 2^m, products. -/
theorem residue_surjective (r : k.Residues) : ∃ a : Elem, a.toNat < 2 ^ k.m ∧ k.residue a = r := by
  induction r using AdjoinRoot.induction_on with
  | _ p =>
    induction p using Polynomial.induction_on with
    | C c =>
      obtain rfl | rfl : c = 0 ∨ c = 1 := by revert c; decide
      · exact ⟨0#16, zero_lt_two_pow k.m, by simp⟩
      · exact ⟨1#16, hk.one_lt, by simp⟩
    | add p q hp hq =>
      obtain ⟨a, ha, hap⟩ := hp
      obtain ⟨b, hb, hbq⟩ := hq
      exact ⟨fieldAdd a b, fieldAdd_lt ha hb, by rw [k.residue_add, hap, hbq, map_add]⟩
    | monomial n c ih =>
      obtain ⟨a, ha, hap⟩ := ih
      have hx : k.residue (k.mul 2#16 1#16) = AdjoinRoot.mk (bitPoly k.f) X := by
        rw [k.residue_mul hk _ hk.one_lt, k.residue_one, mul_one, GF.residue, bitPoly_two]
      refine ⟨k.mul a (k.mul 2#16 1#16), k.mul_lt hk.monic _ _, ?_⟩
      rw [k.residue_mul hk a (k.mul_lt hk.monic _ _), hap, hx, ← map_mul, pow_succ, mul_assoc]

/-- An element has an inverse when its residue is a unit (`41_field.md` R232). -/
theorem isUnit_residue_iff (a : Elem) : IsUnit (k.residue a) ↔ k.invertible a := by
  refine ⟨fun h => ?_, fun ⟨b, hb, hab⟩ => ?_⟩
  · obtain ⟨r, hr⟩ := h.exists_right_inv
    obtain ⟨b, hb, rfl⟩ := residue_surjective hk r
    refine ⟨b, hb, k.residue_injective hk (k.mul_lt hk.monic a b) hk.one_lt ?_⟩
    rw [k.residue_mul hk a hb, hr, k.residue_one]
  · exact .of_mul_eq_one (k.residue b) (by rw [← k.residue_mul hk a hb, hab, k.residue_one])

/-- For an irreducible f the residues are a field (`41_field.md` R232), so they have no zero
divisors. -/
theorem residues_isDomain (hfield : k.isField) : IsDomain k.Residues := by
  have hunit : ∀ r : k.Residues, r ≠ 0 → IsUnit r := fun r hr => by
    obtain ⟨a, ha, rfl⟩ := residue_surjective hk r
    refine (isUnit_residue_iff hk a).mpr (hfield a (fun h0 => hr ?_) ha)
    rw [h0, k.residue_zero]
  have hnontrivial : Nontrivial k.Residues := ⟨0, 1, fun h01 => by
    have h := k.residue_injective hk (zero_lt_two_pow k.m) hk.one_lt
      (by rw [k.residue_zero, k.residue_one, h01])
    simp at h⟩
  have hdivisors : NoZeroDivisors k.Residues := ⟨fun {r s} hrs => or_iff_not_imp_left.mpr fun hr =>
    (hunit r hr).mul_right_eq_zero.mp hrs⟩
  exact NoZeroDivisors.to_isDomain _

end

/-! ## Polynomials over the residues -/

theorem Poly.lead_ne_zero {p : Poly} (hp : Poly.canonical p) (hp0 : p ≠ []) :
    Poly.lead p ≠ 0#16 := fun h => hp (by
  rw [Poly.lead, List.getLastD_eq_getLast?] at h
  rw [List.getLast?_eq_getLast_of_ne_nil hp0] at h ⊢
  rw [← h, Option.getD_some])

/-- The polynomial over the residues a stored polynomial stands for (`00_scope.md` R10). -/
noncomputable def Poly.residue (k : GF) : Poly → k.Residues[X]
  | [] => 0
  | a :: p => C (k.residue a) + X * Poly.residue k p

variable {k : GF}

@[simp] theorem Poly.coeff_residue (p : Poly) (i : Nat) :
    (Poly.residue k p).coeff i = k.residue (p.getD i 0#16) := by
  induction p generalizing i with
  | nil => simp [Poly.residue]
  | cons a p ih => cases i <;> simp [Poly.residue, ih]

@[simp] theorem Poly.residue_nil : Poly.residue k [] = 0 := rfl

theorem Poly.residue_add (p q : Poly) :
    Poly.residue k (Poly.add p q) = Poly.residue k p + Poly.residue k q := by
  ext i
  rw [coeff_add, Poly.coeff_residue, Poly.coeff_residue, Poly.coeff_residue, Poly.getD_add,
    k.residue_add]

theorem Poly.residue_const (a : Elem) : Poly.residue k (Poly.const a) = C (k.residue a) := by
  ext i
  rw [Poly.coeff_residue, Poly.const, Poly.getD_cons_eq]
  cases i <;> simp [coeff_C]

theorem Poly.residue_one : Poly.residue k [1#16] = 1 := by simp [Poly.residue]

theorem Poly.residue_shift (n : Nat) (p : Poly) :
    Poly.residue k (Poly.shift n p) = X ^ n * Poly.residue k p := by
  ext i
  rw [coeff_X_pow_mul', Poly.coeff_residue, Poly.getD_shift, Poly.coeff_residue]
  by_cases hi : n ≤ i
  · simp [hi, Nat.not_lt.mpr hi]
  · simp [hi, Nat.lt_of_not_le hi]

/-- The characteristic is 2, so a sum of polynomials over the residues is also their difference. -/
theorem GF.polys_two (k : GF) : (2 : k.Residues[X]) = 0 := by
  have h := map_ofNat (C : k.Residues →+* k.Residues[X]) 2
  rw [← h, show (OfNat.ofNat 2 : k.Residues) = 0 from GF.residues_two k, map_zero]

section
variable (hk : k.Proper)
include hk

theorem Poly.residue_scale (a : Elem) {p : Poly} (hp : Poly.wf k.m p) :
    Poly.residue k (Poly.scale k a p) = C (k.residue a) * Poly.residue k p := by
  ext i
  rw [coeff_C_mul, Poly.coeff_residue, Poly.coeff_residue, Poly.getD_scale]
  exact k.residue_mul hk a (Poly.coeff_lt hp i)

theorem Poly.residue_mul (p : Poly) {q : Poly} (hq : Poly.wf k.m q) :
    Poly.residue k (Poly.mul k p q) = Poly.residue k p * Poly.residue k q := by
  induction p with
  | nil => simp [Poly.mul]
  | cons a p ih =>
    rw [Poly.mul, Poly.residue_add, Poly.residue_scale hk a hq, Poly.residue_shift, ih,
      Poly.residue]
    ring

/-- Well-formed polynomials are determined by what they stand for (log 10). -/
theorem Poly.residue_injective {p q : Poly} (hp : Poly.wf k.m p) (hq : Poly.wf k.m q)
    (h : Poly.residue k p = Poly.residue k q) : p = q :=
  Poly.ext_getD hp.1 hq.1 fun i =>
    k.residue_injective hk (Poly.coeff_lt hp i) (Poly.coeff_lt hq i) (by
      rw [← Poly.coeff_residue, h, Poly.coeff_residue])

theorem Poly.exists_residue_eq (P : k.Residues[X]) : ∃ p, Poly.wf k.m p ∧ Poly.residue k p = P := by
  induction P using Polynomial.induction_on' with
  | add P Q hP hQ =>
    obtain ⟨p, hp, rfl⟩ := hP
    obtain ⟨q, hq, rfl⟩ := hQ
    exact ⟨Poly.add p q, Poly.wf_add hp hq, Poly.residue_add p q⟩
  | monomial n r =>
    obtain ⟨a, ha, rfl⟩ := residue_surjective hk r
    refine ⟨Poly.shift n (Poly.const a), Poly.wf_shift n (Poly.wf_const ha), ?_⟩
    rw [Poly.residue_shift, Poly.residue_const, ← C_mul_X_pow_eq_monomial, mul_comm]

theorem Poly.residue_eq_zero_iff {p : Poly} (hp : Poly.wf k.m p) : Poly.residue k p = 0 ↔ p = [] :=
  ⟨fun h => Poly.residue_injective hk hp (Poly.wf_nil _) h, fun h => h ▸ rfl⟩

theorem Poly.wf_one : Poly.wf k.m [1#16] := ⟨by simp, by simpa using hk.one_lt⟩

/-- The degree of a stored polynomial (`00_scope.md` R10). -/
theorem Poly.natDegree_residue {p : Poly} (hp : Poly.wf k.m p) :
    (Poly.residue k p).natDegree = p.length - 1 := by
  by_cases hp0 : p = []
  · simp [hp0]
  have hpos := List.length_pos_iff.mpr hp0
  refine natDegree_eq_of_le_of_coeff_ne_zero (natDegree_le_iff_coeff_eq_zero.mpr fun i hi => ?_) ?_
  · rw [Poly.coeff_residue, List.getD_eq_default _ _ (by omega), k.residue_zero]
  · rw [Poly.coeff_residue]
    intro h0
    have hlead := k.residue_injective hk (Poly.coeff_lt hp _) (zero_lt_two_pow k.m)
      (h0.trans k.residue_zero.symm)
    exact Poly.lead_ne_zero hp.1 hp0 ((Poly.lead_eq_getD p).trans hlead)

/-! ## Congruence modulo g (`42_poly.md` R262) -/

/-- a ≡ r (mod g) when g divides the difference, which is the sum. -/
theorem Poly.modEq_iff_dvd {g a r : Poly} (hg : Poly.wf k.m g) (ha : Poly.wf k.m a)
    (hr : Poly.wf k.m r) :
    Poly.modEq k g a r ↔ Poly.residue k g ∣ Poly.residue k a + Poly.residue k r := by
  refine ⟨fun ⟨q, _, hq⟩ => ⟨Poly.residue k q, ?_⟩, fun ⟨Q, hQ⟩ => ?_⟩
  · rw [hq, Poly.residue_add, Poly.residue_mul hk q hg]
    linear_combination Poly.residue k r * GF.polys_two k
  · obtain ⟨q, hq, rfl⟩ := Poly.exists_residue_eq hk Q
    refine ⟨q, hq, Poly.residue_injective hk ha (Poly.wf_add (Poly.wf_mul hk q g) hr) ?_⟩
    rw [Poly.residue_add, Poly.residue_mul hk q hg]
    linear_combination hQ - Poly.residue k r * GF.polys_two k

end

end Sys2Proof.Machine
end

section
/-! SUPPORT. The product and the value of polynomials (`42_poly.md` R261, R274, R284) as XORs over
their coefficients. -/

namespace Sys2Proof.Machine

variable {k : GF}

/-! ## XOR sums -/

theorem foldl_fieldAdd (vs : List Elem) (a : Elem) :
    vs.foldl fieldAdd a = fieldAdd a (vs.foldl fieldAdd 0#16) := by
  induction vs generalizing a with
  | nil => simp [fieldAdd]
  | cons v vs ih =>
    rw [List.foldl_cons, List.foldl_cons, ih, ih (fieldAdd 0#16 v)]
    simp [fieldAdd, BitVec.xor_assoc]

@[simp] theorem xorSum_zero (f : Nat → Elem) : xorSum 0 f = 0#16 := rfl

theorem xorSum_succ (n : Nat) (f : Nat → Elem) :
    xorSum (n + 1) f = fieldAdd (f 0) (xorSum n fun i => f (i + 1)) := by
  rw [xorSum, List.range_succ_eq_map, List.map_cons, List.foldl_cons, foldl_fieldAdd, List.map_map]
  simp [fieldAdd, xorSum, Function.comp_def]

theorem xorSum_eq_zero {n : Nat} {f : Nat → Elem} (h : ∀ i, f i = 0#16) : xorSum n f = 0#16 := by
  induction n generalizing f with
  | zero => rfl
  | succ n ih => rw [xorSum_succ, h, ih fun i => h (i + 1)]; rfl

/-- ⊗ distributes over an XOR sum (`41_field.md` R231). -/
theorem xorSum_mul (n : Nat) (f : Nat → Elem) (x : Elem) :
    k.mul (xorSum n f) x = xorSum n fun i => k.mul (f i) x := by
  induction n generalizing f with
  | zero => simp
  | succ n ih => rw [xorSum_succ, GF.add_mul, ih, xorSum_succ]

theorem xorSum_congr {n : Nat} {f f' : Nat → Elem} (h : ∀ i, f i = f' i) :
    xorSum n f = xorSum n f' := by rw [funext h]

/-! ## The product (`42_poly.md` R274) -/

/-- Coefficient i of a product is the XOR over j + l = i (`42_poly.md` R261). -/
theorem Poly.getD_mul (p q : Poly) (i : Nat) :
    (Poly.mul k p q).getD i 0#16 =
      xorSum (i + 1) fun j => k.mul (p.getD j 0#16) (q.getD (i - j) 0#16) := by
  induction p generalizing i with
  | nil => exact (xorSum_eq_zero fun j => by simp).symm
  | cons a p ih =>
    rw [Poly.mul, Poly.getD_add, Poly.getD_scale, Poly.getD_shift, xorSum_succ]
    congr 1
    cases i with
    | zero => rfl
    | succ i =>
      rw [if_neg (by omega), Nat.add_sub_cancel, ih]
      exact xorSum_congr fun j => by rw [List.getD_cons_succ, Nat.add_sub_add_right]

theorem Poly.length_mul_le (p q : Poly) : (Poly.mul k p q).length ≤ p.length + q.length - 1 := by
  induction p with
  | nil => simp [Poly.mul]
  | cons a p ih =>
    have hadd := Poly.length_add_le (Poly.scale k a q) (Poly.shift 1 (Poly.mul k p q))
    have hscale := Poly.length_scale_le k a q
    have hshift := Poly.length_shift 1 (Poly.mul k p q)
    rw [Poly.mul, List.length_cons]
    split at hshift
    · omega
    · next hne =>
      have hpos := List.length_pos_iff.mpr hne
      omega

/-- Over a field the degrees of non-zero factors add up. -/
theorem Poly.length_mul_of_isField (hk : k.Proper) (hfield : k.isField) {p q : Poly}
    (hp : Poly.wf k.m p) (hq : Poly.wf k.m q) (hp0 : p ≠ []) (hq0 : q ≠ []) :
    (Poly.mul k p q).length + 1 = p.length + q.length := by
  have hdomain := residues_isDomain hk hfield
  have hP := mt (Poly.residue_eq_zero_iff hk hp).mp hp0
  have hQ := mt (Poly.residue_eq_zero_iff hk hq).mp hq0
  have hne : Poly.mul k p q ≠ [] := fun h => mul_ne_zero hP hQ (by
    rw [← Poly.residue_mul hk p hq, h, Poly.residue_nil])
  have hdeg := Polynomial.natDegree_mul hP hQ
  rw [← Poly.residue_mul hk p hq, Poly.natDegree_residue hk (Poly.wf_mul hk p q),
    Poly.natDegree_residue hk hp, Poly.natDegree_residue hk hq] at hdeg
  have hpos := List.length_pos_iff.mpr hne
  have hppos := List.length_pos_iff.mpr hp0
  have hqpos := List.length_pos_iff.mpr hq0
  omega

/-- Settles O41: the product's coefficients and length are known, and PMUL checks its degree. -/
theorem polynomialProduct : Obligations.PolynomialProduct := by
  intro s c pd pa pb hs hsound k a b
  have hready := hs.ready hsound
  refine ⟨Poly.mul k a b, Poly.canonical_mul k a b, Poly.getD_mul a b, fun hfield ha0 hb0 => ?_,
    fun hle => ?_, fun hfit => ?_, fun hlong => ?_⟩
  · exact Poly.length_mul_of_isField hready.proper hfield (hready.p pa).wf (hready.p pb).wf ha0 hb0
  · exact (Poly.length_mul_le a b).trans (by omega)
  · exact succeeds_setP (exec_pmul hs pd pa pb) (representable_ok hfit)
  · exact fails_setP (exec_pmul hs pd pa pb) (representable_error hlong)

/-! ## The value (`42_poly.md` R284) -/

/-- Horner's rule gives the sum of the products with the powers (`42_poly.md` R261). -/
theorem Poly.eval_eq_xorSum (hk : k.Proper) {p : Poly} (hp : ∀ a ∈ p, a.toNat < 2 ^ k.m) {x : Elem}
    (hx : x.toNat < 2 ^ k.m) :
    Poly.eval k p x = xorSum p.length fun i => k.mul (p.getD i 0#16) (k.pow x i) := by
  induction p with
  | nil => rfl
  | cons a p ih =>
    obtain ⟨ha, hp⟩ := List.forall_mem_cons.mp hp
    have hone : k.mul a (k.pow x 0) = a := GF.mul_one hk ha
    have hstep : ∀ i, k.mul (k.mul (p.getD i 0#16) (k.pow x i)) x =
        k.mul (p.getD i 0#16) (k.pow x (i + 1)) := fun i => by
      rw [GF.mul_assoc hk _ (GF.pow_lt hk x i) hx, GF.pow_succ]
    rw [Poly.eval, ih hp, xorSum_mul, xorSum_congr hstep, List.length_cons, xorSum_succ,
      List.getD_cons_zero, hone]
    exact BitVec.xor_comm _ _

/-- Settles O42: the powers are those of the field. -/
theorem polynomialValue : Obligations.PolynomialValue := by
  intro s c fd pa fb hs hsound k a x
  have hready := hs.ready hsound
  refine ⟨k.pow x, GF.pow_zero k x, GF.pow_succ k x, ?_⟩
  have hvalue : Poly.eval k a x = xorSum a.length fun i => k.mul (a.getD i 0#16) (k.pow x i) :=
    Poly.eval_eq_xorSum hready.proper (hready.p pa).wf.2 (hready.f_lt fb)
  rw [← hvalue]
  exact exec_peval hs fd pa fb

end Sys2Proof.Machine
end

section
/-! SUPPORT. Division with remainder (`42_poly.md` R262) and what is computed by it: reduction
modulo g (R275, R276, R280) and repeated squaring (R264, R281). -/

namespace Sys2Proof.Machine

open Polynomial

/-- a = q·b + r with deg r < deg b (`42_poly.md` R262). -/
abbrev Poly.DividesAs (k : GF) (a b q r : Poly) : Prop :=
  Poly.wf k.m q ∧ Poly.wf k.m r ∧ r.length < b.length ∧ a = Poly.add (Poly.mul k q b) r

/-- The quotient and remainder divmod answers; zeros where it reports an error. -/
def quotRem (k : GF) (a b : Poly) : Poly × Poly :=
  match divmod k a b with
  | .ok qr => qr
  | .error _ => ([], [])

/-- x, and the remainders modulo g of its repeated squarings (`42_poly.md` R264). -/
def Poly.squares (k : GF) (g x : Poly) : Nat → Poly
  | 0 => x
  | j + 1 => (quotRem k (Poly.mul k (Poly.squares k g x j) (Poly.squares k g x j)) g).2

section
variable {k : GF} (hk : k.Proper)
include hk

/-! ## divmod -/

/-- Each turn of the reduction loop moves a multiple of b from r to q·b. -/
theorem residue_divLoop {b : Poly} (hb : Poly.wf k.m b) (ib : Elem) (fuel : Nat) (q r : Poly) :
    Poly.residue k (divLoop k b ib fuel q r).1 * Poly.residue k b +
        Poly.residue k (divLoop k b ib fuel q r).2 =
      Poly.residue k q * Poly.residue k b + Poly.residue k r := by
  induction fuel generalizing q r with
  | zero => rfl
  | succ fuel ih =>
    rw [divLoop]
    split
    · rw [ih, Poly.residue_add, Poly.residue_add, Poly.residue_shift, Poly.residue_shift,
        Poly.residue_const, Poly.residue_scale hk _ hb]
      linear_combination X ^ (r.length - b.length) * C (k.residue (k.mul (Poly.lead r) ib)) *
        Poly.residue k b * GF.polys_two k
    · rfl

/-- Everything divmod does with a divisor whose leading coefficient has an inverse. -/
theorem divmod_of_invertible {a b : Poly} (ha : Poly.wf k.m a) (hb : Poly.wf k.m b)
    (hu : k.invertible (b.getLastD 0#16)) :
    divmod k a b = .ok (quotRem k a b) ∧
      Poly.DividesAs k a b (quotRem k a b).1 (quotRem k a b).2 := by
  have hb0 : b ≠ [] := by rintro rfl; exact k.not_invertible_zero hu
  obtain ⟨ib, hib, hinv⟩ := hu
  have hloop : divmod k a b = .ok (divLoop k b ib a.length [] a) := by
    rw [divmod, if_neg hb0, Poly.lead, GF.inv_eq_ok hk hib hinv, ok_bind]
  have hqr : quotRem k a b = divLoop k b ib a.length [] a := by rw [quotRem, hloop]
  obtain ⟨⟨hq, -⟩, hr, hlt⟩ := divLoop_keeps hk hb hb0 hib hinv (Poly.wf_nil _) (Nat.zero_le _) ha
    (Nat.le_refl _) (Nat.le_refl a.length)
  rw [hqr]
  refine ⟨hloop, hq, hr, hlt, Poly.residue_injective hk ha (Poly.wf_add (Poly.wf_mul hk _ _) hr) ?_⟩
  rw [Poly.residue_add, Poly.residue_mul hk _ hb, residue_divLoop hk hb, Poly.residue_nil, zero_mul,
    zero_add]

omit hk in
theorem divmod_nil (a : Poly) : divmod k a [] = raise (.arith .zeroDivisor) := rfl

theorem divmod_of_stuck {b : Poly} (a : Poly) (h : Poly.stuckAt k b) :
    divmod k a b = raise (.arith .fieldInverse) := by
  obtain ⟨hb0, hu⟩ := h
  rw [divmod, if_neg hb0, Poly.lead, GF.inv_eq_raise hk fun c hc hmul => hu ⟨c, hc, hmul⟩,
    raise_bind]

theorem wf_quotRem {a b : Poly} (ha : Poly.wf k.m a) (hb : Poly.wf k.m b) :
    Poly.wf k.m (quotRem k a b).1 ∧ Poly.wf k.m (quotRem k a b).2 := by
  unfold quotRem
  split
  · next qr h =>
    obtain ⟨⟨hq, -⟩, hr, -⟩ := divmod_ensures hk ha hb qr h
    exact ⟨hq, hr⟩
  · exact ⟨Poly.wf_nil _, Poly.wf_nil _⟩

/-! ## Reduction modulo g -/

theorem polyMod_of_invertible {a g : Poly} (ha : Poly.wf k.m a) (hg : Poly.wf k.m g)
    (hu : k.invertible (g.getLastD 0#16)) : polyMod k a g = .ok (quotRem k a g).2 := by
  rw [polyMod, (divmod_of_invertible hk ha hg hu).1, ok_bind]

theorem polyMod_of_stuck {g : Poly} (a : Poly) (h : Poly.stuckAt k g) :
    polyMod k a g = raise (.arith .fieldInverse) := by
  rw [polyMod, divmod_of_stuck hk a h, raise_bind]

/-- A remainder modulo g is well formed, shorter than g and congruent to what is divided. -/
theorem quotRem_modEq {a g : Poly} (ha : Poly.wf k.m a) (hg : Poly.wf k.m g)
    (hu : k.invertible (g.getLastD 0#16)) :
    Poly.wf k.m (quotRem k a g).2 ∧ (quotRem k a g).2.length < g.length ∧
      Poly.modEq k g a (quotRem k a g).2 := by
  obtain ⟨hq, hr, hlt, heq⟩ := (divmod_of_invertible hk ha hg hu).2
  exact ⟨hr, hlt, _, hq, heq⟩

/-! ## Squaring modulo g (`42_poly.md` R264) -/

theorem squares_reduced {g x : Poly} (hg : Poly.wf k.m g) (hu : k.invertible (g.getLastD 0#16))
    (hx : Poly.wf k.m x) (hlt : x.length < g.length) (j : Nat) :
    Poly.wf k.m (Poly.squares k g x j) ∧ (Poly.squares k g x j).length < g.length := by
  cases j with
  | zero => exact ⟨hx, hlt⟩
  | succ j =>
    obtain ⟨hr, hlt, -⟩ := quotRem_modEq hk (Poly.wf_mul hk _ _) hg hu
    exact ⟨hr, hlt⟩

theorem squares_modEq {g : Poly} (x : Poly) (hg : Poly.wf k.m g)
    (hu : k.invertible (g.getLastD 0#16)) (j : Nat) :
    Poly.modEq k g (Poly.mul k (Poly.squares k g x j) (Poly.squares k g x j))
      (Poly.squares k g x (j + 1)) := by
  obtain ⟨-, -, hmod⟩ := quotRem_modEq hk (Poly.wf_mul hk _ _) hg hu
  exact hmod

theorem squareLoop_squares {g x : Poly} (hg : Poly.wf k.m g) (hu : k.invertible (g.getLastD 0#16))
    (i j : Nat) :
    squareLoop k g j (Poly.squares k g x i) = .ok (Poly.squares k g x (i + j)) := by
  induction j generalizing i with
  | zero => rfl
  | succ j ih =>
    rw [squareLoop, polyMod_of_invertible hk (Poly.wf_mul hk _ _) hg hu, ok_bind, ← Poly.squares,
      ih, Nat.succ_add_eq_add_succ]

theorem sqrtmod_of_invertible (t : Nat) {a g : Poly} (ha : Poly.wf k.m a) (hg : Poly.wf k.m g)
    (hu : k.invertible (g.getLastD 0#16)) :
    sqrtmod k t a g = .ok (Poly.squares k g (quotRem k a g).2 (k.m * t - 1)) := by
  have hloop := squareLoop_squares hk (x := (quotRem k a g).2) hg hu 0 (k.m * t - 1)
  rw [sqrtmod, polyMod_of_invertible hk ha hg hu, ok_bind]
  rwa [Nat.zero_add] at hloop

end

/-! ## The commands -/

/-- Settles O43: divmod has one end for each kind of divisor. -/
theorem divisionWithRemainder : Obligations.DivisionWithRemainder := by
  intro s c pd pa pb hs hsound k a b
  have hready := hs.ready hsound
  have hquot {r : Run (Poly × Poly)} (hr : divmod k a b = r) :
      exec (.pdivq pd pa pb) s = s.finish (r >>= fun qr => .ok (s.data.setP pd qr.1)) :=
    hr ▸ exec_pdivq hs pd pa pb
  have hrem {r : Run (Poly × Poly)} (hr : divmod k a b = r) :
      exec (.pdivr pd pa pb) s = s.finish (r >>= fun qr => .ok (s.data.setP pd qr.2)) :=
    hr ▸ exec_pdivr hs pd pa pb
  refine ⟨fun _ hu => ?_, fun hb0 => ?_, fun hb0 hu => ?_⟩
  · obtain ⟨hok, hdiv⟩ :=
      divmod_of_invertible hready.proper (hready.p pa).wf (hready.p pb).wf hu
    obtain ⟨hwfq, hwfr, hlt, ha⟩ := hdiv
    exact ⟨_, _, hwfq, hwfr, hlt, ha, hquot hok, hrem hok⟩
  · have hzero : divmod k a b = raise (.arith .zeroDivisor) := by rw [hb0, divmod_nil]
    exact ⟨hquot hzero, hrem hzero⟩
  · have hstuck := divmod_of_stuck hready.proper a ⟨hb0, hu⟩
    exact ⟨hquot hstuck, hrem hstuck⟩

/-- Once the g-check has passed, a command that computes with g goes on with GP. -/
theorem finish_gcheck_ok {s : State} {x : Ctx} (rest : Poly → Run Data)
    (h : s.data.gp.length = x.code.t + 1) :
    s.finish (gcheck x s.data >>= rest) = s.finish (rest s.data.gp) := by rw [gcheck_ok h, ok_bind]

/-- The ends of a command that stores the remainder of x modulo g. -/
theorem ends_of_polyMod {s : State} {c : Code} {i : Instr} {pd : RegIx} {x : Poly} (hs : s.Runs c)
    (hsound : s.Sound) (hgp : s.data.gp.length = c.t + 1) (hx : Poly.wf c.m x)
    (hi : exec i s = s.finish (gcheck (s.ctx c) s.data >>= fun g =>
      polyMod (c.gf s.data) x g >>= fun p => .ok (s.data.setP pd p))) :
    ((c.gf s.data).invertible (s.data.gp.getLastD 0#16) →
      ∃ r : Poly, Poly.wf c.m r ∧ r.length ≤ c.t ∧ Poly.modEq (c.gf s.data) s.data.gp x r ∧
        Succeeds i s { s.data with p := s.data.p.set pd r }) ∧
    (¬(c.gf s.data).invertible (s.data.gp.getLastD 0#16) → Fails i s 6#8 1#32) := by
  have hready := hs.ready hsound
  rw [finish_gcheck_ok _ hgp] at hi
  refine ⟨fun hu => ?_, fun hu => ?_⟩
  · obtain ⟨hr, hlt, hmod⟩ := quotRem_modEq hready.proper hx hready.gp.wf hu
    exact ⟨_, hr, by omega, hmod,
      succeeds_setP hi (polyMod_of_invertible hready.proper hx hready.gp.wf hu)⟩
  · have hg0 : s.data.gp ≠ [] := List.ne_nil_of_length_eq_add_one hgp
    exact fails_setP hi (polyMod_of_stuck hready.proper x ⟨hg0, hu⟩)

/-- Settles O44: the three commands store the remainder of the operand, the product and the
square. -/
theorem reductionModuloG : Obligations.ReductionModuloG := by
  intro s c pd pa pb hs hsound hgp k g a b
  have hready := hs.ready hsound
  obtain ⟨hmodOk, hmodErr⟩ :=
    ends_of_polyMod hs hsound hgp (hready.p pa).wf (exec_pmod hs pd pa)
  obtain ⟨hmulOk, hmulErr⟩ :=
    ends_of_polyMod hs hsound hgp (Poly.wf_mul hready.proper a b) (exec_pmulm hs pd pa pb)
  obtain ⟨hsqrOk, hsqrErr⟩ :=
    ends_of_polyMod hs hsound hgp (Poly.wf_mul hready.proper a a) (exec_psqrm hs pd pa)
  exact ⟨fun hu => ⟨hmodOk hu, hmulOk hu, hsqrOk hu⟩,
    fun hu => ⟨hmodErr hu, hmulErr hu, hsqrErr hu⟩⟩

/-- Settles O46: the squaring loop runs through the squares of the reduced operand. -/
theorem squareRootModuloG : Obligations.SquareRootModuloG := by
  intro s c pd pa hs hsound hgp k g
  have hready := hs.ready hsound
  have hk : k.Proper := hready.proper
  have ha := (hready.p pa).wf
  have hg : Poly.wf k.m g := hready.gp.wf
  have hexec := exec_psqrt hs pd pa
  rw [finish_gcheck_ok _ hgp] at hexec
  refine ⟨fun hu => ?_, fun hu => ?_⟩
  · obtain ⟨hr, hlt, hmod⟩ := quotRem_modEq hk ha hg hu
    refine ⟨Poly.squares k g (quotRem k (s.data.p.get pa) g).2, hmod, fun j => ?_,
      succeeds_setP hexec (sqrtmod_of_invertible hk c.t ha hg hu)⟩
    obtain ⟨hwf, hlen⟩ := squares_reduced hk hg hu hr hlt j
    exact ⟨hwf, Nat.le_of_lt_succ (hlen.trans_eq hgp), squares_modEq hk _ hg hu j⟩
  · have hg0 : g ≠ [] := List.ne_nil_of_length_eq_add_one hgp
    have hstuck : sqrtmod k c.t (s.data.p.get pa) g = raise (.arith .fieldInverse) := by
      rw [sqrtmod, polyMod_of_stuck hk _ ⟨hg0, hu⟩, raise_bind]
    exact fails_setP hexec hstuck

end Sys2Proof.Machine
end

section
/-! SUPPORT. The inverse modulo g (`42_poly.md` R263): the loop runs the Euclidean algorithm on the
operand and g, and carries with each remainder a cofactor of the operand. -/

namespace Sys2Proof.Machine

open Polynomial

/-! ## The Euclidean algorithm -/

/-- The remainders of the Euclidean algorithm on a and g, which begin with a and g; zeros from the
first division that reports an error (`42_poly.md` R262, R263). -/
def Poly.euclidRem (k : GF) (a g : Poly) : Nat → Poly
  | 0 => a
  | 1 => g
  | i + 2 => (quotRem k (Poly.euclidRem k a g i) (Poly.euclidRem k a g (i + 1))).2

/-- The quotients of the Euclidean algorithm on a and g. -/
def Poly.euclidQuot (k : GF) (a g : Poly) (i : Nat) : Poly :=
  (quotRem k (Poly.euclidRem k a g i) (Poly.euclidRem k a g (i + 1))).1

/-- n divisions of the Euclidean algorithm on a and g, each by a divisor whose leading coefficient
has an inverse. -/
abbrev Poly.EuclidRuns (k : GF) (a g : Poly) (n : Nat) : Prop :=
  Poly.Euclid k a g n (Poly.euclidRem k a g) (Poly.euclidQuot k a g)

/-- s is a cofactor of a for r: g divides a·s + r. -/
structure Poly.Cofactor (k : GF) (a g s r : Poly) : Prop where
  wf : Poly.wf k.m s
  dvd : Poly.residue k g ∣ Poly.residue k a * Poly.residue k s + Poly.residue k r

/-- What invmod does with the last non-zero remainder and its cofactor (`42_poly.md` R263). -/
def invmodEnd (k : GF) (g : Poly) (rs : Poly × Poly) : Run Poly :=
  if Poly.deg rs.1 ≠ some 0 then raise (.arith .modInverse)
  else do
    let c ← k.inv (Poly.coeff rs.1 0)
    polyMod k (Poly.scale k c rs.2) g

section
variable {k : GF} (hk : k.Proper) {a g : Poly} (ha : Poly.wf k.m a) (hg : Poly.wf k.m g)
include hk ha hg

theorem wf_euclidRem (i : Nat) : Poly.wf k.m (Poly.euclidRem k a g i) := by
  induction i using Poly.euclidRem.induct with
  | case1 => exact ha
  | case2 => exact hg
  | case3 i ih ih' => exact (wf_quotRem hk ih ih').2

/-- The next division, when its divisor allows it. -/
theorem euclidRuns_succ {n : Nat} (h : Poly.EuclidRuns k a g n)
    (hu : k.invertible ((Poly.euclidRem k a g (n + 1)).getLastD 0#16)) :
    Poly.EuclidRuns k a g (n + 1) :=
  h.succ hu (divmod_of_invertible hk (wf_euclidRem hk ha hg n) (wf_euclidRem hk ha hg (n + 1)) hu).2

omit hk ha hg in
/-- The loop begins with a·0 ≡ g modulo g (`42_poly.md` R263). -/
theorem Poly.Cofactor.modulus : Poly.Cofactor k a g [] g :=
  ⟨Poly.wf_nil _, by rw [Poly.residue_nil, mul_zero, zero_add]⟩

/-- The loop begins with a·1 ≡ a modulo g (`42_poly.md` R263). -/
theorem Poly.Cofactor.operand {r : Poly} (hr : Poly.wf k.m r) (hmod : Poly.modEq k g a r) :
    Poly.Cofactor k a g (Poly.const 1#16) r := by
  refine ⟨Poly.wf_const hk.one_lt, ?_⟩
  rw [Poly.residue_const, k.residue_one, C_1, mul_one]
  exact (Poly.modEq_iff_dvd hk hg ha hr).mp hmod

/-- The cofactor of the next remainder (`42_poly.md` R263). -/
theorem Poly.Cofactor.next {n : Nat} {s0 s1 : Poly} (h : Poly.EuclidRuns k a g (n + 1))
    (h0 : Poly.Cofactor k a g s0 (Poly.euclidRem k a g n))
    (h1 : Poly.Cofactor k a g s1 (Poly.euclidRem k a g (n + 1))) :
    Poly.Cofactor k a g (Poly.add s0 (Poly.mul k (Poly.euclidQuot k a g n) s1))
      (Poly.euclidRem k a g (n + 2)) := by
  obtain ⟨-, -, -, hdiv⟩ := h.division n (Nat.lt_succ_self n)
  obtain ⟨P, hP⟩ := h0.dvd
  obtain ⟨Q, hQ⟩ := h1.dvd
  have hrem := congrArg (Poly.residue k) hdiv
  rw [Poly.residue_add, Poly.residue_mul hk _ (wf_euclidRem hk ha hg (n + 1))] at hrem
  refine ⟨Poly.wf_add h0.wf (Poly.wf_mul hk _ _),
    P + Poly.residue k (Poly.euclidQuot k a g n) * Q, ?_⟩
  rw [Poly.residue_add, Poly.residue_mul hk _ h1.wf]
  linear_combination hP + Poly.residue k (Poly.euclidQuot k a g n) * hQ + hrem +
    (Poly.residue k (Poly.euclidRem k a g (n + 2)) - Poly.residue k (Poly.euclidRem k a g n)) *
      GF.polys_two k

/-- The ends of invmod's loop from remainders n + 1 and n + 2 on: a divisor whose leading
coefficient has no inverse, or the zero remainder. -/
theorem invLoop_ends {n fuel : Nat} {s0 s1 : Poly} (h : Poly.EuclidRuns k a g (n + 1))
    (hfuel : (Poly.euclidRem k a g (n + 2)).length < fuel)
    (h0 : Poly.Cofactor k a g s0 (Poly.euclidRem k a g (n + 1)))
    (h1 : Poly.Cofactor k a g s1 (Poly.euclidRem k a g (n + 2))) :
    ∃ l, Poly.EuclidRuns k a g (l + 1) ∧
      (Poly.stuckAt k (Poly.euclidRem k a g (l + 2)) ∧
          invLoop k fuel (Poly.euclidRem k a g (n + 1)) (Poly.euclidRem k a g (n + 2)) s0 s1 =
            raise (.arith .fieldInverse) ∨
        Poly.euclidRem k a g (l + 2) = [] ∧
          ∃ s, Poly.Cofactor k a g s (Poly.euclidRem k a g (l + 1)) ∧
            invLoop k fuel (Poly.euclidRem k a g (n + 1)) (Poly.euclidRem k a g (n + 2)) s0 s1 =
              .ok (Poly.euclidRem k a g (l + 1), s)) := by
  induction fuel generalizing n s0 s1 with
  | zero => exact absurd hfuel (Nat.not_lt_zero _)
  | succ fuel ih =>
    rw [invLoop]
    by_cases hzero : Poly.euclidRem k a g (n + 2) = []
    · rw [if_pos hzero]
      exact ⟨n, h, .inr ⟨hzero, s0, h0, rfl⟩⟩
    rw [if_neg hzero]
    by_cases hu : k.invertible ((Poly.euclidRem k a g (n + 2)).getLastD 0#16)
    · have hnext := euclidRuns_succ hk ha hg h hu
      obtain ⟨-, -, hlt, -⟩ := hnext.division (n + 1) (Nat.lt_succ_self _)
      rw [(divmod_of_invertible hk (wf_euclidRem hk ha hg (n + 1)) (wf_euclidRem hk ha hg (n + 2))
        hu).1, ok_bind]
      exact ih hnext (hlt.trans_le (Nat.le_of_lt_succ hfuel)) h1 (h0.next hk ha hg hnext h1)
    · rw [divmod_of_stuck hk _ ⟨hzero, hu⟩, raise_bind]
      exact ⟨n, h, .inl ⟨⟨hzero, hu⟩, rfl⟩⟩

/-! ## invmod -/

omit ha in
/-- A cofactor for a constant remainder, divided by it, is an inverse modulo g. -/
theorem modEq_one_of_cofactor {s r : Poly} {v b : Elem} (hb : b.toNat < 2 ^ k.m)
    (hvb : k.mul v b = 1#16) (hs : Poly.Cofactor k a g s [v]) (hr : Poly.wf k.m r)
    (hmod : Poly.modEq k g (Poly.scale k b s) r) : Poly.modEq k g (Poly.mul k a r) [1#16] := by
  obtain ⟨P, hP⟩ := hs.dvd
  obtain ⟨Q, hQ⟩ := (Poly.modEq_iff_dvd hk hg (Poly.wf_scale hk b s) hr).mp hmod
  have hinv : C (k.residue v) * C (k.residue b) = 1 := by
    rw [← C_mul, ← k.residue_mul hk v hb, hvb, k.residue_one, C_1]
  have hconst : Poly.residue k [v] = C (k.residue v) := by simp [Poly.residue]
  rw [Poly.residue_scale hk b hs.wf] at hQ
  rw [hconst] at hP
  refine (Poly.modEq_iff_dvd hk hg (Poly.wf_mul hk a r) (Poly.wf_one hk)).mpr
    ⟨Poly.residue k a * Q + C (k.residue b) * P, ?_⟩
  rw [Poly.residue_mul hk a hr, Poly.residue_one]
  linear_combination Poly.residue k a * hQ + C (k.residue b) * hP + hinv -
    (Poly.residue k a * C (k.residue b) * Poly.residue k s +
      C (k.residue v) * C (k.residue b) - 1) * GF.polys_two k

omit hk ha hg in
theorem invmodEnd_of_not_const {r : Poly} (s : Poly) (h : r.length ≠ 1) :
    invmodEnd k g (r, s) = raise (.arith .modInverse) :=
  if_pos fun hdeg => h (Poly.deg_eq_some.mp hdeg)

omit ha in
theorem invmodEnd_of_const {v b : Elem} (hb : b.toNat < 2 ^ k.m) (hvb : k.mul v b = 1#16) (s : Poly)
    (hu : k.invertible (g.getLastD 0#16)) :
    invmodEnd k g ([v], s) = .ok (quotRem k (Poly.scale k b s) g).2 := by
  have hdeg : Poly.deg [v] = some 0 := rfl
  have hcoeff : Poly.coeff [v] 0 = v := rfl
  rw [invmodEnd, if_neg (not_not_intro hdeg), hcoeff, GF.inv_eq_ok hk hb hvb, ok_bind,
    polyMod_of_invertible hk (Poly.wf_scale hk b s) hg hu]

theorem invmod_of_invertible (hu : k.invertible (g.getLastD 0#16)) :
    invmod k a g =
      invLoop k (g.length + 1) (Poly.euclidRem k a g 1) (Poly.euclidRem k a g 2) []
        (Poly.const 1#16) >>= invmodEnd k g := by
  rw [invmod, polyMod_of_invertible hk ha hg hu, ok_bind]
  rfl

/-- The ends of invmod for a non-zero g (`42_poly.md` R263). -/
theorem invmod_ends (hg0 : g ≠ []) :
    ∃ n, Poly.EuclidRuns k a g n ∧
      (Poly.stuckAt k (Poly.euclidRem k a g (n + 1)) ∧
          invmod k a g = raise (.arith .fieldInverse) ∨
        Poly.euclidRem k a g (n + 1) = [] ∧ (Poly.euclidRem k a g n).length ≠ 1 ∧
          invmod k a g = raise (.arith .modInverse) ∨
        Poly.euclidRem k a g (n + 1) = [] ∧ (Poly.euclidRem k a g n).length = 1 ∧
          ∃ r, Poly.wf k.m r ∧ r.length < g.length ∧ Poly.modEq k g (Poly.mul k a r) [1#16] ∧
            invmod k a g = .ok r) := by
  have hstart : Poly.EuclidRuns k a g 0 := .zero rfl rfl
  by_cases hu : k.invertible (g.getLastD 0#16)
  case neg =>
    exact ⟨0, hstart, .inl ⟨⟨hg0, hu⟩, by rw [invmod, polyMod_of_stuck hk a ⟨hg0, hu⟩, raise_bind]⟩⟩
  have hfirst := euclidRuns_succ hk ha hg hstart hu
  obtain ⟨-, -, hlt, -⟩ := hfirst.division 0 Nat.one_pos
  obtain ⟨hr, -, hmod⟩ := quotRem_modEq hk ha hg hu
  obtain ⟨n, hruns, hend⟩ := invLoop_ends hk ha hg (fuel := g.length + 1) hfirst
    (hlt.trans (Nat.lt_succ_self _)) .modulus (.operand hk ha hg hr hmod)
  rw [invmod_of_invertible hk ha hg hu]
  refine ⟨n + 1, hruns, ?_⟩
  rcases hend with ⟨hstuck, hloop⟩ | ⟨hnil, s, hs, hloop⟩
  · exact .inl ⟨hstuck, by rw [hloop, raise_bind]⟩
  rw [hloop, ok_bind]
  by_cases hlen : (Poly.euclidRem k a g (n + 1)).length = 1
  · obtain ⟨v, hv⟩ := List.length_eq_one_iff.mp hlen
    obtain ⟨b, hb, hvb⟩ : k.invertible v := by
      simpa [hv] using hruns.unit n (Nat.lt_succ_self n)
    obtain ⟨hr, hrlt, hrmod⟩ := quotRem_modEq hk (Poly.wf_scale hk b s) hg hu
    refine .inr (.inr ⟨hnil, hlen, _, hr, hrlt,
      modEq_one_of_cofactor hk hg hb hvb (hv ▸ hs) hr hrmod, ?_⟩)
    rw [hv, invmodEnd_of_const hk hg hb hvb s hu]
  · exact .inr (.inl ⟨hnil, hlen, invmodEnd_of_not_const s hlen⟩)

/-! ## The ends over a field -/

omit hk ha hg in
theorem not_stuckAt_of_isField (hfield : k.isField) {p : Poly} (hp : Poly.wf k.m p) :
    ¬Poly.stuckAt k p := fun ⟨hp0, hu⟩ =>
  hu (hfield _ (Poly.lead_ne_zero hp.1 hp0) (Poly.lead_lt hp))

/-- A common divisor of two successive remainders divides a and g. -/
theorem dvd_of_dvd_euclidRem {n : Nat} (h : Poly.EuclidRuns k a g n) {D : k.Residues[X]} {i : Nat}
    (hi : i ≤ n) (h0 : D ∣ Poly.residue k (Poly.euclidRem k a g i))
    (h1 : D ∣ Poly.residue k (Poly.euclidRem k a g (i + 1))) :
    D ∣ Poly.residue k a ∧ D ∣ Poly.residue k g := by
  induction i with
  | zero => exact ⟨h0, h1⟩
  | succ i ih =>
    obtain ⟨-, -, -, hdiv⟩ := h.division i hi
    refine ih (Nat.le_of_succ_le hi) ?_ h0
    rw [hdiv, Poly.residue_add, Poly.residue_mul hk _ (wf_euclidRem hk ha hg (i + 1))]
    exact dvd_add (Dvd.dvd.mul_left h0 _) h1

/-- Over a field, an operand whose last non-zero remainder is not a constant has no inverse modulo g
(`42_poly.md` R263). -/
theorem not_invertibleMod_of_euclid (hfield : k.isField) (hg0 : g ≠ []) {n : Nat}
    (h : Poly.EuclidRuns k a g n) (hnil : Poly.euclidRem k a g (n + 1) = [])
    (hlen : (Poly.euclidRem k a g n).length ≠ 1) : ¬Poly.invertibleMod k g a := by
  rintro ⟨b, hb, hmod⟩
  have hdomain := residues_isDomain hk hfield
  have hwf := wf_euclidRem hk ha hg n
  obtain ⟨hDa, hDg⟩ := dvd_of_dvd_euclidRem hk ha hg h (Nat.le_refl n) (dvd_refl _)
    (by rw [hnil, Poly.residue_nil]; exact dvd_zero _)
  have hsum := hDg.trans ((Poly.modEq_iff_dvd hk hg (Poly.wf_mul hk a b) (Poly.wf_one hk)).mp hmod)
  rw [Poly.residue_mul hk a hb, Poly.residue_one] at hsum
  have hunit := isUnit_of_dvd_one ((dvd_add_right (hDa.mul_right _)).mp hsum)
  have hdeg := natDegree_eq_zero_of_isUnit hunit
  rw [Poly.natDegree_residue hk hwf] at hdeg
  have hempty : Poly.euclidRem k a g n = [] := List.length_eq_zero_iff.mp (by omega)
  rw [hempty, Poly.residue_nil, zero_dvd_iff, Poly.residue_eq_zero_iff hk hg] at hDg
  exact hg0 hDg

end

/-- Settles O45: PINVM ends as the Euclidean algorithm on its operand and GP does, and over a field
the end says whether there is an inverse. -/
theorem inverseModuloG : Obligations.InverseModuloG := by
  intro s c pd pa hs hsound hgp k g a inverted
  have hready := hs.ready hsound
  have hk : k.Proper := hready.proper
  have ha : Poly.wf k.m a := (hready.p pa).wf
  have hg : Poly.wf k.m g := hready.gp.wf
  have hg0 : g ≠ [] := List.ne_nil_of_length_eq_add_one hgp
  have hexec := exec_pinvm hs pd pa
  rw [finish_gcheck_ok _ hgp] at hexec
  obtain ⟨n, hruns, hinvmod⟩ := invmod_ends hk ha hg hg0
  have hends : Poly.stuckAt k (Poly.euclidRem k a g (n + 1)) ∧ Fails (.pinvm pd pa) s 6#8 1#32 ∨
      Poly.euclidRem k a g (n + 1) = [] ∧ (Poly.euclidRem k a g n).length ≠ 1 ∧
        Fails (.pinvm pd pa) s 6#8 2#32 ∨
      Poly.euclidRem k a g (n + 1) = [] ∧ (Poly.euclidRem k a g n).length = 1 ∧ inverted := by
    rcases hinvmod with ⟨hstuck, hr⟩ | ⟨hnil, hlen, hr⟩ | ⟨hnil, hlen, r, hwf, hlt, hmod, hr⟩
    · exact .inl ⟨hstuck, fails_setP hexec hr⟩
    · exact .inr (.inl ⟨hnil, hlen, fails_setP hexec hr⟩)
    · exact .inr (.inr ⟨hnil, hlen, r, hwf, Nat.le_of_lt_succ (hlt.trans_eq hgp), hmod,
        succeeds_setP hexec hr⟩)
  refine ⟨fun hfield => ?_, n, _, _, hruns, hends⟩
  rcases hends with ⟨hstuck, -⟩ | ⟨hnil, hlen, hfails⟩ | ⟨-, -, hinv⟩
  · exact absurd hstuck (not_stuckAt_of_isField hfield (wf_euclidRem hk ha hg (n + 1)))
  · have hnone := not_invertibleMod_of_euclid hk ha hg hfield hg0 hruns hnil hlen
    exact ⟨fun h => absurd h hnone, fun _ => hfails⟩
  · refine ⟨fun _ => hinv, fun hnone => absurd ?_ hnone⟩
    obtain ⟨r, hwf, -, hmod, -⟩ := hinv
    exact ⟨r, hwf, hmod⟩

end Sys2Proof.Machine
end

section
/-! SUPPORT. What the key-side commands have in common (`43_keyside.md` R300–R310): what each ends
as once the NOCONFIG checks pass, lists in order of rows and columns, and the scan for the first
repeat. LGEN is settled by it alone. -/

namespace Sys2Proof.Machine

/-! ## Ends of the commands that pass the NOCONFIG checks (`40_control.md` R203) -/

/-- The data d when the entries are distinct, and otherwise the error that names the first repeat
(`43_keyside.md` R300, R308). -/
def whenDistinct (e : Nat → CmdError) (vs : List Elem) (d : Data) : Run Data :=
  match firstRepeat vs [] 0 with
  | some i => raise (e i)
  | none => .ok d

section
variable {s : State} {c : Code} (hs : s.Runs c)
include hs

theorem exec_lgen (fa : RegIx) :
    exec (.lgen fa) s =
      s.finish (whenDistinct .field (supportOf (c.gf s.data) (s.data.f.get fa) c.n)
        (s.data.fillElem .L (supportOf (c.gf s.data) (s.data.f.get fa) c.n))) := by
  rw [exec, execLgen, runCommand_of_runs hs]
  rfl

theorem exec_pstgen :
    exec .pstgen s = s.finish (readSupport (s.ctx c) s.data >>= fun l =>
      gcheck (s.ctx c) s.data >>= fun g =>
        collect c.n (fun i => pstEntry (s.ctx c) g i (l.getD i 0#16)) >>= fun entries =>
          .ok (s.data.fillElem .PST entries.flatten)) := by
  rw [exec, execPstgen, runCommand_of_runs hs]
  rfl

theorem exec_hgen :
    exec .hgen s = s.finish (readSupport (s.ctx c) s.data >>= fun l =>
      gcheck (s.ctx c) s.data >>= fun g =>
        collect c.n (fun j => hColumn (s.ctx c) g j (l.getD j 0#16)) >>= fun columns =>
          .ok (s.data.fillBit .H (hBits c columns))) := by
  rw [exec, execHgen, runCommand_of_runs hs]
  rfl

theorem exec_sysform : exec .sysform s = s.finish (sysformRule (s.ctx c) s.data) := by
  rw [exec, execSysform, runCommand_of_runs hs]

theorem exec_gextract :
    exec .gextract s = s.finish (readSwaps (s.ctx c) s.data >>= fun swp =>
      readBlock c s.data swp >>= fun block =>
        whenDistinct .perm swp
          (s.data.withBit .G (s.data.mems.g.writeAll (gCells c swp block)))) := by
  rw [exec, execGextract, runCommand_of_runs hs]
  rfl

end

section
variable {i : Instr} {s : State} {r : Run Data} (hexec : exec i s = s.finish r)
include hexec

theorem succeeds_of_ok {d : Data} (hr : r = .ok d) : Succeeds i s d := by
  rw [Succeeds, hexec, hr]
  rfl

theorem fails_of_raise {e : CmdError} (hr : r = raise e) : Fails i s e.code e.info := by
  rw [Fails, hexec, hr]
  rfl

end

/-- A command whose Reads meet an unwritten element stops there, whatever follows them
(`00_scope.md` R13; log 7). -/
theorem unwritten_of_bind {α : Type} {i : Instr} {s : State} {r : Run α} {f : α → Run Data}
    (hexec : exec i s = s.finish (r >>= f)) (hr : ∃ id e, r = .error (.unwritten id e)) :
    Unwritten i s := by
  obtain ⟨id, e, rfl⟩ := hr
  exact ⟨id, e, by rw [hexec, error_bind, finish_unwritten]⟩

/-! ## Reads (`00_scope.md` R13) -/

section
variable {x : Ctx} {d : Data}

theorem readSupport_ok {v : Nat → Elem} (h : ∀ i, i < x.code.n → d.mems.l.read i = some (v i)) :
    readSupport x d = .ok ((List.range x.code.n).map v) :=
  collect_ok fun i hi => readElem_ok (id := .L) (h i hi)

theorem readSupport_unwritten {i : Nat} (hi : i < x.code.n) (h : d.mems.l.read i = none) :
    ∃ id e, readSupport x d = .error (.unwritten id e) :=
  collect_unwritten (readElem_reads d .L) hi ⟨_, _, readElem_unwritten (id := .L) h⟩

theorem readSwaps_ok {v : Nat → Elem} (h : ∀ i, i < x.code.n → d.mems.swp.read i = some (v i)) :
    readSwaps x d = .ok ((List.range x.code.n).map v) :=
  collect_ok fun i hi => readElem_ok (id := .SWP) (h i hi)

theorem readSwaps_unwritten {i : Nat} (hi : i < x.code.n) (h : d.mems.swp.read i = none) :
    ∃ id e, readSwaps x d = .error (.unwritten id e) :=
  collect_unwritten (readElem_reads d .SWP) hi ⟨_, _, readElem_unwritten (id := .SWP) h⟩

end

/-! ## Lists in order of rows and columns (log 15) -/

theorem Code.n_pos (c : Code) : 0 < c.n := Nat.two_pow_pos c.m

theorem rowCol_div {n : Nat} (r : Nat) {j : Nat} (hj : j < n) : (r * n + j) / n = r := by
  rw [Nat.add_comm, Nat.add_mul_div_right _ _ (Nat.zero_lt_of_lt hj), Nat.div_eq_of_lt hj,
    Nat.zero_add]

theorem rowCol_mod {n : Nat} (r : Nat) {j : Nat} (hj : j < n) : (r * n + j) % n = j := by
  rw [Nat.add_comm, Nat.add_mul_mod_self_right, Nat.mod_eq_of_lt hj]

theorem rowCol_lt {n r rows j : Nat} (hr : r < rows) (hj : j < n) : r * n + j < rows * n :=
  calc r * n + j < r * n + n := Nat.add_lt_add_left hj _
    _ = (r + 1) * n := (Nat.succ_mul r n).symm
    _ ≤ rows * n := Nat.mul_le_mul_right n hr

section
variable {α : Type}

theorem getElem?_map_range (v : Nat → α) {n i : Nat} (hi : i < n) :
    ((List.range n).map v)[i]? = some (v i) := by
  rw [List.getElem?_map, List.getElem?_range hi, Option.map_some]

theorem getD_map_range (v : Nat → α) {n i : Nat} (hi : i < n) (a : α) :
    ((List.range n).map v).getD i a = v i := by
  rw [List.getD_eq_getElem?_getD, getElem?_map_range v hi, Option.getD_some]

theorem length_flatMap_range {f : Nat → List α} {n rows : Nat}
    (hlen : ∀ r, r < rows → (f r).length = n) :
    ((List.range rows).flatMap f).length = rows * n := by
  induction rows with
  | zero => simp
  | succ rows ih =>
    rw [List.range_succ, List.flatMap_append, List.flatMap_singleton, List.length_append,
      ih fun r hr => hlen r (Nat.lt_succ_of_lt hr), hlen rows rows.lt_succ_self, Nat.succ_mul]

/-- Entry j of row r of rows of equal length, written one after the other. -/
theorem getElem?_flatMap_range {f : Nat → List α} {n rows : Nat}
    (hlen : ∀ r, r < rows → (f r).length = n) {r j : Nat} (hr : r < rows) (hj : j < n) :
    ((List.range rows).flatMap f)[r * n + j]? = (f r)[j]? := by
  induction rows with
  | zero => exact absurd hr (Nat.not_lt_zero r)
  | succ rows ih =>
    have hlen' : ∀ r, r < rows → (f r).length = n := fun r hr => hlen r (Nat.lt_succ_of_lt hr)
    have hinit := length_flatMap_range hlen'
    rw [List.range_succ, List.flatMap_append, List.flatMap_singleton]
    rcases Nat.lt_succ_iff_lt_or_eq.mp hr with hr | rfl
    · rw [List.getElem?_append_left (hinit ▸ rowCol_lt hr hj), ih hlen' hr]
    · rw [List.getElem?_append_right (hinit ▸ Nat.le_add_right _ _), hinit, Nat.add_sub_cancel_left]

/-! ## Reads after the elements 0, 1, … were written -/

theorem Memory.read_writeRange_of_getElem? (m : Memory α) {vs : List α} {i : Nat} {v : α}
    (h : vs[i]? = some v) : (m.writeRange 0 vs).read i = some v := by
  obtain ⟨hi, -⟩ := List.getElem?_eq_some_iff.mp h
  rw [Memory.read_writeRange, if_pos ⟨Nat.zero_le i, (Nat.zero_add _).symm ▸ hi⟩, Nat.sub_zero, h]

theorem Memory.read_writeRange_of_length_le (m : Memory α) {vs : List α} {i : Nat}
    (h : vs.length ≤ i) : (m.writeRange 0 vs).read i = m.read i := by
  rw [Memory.read_writeRange, if_neg fun hi => by omega]

/-- A table of n entries, written at once. -/
theorem Memory.read_writeRange_map (m : Memory α) (v : Nat → α) (n i : Nat) :
    (m.writeRange 0 ((List.range n).map v)).read i = if i < n then some (v i) else m.read i := by
  split
  · next hi => exact m.read_writeRange_of_getElem? (getElem?_map_range v hi)
  · next hi => exact m.read_writeRange_of_length_le (by simpa using hi)

end

/-! ## The first repeat (`43_keyside.md` R300, R308) -/

section
variable {v : Nat → Elem} {k cnt : Nat}

/-- The scan goes past distinct entries. -/
theorem firstRepeat_skip (hne : ∀ i j, i < j → j < k → v i ≠ v j) :
    firstRepeat ((List.range (k + cnt)).map v) [] 0 =
      firstRepeat ((List.range' k cnt).map v) (scanned v k) k := by
  induction k generalizing cnt with
  | zero => rw [Nat.zero_add, List.range_eq_range']; rfl
  | succ k ih =>
    have hnew : v k ∉ scanned v k := fun h => by
      obtain ⟨j, hj, hjk⟩ := mem_scanned_iff.mp h
      exact hne j k hj k.lt_succ_self hjk
    rw [Nat.add_right_comm, Nat.add_assoc,
      ih fun i j hij hj => hne i j hij (Nat.lt_succ_of_lt hj), List.range'_succ, List.map_cons,
      firstRepeat, if_neg hnew, scanned_succ]

theorem whenDistinct_distinct (e : Nat → CmdError) (d : Data)
    (hne : ∀ i j, i < j → j < k → v i ≠ v j) :
    whenDistinct e ((List.range k).map v) d = .ok d := by
  have hnone : firstRepeat ((List.range k).map v) [] 0 = none := firstRepeat_skip (cnt := 0) hne
  rw [whenDistinct, hnone]

theorem whenDistinct_repeat (e : Nat → CmdError) (d : Data) {i : Nat} (hi : i < k)
    (hne : ∀ j l, j < l → l < i → v j ≠ v l) (hrep : ∃ j, j < i ∧ v j = v i) :
    whenDistinct e ((List.range k).map v) d = raise (e i) := by
  obtain ⟨cnt, rfl⟩ : ∃ cnt, k = i + (cnt + 1) := ⟨k - i - 1, by omega⟩
  have hsome : firstRepeat ((List.range (i + (cnt + 1))).map v) [] 0 = some i := by
    rw [firstRepeat_skip hne, List.range'_succ, List.map_cons, firstRepeat,
      if_pos (mem_scanned_iff.mpr hrep)]
  rw [whenDistinct, hsome]

end

/-! ## LGEN (`43_keyside.md` R300) -/

section
variable {k : GF} {a : Elem} {l : Nat → Elem}

theorem powersFrom_eq_map (hstep : ∀ i, l (i + 2) = k.mul a (l (i + 1))) (cnt i : Nat) :
    powersFrom k a cnt (l (i + 1)) = (List.range' (i + 1) cnt).map l := by
  induction cnt generalizing i with
  | zero => rfl
  | succ cnt ih => rw [powersFrom, ← hstep, ih, List.range'_succ, List.map_cons]

theorem supportOf_eq_map (h0 : l 0 = 0#16) (h1 : l 1 = a)
    (hstep : ∀ i, l (i + 2) = k.mul a (l (i + 1))) {n : Nat} (hn : 0 < n) :
    supportOf k a n = (List.range n).map l := by
  obtain ⟨n, rfl⟩ := Nat.exists_eq_add_one.mpr hn
  have hpowers := powersFrom_eq_map hstep n 0
  rw [h1] at hpowers
  rw [supportOf, Nat.add_sub_cancel, hpowers, List.range_eq_range', List.range'_succ, List.map_cons,
    h0]

end

/-- Settles O56: the elements LGEN computes are those of the sequence, and it scans them for a
repeat. -/
theorem supportFromGenerator : Obligations.SupportFromGenerator := by
  intro s c fa l hs h0 h1 hstep
  have hl : supportOf (c.gf s.data) (s.data.f.get fa) c.n = (List.range (2 ^ c.m)).map l :=
    supportOf_eq_map h0 h1 hstep (Nat.two_pow_pos c.m)
  have hexec := exec_lgen hs fa
  rw [hl] at hexec
  refine ⟨fun hne => ⟨s.data.mems.l.writeRange 0 ((List.range (2 ^ c.m)).map l), ?_,
    Memory.read_writeRange_map _ l _⟩, fun i hi hne hrep => ?_⟩
  · exact succeeds_of_ok hexec (whenDistinct_distinct _ _ hne)
  · exact fails_of_raise hexec (whenDistinct_repeat _ _ hi hne hrep)

end Sys2Proof.Machine
end

section
/-! SUPPORT. GEXTRACT (`43_keyside.md` R308, R309): where the bits of H it reads and the elements of
G it writes stand. -/

namespace Sys2Proof.Machine

/-! ## The block -/

section
variable {c : Code} {d : Data}

/-- The block's columns are named by the last k entries of SWP. -/
theorem getD_swaps (ix : Nat → Elem) {r : Nat} (hr : r < c.k) :
    ((List.range c.n).map ix).getD (c.mt + r) 0#16 = ix (c.mt + r) :=
  getD_map_range ix (by rw [Code.k] at hr; omega) _

/-- The block GEXTRACT reads, R transposed, when its bit (j, r) is b j r (`43_keyside.md` R308). -/
def blockOf (c : Code) (b : Nat → Nat → Bool) : List Bool :=
  (List.range (c.k * c.mt)).map fun y => b (y % c.mt) (y / c.mt)

theorem readBlock_ok {ix : Nat → Elem} {b : Nat → Nat → Bool}
    (h : ∀ r j, r < c.k → j < c.mt →
      d.mems.h.read (j * c.n + (ix (c.mt + r)).toNat) = some (b j r)) :
    readBlock c d ((List.range c.n).map ix) = .ok (blockOf c b) := by
  refine collect_ok fun y hy => readBit_ok (id := .H) ?_
  have hmt : 0 < c.mt := Nat.pos_of_mul_pos_left (Nat.zero_lt_of_lt hy)
  have hr : y / c.mt < c.k := Nat.div_lt_of_lt_mul (Nat.mul_comm c.k c.mt ▸ hy)
  rw [getD_swaps ix hr]
  exact h _ _ hr (Nat.mod_lt y hmt)

theorem readBlock_unwritten {ix : Nat → Elem} {r j : Nat} (hr : r < c.k) (hj : j < c.mt)
    (h : d.mems.h.read (j * c.n + (ix (c.mt + r)).toNat) = none) :
    ∃ id e, readBlock c d ((List.range c.n).map ix) = .error (.unwritten id e) := by
  refine collect_unwritten (fun _ => readBit_reads d .H _) (rowCol_lt hr hj)
    ⟨.bit .H, j * c.n + (ix (c.mt + r)).toNat, ?_⟩
  rw [rowCol_div r hj, rowCol_mod r hj, getD_swaps ix hr]
  exact readBit_unwritten (id := .H) h

end

/-! ## The elements of G -/

/-- The number of the element of G that bit y % n of row y / n of the swapped frame is written to:
G[y / n][SWP[y % n]]. -/
def gIndex (c : Code) (ix : Nat → Elem) (y : Nat) : Nat := y / c.n * c.n + (ix (y % c.n)).toNat

section
variable {c : Code} {ix : Nat → Elem}

theorem gIndex_rowCol (r : Nat) {j : Nat} (hj : j < c.n) :
    gIndex c ix (r * c.n + j) = r * c.n + (ix j).toNat := by
  rw [gIndex, rowCol_div r hj, rowCol_mod r hj]

theorem gCells_eq_map (block : List Bool) :
    gCells c ((List.range c.n).map ix) block =
      (List.range (c.k * c.n)).map fun y => (gIndex c ix y, gsBit c block (y / c.n) (y % c.n)) := by
  refine List.map_congr_left fun y _ => ?_
  rw [getD_map_range ix (Nat.mod_lt y c.n_pos)]
  rfl

theorem gsBit_blockOf {b : Nat → Nat → Bool} {r : Nat} (hr : r < c.k) (j : Nat) :
    gsBit c (blockOf c b) r j = if j < c.mt then b j r else decide (j - c.mt = r) := by
  rw [gsBit, blockOf]
  split
  · next hj => rw [getD_map_range _ (rowCol_lt hr hj), rowCol_div r hj, rowCol_mod r hj]
  · rfl

variable (hix : ∀ j, j < c.n → (ix j).toNat < c.n)
include hix

theorem gIndex_lt {y : Nat} (hy : y < c.k * c.n) : gIndex c ix y < c.k * c.n :=
  rowCol_lt (Nat.div_lt_of_lt_mul (Nat.mul_comm c.k c.n ▸ hy)) (hix _ (Nat.mod_lt y c.n_pos))

/-- Distinct entries of SWP below n name distinct elements of G. -/
theorem gIndex_injective (hne : ∀ i j, i < j → j < c.n → ix i ≠ ix j) {y z : Nat}
    (h : gIndex c ix y = gIndex c ix z) : y = z := by
  have hy := Nat.mod_lt y c.n_pos
  have hz := Nat.mod_lt z c.n_pos
  have hrow : y / c.n = z / c.n := by
    rw [← rowCol_div (y / c.n) (hix _ hy), ← rowCol_div (z / c.n) (hix _ hz)]
    exact congrArg (· / c.n) h
  have hentry : ix (y % c.n) = ix (z % c.n) := by
    rw [gIndex, gIndex, hrow] at h
    exact BitVec.eq_of_toNat_eq (Nat.add_left_cancel h)
  have hcol : y % c.n = z % c.n := by
    rcases Nat.lt_trichotomy (y % c.n) (z % c.n) with hlt | heq | hgt
    · exact absurd hentry (hne _ _ hlt hz)
    · exact heq
    · exact absurd hentry.symm (hne _ _ hgt hy)
  rw [← Nat.div_add_mod y c.n, hrow, hcol, Nat.div_add_mod]

theorem pairwise_gCells (hne : ∀ i j, i < j → j < c.n → ix i ≠ ix j) (block : List Bool) :
    (gCells c ((List.range c.n).map ix) block).Pairwise fun a b => a.1 ≠ b.1 := by
  rw [gCells_eq_map, List.pairwise_map]
  exact List.nodup_range.imp fun hyz h => hyz (gIndex_injective hix hne h)

/-- A read of G[r][SWP[j]] after GEXTRACT's writes (`43_keyside.md` R308). -/
theorem read_writeAll_gCells (hne : ∀ i j, i < j → j < c.n → ix i ≠ ix j) (block : List Bool)
    (m : Memory Bool) {r j : Nat} (hr : r < c.k) (hj : j < c.n) :
    (m.writeAll (gCells c ((List.range c.n).map ix) block)).read (r * c.n + (ix j).toNat) =
      some (gsBit c block r j) := by
  refine Memory.read_writeAll_of_mem _ _ _ _ (pairwise_gCells hix hne block) ?_
  rw [gCells_eq_map]
  refine List.mem_map.mpr ⟨r * c.n + j, List.mem_range.mpr (rowCol_lt hr hj), ?_⟩
  rw [gIndex_rowCol r hj, rowCol_div r hj, rowCol_mod r hj]

/-- GEXTRACT writes no element behind the k rows of G. -/
theorem read_writeAll_gCells_of_le (block : List Bool) (m : Memory Bool) {e : Nat}
    (he : c.k * c.n ≤ e) :
    (m.writeAll (gCells c ((List.range c.n).map ix) block)).read e = m.read e := by
  refine Memory.read_writeAll_of_not_mem _ _ _ fun cell hcell => ?_
  rw [gCells_eq_map] at hcell
  obtain ⟨y, hy, rfl⟩ := List.mem_map.mp hcell
  exact ((gIndex_lt hix (List.mem_range.mp hy)).trans_le he).ne

end

/-- Settles O60: the cells written are those of the swapped frame, and SWP and the block are read
before SWP is scanned for a repeat. -/
theorem generatorMatrix : Obligations.GeneratorMatrix := by
  intro s c hs
  have hexec := exec_gextract hs
  refine ⟨fun ix hswp => ?_, fun j hj hnone => ?_⟩
  · have hread : readSwaps (s.ctx c) s.data = .ok ((List.range c.n).map ix) := readSwaps_ok hswp
    rw [hread, ok_bind] at hexec
    refine ⟨fun b hblock => ?_, fun r j hr hj hnone => ?_⟩
    · rw [readBlock_ok (c := c) hblock, ok_bind] at hexec
      refine ⟨fun hne hix =>
        ⟨s.data.mems.g.writeAll (gCells c ((List.range c.n).map ix) (blockOf c b)), ?_,
          fun r j hr hj => ?_, fun e he => ?_⟩, fun i hi hne hrep => ?_⟩
      · exact succeeds_of_ok hexec (whenDistinct_distinct _ _ hne)
      · exact (read_writeAll_gCells hix hne _ _ hr hj).trans (congrArg some (gsBit_blockOf hr j))
      · exact read_writeAll_gCells_of_le hix _ _ he
      · exact fails_of_raise hexec (whenDistinct_repeat _ _ hi hne hrep)
    · exact unwritten_of_bind hexec (readBlock_unwritten (c := c) hr hj hnone)
  · exact unwritten_of_bind hexec (readSwaps_unwritten (x := s.ctx c) hj hnone)

end Sys2Proof.Machine
end

section
/-! SUPPORT. The inverse of z + x modulo g (`42_poly.md` R263, `43_keyside.md` R302): the Euclidean
algorithm on z + x and g passes through z + x itself and the constant g(x), so the inverse exists as
soon as g(x) and the leading coefficient of g have inverses. -/

namespace Sys2Proof.Machine

open Polynomial

/-! ## The end of the Euclidean algorithm -/

/-- Where the Euclidean algorithm stops is determined: it goes on exactly while the divisor's
leading coefficient has an inverse. -/
theorem Poly.Euclid.stop_unique {k : GF} {a g : Poly} {n n' : Nat} {ρ q : Nat → Poly}
    (h : Poly.Euclid k a g n ρ q) (h' : Poly.Euclid k a g n' ρ q)
    (hstop : ¬k.invertible ((ρ (n + 1)).getLastD 0#16))
    (hstop' : ¬k.invertible ((ρ (n' + 1)).getLastD 0#16)) : n = n' := by
  rcases Nat.lt_trichotomy n n' with hlt | heq | hgt
  · exact absurd (h'.unit n hlt) hstop
  · exact heq
  · exact absurd (h.unit n' hgt) hstop'

theorem GF.ne_zero_of_invertible {k : GF} {a : Elem} (h : k.invertible a) : a ≠ 0#16 := fun h0 =>
  k.not_invertible_zero (h0 ▸ h)

theorem not_invertible_lead_of_nil {k : GF} {p : Poly} (hp : p = []) :
    ¬k.invertible (p.getLastD 0#16) := hp ▸ k.not_invertible_zero

section
variable {k : GF} (hk : k.Proper) {a g : Poly} (ha : Poly.wf k.m a) (hg : Poly.wf k.m g)
include hk ha hg

theorem invmod_of_stuck (hg0 : g ≠ []) {n : Nat} (h : Poly.EuclidRuns k a g n)
    (hstuck : Poly.stuckAt k (Poly.euclidRem k a g (n + 1))) :
    invmod k a g = raise (.arith .fieldInverse) := by
  obtain ⟨n', h', hend⟩ := invmod_ends hk ha hg hg0
  rcases hend with ⟨-, hr⟩ | ⟨hnil, -⟩ | ⟨hnil, -⟩
  · exact hr
  all_goals
    obtain rfl := h.stop_unique h' hstuck.2 (not_invertible_lead_of_nil hnil)
    exact absurd hnil hstuck.1

theorem invmod_of_const (hg0 : g ≠ []) {n : Nat} (h : Poly.EuclidRuns k a g n)
    (hnil : Poly.euclidRem k a g (n + 1) = []) (hlen : (Poly.euclidRem k a g n).length = 1) :
    ∃ r, Poly.wf k.m r ∧ r.length < g.length ∧ Poly.modEq k g (Poly.mul k a r) [1#16] ∧
      invmod k a g = .ok r := by
  obtain ⟨n', h', hend⟩ := invmod_ends hk ha hg hg0
  have hstop := not_invertible_lead_of_nil (k := k) hnil
  rcases hend with ⟨hstuck, -⟩ | ⟨hnil', hlen', -⟩ | ⟨-, -, hr⟩
  · obtain rfl := h.stop_unique h' hstop hstuck.2
    exact absurd hnil hstuck.1
  · obtain rfl := h.stop_unique h' hstop (not_invertible_lead_of_nil hnil')
    exact absurd hlen hlen'
  · exact hr

end

/-! ## Division by z + x -/

theorem Poly.mul_comm {k : GF} (hk : k.Proper) {p q : Poly} (hp : Poly.wf k.m p)
    (hq : Poly.wf k.m q) : Poly.mul k p q = Poly.mul k q p :=
  Poly.residue_injective hk (Poly.wf_mul hk p q) (Poly.wf_mul hk q p) (by
    rw [Poly.residue_mul hk p hq, Poly.residue_mul hk q hp]
    ring)

theorem Poly.eq_const_of_length_lt_two {r : Poly} (hr : Poly.canonical r) (hlen : r.length < 2) :
    r = Poly.const (r.getD 0 0#16) := by
  match r with
  | [] => rfl
  | [b] =>
    have hb : b ≠ 0#16 := by simpa [Poly.canonical] using hr
    simp [Poly.const, Poly.cons, hb]
  | _ :: _ :: _ => simp at hlen

theorem Poly.const_of_ne_zero {v : Elem} (hv : v ≠ 0#16) : Poly.const v = [v] := if_neg hv

section
variable {k : GF} (hk : k.Proper) {x : Elem} (hx : x.toNat < 2 ^ k.m)
include hk hx

/-- The value of a stored polynomial is that of the polynomial it stands for (`42_poly.md` R261). -/
theorem Poly.residue_eval (p : Poly) :
    k.residue (Poly.eval k p x) = Polynomial.eval (k.residue x) (Poly.residue k p) := by
  induction p with
  | nil => simp [Poly.eval]
  | cons a p ih =>
    rw [Poly.eval, k.residue_add, k.residue_mul hk _ hx, ih, Poly.residue, eval_add, eval_C,
      eval_mul, eval_X]
    ring

theorem Poly.wf_linear : Poly.wf k.m [x, 1#16] :=
  ⟨by simp, List.forall_mem_cons.mpr ⟨hx, List.forall_mem_singleton.mpr hk.one_lt⟩⟩

omit hx in
theorem linear_lead_invertible : k.invertible (([x, 1#16] : Poly).getLastD 0#16) :=
  ⟨1#16, hk.one_lt, GF.mul_one hk hk.one_lt⟩

omit hk hx in
/-- x is a root of z + x: the characteristic is 2. -/
theorem eval_residue_linear :
    Polynomial.eval (k.residue x) (Poly.residue k [x, 1#16]) = 0 := by
  simp only [Poly.residue, eval_add, eval_C, eval_mul, eval_X, k.residue_one, eval_zero]
  linear_combination k.residue x * GF.residues_two k

/-- The remainder of a division by z + x is the value at x. -/
theorem quotRem_linear {g : Poly} (hg : Poly.wf k.m g) :
    (quotRem k g [x, 1#16]).2 = Poly.const (Poly.eval k g x) := by
  have hlin := Poly.wf_linear hk hx
  obtain ⟨-, hr, hlt, hdiv⟩ := (divmod_of_invertible hk hg hlin (linear_lead_invertible hk)).2
  have hconst := Poly.eq_const_of_length_lt_two hr.1 hlt
  have hvalue := congrArg (Polynomial.eval (k.residue x) <| Poly.residue k ·) hdiv
  rw [Poly.residue_add, Poly.residue_mul hk _ hlin, eval_add, eval_mul, eval_residue_linear,
    hconst, Poly.residue_const, eval_C, ← Poly.residue_eval hk hx, mul_zero, zero_add] at hvalue
  have hcoeff := k.residue_injective hk (Poly.eval_lt hk hg x) (Poly.coeff_lt hr 0) hvalue
  exact hconst.trans (congrArg Poly.const hcoeff.symm)

end

/-- A dividend shorter than the divisor is its own remainder. -/
theorem quotRem_of_short {k : GF} (hk : k.Proper) {a b : Poly} (hlt : a.length < b.length)
    (hu : k.invertible (b.getLastD 0#16)) : (quotRem k a b).2 = a := by
  have hb0 : b ≠ [] := by rintro rfl; exact absurd hlt (Nat.not_lt_zero _)
  obtain ⟨ib, hib, hinv⟩ := hu
  have hloop : divLoop k b ib a.length [] a = ([], a) := by
    cases a with
    | nil => rfl
    | cons v a => rw [List.length_cons, divLoop, if_neg fun h => absurd h.2 (Nat.not_le.mpr hlt)]
  rw [quotRem, divmod, if_neg hb0, Poly.lead, GF.inv_eq_ok hk hib hinv, ok_bind, hloop]

/-! ## The inverse of z + x -/

section
variable {k : GF} (hk : k.Proper) {g : Poly} (hg : Poly.wf k.m g) (hlen : 2 < g.length)
  (hu : k.invertible (g.getLastD 0#16)) {x : Elem} (hx : x.toNat < 2 ^ k.m)
include hk hg hlen hu hx

omit hg hx in
theorem euclidRem_linear_two : Poly.euclidRem k [x, 1#16] g 2 = [x, 1#16] :=
  quotRem_of_short hk hlen hu

theorem euclidRem_linear_three :
    Poly.euclidRem k [x, 1#16] g 3 = Poly.const (Poly.eval k g x) := by
  rw [Poly.euclidRem, euclidRem_linear_two hk hlen hu]
  exact quotRem_linear hk hx hg

/-- The divisions by g and by z + x. -/
theorem euclidRuns_linear : Poly.EuclidRuns k [x, 1#16] g 2 := by
  have hlin := Poly.wf_linear hk hx
  refine euclidRuns_succ hk hlin hg (euclidRuns_succ hk hlin hg (.zero rfl rfl) hu) ?_
  rw [euclidRem_linear_two hk hlen hu]
  exact linear_lead_invertible hk

theorem invmod_linear_of_invertible (hv : k.invertible (Poly.eval k g x)) :
    ∃ r, Poly.wf k.m r ∧ r.length < g.length ∧ Poly.modEq k g (Poly.mul k r [x, 1#16]) [1#16] ∧
      invmod k [x, 1#16] g = .ok r := by
  have hlin := Poly.wf_linear hk hx
  have hg0 : g ≠ [] := List.ne_nil_of_length_pos (Nat.zero_lt_of_lt hlen)
  have hv0 := GF.ne_zero_of_invertible hv
  have hthree := euclidRem_linear_three hk hg hlen hu hx
  rw [Poly.const_of_ne_zero hv0] at hthree
  have hruns : Poly.EuclidRuns k [x, 1#16] g 3 :=
    euclidRuns_succ hk hlin hg (euclidRuns_linear hk hg hlen hu hx) (by rw [hthree]; exact hv)
  obtain ⟨-, -, hlt, -⟩ := hruns.division 2 (by decide)
  rw [hthree] at hlt
  obtain ⟨r, hr, hrlt, hmod, hinv⟩ := invmod_of_const hk hlin hg hg0 hruns
    (List.length_eq_zero_iff.mp (Nat.lt_one_iff.mp hlt)) (by rw [hthree]; rfl)
  refine ⟨r, hr, hrlt, ?_, hinv⟩
  rwa [Poly.mul_comm hk hr hlin]

theorem invmod_linear_of_not_invertible (hv0 : Poly.eval k g x ≠ 0#16)
    (hv : ¬k.invertible (Poly.eval k g x)) :
    invmod k [x, 1#16] g = raise (.arith .fieldInverse) := by
  have hg0 : g ≠ [] := List.ne_nil_of_length_pos (Nat.zero_lt_of_lt hlen)
  refine invmod_of_stuck hk (Poly.wf_linear hk hx) hg hg0 (euclidRuns_linear hk hg hlen hu hx) ?_
  rw [euclidRem_linear_three hk hg hlen hu hx, Poly.const_of_ne_zero hv0]
  exact ⟨List.cons_ne_nil _ _, hv⟩

end

end Sys2Proof.Machine
end

section
/-! SUPPORT. PSTGEN and HGEN (`43_keyside.md` R302–R304): both read L, pass the g-check, and compute
one entry or one column per element of L, up to the first that raises an error. -/

namespace Sys2Proof.Machine

/-! ## One result per support element -/

section
variable {α β : Type}

/-- `collect` over a support that was read element by element. -/
theorem collect_map_range (x : Nat → Elem) (f : Nat → Elem → Run α) (n : Nat) :
    collect n (fun i => f i (((List.range n).map x).getD i 0#16)) = collect n fun i => f i (x i) :=
  collectFrom_congr fun i _ hi => by rw [getD_map_range x (by omega)]

/-- A rule that computes one value per index raises the error of the first index that raises one. -/
theorem collect_bind_raise {g : Nat → Run α} {rest : List α → Run β} {e : CmdError} {cnt k : Nat}
    (hk : k < cnt) (hok : ∀ j, j < k → ∃ v, g j = .ok v) (he : g k = raise e) :
    (collect cnt g >>= rest) = raise e := by
  rw [collect_error hk hok he]
  rfl

theorem collect_bind_ok {g : Nat → Run α} {rest : List α → Run β} {v : Nat → α} {cnt : Nat}
    (hok : ∀ j, j < cnt → g j = .ok (v j)) :
    (collect cnt g >>= rest) = rest ((List.range cnt).map v) := by
  rw [collect_ok hok, ok_bind]

end

section
variable {s : State} {c : Code} (hs : s.Runs c) {x : Nat → Elem}
  (hl : ∀ i, i < 2 ^ c.m → s.data.mems.l.read i = some (x i)) (hgp : s.data.gp.length = c.t + 1)
include hs hl hgp

theorem exec_pstgen_of_support :
    exec .pstgen s = s.finish
      (collect c.n (fun i => pstEntry (s.ctx c) s.data.gp i (x i)) >>= fun entries =>
        .ok (s.data.fillElem .PST entries.flatten)) := by
  have hread : readSupport (s.ctx c) s.data = .ok ((List.range c.n).map x) := readSupport_ok hl
  rw [exec_pstgen hs, hread, ok_bind, finish_gcheck_ok (x := s.ctx c) _ hgp, collect_map_range]

theorem exec_hgen_of_support :
    exec .hgen s = s.finish
      (collect c.n (fun j => hColumn (s.ctx c) s.data.gp j (x j)) >>= fun columns =>
        .ok (s.data.fillBit .H (hBits c columns))) := by
  have hread : readSupport (s.ctx c) s.data = .ok ((List.range c.n).map x) := readSupport_ok hl
  rw [exec_hgen hs, hread, ok_bind, finish_gcheck_ok (x := s.ctx c) _ hgp, collect_map_range]

end

/-! ## PSTGEN (`43_keyside.md` R302) -/

section
variable {ctx : Ctx} {g : Poly} {i : Nat} {x : Elem}

theorem pstEntry_goppa (h : Poly.eval ctx.gf g x = 0#16) :
    pstEntry ctx g i x = raise (.goppa i) := if_pos h

variable (hk : ctx.gf.Proper) (hg : Poly.wf ctx.gf.m g) (hlen : 2 < g.length)
  (hx : x.toNat < 2 ^ ctx.gf.m)
include hk hg hlen hx

theorem pstEntry_ok (hu : ctx.gf.invertible (g.getLastD 0#16))
    (hv : ctx.gf.invertible (Poly.eval ctx.gf g x)) :
    ∃ q, Poly.wf ctx.gf.m q ∧ q.length < g.length ∧
      Poly.modEq ctx.gf g (Poly.mul ctx.gf q [x, 1#16]) [1#16] ∧
        pstEntry ctx g i x = .ok (Poly.toCoeffs q ctx.code.t) := by
  obtain ⟨q, hwf, hlt, hmod, hq⟩ := invmod_linear_of_invertible hk hg hlen hu hx hv
  have hlin : Poly.ofCoeffs [x, 1#16] = [x, 1#16] := rfl
  refine ⟨q, hwf, hlt, hmod, ?_⟩
  rw [pstEntry, if_neg (GF.ne_zero_of_invertible hv), hlin, hq, ok_bind]

theorem pstEntry_arith (hne : Poly.eval ctx.gf g x ≠ 0#16)
    (hnot : ¬(ctx.gf.invertible (Poly.eval ctx.gf g x) ∧ ctx.gf.invertible (g.getLastD 0#16))) :
    pstEntry ctx g i x = raise (.arith .fieldInverse) := by
  have hlin : Poly.ofCoeffs [x, 1#16] = [x, 1#16] := rfl
  have hraise : invmod ctx.gf [x, 1#16] g = raise (.arith .fieldInverse) := by
    by_cases hu : ctx.gf.invertible (g.getLastD 0#16)
    · exact invmod_linear_of_not_invertible hk hg hlen hu hx hne fun hv => hnot ⟨hv, hu⟩
    · have hg0 : g ≠ [] := List.ne_nil_of_length_pos (Nat.zero_lt_of_lt hlen)
      exact invmod_of_stuck hk (Poly.wf_linear hk hx) hg hg0 (.zero rfl rfl) ⟨hg0, hu⟩
  rw [pstEntry, if_neg hne, hlin, hraise, raise_bind]

end

/-- The table with t coefficients per entry, z^0 first (`43_keyside.md` R302). -/
def pstCells (c : Code) (q : Nat → Poly) : List Elem :=
  ((List.range c.n).map fun i => Poly.toCoeffs (q i) c.t).flatten

theorem length_toCoeffs (p : Poly) (t : Nat) : (Poly.toCoeffs p t).length = t := by
  rw [Poly.toCoeffs, List.length_map, List.length_range]

theorem length_pstCells (c : Code) (q : Nat → Poly) : (pstCells c q).length = c.n * c.t :=
  length_flatMap_range fun i _ => length_toCoeffs (q i) c.t

theorem getElem?_pstCells {c : Code} (q : Nat → Poly) {i j : Nat} (hi : i < c.n) (hj : j < c.t) :
    (pstCells c q)[i * c.t + j]? = some ((q i).getD j 0#16) :=
  (getElem?_flatMap_range (fun i _ => length_toCoeffs (q i) c.t) hi hj).trans
    (getElem?_map_range (Poly.coeff (q i)) hj)

/-- Settles O57: the inverse of z + L[i] exists as soon as g(L[i]) and the leading coefficient of g
have inverses, and PSTGEN reports the first entry for which that fails. -/
theorem preSyndromeTable : Obligations.PreSyndromeTable := by
  intro s c hs
  refine ⟨fun x hl hsound hgp => ?_, fun i hi hnone =>
    unwritten_of_bind (exec_pstgen hs) (readSupport_unwritten (x := s.ctx c) hi hnone)⟩
  intro k g lead value
  have hready := hs.ready hsound
  have hk : k.Proper := hready.proper
  have hg : Poly.wf k.m g := hready.gp.wf
  have hlen : 2 < g.length := by
    obtain ⟨-, -, ht, -⟩ := hready.legal
    exact hgp ▸ Nat.lt_succ_of_le ht
  have hx : ∀ i, i < 2 ^ c.m → (x i).toNat < 2 ^ k.m := fun i hi =>
    hready.readElem .L i (x i) (readElem_ok (id := .L) (hl i hi))
  have hentry : ∀ i, lead → i < 2 ^ c.m → k.invertible (value i) →
      ∃ q, Poly.wf k.m q ∧ q.length < g.length ∧
        Poly.modEq k g (Poly.mul k q [x i, 1#16]) [1#16] ∧
          pstEntry (s.ctx c) g i (x i) = .ok (Poly.toCoeffs q c.t) :=
    fun i hu hi hv => pstEntry_ok (ctx := s.ctx c) hk hg hlen (hx i hi) hu hv
  have hexec := exec_pstgen_of_support hs hl hgp
  refine ⟨fun hu hv => ?_, fun i hi hbefore hlead => ⟨fun hzero => ?_, fun hne hnot => ?_⟩⟩
  · choose! q hwf hlt hmod hq using fun i hi => hentry i hu hi (hv i hi)
    refine ⟨s.data.mems.pst.writeRange 0 (pstCells c q), succeeds_of_ok hexec (collect_bind_ok hq),
      fun i hi => ⟨q i, hwf i hi, Nat.le_of_lt_succ ((hlt i hi).trans_eq hgp), hmod i hi,
        fun j hj => ?_⟩, fun e he => ?_⟩
    · exact Memory.read_writeRange_of_getElem? _ (getElem?_pstCells q hi hj)
    · exact Memory.read_writeRange_of_length_le _ ((length_pstCells c q).trans_le he)
  all_goals
    have hok : ∀ j, j < i → ∃ cs, pstEntry (s.ctx c) g j (x j) = .ok cs := fun j hj => by
      have hu := hlead.resolve_left (Nat.ne_zero_of_lt hj)
      obtain ⟨q, -, -, -, hq⟩ := hentry j hu (hj.trans hi) (hbefore j hj)
      exact ⟨_, hq⟩
  · exact fails_of_raise hexec (collect_bind_raise hi hok (pstEntry_goppa hzero))
  · exact fails_of_raise hexec
      (collect_bind_raise hi hok (pstEntry_arith hk hg hlen (hx i hi) hne hnot))

/-! ## HGEN (`43_keyside.md` R304) -/

/-- Column x of H as its t field elements v ⊗ x^i, where v is the inverse of g(x). -/
def hColumnOf (k : GF) (t : Nat) (v x : Elem) : List Elem :=
  (List.range t).map fun i => k.mul v (k.pow x i)

section
variable {ctx : Ctx} {g : Poly} {j : Nat} {x : Elem}

theorem hColumn_goppa (h : Poly.eval ctx.gf g x = 0#16) :
    hColumn ctx g j x = raise (.goppa j) := if_pos h

theorem hColumn_ok (hk : ctx.gf.Proper) {v : Elem} (hv : v.toNat < 2 ^ ctx.gf.m)
    (hmul : ctx.gf.mul (Poly.eval ctx.gf g x) v = 1#16) :
    hColumn ctx g j x = .ok (hColumnOf ctx.gf ctx.code.t v x) := by
  have hne : Poly.eval ctx.gf g x ≠ 0#16 := GF.ne_zero_of_invertible ⟨v, hv, hmul⟩
  rw [hColumn, if_neg hne, GF.inv_eq_ok hk hv hmul, ok_bind]
  rfl

theorem hColumn_arith (hk : ctx.gf.Proper) (hne : Poly.eval ctx.gf g x ≠ 0#16)
    (hnot : ¬ctx.gf.invertible (Poly.eval ctx.gf g x)) :
    hColumn ctx g j x = raise (.arith .fieldInverse) := by
  rw [hColumn, if_neg hne, GF.inv_eq_raise hk fun v hv hmul => hnot ⟨v, hv, hmul⟩, raise_bind]

end

/-- The bits of H, where v j is the inverse of g(L[j]) (`43_keyside.md` R304). -/
def hCells (c : Code) (k : GF) (v x : Nat → Elem) : List Bool :=
  hBits c ((List.range c.n).map fun j => hColumnOf k c.t (v j) (x j))

theorem length_hCells (c : Code) (k : GF) (v x : Nat → Elem) :
    (hCells c k v x).length = c.mt * c.n := by
  rw [hCells, length_hBits, List.length_map, List.length_range]

/-- Bit b of element i of column j stands at row i·m + b, column j of H. -/
theorem getElem?_hCells {c : Code} (k : GF) (v x : Nat → Elem) {i b j : Nat} (hi : i < c.t)
    (hb : b < c.m) (hj : j < c.n) :
    (hCells c k v x)[(i * c.m + b) * c.n + j]? =
      some ((k.mul (v j) (k.pow (x j) i)).getLsbD b) := by
  have hrow : i * c.m + b < c.mt := (rowCol_lt hi hb).trans_eq (Nat.mul_comm c.t c.m)
  rw [hCells, hBits, getElem?_flatMap_range
    (fun r _ => by rw [List.length_map, List.length_map, List.length_range]) hrow hj,
    List.getElem?_map, getElem?_map_range _ hj, rowCol_div i hb, rowCol_mod i hb, Option.map_some,
    hColumnOf, getD_map_range _ hi]

/-- Settles O58: HGEN inverts the values of g, and reports the first that is 0 or has no inverse. -/
theorem parityCheckMatrix : Obligations.ParityCheckMatrix := by
  intro s c hs
  refine ⟨fun x hl hsound hgp => ?_, fun i hi hnone =>
    unwritten_of_bind (exec_hgen hs) (readSupport_unwritten (x := s.ctx c) hi hnone)⟩
  intro k g value
  have hk : k.Proper := (hs.ready hsound).proper
  have hexec := exec_hgen_of_support hs hl hgp
  refine ⟨fun hinv => ?_, fun i hi hbefore => ⟨fun hzero => ?_, fun hne hnot => ?_⟩⟩
  · choose! v hv hmul using hinv
    refine ⟨s.data.mems.h.writeRange 0 (hCells c k v x), v, fun j => k.pow (x j),
      succeeds_of_ok hexec (collect_bind_ok fun j hj => hColumn_ok hk (hv j hj) (hmul j hj)),
      fun j hj => ⟨hv j hj, hmul j hj, GF.pow_zero k _, GF.pow_succ k _, fun i b hi hb => ?_⟩,
      fun e he => ?_⟩
    · exact Memory.read_writeRange_of_getElem? _ (getElem?_hCells k v x hi hb hj)
    · exact Memory.read_writeRange_of_length_le _ ((length_hCells c k v x).trans_le he)
  all_goals
    have hok : ∀ j, j < i → ∃ cs, hColumn (s.ctx c) g j (x j) = .ok cs := fun j hj => by
      obtain ⟨v, hv, hmul⟩ := hbefore j hj
      exact ⟨_, hColumn_ok hk hv hmul⟩
  · exact fails_of_raise hexec (collect_bind_raise hi hok (hColumn_goppa hzero))
  · exact fails_of_raise hexec (collect_bind_raise hi hok (hColumn_arith hk hne hnot))

end Sys2Proof.Machine
end

section
/-! SUPPORT. SYSFORM (`43_keyside.md` R306, R307): the swaps row by row, each determined by the
order of the columns before it, and the check of the first m·t columns. -/

namespace Sys2Proof.Machine

/-! ## Orders of the columns -/

/-- Column `col` of the order v of the columns of h, restricted to the first mt rows, is the unit
column e_j: the statement's `unit`. -/
def UnitAt (h : Nat → Nat → Bool) (mt : Nat) (v : List Nat) (j col : Nat) : Prop :=
  ∀ r, r < mt → h r (v.getD col 0) = decide (r = j)

/-- Row j takes the order v of the columns to w (`43_keyside.md` R306): the statement's
`swapsRow`. -/
def SwapsRow (h : Nat → Nat → Bool) (n mt j : Nat) (v w : List Nat) : Prop :=
  (h j (v.getD j 0) = true ∧ w = v) ∨
    (h j (v.getD j 0) = false ∧ ∃ col, j < col ∧ col < n ∧ UnitAt h mt v j col ∧
      (∀ col', j < col' → col' < col → ¬UnitAt h mt v j col') ∧ w = swapAt v j col)

/-- An order of n columns: n entries below n. -/
structure IsOrder (n : Nat) (v : List Nat) : Prop where
  length : v.length = n
  lt : ∀ y ∈ v, y < n

theorem IsOrder.getD_lt {n : Nat} {v : List Nat} (hv : IsOrder n v) {i : Nat} (hi : i < n) :
    v.getD i 0 < n := by
  have hi' : i < v.length := hv.length.symm ▸ hi
  rw [List.getD_eq_getElem _ _ hi']
  exact hv.lt _ (List.getElem_mem hi')

theorem IsOrder.map_eq {α : Type} {n : Nat} {v : List Nat} (hv : IsOrder n v) (f : Nat → α) :
    v.map f = (List.range n).map fun i => f (v.getD i 0) := by
  refine List.ext_getElem (by simp [hv.length]) fun i hi _ => ?_
  rw [List.length_map] at hi
  rw [List.getElem_map, List.getElem_map, List.getElem_range, List.getD_eq_getElem _ _ hi]

theorem isOrder_range (n : Nat) : IsOrder n (List.range n) :=
  ⟨List.length_range, fun _ => List.mem_range.mp⟩

theorem SwapsRow.isOrder {h : Nat → Nat → Bool} {n mt j : Nat} {v w : List Nat}
    (hrow : SwapsRow h n mt j v w) (hv : IsOrder n v) : IsOrder n w := by
  rcases hrow with ⟨-, rfl⟩ | ⟨-, col, -, hcol, -, -, rfl⟩
  · exact hv
  · exact ⟨(length_swapAt v j col).trans hv.length, swapAt_lt (Nat.zero_lt_of_lt hcol) hv.lt j col⟩

/-- The order of the columns before row j, when the rows before it could be swapped. -/
theorem isOrder_of_swapsRow {h : Nat → Nat → Bool} {n mt : Nat} {sw : Nat → List Nat}
    (h0 : sw 0 = List.range n) {j : Nat}
    (hrows : ∀ i, i < j → SwapsRow h n mt i (sw i) (sw (i + 1))) : IsOrder n (sw j) := by
  induction j with
  | zero => exact h0 ▸ isOrder_range n
  | succ j ih =>
    exact (hrows j j.lt_succ_self).isOrder (ih fun i hi => hrows i (Nat.lt_succ_of_lt hi))

/-! ## The first index with a property -/

section
variable {p : Nat → Bool} {P : Nat → Prop} {n : Nat} (hp : ∀ i, i < n → (p i = true ↔ P i))
include hp

theorem find?_range_eq_first {i : Nat} (hi : i < n) (hPi : P i) (hfirst : ∀ j, j < i → ¬P j) :
    (List.range n).find? p = some i := by
  refine List.find?_range_eq_some.mpr ⟨(hp i hi).mpr hPi, List.mem_range.mpr hi, fun j hj => ?_⟩
  rw [Bool.not_eq_true', ← Bool.not_eq_true, hp j (hj.trans hi)]
  exact hfirst j hj

theorem find?_range_eq_none (hnone : ∀ i, i < n → ¬P i) : (List.range n).find? p = none := by
  refine List.find?_range_eq_none.mpr fun i hi => ?_
  rw [Bool.not_eq_true', ← Bool.not_eq_true, hp i hi]
  exact hnone i hi

end

/-! ## The matrix SYSFORM reads -/

/-- The bits of H as SYSFORM reads them, when bit (r, col) of H is h r col. -/
def matrixOf (c : Code) (h : Nat → Nat → Bool) : BitMatrix :=
  { cols := c.n, bits := (List.range (c.mt * c.n)).map fun e => h (e / c.n) (e % c.n) }

section
variable {c : Code} {h : Nat → Nat → Bool}

theorem matrixOf_at {r col : Nat} (hr : r < c.mt) (hcol : col < c.n) :
    (matrixOf c h).at r col = h r col := by
  rw [BitMatrix.at, matrixOf, getD_map_range _ (rowCol_lt hr hcol), rowCol_div r hcol,
    rowCol_mod r hcol]

theorem unitColumn_iff {v : List Nat} (hv : IsOrder c.n v) (j : Nat) {col : Nat}
    (hcol : col < c.n) :
    (matrixOf c h).unitColumn c.mt j (v.getD col 0) = true ↔ UnitAt h c.mt v j col := by
  simp only [BitMatrix.unitColumn, List.all_eq_true, List.mem_range, beq_iff_eq, UnitAt]
  exact forall₂_congr fun r hr => by rw [matrixOf_at hr (hv.getD_lt hcol)]

/-- Position `col` can be swapped in for row j. -/
theorem pivot_iff {v : List Nat} (hv : IsOrder c.n v) (j col : Nat) (hcol : col < c.n) :
    (decide (j < col) && (matrixOf c h).unitColumn c.mt j (v.getD col 0)) = true ↔
      j < col ∧ UnitAt h c.mt v j col := by
  rw [Bool.and_eq_true, decide_eq_true_iff, unitColumn_iff hv j hcol]

theorem not_unitColumn_iff {v : List Nat} (hv : IsOrder c.n v) (hmt : c.mt < c.n) (j : Nat)
    (hj : j < c.mt) :
    (!(matrixOf c h).unitColumn c.mt j (v.getD j 0)) = true ↔ ¬UnitAt h c.mt v j j := by
  rw [Bool.not_eq_true', ← Bool.not_eq_true, unitColumn_iff hv j (hj.trans hmt)]

/-! ## The swaps -/

section
variable {v w : List Nat} (hv : IsOrder c.n v) {j : Nat} (hj : j < c.mt) (hjn : j < c.n)
include hv hj hjn

/-- Row j is swapped as the order of the columns before it determines, and counted if it is. -/
theorem sysformSwaps_step (js : List Nat) (cnt : Nat) (hrow : SwapsRow h c.n c.mt j v w) :
    sysformSwaps (matrixOf c h) c.mt (j :: js) v cnt =
      sysformSwaps (matrixOf c h) c.mt js w (if h j (v.getD j 0) then cnt else cnt + 1) := by
  rw [sysformSwaps, matrixOf_at hj (hv.getD_lt hjn)]
  rcases hrow with ⟨hdiag, rfl⟩ | ⟨hdiag, col, hlt, hcol, hunit, hfirst, rfl⟩
  · rw [if_pos hdiag, if_pos hdiag]
  · have hfind : (List.range (matrixOf c h).cols).find? (fun col =>
        decide (j < col) && (matrixOf c h).unitColumn c.mt j (v.getD col 0)) = some col :=
      find?_range_eq_first (pivot_iff hv j) hcol ⟨hlt, hunit⟩
        fun col' hcol' hpivot => hfirst col' hpivot.1 hcol' hpivot.2
    rw [hdiag, if_neg Bool.false_ne_true, if_neg Bool.false_ne_true, hfind]

theorem sysformSwaps_stuck (js : List Nat) (cnt : Nat) (hdiag : h j (v.getD j 0) = false)
    (hnone : ∀ col, j < col → col < c.n → ¬UnitAt h c.mt v j col) :
    sysformSwaps (matrixOf c h) c.mt (j :: js) v cnt = raise (.keygenRow j) := by
  have hfind : (List.range (matrixOf c h).cols).find? (fun col =>
      decide (j < col) && (matrixOf c h).unitColumn c.mt j (v.getD col 0)) = none :=
    find?_range_eq_none (pivot_iff hv j) fun col hcol hpivot => hnone col hpivot.1 hcol hpivot.2
  rw [sysformSwaps, matrixOf_at hj (hv.getD_lt hjn), hdiag, if_neg Bool.false_ne_true, hfind]

end

/-- The number of rows below k whose diagonal bit is 0 when their turn comes (`10_state.md` R45). -/
def swapCount (h : Nat → Nat → Bool) (sw : Nat → List Nat) (k : Nat) : Nat :=
  ((List.range k).filter fun j => !h j ((sw j).getD j 0)).length

theorem swapCount_succ (h : Nat → Nat → Bool) (sw : Nat → List Nat) (k : Nat) :
    swapCount h sw (k + 1) =
      if h k ((sw k).getD k 0) then swapCount h sw k else swapCount h sw k + 1 := by
  rw [swapCount, List.range_succ, List.filter_append, List.length_append, swapCount]
  cases hk : h k ((sw k).getD k 0) <;> simp [hk, -List.getD_eq_getElem?_getD]

section
variable {sw : Nat → List Nat} (h0 : sw 0 = List.range c.n) (hmt : c.mt < c.n)
include h0 hmt

/-- SYSFORM after the rows below k. -/
theorem sysformSwaps_skip {k : Nat} (hk : k ≤ c.mt)
    (hrows : ∀ j, j < k → SwapsRow h c.n c.mt j (sw j) (sw (j + 1))) (js : List Nat) :
    sysformSwaps (matrixOf c h) c.mt (List.range k ++ js) (List.range c.n) 0 =
      sysformSwaps (matrixOf c h) c.mt js (sw k) (swapCount h sw k) := by
  induction k generalizing js with
  | zero => rw [h0]; rfl
  | succ k ih =>
    have hrows' : ∀ j, j < k → SwapsRow h c.n c.mt j (sw j) (sw (j + 1)) :=
      fun j hj => hrows j (Nat.lt_succ_of_lt hj)
    rw [List.range_succ, List.append_assoc, ih (Nat.le_of_succ_le hk) hrows', List.singleton_append,
      sysformSwaps_step (isOrder_of_swapsRow h0 hrows') hk (Nat.lt_of_lt_of_le hk hmt.le) _ _
        (hrows k k.lt_succ_self), swapCount_succ]

theorem sysformSwaps_ok
    (hrows : ∀ j, j < c.mt → SwapsRow h c.n c.mt j (sw j) (sw (j + 1))) :
    sysformSwaps (matrixOf c h) c.mt (List.range c.mt) (List.range c.n) 0 =
      .ok (sw c.mt, swapCount h sw c.mt) := by
  have hskip := sysformSwaps_skip h0 hmt (Nat.le_refl c.mt) hrows []
  rwa [List.append_nil] at hskip

theorem sysformSwaps_raise {j : Nat} (hj : j < c.mt)
    (hrows : ∀ i, i < j → SwapsRow h c.n c.mt i (sw i) (sw (i + 1)))
    (hdiag : h j ((sw j).getD j 0) = false)
    (hnone : ∀ col, j < col → col < c.n → ¬UnitAt h c.mt (sw j) j col) :
    sysformSwaps (matrixOf c h) c.mt (List.range c.mt) (List.range c.n) 0 =
      raise (.keygenRow j) := by
  obtain ⟨rest, hrest⟩ : ∃ rest, c.mt = j + (rest + 1) := ⟨c.mt - j - 1, by omega⟩
  have hsplit : List.range c.mt = List.range j ++ j :: (List.range' (j + 1) rest) := by
    rw [hrest, List.range_eq_range', List.range_eq_range', ← List.range'_append_1, Nat.zero_add,
      List.range'_succ]
  rw [hsplit, sysformSwaps_skip h0 hmt hj.le hrows]
  exact sysformSwaps_stuck (isOrder_of_swapsRow h0 hrows) hj (hj.trans hmt) _ _ hdiag hnone

end

/-! ## The rule -/

/-- SYSFORM's check of the first m·t columns and its writes (`43_keyside.md` R306). -/
def sysformEnd (c : Code) (m : BitMatrix) (d : Data) (sc : List Nat × Nat) : Run Data :=
  match (List.range c.mt).find? fun j => !m.unitColumn c.mt j (sc.1.getD j 0) with
  | some j => raise (.keygenColumn j)
  | none =>
    .ok { d.fillElem .SWP (sc.1.map (BitVec.ofNat 16)) with swapcnt := BitVec.ofNat 17 sc.2 }

theorem sysformRule_of_reads {x : Ctx} {d : Data} {h : Nat → Nat → Bool}
    (hread : ∀ r j, r < x.code.mt → j < x.code.n →
      d.mems.h.read (r * x.code.n + j) = some (h r j)) :
    sysformRule x d =
      sysformSwaps (matrixOf x.code h) x.code.mt (List.range x.code.mt) (List.range x.code.n) 0 >>=
        sysformEnd x.code (matrixOf x.code h) d := by
  have hbits : collect (x.code.mt * x.code.n) (readBit d .H) = .ok (matrixOf x.code h).bits := by
    refine collect_ok fun e he => readBit_ok (id := .H) ?_
    have hcol := Nat.mod_lt e x.code.n_pos
    have he' := hread (e / x.code.n) (e % x.code.n)
      (Nat.div_lt_of_lt_mul (Nat.mul_comm x.code.mt x.code.n ▸ he)) hcol
    rwa [Nat.div_add_mod'] at he'
  rw [sysformRule, hbits, ok_bind]
  rfl

theorem sysformRule_unwritten {x : Ctx} {d : Data} {e : Nat} (he : e < x.code.mt * x.code.n)
    (h : d.mems.h.read e = none) : ∃ id i, sysformRule x d = .error (.unwritten id i) := by
  obtain ⟨id, i, hbits⟩ := collect_unwritten (readBit_reads d .H) he
    ⟨_, _, readBit_unwritten (id := .H) h⟩
  exact ⟨id, i, by rw [sysformRule, hbits, error_bind]⟩

section
variable {v : List Nat} (hv : IsOrder c.n v) (hmt : c.mt < c.n) (d : Data) (cnt : Nat)
include hv hmt

theorem sysformEnd_ok (hunit : ∀ j, j < c.mt → UnitAt h c.mt v j j) :
    sysformEnd c (matrixOf c h) d (v, cnt) =
      .ok { d.fillElem .SWP (v.map (BitVec.ofNat 16)) with swapcnt := BitVec.ofNat 17 cnt } := by
  have hfind : (List.range c.mt).find? (fun j =>
      !(matrixOf c h).unitColumn c.mt j (v.getD j 0)) = none :=
    find?_range_eq_none (not_unitColumn_iff hv hmt) fun j hj hnot => hnot (hunit j hj)
  rw [sysformEnd, hfind]

theorem sysformEnd_raise {col : Nat} (hcol : col < c.mt)
    (hbefore : ∀ j, j < col → UnitAt h c.mt v j j) (hnot : ¬UnitAt h c.mt v col col) :
    sysformEnd c (matrixOf c h) d (v, cnt) = raise (.keygenColumn col) := by
  have hfind : (List.range c.mt).find? (fun j =>
      !(matrixOf c h).unitColumn c.mt j (v.getD j 0)) = some col :=
    find?_range_eq_first (not_unitColumn_iff hv hmt) hcol hnot fun j hj hnot' =>
      hnot' (hbefore j hj)
  rw [sysformEnd, hfind]

end

end

/-! ## The command -/

section
variable {s : State} {c : Code} (hs : s.Runs c) {h : Nat → Nat → Bool} {sw : Nat → List Nat}
  (hread : ∀ r j, r < c.mt → j < c.n → s.data.mems.h.read (r * c.n + j) = some (h r j))
  (h0 : sw 0 = List.range c.n) (hmt : c.mt < c.n)
include hs hread h0 hmt

theorem exec_sysform_of_swapsRow
    (hrows : ∀ j, j < c.mt → SwapsRow h c.n c.mt j (sw j) (sw (j + 1))) :
    exec .sysform s =
      s.finish (sysformEnd c (matrixOf c h) s.data (sw c.mt, swapCount h sw c.mt)) := by
  have hrule := sysformRule_of_reads (x := s.ctx c) hread
  rw [show (s.ctx c).code = c from rfl, sysformSwaps_ok h0 hmt hrows, ok_bind] at hrule
  rw [exec_sysform hs, hrule]

theorem exec_sysform_of_no_column {j : Nat} (hj : j < c.mt)
    (hrows : ∀ i, i < j → SwapsRow h c.n c.mt i (sw i) (sw (i + 1)))
    (hdiag : h j ((sw j).getD j 0) = false)
    (hnone : ∀ col, j < col → col < c.n → ¬UnitAt h c.mt (sw j) j col) :
    exec .sysform s = s.finish (raise (.keygenRow j)) := by
  have hrule := sysformRule_of_reads (x := s.ctx c) hread
  rw [show (s.ctx c).code = c from rfl, sysformSwaps_raise h0 hmt hj hrows hdiag hnone,
    raise_bind] at hrule
  rw [exec_sysform hs, hrule]

end

/-- Settles O59: the swaps run through the orders sw, to the check of the columns or to the row that
has no column to swap in. -/
theorem systematicForm : Obligations.SystematicForm := by
  refine ⟨fun s c hs e he hnone => ?_, fun s c h sw hs hsound => ?_⟩
  · obtain ⟨id, i, hrule⟩ := sysformRule_unwritten (x := s.ctx c) he hnone
    exact ⟨id, i, by rw [exec_sysform hs, hrule, finish_unwritten]⟩
  intro n mt unit swapsRow hread h0
  have hmt : mt < n := by
    obtain ⟨-, -, -, -, hmt⟩ := (hs.ready hsound).legal
    exact hmt
  refine ⟨fun hrows hunit => ?_, fun j hj hrows hdiag hnone => ?_,
    fun col hcol hrows hbefore hnot => ?_⟩
  · have hv : IsOrder n (sw mt) := isOrder_of_swapsRow h0 hrows
    have hexec := exec_sysform_of_swapsRow hs hread h0 hmt hrows
    refine ⟨s.data.mems.swp.writeRange 0 ((sw mt).map (BitVec.ofNat 16)),
      succeeds_of_ok hexec (sysformEnd_ok hv hmt s.data _ hunit), fun i => ?_⟩
    rw [hv.map_eq]
    exact Memory.read_writeRange_map _ _ n i
  · exact fails_of_raise (exec_sysform_of_no_column hs hread h0 hmt hj hrows hdiag hnone) rfl
  · have hv : IsOrder n (sw mt) := isOrder_of_swapsRow h0 hrows
    exact fails_of_raise (exec_sysform_of_swapsRow hs hread h0 hmt hrows)
      (sysformEnd_raise hv hmt s.data _ hcol hbefore hnot)

end Sys2Proof.Machine
end

section
/-! SUPPORT. What the decode commands read (`44_decode.md` R340–R354): each read answers exactly when
the elements it names are written, and what SYND, ROOTS, EXTRACT and UNSCR compute from the values. -/

namespace Sys2Proof.Machine

/-! ## Reads that answer (`00_scope.md` R13) -/

section
variable {α β : Type}

/-- The part of a rule answers a value. -/
def Answers (r : Run α) : Prop := ∃ v, r = .ok v

theorem Answers.ok (v : α) : Answers (.ok v : Run α) := ⟨v, rfl⟩

theorem answers_bind {x : Run α} {f : α → Run β} :
    Answers (x >>= f) ↔ ∃ a, x = .ok a ∧ Answers (f a) := by
  refine ⟨fun ⟨v, hv⟩ => ?_, fun ⟨a, hx, v, hv⟩ => ⟨v, bind_eq_ok.mpr ⟨a, hx, hv⟩⟩⟩
  obtain ⟨a, hx, hv⟩ := bind_eq_ok.mp hv
  exact ⟨a, hx, v, hv⟩

/-- What is done with the values of a read does not matter to whether they are there. -/
theorem answers_bind_ok {x : Run α} {f : α → β} : Answers (x >>= fun a => .ok (f a)) ↔ Answers x :=
  answers_bind.trans ⟨fun ⟨a, hx, _⟩ => ⟨a, hx⟩, fun ⟨a, hx⟩ => ⟨a, hx, .ok _⟩⟩

theorem answers_collect {g : Nat → Run α} {cnt : Nat} :
    Answers (collect cnt g) ↔ ∀ j, j < cnt → Answers (g j) := by
  refine ⟨fun ⟨vs, hvs⟩ j hj => ?_, fun h => ?_⟩
  · obtain ⟨hlen, hv⟩ := collect_inv hvs
    exact ⟨_, hv j _ (List.getElem?_eq_getElem (hlen ▸ hj))⟩
  · by_cases hcnt : cnt = 0
    · exact ⟨[], by rw [hcnt]; rfl⟩
    · have hne : Nonempty α := (h 0 (Nat.pos_of_ne_zero hcnt)).nonempty
      choose! v hv using h
      exact ⟨_, collect_ok hv⟩

/-- A read that does not answer meets an unwritten element. -/
theorem Reads.unwritten {r : Run α} (h : Reads r) (hnot : ¬Answers r) :
    ∃ id e, r = .error (.unwritten id e) := h.resolve_left hnot

/-- A command whose Reads do not answer stops there, whatever follows them (log 7). -/
theorem unwritten_of_not_answers {i : Instr} {s : State} {r : Run α} {f : α → Run Data}
    (hexec : exec i s = s.finish (r >>= f)) (hr : Reads r) (hnot : ¬Answers r) : Unwritten i s :=
  unwritten_of_bind hexec (hr.unwritten hnot)

end

section
variable {d : Data}

theorem readElem_eq_ok {id : ElemMem} {i : Nat} {v : Elem} :
    readElem d id i = .ok v ↔ (d.mems.elem id).read i = some v := ⟨readElem_inv, readElem_ok⟩

theorem readBit_eq_ok {id : BitMem} {i : Nat} {v : Bool} :
    readBit d id i = .ok v ↔ (d.mems.bit id).read i = some v := ⟨readBit_inv, readBit_ok⟩

theorem answers_readElem {id : ElemMem} {i : Nat} :
    Answers (readElem d id i) ↔ ((d.mems.elem id).read i).isSome = true := by
  simp only [Answers, readElem_eq_ok, Option.isSome_iff_exists]

theorem answers_readBit {id : BitMem} {i : Nat} :
    Answers (readBit d id i) ↔ ((d.mems.bit id).read i).isSome = true := by
  simp only [Answers, readBit_eq_ok, Option.isSome_iff_exists]

/-- A bit named by an entry of an index table, as PERMC and EXTRACT read it. -/
theorem answers_indexedBit {id : ElemMem} {b : BitMem} {j : Nat} :
    Answers (readElem d id j >>= fun i => readBit d b i.toNat) ↔
      ∃ i, (d.mems.elem id).read j = some i ∧ ((d.mems.bit b).read i.toNat).isSome = true := by
  simp only [answers_bind, readElem_eq_ok, answers_readBit]

variable {c : Ctx}

theorem answers_readPermuted :
    Answers (readPermuted c d) ↔ ∀ j, j < c.code.n →
      ∃ i, d.mems.pidx.read j = some i ∧ (d.mems.c.read i.toNat).isSome = true := by
  rw [readPermuted, answers_collect]
  exact forall₂_congr fun j _ => answers_indexedBit

theorem answers_readMessage :
    Answers (readMessage c d) ↔ ∀ r, r < c.code.k →
      ∃ i, d.mems.swp.read (c.code.mt + r) = some i ∧
        (d.mems.w.read i.toNat).isSome = true := by
  rw [readMessage, answers_collect]
  exact forall₂_congr fun r _ => answers_indexedBit

theorem answers_readPst {i : Nat} :
    Answers (readPst c d i) ↔
      ∀ j, j < c.code.t → (d.mems.pst.read (i * c.code.t + j)).isSome = true := by
  rw [readPst, answers_bind_ok, answers_collect]
  exact forall₂_congr fun j _ => answers_readElem

/-- A table entry is read only where W is 1 (`44_decode.md` R342). -/
theorem answers_syndromePart {i : Nat} :
    Answers (syndromePart c d i) ↔ ∃ w, d.mems.w.read i = some w ∧
      (w = true → ∀ j, j < c.code.t → (d.mems.pst.read (i * c.code.t + j)).isSome = true) := by
  rw [syndromePart, answers_bind]
  refine exists_congr fun w => and_congr readBit_eq_ok ?_
  cases w with
  | false => exact iff_of_true (.ok []) fun h => absurd h Bool.false_ne_true
  | true => exact answers_readPst.trans ⟨fun h _ => h, fun h => h rfl⟩

theorem answers_readSyndromeParts :
    Answers (readSyndromeParts c d) ↔ ∀ i, i < c.code.n → ∃ w, d.mems.w.read i = some w ∧
      (w = true → ∀ j, j < c.code.t → (d.mems.pst.read (i * c.code.t + j)).isSome = true) := by
  rw [readSyndromeParts, answers_collect]
  exact forall₂_congr fun i _ => answers_syndromePart

theorem answers_readSupport :
    Answers (readSupport c d) ↔ ∀ i, i < c.code.n → (d.mems.l.read i).isSome = true := by
  rw [readSupport, answers_collect]
  exact forall₂_congr fun i _ => answers_readElem

theorem answers_rootAt {i : Nat} :
    Answers (rootAt c d i) ↔
      (d.mems.l.read i).isSome = true ∧ (d.mems.w.read i).isSome = true := by
  rw [rootAt, answers_bind]
  refine (exists_congr fun x => and_congr_right fun _ => ?_).trans
    (exists_and_right.trans (and_congr_left fun _ => answers_readElem))
  rw [answers_bind_ok]
  exact answers_readBit

theorem answers_unscrambledBit {j : Nat} :
    Answers (unscrambledBit c d j) ↔ ∀ r, r < c.code.k →
      (d.mems.mc.read r).isSome = true ∧
        (d.mems.sinv.read (r * c.code.k + j)).isSome = true := by
  rw [unscrambledBit, answers_bind_ok, answers_collect]
  refine forall₂_congr fun r _ => answers_bind.trans ?_
  refine (exists_congr fun a => and_congr_right fun _ => ?_).trans
    (exists_and_right.trans (and_congr_left fun _ => answers_readBit))
  rw [answers_bind_ok]
  exact answers_readBit

end

/-! ## Ends of the commands that pass the NOCONFIG checks (`40_control.md` R203) -/

section
variable {s : State} {c : Code} (hs : s.Runs c)
include hs

theorem exec_permc : exec .permc s = s.finish (permcRule (s.ctx c) s.data) := by
  rw [exec, execPermc, runCommand_of_runs hs]

theorem exec_synd : exec .synd s = s.finish (syndRule (s.ctx c) s.data) := by
  rw [exec, execSynd, runCommand_of_runs hs]

theorem exec_locator : exec .locator s = s.finish (locatorRule (s.ctx c) s.data) := by
  rw [exec, execLocator, runCommand_of_runs hs]

theorem exec_roots : exec .roots s = s.finish (rootsRule (s.ctx c) s.data) := by
  rw [exec, execRoots, runCommand_of_runs hs]

theorem exec_extract : exec .extract s = s.finish (extractRule (s.ctx c) s.data) := by
  rw [exec, execExtract, runCommand_of_runs hs]

theorem exec_unscr : exec .unscr s = s.finish (unscrRule (s.ctx c) s.data) := by
  rw [exec, execUnscr, runCommand_of_runs hs]

end

/-! ## PERMC (`44_decode.md` R340) -/

section
variable {c : Ctx} {d : Data}

theorem readPermuted_ok {ix : Nat → Elem} {b : Nat → Bool}
    (h : ∀ j, j < c.code.n →
      d.mems.pidx.read j = some (ix j) ∧ d.mems.c.read (ix j).toNat = some (b j)) :
    readPermuted c d = .ok ((List.range c.code.n).map b) :=
  collect_ok fun j hj => by
    obtain ⟨hix, hb⟩ := h j hj
    rw [readElem_ok (id := .PIDX) hix, ok_bind, readBit_ok (id := .C) hb]

theorem permcRule_of_clen {w : List Bool} (hw : readPermuted c d = .ok w)
    (hlen : d.clen.toNat = c.code.n) : permcRule c d = .ok (d.fillBit .W w) := by
  rw [permcRule, hw, ok_bind, if_neg (not_not_intro hlen)]

theorem permcRule_malformed {w : List Bool} (hw : readPermuted c d = .ok w)
    (hlen : d.clen.toNat ≠ c.code.n) : permcRule c d = raise (.malformed d.clen) := by
  rw [permcRule, hw, ok_bind, if_pos hlen]

end

/-- Settles O47: C is read at the places PIDX names before CLEN is checked. -/
theorem permcReordersTheCiphertext : Obligations.PermcReordersTheCiphertext := by
  intro s c hs
  have hexec := exec_permc hs
  refine ⟨fun ix b h => ⟨fun hlen => ?_, fun hlen => ?_⟩, fun j hj hnone => ?_⟩
  · have hrule := permcRule_of_clen (c := s.ctx c) (readPermuted_ok h) hlen
    exact ⟨_, succeeds_of_ok hexec hrule, Memory.read_writeRange_map _ b _⟩
  · exact fails_of_raise hexec (permcRule_malformed (c := s.ctx c) (readPermuted_ok h) hlen)
  · refine unwritten_of_not_answers hexec (readPermuted_reads _ _) fun h => ?_
    obtain ⟨i, hi, hc⟩ := answers_readPermuted.mp h j hj
    rcases hnone with hnone | ⟨i', hi', hnone⟩
    · cases hi.symm.trans hnone
    · obtain rfl : i = i' := Option.some.inj (hi.symm.trans hi')
      exact Option.not_isSome_iff_eq_none.mpr hnone hc

/-! ## SYND (`44_decode.md` R342) -/

theorem Poly.canonical_nil : Poly.canonical [] := by simp [Poly.canonical]

theorem Poly.getD_sum (ps : List Poly) (acc : Poly) (j : Nat) :
    (ps.foldl Poly.add acc).getD j 0#16 =
      (ps.map (·.getD j 0#16)).foldl fieldAdd (acc.getD j 0#16) := by
  induction ps generalizing acc with
  | nil => rfl
  | cons p ps ih => rw [List.foldl_cons, ih, Poly.getD_add, List.map_cons, List.foldl_cons]

theorem Poly.canonical_sum {ps : List Poly} (h : ∀ p ∈ ps, Poly.canonical p) {acc : Poly}
    (ha : Poly.canonical acc) : Poly.canonical (ps.foldl Poly.add acc) := by
  induction ps generalizing acc with
  | nil => exact ha
  | cons p ps ih =>
    rw [List.forall_mem_cons] at h
    exact ih h.2 (Poly.canonical_add ha h.1)

/-- Position i's part of the syndrome, when W[i] is w and the table entry has the coefficients v. -/
def partOf (t : Nat) (w : Bool) (v : Nat → Elem) : Poly :=
  if w then Poly.ofCoeffs ((List.range t).map v) else []

theorem canonical_partOf (t : Nat) (w : Bool) (v : Nat → Elem) :
    Poly.canonical (partOf t w v) := by
  cases w with
  | false => exact Poly.canonical_nil
  | true => exact Poly.canonical_ofCoeffs _

theorem length_partOf_le (t : Nat) (w : Bool) (v : Nat → Elem) : (partOf t w v).length ≤ t := by
  cases w with
  | false => exact Nat.zero_le t
  | true => exact (Poly.length_ofCoeffs_le _).trans (by simp)

theorem getD_partOf {t j : Nat} (w : Bool) (v : Nat → Elem) (hj : j < t) :
    (partOf t w v).getD j 0#16 = if w then v j else 0#16 := by
  cases w with
  | false => rfl
  | true => exact (Poly.getD_ofCoeffs _ j).trans (getD_map_range v hj _)

theorem readSyndromeParts_ok {c : Ctx} {d : Data} {w : Nat → Bool} {v : Nat → Nat → Elem}
    (hw : ∀ i, i < c.code.n → d.mems.w.read i = some (w i))
    (hv : ∀ i j, i < c.code.n → w i = true → j < c.code.t →
      d.mems.pst.read (i * c.code.t + j) = some (v i j)) :
    readSyndromeParts c d =
      .ok ((List.range c.code.n).map fun i => partOf c.code.t (w i) (v i)) := by
  refine collect_ok fun i hi => ?_
  rw [syndromePart, readBit_ok (id := .W) (hw i hi), ok_bind, partOf]
  split
  · next hwi => exact readPst_ok fun j hj => hv i j hi hwi hj
  · rfl

/-- Settles O48: the parts are read, and the coefficients of their sum are the sums of theirs. -/
theorem syndromeIsTheSumOfEntries : Obligations.SyndromeIsTheSumOfEntries := by
  intro s c hs
  have hexec := exec_synd hs
  refine ⟨fun w v hw hv => ?_, fun i hi hnone => ?_⟩
  · have hparts := readSyndromeParts_ok (c := s.ctx c) hw hv
    have hpart {p : Poly} (hp : p ∈ (List.range c.n).map fun i => partOf c.t (w i) (v i)) :
        ∃ i, partOf c.t (w i) (v i) = p := by
      obtain ⟨i, -, hi⟩ := List.mem_map.mp hp
      exact ⟨i, hi⟩
    refine ⟨_, succeeds_of_ok hexec (by rw [syndRule, hparts, ok_bind]; rfl),
      Poly.canonical_sum (fun p hp => ?_) Poly.canonical_nil,
      Poly.length_sum_le (fun p hp => ?_) (Nat.zero_le _), fun j hj => ?_⟩
    · obtain ⟨i, rfl⟩ := hpart hp
      exact canonical_partOf _ _ _
    · obtain ⟨i, rfl⟩ := hpart hp
      exact length_partOf_le _ _ _
    · rw [Poly.getD_sum, List.map_map, xorSum]
      congr 1
      exact List.map_congr_left fun i _ => getD_partOf _ _ hj
  · refine unwritten_of_not_answers hexec (readSyndromeParts_reads _ _) fun h => ?_
    obtain ⟨w, hw, hpst⟩ := answers_readSyndromeParts.mp h i hi
    rcases hnone with hnone | ⟨hone, j, hj, hnone⟩
    · cases hw.symm.trans hnone
    · have hwritten := hpst (Option.some.inj (hw.symm.trans hone)) j hj
      exact Option.not_isSome_iff_eq_none.mpr hnone hwritten

/-! ## ROOTS (`44_decode.md` R348) -/

theorem collect_rootAt_ok {c : Ctx} {d : Data} {x : Nat → Elem} {w : Nat → Bool}
    (h : ∀ i, i < c.code.n → d.mems.l.read i = some (x i) ∧ d.mems.w.read i = some (w i)) :
    collect c.code.n (rootAt c d) = .ok ((List.range c.code.n).map fun i =>
      (decide (Poly.eval c.gf (d.p.get 7) (x i) = 0#16), w i)) :=
  collect_ok fun i hi => by
    obtain ⟨hx, hw⟩ := h i hi
    rw [rootAt, readElem_ok (id := .L) hx, ok_bind, readBit_ok (id := .W) hw, ok_bind]

theorem count_true_map_range (root : Nat → Bool) (n : Nat) :
    ((List.range n).map root).count true = ((List.range n).filter root).length := by
  rw [List.count, List.countP_map, List.countP_eq_length_filter]
  congr 2
  funext i
  exact beq_true (root i)

/-- Settles O52: the roots are found at the elements of L before E and W are written. -/
theorem rootsAreFlipped : Obligations.RootsAreFlipped := by
  intro s c hs
  have hexec := exec_roots hs
  refine ⟨fun x w h => ?_, fun i hi hnone => ?_⟩
  · intro root
    have hreads := collect_rootAt_ok (c := s.ctx c) h
    refine ⟨s.data.mems.e.writeRange 0 ((List.range (2 ^ c.m)).map root),
      s.data.mems.w.writeRange 0 ((List.range (2 ^ c.m)).map fun i => w i ^^ root i), ?_,
      Memory.read_writeRange_map _ root _, Memory.read_writeRange_map _ _ _⟩
    rw [← count_true_map_range root]
    refine succeeds_of_ok hexec ?_
    rw [rootsRule, hreads, ok_bind, List.map_map, List.map_map]
    rfl
  · refine unwritten_of_not_answers hexec (collect_reads (rootAt_reads _ _)) fun h => ?_
    obtain ⟨hl, hw⟩ := answers_rootAt.mp (answers_collect.mp h i hi)
    rcases hnone with hnone | hnone
    · exact Option.not_isSome_iff_eq_none.mpr hnone hl
    · exact Option.not_isSome_iff_eq_none.mpr hnone hw

/-! ## EXTRACT and UNSCR (`44_decode.md` R350, R352) -/

theorem foldl_xor (bs : List Bool) (a : Bool) : bs.foldl xor a = xor a (xorAll bs) := by
  induction bs generalizing a with
  | nil => exact (Bool.xor_false a).symm
  | cons b bs ih => rw [List.foldl_cons, ih, xorAll, Bool.xor_assoc]

section
variable {c : Ctx} {d : Data}

theorem readMessage_ok {ix : Nat → Elem} {b : Nat → Bool}
    (h : ∀ r, r < c.code.k → d.mems.swp.read (c.code.mt + r) = some (ix r) ∧
      d.mems.w.read (ix r).toNat = some (b r)) :
    readMessage c d = .ok ((List.range c.code.k).map b) :=
  collect_ok fun r hr => by
    obtain ⟨hix, hb⟩ := h r hr
    rw [readElem_ok (id := .SWP) hix, ok_bind, readBit_ok (id := .W) hb]

theorem unscrambledBit_ok {a : Nat → Bool} {v : Nat → Nat → Bool} {j : Nat} (hj : j < c.code.k)
    (ha : ∀ r, r < c.code.k → d.mems.mc.read r = some (a r))
    (hv : ∀ r j, r < c.code.k → j < c.code.k →
      d.mems.sinv.read (r * c.code.k + j) = some (v r j)) :
    unscrambledBit c d j =
      .ok (((List.range c.code.k).map fun r => a r && v r j).foldl xor false) := by
  have hterms : ∀ r, r < c.code.k → (do
      let a ← readBit d .MC r
      let b ← readBit d .SINV (r * c.code.k + j)
      .ok (a && b) : Run Bool) = .ok (a r && v r j) := fun r hr => by
    rw [readBit_ok (id := .MC) (ha r hr), ok_bind, readBit_ok (id := .SINV) (hv r j hr hj), ok_bind]
  rw [unscrambledBit, collect_ok hterms, ok_bind, foldl_xor, Bool.false_xor]

end

/-- Settles O53: EXTRACT and UNSCR write the bits read, and the sums of the products read. -/
theorem extractAndUnscramble : Obligations.ExtractAndUnscramble := by
  intro s c hs mt k
  have hextract := exec_extract hs
  have hunscr := exec_unscr hs
  refine ⟨fun ix b h => ?_, fun r hr hnone => ?_, fun a v ha hv => ?_, fun r j hr hj hnone => ?_⟩
  · have hread := readMessage_ok (c := s.ctx c) h
    exact ⟨_, succeeds_of_ok hextract (by rw [extractRule, hread, ok_bind]; rfl),
      Memory.read_writeRange_map _ b k⟩
  · refine unwritten_of_not_answers hextract (readMessage_reads _ _) fun h => ?_
    obtain ⟨i, hi, hw⟩ := answers_readMessage.mp h r hr
    rcases hnone with hnone | ⟨i', hi', hnone⟩
    · cases hi.symm.trans hnone
    · obtain rfl : i = i' := Option.some.inj (hi.symm.trans hi')
      exact Option.not_isSome_iff_eq_none.mpr hnone hw
  · have hread := collect_ok fun j hj => unscrambledBit_ok (c := s.ctx c) hj ha hv
    exact ⟨_, succeeds_of_ok hunscr (by rw [unscrRule, hread, ok_bind]; rfl),
      Memory.read_writeRange_map _ _ k⟩
  · refine unwritten_of_not_answers hunscr (collect_reads (unscrambledBit_reads _ _)) fun h => ?_
    obtain ⟨hmc, hsinv⟩ := answers_unscrambledBit.mp (answers_collect.mp h j hj) r hr
    rcases hnone with hnone | hnone
    · exact Option.not_isSome_iff_eq_none.mpr hnone hmc
    · exact Option.not_isSome_iff_eq_none.mpr hnone hsinv

end Sys2Proof.Machine
end

section
/-! SUPPORT. The key-equation core (`44_decode.md` R345–R347): its inner loop is one division, which
the companions follow, so the outer loop runs the Euclidean algorithm on τ and g. The divisors have
leading coefficients with inverses, so the companions' degrees add up for every modulus f. -/

namespace Sys2Proof.Machine

open Polynomial

/-! ## Polynomials whose leading coefficient is a unit -/

/-- P has degree n, and its leading coefficient is a unit. -/
structure UnitDegree {R : Type} [CommRing R] (P : R[X]) (n : Nat) : Prop where
  le : P.natDegree ≤ n
  unit : IsUnit (P.coeff n)

section
variable {R : Type} [CommRing R] {P Q L : R[X]} {n m : Nat}

theorem UnitDegree.mul (hP : UnitDegree P n) (hQ : UnitDegree Q m) : UnitDegree (P * Q) (n + m) :=
  ⟨natDegree_mul_le_of_le hP.le hQ.le, by
    rw [coeff_mul_add_eq_of_natDegree_le hP.le hQ.le]
    exact hP.unit.mul hQ.unit⟩

theorem UnitDegree.add_of_degree_lt (hP : UnitDegree P n) (hL : L.degree < n) :
    UnitDegree (L + P) n := by
  refine ⟨natDegree_add_le_of_degree_le (natDegree_le_of_degree_le hL.le) hP.le, ?_⟩
  rw [coeff_add, coeff_eq_zero_of_degree_lt hL, zero_add]
  exact hP.unit

/-- A multiple of P reaches at least as high as P. -/
theorem UnitDegree.coeff_mul_ne_zero (hP : UnitDegree P n) (hQ : Q ≠ 0) :
    (Q * P).coeff (Q.natDegree + n) ≠ 0 := by
  rw [coeff_mul_add_eq_of_natDegree_le le_rfl hP.le, Ne, hP.unit.mul_left_eq_zero]
  exact leadingCoeff_ne_zero.mpr hQ

theorem UnitDegree.eq_zero_of_dvd (hP : UnitDegree P n) (hdvd : P ∣ L) (hL : L.degree < n) :
    L = 0 := by
  obtain ⟨Q, rfl⟩ := hdvd
  by_contra hne
  have hQ : Q ≠ 0 := right_ne_zero_of_mul hne
  refine hP.coeff_mul_ne_zero hQ ?_
  rw [mul_comm]
  exact coeff_eq_zero_of_degree_lt (hL.trans_le (Nat.cast_le.mpr (Nat.le_add_left _ _)))

/-- The quotient of two such polynomials is one too. -/
theorem UnitDegree.quotient {A B : R[X]} {a b : Nat} (hA : UnitDegree A a) (hB : UnitDegree B b)
    (hdiv : A = Q * B + L) (hL : L.degree < b) (hle : b ≤ a) : UnitDegree Q (a - b) := by
  have hcoeff {i : Nat} (hi : b ≤ i) : A.coeff i = (Q * B).coeff i := by
    rw [hdiv, coeff_add, coeff_eq_zero_of_degree_lt (hL.trans_le (Nat.cast_le.mpr hi)), add_zero]
  have hdeg : Q.natDegree ≤ a - b := by
    by_contra hlt
    have hQ : Q ≠ 0 := by rintro rfl; simp at hlt
    refine hB.coeff_mul_ne_zero hQ ?_
    rw [← hcoeff (Nat.le_add_left _ _)]
    exact coeff_eq_zero_of_natDegree_lt (hA.le.trans_lt (by omega))
  refine ⟨hdeg, isUnit_of_mul_isUnit_left (y := B.coeff b) ?_⟩
  rw [← coeff_mul_add_eq_of_natDegree_le hdeg hB.le, Nat.sub_add_cancel hle, ← hcoeff hle]
  exact hA.unit

end

section
variable {k : GF} (hk : k.Proper)

/-- What is stored in at most n coefficients has degree below n. -/
theorem Poly.degree_residue_lt {p : Poly} {n : Nat} (h : p.length ≤ n) :
    (Poly.residue k p).degree < n :=
  (degree_lt_iff_coeff_zero _ _).mpr fun i hi => by
    rw [Poly.coeff_residue, List.getD_eq_default _ _ (h.trans hi), k.residue_zero]

include hk

/-- The stored polynomials of degree n whose leading coefficient has an inverse. -/
theorem Poly.unitDegree_iff {p : Poly} (hp : Poly.wf k.m p) {n : Nat} :
    UnitDegree (Poly.residue k p) n ↔ p.length = n + 1 ∧ k.invertible (p.getLastD 0#16) := by
  rw [← Poly.lead, Poly.lead_eq_getD]
  refine ⟨fun ⟨hle, hunit⟩ => ?_, fun ⟨hlen, hu⟩ => ?_⟩
  · rw [Poly.natDegree_residue hk hp] at hle
    rw [Poly.coeff_residue, isUnit_residue_iff hk] at hunit
    have hn : n < p.length := by
      by_contra hn
      rw [List.getD_eq_default _ _ (Nat.le_of_not_lt hn)] at hunit
      exact k.not_invertible_zero hunit
    have hlen : p.length = n + 1 := by omega
    rw [hlen]
    exact ⟨rfl, hunit⟩
  · rw [hlen] at hu
    refine ⟨by rw [Poly.natDegree_residue hk hp, hlen, Nat.add_sub_cancel], ?_⟩
    rw [Poly.coeff_residue]
    exact (isUnit_residue_iff hk _).mpr hu

theorem Poly.unitDegree_length {p : Poly} (hp : Poly.wf k.m p)
    (hu : k.invertible (p.getLastD 0#16)) : UnitDegree (Poly.residue k p) (p.length - 1) := by
  have hp0 : p ≠ [] := by rintro rfl; exact k.not_invertible_zero hu
  exact (Poly.unitDegree_iff hk hp).mpr
    ⟨(Nat.sub_add_cancel (List.length_pos_iff.mpr hp0)).symm, hu⟩

/-- Remainders modulo g are determined by their class, for a g whose leading coefficient has an
inverse (`42_poly.md` R262). -/
theorem eq_of_modEq {g a r r' : Poly} (hg : Poly.wf k.m g) (hu : k.invertible (g.getLastD 0#16))
    (ha : Poly.wf k.m a) (hr : Poly.wf k.m r) (hr' : Poly.wf k.m r') (hlt : r.length < g.length)
    (hlt' : r'.length < g.length) (h : Poly.modEq k g a r) (h' : Poly.modEq k g a r') : r = r' := by
  have hdvd := dvd_add ((Poly.modEq_iff_dvd hk hg ha hr).mp h)
    ((Poly.modEq_iff_dvd hk hg ha hr').mp h')
  have hzero := (Poly.unitDegree_length hk hg hu).eq_zero_of_dvd
    (L := Poly.residue k (Poly.add r r')) (by
      rw [Poly.residue_add]
      convert hdvd using 1
      linear_combination -Poly.residue k a * GF.polys_two k)
    (Poly.degree_residue_lt ((Poly.length_add_le r r').trans (by omega)))
  refine Poly.residue_injective hk hr hr' ?_
  rw [Poly.residue_add] at hzero
  linear_combination hzero - Poly.residue k r' * GF.polys_two k

end

/-! ## The inner loop (`44_decode.md` R345) -/

/-- The number of non-zero coefficients. -/
def Poly.terms (p : Poly) : Nat := (p.filter fun a => decide (a ≠ 0#16)).length

theorem Poly.terms_list_cons (a : Elem) (p : Poly) :
    Poly.terms (a :: p) = Poly.terms p + if a = 0#16 then 0 else 1 := by
  rw [Poly.terms, List.filter_cons]
  by_cases ha : a = 0#16 <;> simp [ha, Poly.terms]

theorem Poly.terms_cons (a : Elem) (p : Poly) : Poly.terms (Poly.cons a p) = Poly.terms (a :: p) := by
  cases p with
  | nil => by_cases ha : a = 0#16 <;> simp [Poly.cons, Poly.terms, ha]
  | cons b q => rfl

theorem Poly.add_nil (p : Poly) : Poly.add p [] = p := by cases p <;> rfl

/-- A term at a place where there is none counts as one more. -/
theorem Poly.terms_add_term {q : Poly} {d : Nat} {a : Elem} (hd : q.getD d 0#16 = 0#16)
    (ha : a ≠ 0#16) :
    Poly.terms (Poly.add q (Poly.shift d (Poly.const a))) = Poly.terms q + 1 := by
  rw [Poly.const_of_ne_zero ha]
  induction d generalizing q with
  | zero =>
    cases q with
    | nil => simp [Poly.add, Poly.shift, Poly.terms, ha]
    | cons b q =>
      obtain rfl : b = 0#16 := hd
      change Poly.terms (Poly.cons (fieldAdd 0#16 a) (Poly.add q [])) = _
      rw [Poly.terms_cons, Poly.add_nil, Poly.terms_list_cons, Poly.terms_list_cons]
      simp [fieldAdd, ha]
  | succ d ih =>
    cases q with
    | nil => exact (Poly.terms_list_cons 0#16 (Poly.shift d [a])).trans (ih (q := []) rfl)
    | cons b q =>
      change Poly.terms (Poly.cons (fieldAdd b 0#16) (Poly.add q (Poly.shift d [a]))) = _
      rw [Poly.terms_cons, Poly.terms_list_cons, ih hd, Poly.terms_list_cons, fieldAdd,
        BitVec.xor_zero]
      omega

/-- The registers once the division of r0 by r1 has reached quotient and remainder qr: the companion
u0 has followed, and each term of the quotient was one elimination. -/
def KeyEq.divided (k : GF) (s : KeyEq) (qr : Poly × Poly) : KeyEq :=
  { s with r0 := qr.2, u0 := Poly.add s.u0 (Poly.mul k qr.1 s.u1), it := s.it + Poly.terms qr.1 }

theorem KeyEq.divided_start (k : GF) (s : KeyEq) : s.divided k ([], s.r0) = s := by
  rw [KeyEq.divided, Poly.mul, Poly.add_nil]
  rfl

section
variable {k : GF} (hk : k.Proper)
include hk

theorem quotRem_eq_divLoop (a : Poly) {b : Poly} {ib : Elem} (hib : ib.toNat < 2 ^ k.m)
    (hinv : k.mul (Poly.lead b) ib = 1#16) : quotRem k a b = divLoop k b ib a.length [] a := by
  have hb0 : b ≠ [] := by rintro rfl; exact k.not_invertible_zero ⟨ib, hib, hinv⟩
  rw [quotRem, divmod, if_neg hb0, GF.inv_eq_ok hk hib hinv, ok_bind]

/-- One more term of the quotient, as the companion follows it. -/
theorem Poly.add_mul_term {u v : Poly} (hu : Poly.wf k.m u) (hv : Poly.wf k.m v) (q : Poly) (d : Nat)
    (a : Elem) :
    Poly.add (Poly.add u (Poly.mul k q v)) (Poly.shift d (Poly.scale k a v)) =
      Poly.add u (Poly.mul k (Poly.add q (Poly.shift d (Poly.const a))) v) := by
  refine Poly.residue_injective hk
    (Poly.wf_add (Poly.wf_add hu (Poly.wf_mul hk q v)) (Poly.wf_shift d (Poly.wf_scale hk a v)))
    (Poly.wf_add hu (Poly.wf_mul hk _ v)) ?_
  simp only [Poly.residue_add, Poly.residue_mul hk _ hv, Poly.residue_shift, Poly.residue_const,
    Poly.residue_scale hk a hv]
  ring

/-- The coefficient of a term of the quotient is not 0. -/
theorem term_ne_zero {r b : Poly} {ib : Elem} (hr : Poly.wf k.m r) (hr0 : r ≠ [])
    (hb : Poly.wf k.m b) (hib : ib.toNat < 2 ^ k.m) (hinv : k.mul (Poly.lead b) ib = 1#16) :
    k.mul (Poly.lead r) ib ≠ 0#16 := fun h => by
  have hlead : k.mul (k.mul (Poly.lead r) ib) (Poly.lead b) = Poly.lead r := by
    rw [GF.mul_assoc hk _ hib (Poly.lead_lt hb), GF.mul_comm hk hib (Poly.lead_lt hb), hinv,
      GF.mul_one hk (Poly.lead_lt hr)]
  rw [h, GF.zero_mul] at hlead
  exact Poly.lead_ne_zero hr.1 hr0 hlead.symm

section
variable {s : KeyEq} (hr1 : Poly.wf k.m s.r1) (hu0 : Poly.wf k.m s.u0) (hu1 : Poly.wf k.m s.u1)
include hr1 hu0 hu1

/-- The inner loop goes through the reduction loop of divmod (`42_poly.md` R262). The quotient so far
has no term as low as the next one. -/
theorem eliminate_divided {ib : Elem} (hib : ib.toNat < 2 ^ k.m)
    (hinv : k.mul (Poly.lead s.r1) ib = 1#16) (fuel : Nat) {q r : Poly} (hr : Poly.wf k.m r)
    (hq : ∀ i, i + s.r1.length ≤ r.length → q.getD i 0#16 = 0#16) :
    eliminate k fuel (s.divided k (q, r)) =
      .ok (s.divided k (divLoop k s.r1 ib fuel q r)) := by
  have hr10 : s.r1 ≠ [] := by
    rintro h
    rw [h] at hinv
    exact k.not_invertible_zero ⟨ib, hib, hinv⟩
  induction fuel generalizing q r with
  | zero => rfl
  | succ fuel ih =>
    rw [eliminate, divLoop]
    by_cases hcond : r ≠ [] ∧ s.r1.length ≤ r.length
    case neg => exact (if_neg hcond).trans (by rw [if_neg hcond])
    have hlt := Poly.length_cancel_lt hk hr hr1 hcond.1 hr10 hcond.2 hib hinv
    have hcount := Poly.terms_add_term (hq _ (Nat.sub_add_cancel hcond.2).le)
      (term_ne_zero hk hr hcond.1 hr1 hib hinv)
    rw [if_pos hcond]
    refine (if_pos hcond).trans (Eq.trans ?_ (ih (Poly.wf_add hr (Poly.wf_shift _
      (Poly.wf_scale hk _ s.r1))) fun i hi => ?_))
    · change (k.inv (Poly.lead s.r1) >>= _) = _
      rw [GF.inv_eq_ok hk hib hinv, ok_bind]
      simp only [KeyEq.divided, Poly.add_mul_term hk hu0 hu1, hcount, Nat.add_assoc]
    · rw [Poly.getD_add, Poly.getD_shift, if_pos (by omega), hq i (by omega)]
      rfl

/-- The inner loop divides r0 by r1 (`44_decode.md` R345). -/
theorem eliminate_of_invertible (hr0 : Poly.wf k.m s.r0)
    (hu : k.invertible (s.r1.getLastD 0#16)) :
    eliminate k s.r0.length s = .ok (s.divided k (quotRem k s.r0 s.r1)) := by
  obtain ⟨ib, hib, hinv⟩ := hu
  have h := eliminate_divided hk hr1 hu0 hu1 hib hinv s.r0.length (q := []) hr0 fun _ _ => rfl
  rwa [s.divided_start, ← quotRem_eq_divLoop hk s.r0 hib hinv] at h

end

/-- The inner loop stops at once when the leading coefficient of r1 has no inverse. -/
theorem eliminate_of_stuck {s : KeyEq} (h : Poly.stuckAt k s.r1)
    (hle : s.r1.length ≤ s.r0.length) :
    eliminate k s.r0.length s = raise (.arith .fieldInverse) := by
  obtain ⟨hr10, hu⟩ := h
  have hpos := (List.length_pos_iff.mpr hr10).trans_le hle
  obtain ⟨n, hn⟩ := Nat.exists_eq_add_one.mpr hpos
  rw [hn, eliminate, if_pos ⟨List.length_pos_iff.mp hpos, hle⟩, Poly.lead,
    GF.inv_eq_raise hk fun c hc hmul => hu ⟨c, hc, hmul⟩, raise_bind]

end

/-! ## The outer loop -/

/-- The registers before division n + 1 of the Euclidean algorithm on τ and g: remainders n + 1 and
n + 2 with their companions, each a cofactor of τ (`44_decode.md` R345). -/
structure KeyEq.AtDivision (k : GF) (tau g : Poly) (n : Nat) (s : KeyEq) : Prop where
  runs : Poly.EuclidRuns k tau g (n + 1)
  r0 : s.r0 = Poly.euclidRem k tau g (n + 1)
  r1 : s.r1 = Poly.euclidRem k tau g (n + 2)
  old : Poly.Cofactor k tau g s.u0 s.r0
  new : Poly.Cofactor k tau g s.u1 s.r1
  it : s.it = Poly.eliminations (Poly.euclidQuot k tau g) (n + 1)
  short : s.u0.length + s.r0.length ≤ g.length
  degree : UnitDegree (Poly.residue k s.u1) (g.length - s.r0.length)

/-- The exchange at the end of the outer loop's body (`44_decode.md` R345). -/
def KeyEq.swapped (s : KeyEq) : KeyEq := { s with r0 := s.r1, r1 := s.r0, u0 := s.u1, u1 := s.u0 }

section
variable {k : GF} (hk : k.Proper) {tau g : Poly} (htau : Poly.wf k.m tau) (hg : Poly.wf k.m g)
include hk htau hg

/-- The companion of the next remainder: its degree grows as that of the remainders falls. -/
theorem KeyEq.AtDivision.degree_next {n : Nat} {s : KeyEq} (h : s.AtDivision k tau g n)
    (hu : k.invertible (s.r1.getLastD 0#16)) :
    UnitDegree (Poly.residue k (Poly.add s.u0 (Poly.mul k (quotRem k s.r0 s.r1).1 s.u1)))
      (g.length - s.r1.length) := by
  have hr0 : Poly.wf k.m s.r0 := h.r0 ▸ wf_euclidRem hk htau hg (n + 1)
  have hr1 : Poly.wf k.m s.r1 := h.r1 ▸ wf_euclidRem hk htau hg (n + 2)
  obtain ⟨-, -, hlt, -⟩ := h.runs.division n n.lt_succ_self
  rw [← h.r0, ← h.r1] at hlt
  obtain ⟨-, -, hrem, hdiv⟩ := (divmod_of_invertible hk hr0 hr1 hu).2
  have hpos : 0 < s.r1.length := Nat.zero_lt_of_lt hrem
  have hdivided := congrArg (Poly.residue k) hdiv
  rw [Poly.residue_add, Poly.residue_mul hk _ hr1] at hdivided
  have hquot := (Poly.unitDegree_length hk hr0 (h.r0 ▸ h.runs.unit n n.lt_succ_self)).quotient
    (Poly.unitDegree_length hk hr1 hu) hdivided
    (Poly.degree_residue_lt (Nat.le_sub_one_of_lt hrem)) (by omega)
  have hmul := hquot.mul h.degree
  have hshort := h.short
  rw [show s.r0.length - 1 - (s.r1.length - 1) + (g.length - s.r0.length) =
    g.length - s.r1.length by omega] at hmul
  rw [Poly.residue_add, Poly.residue_mul hk _ h.new.wf]
  exact hmul.add_of_degree_lt (Poly.degree_residue_lt (by omega))

/-- One turn of the outer loop: one division more. -/
theorem KeyEq.AtDivision.next {n : Nat} {s : KeyEq} (h : s.AtDivision k tau g n)
    (hu : k.invertible (s.r1.getLastD 0#16)) :
    (s.divided k (quotRem k s.r0 s.r1)).swapped.AtDivision k tau g (n + 1) where
  runs := euclidRuns_succ hk htau hg h.runs (h.r1 ▸ hu)
  r0 := h.r1
  r1 := by rw [h.r0, h.r1]; rfl
  old := h.new
  new := by
    have hnext := Poly.Cofactor.next hk htau hg (euclidRuns_succ hk htau hg h.runs (h.r1 ▸ hu))
      (h.r0 ▸ h.old) (h.r1 ▸ h.new)
    rw [Poly.euclidQuot, ← h.r0, ← h.r1] at hnext
    rw [show (s.divided k (quotRem k s.r0 s.r1)).swapped.r1 = Poly.euclidRem k tau g (n + 3) by
      rw [h.r0, h.r1]; rfl]
    exact hnext
  it := by
    rw [Poly.eliminations_succ, ← h.it, Poly.euclidQuot, ← h.r0, ← h.r1]
    rfl
  short := by
    obtain ⟨-, -, hlt, -⟩ := h.runs.division n n.lt_succ_self
    obtain ⟨hlen, -⟩ := (Poly.unitDegree_iff hk h.new.wf).mp h.degree
    have hshort := h.short
    rw [← h.r0, ← h.r1] at hlt
    change s.u1.length + s.r1.length ≤ g.length
    omega
  degree := h.degree_next hk htau hg hu

/-- The ends of the outer loop (`44_decode.md` R345): a divisor whose leading coefficient has no
inverse, or the first remainder of degree at most `half`. -/
theorem keyLoop_ends {half n fuel : Nat} {s : KeyEq} (h : s.AtDivision k tau g n)
    (hlong : half + 1 < s.r0.length) (hfuel : s.r1.length < fuel) :
    (∃ l, Poly.EuclidRuns k tau g (l + 1) ∧ half + 1 < (Poly.euclidRem k tau g (l + 2)).length ∧
        Poly.stuckAt k (Poly.euclidRem k tau g (l + 2)) ∧
        keyLoop k half fuel s = raise (.arith .fieldInverse)) ∨
      ∃ l e, KeyEq.AtDivision k tau g l e ∧ half + 1 < e.r0.length ∧ e.r1.length ≤ half + 1 ∧
        keyLoop k half fuel s = .ok e := by
  induction fuel generalizing n s with
  | zero => exact absurd hfuel (Nat.not_lt_zero _)
  | succ fuel ih =>
    rw [keyLoop]
    by_cases hcont : half + 1 < s.r1.length
    case neg => exact .inr ⟨n, s, h, hlong, Nat.le_of_not_lt hcont, if_neg hcont⟩
    rw [if_pos hcont]
    have hr0 : Poly.wf k.m s.r0 := h.r0 ▸ wf_euclidRem hk htau hg (n + 1)
    have hr1 : Poly.wf k.m s.r1 := h.r1 ▸ wf_euclidRem hk htau hg (n + 2)
    by_cases hu : k.invertible (s.r1.getLastD 0#16)
    · rw [eliminate_of_invertible hk hr1 h.old.wf h.new.wf hr0 hu, ok_bind]
      obtain ⟨-, -, hlt, -⟩ := (divmod_of_invertible hk hr0 hr1 hu).2
      exact ih (h.next hk htau hg hu) hcont (hlt.trans_le (Nat.le_of_lt_succ hfuel))
    · have hr10 : s.r1 ≠ [] := List.ne_nil_of_length_pos (Nat.zero_lt_of_lt hcont)
      obtain ⟨-, -, hlt, -⟩ := h.runs.division n n.lt_succ_self
      rw [← h.r0, ← h.r1] at hlt
      rw [eliminate_of_stuck hk ⟨hr10, hu⟩ hlt.le, raise_bind]
      rw [h.r1] at hcont hr10 hu
      exact .inl ⟨n, h.runs, hcont, ⟨hr10, hu⟩, rfl⟩

/-! ## keyeq -/

/-- The registers keyeq begins with. -/
theorem KeyEq.atDivision_start (hu : k.invertible (g.getLastD 0#16)) :
    KeyEq.AtDivision k tau g 0
      { r0 := g, r1 := (quotRem k tau g).2, u0 := [], u1 := Poly.const 1#16, it := 0 } where
  runs := euclidRuns_succ hk htau hg (.zero rfl rfl) hu
  r0 := rfl
  r1 := rfl
  old := .modulus
  new := by
    obtain ⟨hr, -, hmod⟩ := quotRem_modEq hk htau hg hu
    exact .operand hk htau hg hr hmod
  it := rfl
  short := (Nat.zero_add _).le
  degree := by
    rw [Nat.sub_self]
    exact (Poly.unitDegree_iff hk (Poly.wf_one hk)).mpr ⟨rfl, 1#16, hk.one_lt,
      GF.mul_one hk hk.one_lt⟩

/-- The registers at the end of the outer loop solve the key equation (`44_decode.md` R347). -/
theorem KeyEq.AtDivision.keyEquation {t n : Nat} {s : KeyEq} (h : s.AtDivision k tau g n)
    (hgp : g.length = t + 1) (hlong : t / 2 + 1 < s.r0.length) (hstop : s.r1.length ≤ t / 2 + 1) :
    Poly.KeyEquation k t g tau s.r1 s.u1 s.r0 s.u0 := by
  have hr0 : Poly.wf k.m s.r0 := h.r0 ▸ wf_euclidRem hk htau hg (n + 1)
  have hr1 : Poly.wf k.m s.r1 := h.r1 ▸ wf_euclidRem hk htau hg (n + 2)
  have hmod {u r : Poly} (hr : Poly.wf k.m r) (hu : Poly.Cofactor k tau g u r) :
      Poly.modEq k g (Poly.mul k u tau) r := by
    refine (Poly.modEq_iff_dvd hk hg (Poly.wf_mul hk u tau) hr).mpr ?_
    rw [Poly.residue_mul hk u htau, mul_comm]
    exact hu.dvd
  obtain ⟨hlen, -⟩ := (Poly.unitDegree_iff hk h.new.wf).mp h.degree
  have hshort := h.short
  exact ⟨⟨hr1, h.new.wf, hr0, h.old.wf⟩, hmod hr1 h.new, hmod hr0 h.old,
    ⟨hstop, hlong, by omega⟩, by omega⟩

/-- The ends of keyeq (`44_decode.md` R345): the Euclidean algorithm on τ and g, stopped at degree
⌊t/2⌋, meets a divisor whose leading coefficient has no inverse, or its last two remainders are α
and r₀. -/
theorem keyeq_ends {t : Nat} (ht : 2 ≤ t) (hgp : g.length = t + 1) :
    ∃ n, Poly.EuclidRuns k tau g n ∧
      (t / 2 + 1 < (Poly.euclidRem k tau g (n + 1)).length ∧
          Poly.stuckAt k (Poly.euclidRem k tau g (n + 1)) ∧
          keyeq k t tau g = raise (.arith .fieldInverse) ∨
        ∃ gamma u0, Poly.KeyEquation k t g tau (Poly.euclidRem k tau g (n + 1)) gamma
            (Poly.euclidRem k tau g n) u0 ∧
          keyeq k t tau g = .ok
            { r0 := Poly.euclidRem k tau g n, r1 := Poly.euclidRem k tau g (n + 1), u0 := u0,
              u1 := gamma, it := Poly.eliminations (Poly.euclidQuot k tau g) n }) := by
  have hlong : t / 2 + 1 < g.length := by omega
  by_cases hu : k.invertible (g.getLastD 0#16)
  case neg =>
    have hg0 : g ≠ [] := List.ne_nil_of_length_eq_add_one hgp
    exact ⟨0, .zero rfl rfl, .inl ⟨hlong, ⟨hg0, hu⟩,
      by rw [keyeq, polyMod_of_stuck hk tau ⟨hg0, hu⟩, raise_bind]⟩⟩
  have hstart := KeyEq.atDivision_start hk htau hg hu
  rw [keyeq, polyMod_of_invertible hk htau hg hu, ok_bind]
  rcases keyLoop_ends hk htau hg hstart hlong (Nat.lt_succ_self _) with
    ⟨l, hruns, hcont, hstuck, hloop⟩ | ⟨l, e, he, helong, hestop, hloop⟩
  · exact ⟨l + 1, hruns, .inl ⟨hcont, hstuck, by rw [hloop, raise_bind]⟩⟩
  · have hr1 : Poly.wf k.m e.r1 := he.r1 ▸ wf_euclidRem hk htau hg (l + 2)
    have hkey := he.keyEquation hk htau hg hgp helong hestop
    rw [hloop, ok_bind, polyMod_of_invertible hk hr1 hg hu,
      quotRem_of_short hk (hestop.trans_lt hlong) hu, ok_bind]
    refine ⟨l + 1, he.runs, .inr ⟨e.u1, e.u0, ?_⟩⟩
    rw [← he.r0, ← he.r1, ← he.it]
    exact ⟨hkey, rfl⟩

/-- When τ mod g is already of degree at most ⌊t/2⌋, there is no elimination (`44_decode.md` R346). -/
theorem keyeq_of_short {t : Nat} {a : Poly} (hu : k.invertible (g.getLastD 0#16))
    (ha : Poly.wf k.m a) (hmod : Poly.modEq k g tau a) (hstop : a.length ≤ t / 2 + 1)
    (hlong : t / 2 + 1 < g.length) :
    keyeq k t tau g = .ok { r0 := g, r1 := a, u0 := [], u1 := [1#16], it := 0 } := by
  obtain ⟨hr, hlt, hrmod⟩ := quotRem_modEq hk htau hg hu
  obtain rfl := eq_of_modEq hk hg hu htau ha hr (hstop.trans_lt hlong) hlt hmod hrmod
  rw [keyeq, polyMod_of_invertible hk htau hg hu, ok_bind, keyLoop,
    if_neg (Nat.not_lt.mpr hstop), ok_bind]
  dsimp only
  rw [polyMod_of_invertible hk ha hg hu, quotRem_of_short hk hlt hu, ok_bind]
  rfl

end

/-! ## The command (`44_decode.md` R346) -/

/-- The data KEYEQ leaves. -/
def Data.withKeyEq (d : Data) (ke : KeyEq) : Data :=
  { d with p := { d.p with r3 := ke.r1, r4 := ke.u1, r5 := ke.r0, r6 := ke.u0 },
           iter := iterField ke.it }

theorem exec_keyeq {s : State} {c : Code} (hs : s.Runs c) :
    exec .keyeq s = s.finish (gcheck (s.ctx c) s.data >>= fun g =>
      keyeq (c.gf s.data) c.t (s.data.p.get 2) g >>= fun ke => .ok (s.data.withKeyEq ke)) := by
  rw [exec, execKeyeq, runCommand_of_runs hs]
  rfl

/-- Settles O51: KEYEQ stores what keyeq answers; over a field no divisor stops it. -/
theorem keyEquationIsSolved : Obligations.KeyEquationIsSolved := by
  intro s c hs hsound hgp k g tau solved
  have hready := hs.ready hsound
  have hk : k.Proper := hready.proper
  have hg : Poly.wf k.m g := hready.gp.wf
  have htau : Poly.wf k.m tau := (hready.p 2).wf
  obtain ⟨-, -, ht : 2 ≤ c.t, -⟩ := hready.legal
  have hlong : c.t / 2 + 1 < g.length := by
    have hlen : g.length = c.t + 1 := hgp
    omega
  have hexec := exec_keyeq hs
  rw [finish_gcheck_ok _ hgp] at hexec
  have hok {ke : KeyEq} (h : keyeq k c.t tau g = .ok ke) :
      Succeeds .keyeq s (s.data.withKeyEq ke) :=
    succeeds_of_ok hexec (bind_eq_ok.mpr ⟨ke, h, rfl⟩)
  obtain ⟨n, hruns, hends⟩ := keyeq_ends hk htau hg ht hgp
  refine ⟨fun hfield => ?_, ⟨n, _, _, hruns, ?_⟩, fun hu a ha hmod hstop => ?_⟩
  · rcases hends with ⟨-, hstuck, -⟩ | ⟨gamma, u0, hkey, hke⟩
    · exact absurd hstuck (not_stuckAt_of_isField hfield (wf_euclidRem hk htau hg (n + 1)))
    · exact ⟨_, gamma, _, u0, _, hkey, hok hke⟩
  · refine hends.imp (fun ⟨hlong, hstuck, hke⟩ => ⟨hlong, hstuck,
      fails_of_raise hexec (e := .arith .fieldInverse) (bind_eq_error.mpr (.inl hke))⟩)
      fun ⟨gamma, u0, hkey, hke⟩ => ⟨gamma, u0, hkey, hok hke⟩
  · exact hok (keyeq_of_short hk htau hg hu ha hmod hstop hlong)

end Sys2Proof.Machine
end

section
/-! SUPPORT. LOCATOR (`44_decode.md` R344, R347): the inversion of S continues the Euclidean algorithm
on P0 and g, the key equation is that of τ, and its degree bounds leave σ within degree t. -/

namespace Sys2Proof.Machine

open Polynomial

/-! ## The Euclidean algorithm goes on with the remainder -/

section
variable {k : GF} (hk : k.Proper) {a g : Poly} (ha : Poly.wf k.m a) (hg : Poly.wf k.m g)
include hk ha hg

theorem euclidRuns_of_unit {n : Nat}
    (h : ∀ i, i < n → k.invertible ((Poly.euclidRem k a g (i + 1)).getLastD 0#16)) :
    Poly.EuclidRuns k a g n := by
  induction n with
  | zero => exact .zero rfl rfl
  | succ n ih =>
    exact euclidRuns_succ hk ha hg (ih fun i hi => h i (hi.trans n.lt_succ_self))
      (h n n.lt_succ_self)

variable (hu : k.invertible (g.getLastD 0#16))
include hu

/-- From g on, the remainders for a mod g are those for a. -/
theorem euclidRem_of_remainder (i : Nat) :
    Poly.euclidRem k (quotRem k a g).2 g (i + 1) = Poly.euclidRem k a g (i + 1) := by
  induction i using Nat.twoStepInduction with
  | zero => rfl
  | one =>
    obtain ⟨-, hlt, -⟩ := quotRem_modEq hk ha hg hu
    exact quotRem_of_short hk hlt hu
  | more i ih ih' =>
    rw [Poly.euclidRem, ih, ih']
    rfl

theorem euclidRuns_of_remainder {n : Nat} (h : Poly.EuclidRuns k (quotRem k a g).2 g n) :
    Poly.EuclidRuns k a g n :=
  euclidRuns_of_unit hk ha hg fun i hi => euclidRem_of_remainder hk ha hg hu i ▸ h.unit i hi

omit ha in
/-- A polynomial shorter than g that g divides is 0. -/
theorem eq_nil_of_dvd {r : Poly} (hr : Poly.wf k.m r) (hlt : r.length < g.length)
    (hdvd : Poly.residue k g ∣ Poly.residue k r) : r = [] :=
  (Poly.residue_eq_zero_iff hk hr).mp ((Poly.unitDegree_length hk hg hu).eq_zero_of_dvd hdvd
    (Poly.degree_residue_lt (Nat.le_sub_one_of_lt hlt)))

/-- An operand congruent to 0 has the remainder 0. -/
theorem remainder_eq_nil (hmod : Poly.modEq k g a []) : (quotRem k a g).2 = [] := by
  obtain ⟨hr, hlt, hrem⟩ := quotRem_modEq hk ha hg hu
  refine eq_nil_of_dvd hk hg hu hr hlt ?_
  have hdvd := (Poly.modEq_iff_dvd hk hg ha (Poly.wf_nil _)).mp hmod
  rw [Poly.residue_nil, add_zero] at hdvd
  exact (dvd_add_right hdvd).mp ((Poly.modEq_iff_dvd hk hg ha hr).mp hrem)

/-- An operand congruent to 0 has no inverse modulo a g that is not a constant. -/
theorem not_invertibleMod_of_modEq_nil (hlen : 1 < g.length) (hmod : Poly.modEq k g a []) :
    ¬Poly.invertibleMod k g a := by
  rintro ⟨b, hb, hinv⟩
  rw [Poly.modEq_iff_dvd hk hg ha (Poly.wf_nil _), Poly.residue_nil, add_zero] at hmod
  rw [Poly.modEq_iff_dvd hk hg (Poly.wf_mul hk a b) (Poly.wf_one hk), Poly.residue_mul hk a hb]
    at hinv
  exact List.cons_ne_nil _ _ (eq_nil_of_dvd hk hg hu (Poly.wf_one hk) hlen
    ((dvd_add_right (hmod.mul_right _)).mp hinv))

omit hu

/-- A factor may be replaced by one congruent to it. -/
theorem modEq_mul_of_modEq {a' b r : Poly} (ha' : Poly.wf k.m a') (hb : Poly.wf k.m b)
    (hr : Poly.wf k.m r) (h : Poly.modEq k g a a') (hmul : Poly.modEq k g (Poly.mul k a' b) r) :
    Poly.modEq k g (Poly.mul k a b) r := by
  rw [Poly.modEq_iff_dvd hk hg (Poly.wf_mul hk _ _) hr, Poly.residue_mul hk _ hb] at hmul ⊢
  have hsum := (((Poly.modEq_iff_dvd hk hg ha ha').mp h).mul_right (Poly.residue k b)).add hmul
  convert hsum using 1
  linear_combination -Poly.residue k a' * Poly.residue k b * GF.polys_two k

end

/-- The divisor at which the Euclidean algorithm stops is well formed. -/
theorem Poly.Euclid.wf_divisor {k : GF} {a g : Poly} {n : Nat} {ρ q : Nat → Poly}
    (h : Poly.Euclid k a g n ρ q) (hg : Poly.wf k.m g) : Poly.wf k.m (ρ (n + 1)) := by
  cases n with
  | zero => exact h.second ▸ hg
  | succ n =>
    obtain ⟨-, hr, -⟩ := h.division n n.lt_succ_self
    exact hr

/-! ## T = S⁻¹ + z (`44_decode.md` R344) -/

/-- T is S⁻¹ + z modulo g, for S = P0 modulo g. -/
def Poly.Locates (k : GF) (t : Nat) (g p0 T : Poly) : Prop :=
  Poly.wf k.m T ∧ T.length ≤ t ∧ Poly.modEq k g (Poly.mul k p0 (Poly.add T Poly.z)) [1#16]

section
variable {k : GF} (hk : k.Proper) {p0 g : Poly} (hp0 : Poly.wf k.m p0) (hg : Poly.wf k.m g)
  (hu : k.invertible (g.getLastD 0#16)) {t : Nat} (hgp : g.length = t + 1)
include hk hp0 hg hu hgp

omit hp0 in
/-- The remainder of S⁻¹ + z. -/
theorem locates_of_inverse {inv : Poly} (hinv : Poly.wf k.m inv)
    (hmod : Poly.modEq k g (Poly.mul k p0 inv) [1#16]) :
    Poly.Locates k t g p0 (quotRem k (Poly.add inv Poly.z) g).2 := by
  have hsum := Poly.wf_add hinv (Poly.wf_z hk)
  obtain ⟨hT, hlt, hrem⟩ := quotRem_modEq hk hsum hg hu
  have hTz := Poly.wf_add hT (Poly.wf_z hk)
  refine ⟨hT, by omega, ?_⟩
  rw [Poly.modEq_iff_dvd hk hg hsum hT, Poly.residue_add] at hrem
  rw [Poly.modEq_iff_dvd hk hg (Poly.wf_mul hk _ _) (Poly.wf_one hk)] at hmod ⊢
  rw [Poly.residue_mul hk _ hinv] at hmod
  rw [Poly.residue_mul hk _ hTz, Poly.residue_add]
  convert (hrem.mul_left (Poly.residue k p0)).add hmod using 1
  linear_combination -Poly.residue k p0 * Poly.residue k inv * GF.polys_two k

omit hp0 in
/-- T is 0 when z is the inverse of S. -/
theorem Poly.Locates.eq_nil {T : Poly} (h : Poly.Locates k t g p0 T)
    (hz : Poly.modEq k g (Poly.mul k p0 Poly.z) [1#16]) : T = [] := by
  obtain ⟨hT, hlen, hmod⟩ := h
  have hTz := Poly.wf_add hT (Poly.wf_z hk)
  refine eq_nil_of_dvd hk hg hu hT (by omega) ?_
  rw [Poly.modEq_iff_dvd hk hg (Poly.wf_mul hk _ _) (Poly.wf_one hk)] at hmod hz
  rw [Poly.residue_mul hk _ hTz, Poly.residue_add] at hmod
  rw [Poly.residue_mul hk _ (Poly.wf_z hk)] at hz
  convert ((hmod.add hz).mul_left (Poly.residue k Poly.z)).add (hz.mul_left (Poly.residue k T))
    using 1
  linear_combination -(Poly.residue k p0 * Poly.residue k Poly.z * Poly.residue k T +
    Poly.residue k p0 * Poly.residue k Poly.z ^ 2 +
    Poly.residue k Poly.z * Poly.residue k [1#16]) * GF.polys_two k -
    Poly.residue k T * Poly.residue_one (k := k)

omit hp0 hg hu hgp in
theorem Poly.Locates.invertibleMod {T : Poly} (h : Poly.Locates k t g p0 T) :
    Poly.invertibleMod k g p0 := by
  obtain ⟨hT, -, hmod⟩ := h
  exact ⟨_, Poly.wf_add hT (Poly.wf_z hk), hmod⟩

end

/-! ## τ and σ -/

/-- x 0, x 1, … are squared modulo g, each of degree below t. -/
def Poly.SquaresModulo (k : GF) (t : Nat) (g : Poly) (x : Nat → Poly) : Prop :=
  ∀ j, Poly.wf k.m (x j) ∧ (x j).length ≤ t ∧
    Poly.modEq k g (Poly.mul k (x j) (x j)) (x (j + 1))

/-- σ = α² + z·γ² has degree at most t within the bounds of the key equation (`44_decode.md` R347). -/
theorem Poly.KeyEquation.sigma_length_le {k : GF} {t : Nat} {g tau alpha gamma r0 u0 : Poly}
    (h : Poly.KeyEquation k t g tau alpha gamma r0 u0) :
    (sigmaOf k alpha gamma).length ≤ t + 1 := by
  obtain ⟨hstop, hlong, -⟩ := h.stopped
  have hdegree := h.degree
  have hadd := Poly.length_add_le (Poly.mul k alpha alpha)
    (Poly.shift 1 (Poly.mul k gamma gamma))
  have halpha := Poly.length_mul_le (k := k) alpha alpha
  have hgamma := Poly.length_mul_le (k := k) gamma gamma
  have hshift := Poly.length_shift 1 (Poly.mul k gamma gamma)
  have hgamma0 : Poly.mul k gamma gamma ≠ [] → 0 < gamma.length := fun hne =>
    List.length_pos_iff.mpr fun h0 => hne (by rw [h0]; rfl)
  unfold sigmaOf
  split at hshift
  · omega
  · next hne =>
    have := hgamma0 hne
    omega

/-! ## The rule -/

/-- The data LOCATOR leaves in the general case. -/
def Data.located (d : Data) (k : GF) (T tau : Poly) (ke : KeyEq) : Data :=
  { d with p := { r0 := d.p.r0, r1 := T, r2 := tau, r3 := ke.r1, r4 := ke.u1, r5 := ke.r0,
                  r6 := ke.u0, r7 := sigmaOf k ke.r1 ke.u1 }
           degen := 0#2
           iter := iterField ke.it }

/-- LOCATOR from T on (`44_decode.md` R344). -/
def locatorEnd (c : Ctx) (d : Data) (T : Poly) : Run Data :=
  if T = [] then .ok (d.degenerate 2#2)
  else do
    let tau ← sqrtmod c.gf c.code.t T d.gp
    let ke ← keyeq c.gf c.code.t tau d.gp
    let sigma ← representable c (sigmaOf c.gf ke.r1 ke.u1)
    .ok { d with p := { r0 := d.p.r0, r1 := T, r2 := tau, r3 := ke.r1, r4 := ke.u1, r5 := ke.r0,
                        r6 := ke.u0, r7 := sigma }
                 degen := 0#2
                 iter := iterField ke.it }

section
variable {fit : Prop} {hw : Synth} {c : Ctx} {d : Data} (h : Ready fit hw c d)
  (hgp : d.gp.length = c.code.t + 1)
include h hgp

theorem locatorRule_of_stuck (hu : ¬c.gf.invertible (d.gp.getLastD 0#16)) :
    locatorRule c d = raise (.arith .fieldInverse) := by
  have hg0 : d.gp ≠ [] := List.ne_nil_of_length_eq_add_one hgp
  rw [locatorRule, gcheck_ok hgp, ok_bind, polyMod_of_stuck h.proper _ ⟨hg0, hu⟩, raise_bind]

theorem locatorRule_of_invertible (hu : c.gf.invertible (d.gp.getLastD 0#16)) :
    locatorRule c d =
      if (quotRem c.gf (d.p.get 0) d.gp).2 = [] then .ok (d.degenerate 1#2)
      else invmod c.gf (quotRem c.gf (d.p.get 0) d.gp).2 d.gp >>= fun inv =>
        polyMod c.gf (Poly.add inv Poly.z) d.gp >>= locatorEnd c d := by
  rw [locatorRule, gcheck_ok hgp, ok_bind,
    polyMod_of_invertible h.proper (h.p 0).wf h.gp.wf hu, ok_bind]
  rfl

/-- The ends of LOCATOR up to T: the Euclidean algorithm on P0 and g tells whether S is 0 and whether
it has an inverse modulo g (`44_decode.md` R344). -/
theorem locatorRule_ends :
    ∃ n, Poly.EuclidRuns c.gf (d.p.get 0) d.gp n ∧
      (Poly.stuckAt c.gf (Poly.euclidRem c.gf (d.p.get 0) d.gp (n + 1)) ∧
          locatorRule c d = raise (.arith .fieldInverse) ∨
        n = 1 ∧ Poly.euclidRem c.gf (d.p.get 0) d.gp 2 = [] ∧
          locatorRule c d = .ok (d.degenerate 1#2) ∨
        1 < n ∧ Poly.euclidRem c.gf (d.p.get 0) d.gp (n + 1) = [] ∧
          (Poly.euclidRem c.gf (d.p.get 0) d.gp n).length ≠ 1 ∧
          locatorRule c d = raise (.arith .modInverse) ∨
        1 < n ∧ Poly.euclidRem c.gf (d.p.get 0) d.gp (n + 1) = [] ∧
          (Poly.euclidRem c.gf (d.p.get 0) d.gp n).length = 1 ∧
          ∃ T, Poly.Locates c.gf c.code.t d.gp (d.p.get 0) T ∧
            locatorRule c d = locatorEnd c d T) := by
  have hk := h.proper
  have hg := h.gp.wf
  have hp0 := (h.p 0).wf
  have hg0 : d.gp ≠ [] := List.ne_nil_of_length_eq_add_one hgp
  by_cases hu : c.gf.invertible (d.gp.getLastD 0#16)
  case neg => exact ⟨0, .zero rfl rfl, .inl ⟨⟨hg0, hu⟩, locatorRule_of_stuck h hgp hu⟩⟩
  obtain ⟨hS, hlt, hmod⟩ := quotRem_modEq hk hp0 hg hu
  rw [locatorRule_of_invertible h hgp hu]
  by_cases hS0 : (quotRem c.gf (d.p.get 0) d.gp).2 = []
  · rw [if_pos hS0]
    exact ⟨1, euclidRuns_succ hk hp0 hg (.zero rfl rfl) hu, .inr (.inl ⟨rfl, hS0, rfl⟩)⟩
  rw [if_neg hS0]
  obtain ⟨n, hruns, hends⟩ := invmod_ends hk hS hg hg0
  have hlong (hnil : Poly.euclidRem c.gf (d.p.get 0) d.gp (n + 1) = []) : 1 < n := by
    match n with
    | 0 => exact absurd hnil hg0
    | 1 => exact absurd hnil hS0
    | n + 2 => exact Nat.le_add_left 2 n
  have hlast (hn : 1 < n) : Poly.euclidRem c.gf (quotRem c.gf (d.p.get 0) d.gp).2 d.gp n =
      Poly.euclidRem c.gf (d.p.get 0) d.gp n := by
    obtain ⟨i, rfl⟩ := Nat.exists_eq_add_one.mpr (Nat.zero_lt_of_lt hn)
    exact euclidRem_of_remainder hk hp0 hg hu i
  rw [euclidRem_of_remainder hk hp0 hg hu n] at hends
  refine ⟨n, euclidRuns_of_remainder hk hp0 hg hu hruns, ?_⟩
  rcases hends with ⟨hstuck, hr⟩ | ⟨hnil, hlen, hr⟩ | ⟨hnil, hlen, inv, hinv, -, hone, hr⟩
  · exact .inl ⟨hstuck, by rw [hr, raise_bind]⟩
  · have hn := hlong hnil
    exact .inr (.inr (.inl ⟨hn, hnil, hlast hn ▸ hlen, by rw [hr, raise_bind]⟩))
  · have hn := hlong hnil
    have hp0inv := modEq_mul_of_modEq hk hp0 hg hS hinv (Poly.wf_one hk) hmod hone
    refine .inr (.inr (.inr ⟨hn, hnil, hlast hn ▸ hlen, _,
      locates_of_inverse hk hg hu hgp hinv hp0inv, ?_⟩))
    rw [hr, ok_bind, polyMod_of_invertible hk (Poly.wf_add hinv (Poly.wf_z hk)) hg hu, ok_bind]

/-- The ends of LOCATOR from T on: T = 0, or what the key equation of τ ends in
(`44_decode.md` R344, R347). -/
theorem locatorEnd_ends (hu : c.gf.invertible (d.gp.getLastD 0#16)) {T : Poly}
    (hT : Poly.Locates c.gf c.code.t d.gp (d.p.get 0) T) :
    T = [] ∧ locatorEnd c d T = .ok (d.degenerate 2#2) ∨
      ∃ (x : Nat → Poly) (tau : Poly), x 0 = T ∧ x (c.gf.m * c.code.t - 1) = tau ∧ T ≠ [] ∧
        Poly.SquaresModulo c.gf c.code.t d.gp x ∧
        ∃ n, Poly.EuclidRuns c.gf tau d.gp n ∧
          (c.code.t / 2 + 1 < (Poly.euclidRem c.gf tau d.gp (n + 1)).length ∧
              Poly.stuckAt c.gf (Poly.euclidRem c.gf tau d.gp (n + 1)) ∧
              locatorEnd c d T = raise (.arith .fieldInverse) ∨
            ∃ gamma u0, Poly.KeyEquation c.gf c.code.t d.gp tau
                (Poly.euclidRem c.gf tau d.gp (n + 1)) gamma (Poly.euclidRem c.gf tau d.gp n) u0 ∧
              locatorEnd c d T = .ok (d.located c.gf T tau
                { r0 := Poly.euclidRem c.gf tau d.gp n,
                  r1 := Poly.euclidRem c.gf tau d.gp (n + 1), u0 := u0, u1 := gamma,
                  it := Poly.eliminations (Poly.euclidQuot c.gf tau d.gp) n })) := by
  have hk := h.proper
  have hg := h.gp.wf
  obtain ⟨-, -, ht, htMax, -⟩ := h.legal
  obtain ⟨hTwf, hTlen, -⟩ := hT
  by_cases hT0 : T = []
  · exact .inl ⟨hT0, if_pos hT0⟩
  have hlt : T.length < d.gp.length := by omega
  have hsqrt := sqrtmod_of_invertible hk c.code.t hTwf hg hu
  rw [quotRem_of_short hk hlt hu] at hsqrt
  have hsquares (j : Nat) := squares_reduced hk hg hu hTwf hlt j
  refine .inr ⟨Poly.squares c.gf d.gp T, _, rfl, rfl, hT0, fun j => ?_, ?_⟩
  · obtain ⟨hwf, hlen⟩ := hsquares j
    exact ⟨hwf, by omega, squares_modEq hk T hg hu j⟩
  obtain ⟨htau, -⟩ := hsquares (c.gf.m * c.code.t - 1)
  obtain ⟨n, hruns, hends⟩ := keyeq_ends hk htau hg ht hgp
  refine ⟨n, hruns, ?_⟩
  rw [locatorEnd, if_neg hT0, hsqrt, ok_bind]
  rcases hends with ⟨hlong, hstuck, hke⟩ | ⟨gamma, u0, hkey, hke⟩
  · exact .inl ⟨hlong, hstuck, by rw [hke, raise_bind]⟩
  · have htMax' := h.tMax
    have hsigma := representable_ok (c := c) (hkey.sigma_length_le.trans (by omega))
    exact .inr ⟨gamma, u0, hkey, by rw [hke, ok_bind, hsigma, ok_bind]; rfl⟩

end

/-! ## The command -/

/-- LOCATOR ends as in the degenerate case `why`. -/
def State.LocatesDegenerate (s : State) (why : BitVec 2) : Prop :=
  Succeeds .locator s (s.data.degenerate why)

/-- LOCATOR ends as in the general case, with T = x 0 and τ = x (m·t − 1). -/
def State.LocatesGeneral (s : State) (c : Code) (x : Nat → Poly) (ke : KeyEq) : Prop :=
  Poly.KeyEquation (c.gf s.data) c.t s.data.gp (x (c.m * c.t - 1)) ke.r1 ke.u1 ke.r0 ke.u0 ∧
    (sigmaOf (c.gf s.data) ke.r1 ke.u1).length ≤ c.t + 1 ∧
    Succeeds .locator s (s.data.located (c.gf s.data) (x 0) (x (c.m * c.t - 1)) ke)

section
variable {s : State} {c : Code} (hs : s.Runs c) (hsound : s.Sound)
  (hgp : s.data.gp.length = c.t + 1)
include hs hsound hgp

/-- The ends of LOCATOR from an invertible S on. -/
theorem locator_ends_of_locates (hu : (c.gf s.data).invertible (s.data.gp.getLastD 0#16)) {T : Poly}
    (hT : Poly.Locates (c.gf s.data) c.t s.data.gp s.data.p.r0 T)
    (hr : locatorRule (s.ctx c) s.data = locatorEnd (s.ctx c) s.data T) :
    Poly.Locates (c.gf s.data) c.t s.data.gp s.data.p.r0 [] ∧ s.LocatesDegenerate 2#2 ∨
      ∃ x : Nat → Poly, x 0 ≠ [] ∧ Poly.Locates (c.gf s.data) c.t s.data.gp s.data.p.r0 (x 0) ∧
        Poly.SquaresModulo (c.gf s.data) c.t s.data.gp x ∧
        ∃ (n : Nat) (ρ q : Nat → Poly),
          Poly.Euclid (c.gf s.data) (x (c.m * c.t - 1)) s.data.gp n ρ q ∧
          (c.t / 2 + 1 < (ρ (n + 1)).length ∧ Poly.stuckAt (c.gf s.data) (ρ (n + 1)) ∧
              Fails .locator s 6#8 1#32 ∨
            ∃ gamma u0 : Poly, s.LocatesGeneral c x
              { r0 := ρ n, r1 := ρ (n + 1), u0 := u0, u1 := gamma,
                it := Poly.eliminations q n }) := by
  have hexec := exec_locator hs
  rcases locatorEnd_ends (hs.ready hsound) hgp hu hT with
    ⟨rfl, hend⟩ | ⟨x, _, rfl, rfl, hT0, hsq, n, hruns, hends⟩
  · exact .inl ⟨hT, succeeds_of_ok hexec (hr.trans hend)⟩
  · refine .inr ⟨x, hT0, hT, hsq, n, _, _, hruns, ?_⟩
    rcases hends with ⟨hlong, hstuck, hend⟩ | ⟨gamma, u0, hkey, hend⟩
    · exact .inl ⟨hlong, hstuck, fails_of_raise hexec (hr.trans hend)⟩
    · exact .inr ⟨gamma, u0, hkey, hkey.sigma_length_le,
        succeeds_of_ok hexec (hr.trans hend)⟩

/-- Over a field LOCATOR ends by whether S is 0 and whether it has an inverse modulo g. -/
theorem locator_ends_of_isField (hfield : (c.gf s.data).isField) :
    Poly.modEq (c.gf s.data) s.data.gp s.data.p.r0 [] ∧ s.LocatesDegenerate 1#2 ∨
      ¬Poly.modEq (c.gf s.data) s.data.gp s.data.p.r0 [] ∧
        (¬Poly.invertibleMod (c.gf s.data) s.data.gp s.data.p.r0 ∧ Fails .locator s 6#8 2#32 ∨
          Poly.Locates (c.gf s.data) c.t s.data.gp s.data.p.r0 [] ∧ s.LocatesDegenerate 2#2 ∨
          ∃ (x : Nat → Poly) (ke : KeyEq), x 0 ≠ [] ∧
            Poly.Locates (c.gf s.data) c.t s.data.gp s.data.p.r0 (x 0) ∧
            Poly.SquaresModulo (c.gf s.data) c.t s.data.gp x ∧ s.LocatesGeneral c x ke) := by
  have hready := hs.ready hsound
  have hk : (c.gf s.data).Proper := hready.proper
  have hg : Poly.wf c.m s.data.gp := hready.gp.wf
  have hp0 : Poly.wf c.m s.data.p.r0 := (hready.p 0).wf
  have hg0 : s.data.gp ≠ [] := List.ne_nil_of_length_eq_add_one hgp
  have hexec := exec_locator hs
  have hu : (c.gf s.data).invertible (s.data.gp.getLastD 0#16) :=
    hfield _ (Poly.lead_ne_zero hg.1 hg0) (Poly.lead_lt hg)
  obtain ⟨n, hruns, hends⟩ := locatorRule_ends hready hgp
  have hnonzero (hn : 1 < n) : ¬Poly.modEq (c.gf s.data) s.data.gp s.data.p.r0 [] := fun h =>
    not_invertible_lead_of_nil (remainder_eq_nil hk hp0 hg hu h) (hruns.unit 1 hn)
  rcases hends with ⟨hstuck, -⟩ | ⟨-, hnil, hr⟩ | ⟨hn, hnil, hlast, hr⟩ | ⟨hn, -, -, T, hT, hr⟩
  · exact absurd hstuck (not_stuckAt_of_isField hfield (wf_euclidRem hk hp0 hg (n + 1)))
  · obtain ⟨-, -, hmod⟩ := quotRem_modEq hk hp0 hg hu
    exact .inl ⟨hnil ▸ hmod, succeeds_of_ok hexec hr⟩
  · exact .inr ⟨hnonzero hn, .inl
      ⟨not_invertibleMod_of_euclid hk hp0 hg hfield hg0 hruns hnil hlast,
        fails_of_raise hexec hr⟩⟩
  · refine .inr ⟨hnonzero hn, .inr ?_⟩
    refine (locator_ends_of_locates hs hsound hgp hu hT hr).imp_right ?_
    rintro ⟨x, hx0, hx, hsq, n', ρ, q, hruns', hends'⟩
    rcases hends' with ⟨-, hstuck, -⟩ | ⟨gamma, u0, hgeneral⟩
    · exact absurd hstuck (not_stuckAt_of_isField hfield (hruns'.wf_divisor hg))
    · exact ⟨x, _, hx0, hx, hsq, hgeneral⟩

end

/-- Settles O49: the two Euclidean algorithms decide the end, and over a field the end says whether S
is 0, whether it has an inverse, and whether T is 0. -/
theorem locatorCases : Obligations.LocatorCases := by
  intro s c hs hsound hgp k g p0 z degenerate locates squares tau sigma general
  have hready := hs.ready hsound
  have hk : k.Proper := hready.proper
  have hg : Poly.wf k.m g := hready.gp.wf
  have hp0 : Poly.wf k.m p0 := (hready.p 0).wf
  have hexec := exec_locator hs
  refine ⟨fun hfield => ?_, ?_⟩
  · have hg0 : g ≠ [] := List.ne_nil_of_length_eq_add_one hgp
    have hu : k.invertible (g.getLastD 0#16) :=
      hfield _ (Poly.lead_ne_zero hg.1 hg0) (Poly.lead_lt hg)
    have hlen : 1 < g.length := by
      obtain ⟨-, -, ht, -⟩ := hready.legal
      exact (Nat.lt_succ_of_lt ht).trans_eq hgp.symm
    have hnone := not_invertibleMod_of_modEq_nil hk hp0 hg hu hlen
    have hofz (hz : Poly.modEq k g (Poly.mul k p0 z) [1#16]) : Poly.invertibleMod k g p0 :=
      ⟨z, Poly.wf_z hk, hz⟩
    rcases locator_ends_of_isField hs hsound hgp hfield with ⟨hzero, hend⟩ | ⟨hzero, hends⟩
    · exact ⟨fun _ => hend, fun hz => absurd (hofz hz) (hnone hzero),
        fun hinv => absurd hinv (hnone hzero), fun h => absurd hzero h⟩
    refine ⟨fun h => absurd h hzero, ?_⟩
    rcases hends with ⟨hnot, hend⟩ | ⟨hT, hend⟩ | ⟨x, ke, hx0, hx, hsq, hend⟩
    · exact ⟨fun hz => absurd (hofz hz) hnot, fun hinv => absurd hinv hnot, fun _ _ => hend⟩
    · exact ⟨fun _ => hend, fun _ hz => absurd hT.2.2 hz, fun _ h => absurd (hT.invertibleMod hk) h⟩
    · exact ⟨fun hz => absurd (hx.eq_nil hk hg hu hgp hz) hx0,
        fun _ _ => ⟨x, _, _, _, _, _, hx, hsq, hend⟩, fun _ h => absurd (hx.invertibleMod hk) h⟩
  · obtain ⟨n, hruns, hends⟩ := locatorRule_ends hready hgp
    refine ⟨n, _, _, hruns, ?_⟩
    rcases hends with ⟨hstuck, hr⟩ | ⟨hn, hnil, hr⟩ | ⟨hn, hnil, hlast, hr⟩ |
      ⟨hn, hnil, hlast, T, hT, hr⟩
    · exact .inl ⟨hstuck, fails_of_raise hexec hr⟩
    · exact .inr (.inl ⟨hn, hnil, succeeds_of_ok hexec hr⟩)
    · exact .inr (.inr (.inl ⟨hn, hnil, hlast, fails_of_raise hexec hr⟩))
    · exact .inr (.inr (.inr ⟨hn, hnil, hlast,
        locator_ends_of_locates hs hsound hgp (hruns.unit 0 (Nat.zero_lt_of_lt hn)) hT hr⟩))

end Sys2Proof.Machine
end

section
/-! SUPPORT. The sub-steps of DECODE (`44_decode.md` R354): each is the rule of a decode command, so
the six commands one after the other and DECODE compute the same data. -/

namespace Sys2Proof.Machine

/-! ## The commands of the sub-steps -/

/-- The command of sub-step n + 1 of DECODE (`10_state.md` R38). -/
def subInstr : Nat → Instr
  | 0 => .permc
  | 1 => .synd
  | 2 => .locator
  | 3 => .roots
  | 4 => .extract
  | 5 => .unscr
  | _ => .nop

/-- The rule of that command. -/
def subRule : Nat → Ctx → Data → Run Data
  | 0 => permcRule
  | 1 => syndRule
  | 2 => locatorRule
  | 3 => rootsRule
  | 4 => extractRule
  | 5 => unscrRule
  | _ => fun _ d => .ok d

/-- The rules of `cnt` sub-steps, from sub-step n + 1 on. -/
def subRules (c : Ctx) : Nat → Nat → Data → Run Data
  | 0, _, d => .ok d
  | cnt + 1, n, d => do
    let d' ← subRule n c d
    subRules c cnt (n + 1) d'

theorem exec_subInstr {n : Nat} (hn : n < 6) {s : State} {c : Code} (hs : s.Runs c) :
    exec (subInstr n) s = s.finish (subRule n (s.ctx c) s.data) := by
  match n, hn with
  | 0, _ => exact exec_permc hs
  | 1, _ => exact exec_synd hs
  | 2, _ => exact exec_locator hs
  | 3, _ => exact exec_roots hs
  | 4, _ => exact exec_extract hs
  | 5, _ => exact exec_unscr hs

theorem exec_decode {s : State} {c : Code} (hs : s.Runs c) :
    exec .decode s = s.finish (decodeSteps (s.ctx c) 6 0 s.data) := by
  obtain ⟨⟨-, hsub⟩, -⟩ := id hs
  rw [exec, execDecode, runCommand_of_runs hs, hsub]

section
variable {c : Ctx} {d : Data}

theorem subRule_writesOnly (n : Nat) :
    Ensures (subRule n c d) (d.WritesOnly (DataPart.WrittenBy .decode)) := by
  match n with
  | 0 => exact permcRule_writesOnly c d (.inr (.inr rfl))
  | 1 => exact syndRule_writesOnly c d
  | 2 => exact locatorRule_writesOnly c d (.inr rfl) (.inr (.inr rfl))
  | 3 => exact rootsRule_writesOnly c d (.inr rfl) (.inr (.inr rfl)) (.inr rfl)
  | 4 => exact extractRule_writesOnly c d (.inr rfl)
  | 5 => exact unscrRule_writesOnly c d (.inr rfl)
  | _ + 6 => exact .ok (.refl d)

theorem Ready.subRule {fit : Prop} {hw : Synth} (h : Ready fit hw c d) (n : Nat) :
    Ensures (subRule n c d) (Ready fit hw c) := fun d' hd' => by
  have hgood : Ensures (Machine.subRule n c d) (Data.Good fit hw) := by
    match n with
    | 0 => exact h.permcRule
    | 1 => exact h.syndRule
    | 2 => exact h.locatorRule
    | 3 => exact h.rootsRule
    | 4 => exact h.extractRule
    | 5 => exact h.unscrRule
    | _ + 6 => exact .ok h.good
  have hsame : d'.cfg = d.cfg := subRule_writesOnly n d' hd' .cfg id
  exact ⟨hgood d' hd', hsame.trans h.cfg, h.gf, h.monic, h.tMax⟩

/-- A sub-step is the rule of its command, once DECODE's Reads are there. -/
theorem decodeStep_eq (n : Nat) (hread : n = 0 → readDecode c d = .ok ()) :
    decodeStep (n + 1) c d = inSubStep (n + 1) (subRule n c d) := by
  match n with
  | 0 =>
    change inSubStep 1 (readDecode c d >>= fun _ => permcRule c d) = _
    rw [hread rfl, ok_bind]
    rfl
  | 1 | 2 | 3 | 4 | 5 => rfl
  | _ + 6 => rfl

theorem decodeSteps_eq_ok {cnt n : Nat} {d' : Data} (hread : n = 0 → readDecode c d = .ok ()) :
    decodeSteps c cnt n d = .ok d' ↔ subRules c cnt n d = .ok d' := by
  induction cnt generalizing n d with
  | zero => exact Iff.rfl
  | succ cnt ih =>
    rw [decodeSteps, subRules, bind_eq_ok, bind_eq_ok, decodeStep_eq n hread]
    exact exists_congr fun d1 => and_congr inSubStep_eq_ok (ih fun h => nomatch h)

/-- DECODE stops at the first sub-step whose rule raises an error, with its number. -/
theorem decodeSteps_of_raised {cnt rest n sub : Nat} {d' : Data} {e : CmdError}
    (hread : n = 0 → readDecode c d = .ok ()) (hrules : subRules c cnt n d = .ok d')
    (hraised : subRule (n + cnt) c d' = .error (.raised sub e)) :
    decodeSteps c (cnt + rest + 1) n d = .error (.raised (n + cnt + 1) e) := by
  induction cnt generalizing n d with
  | zero =>
    obtain rfl : d = d' := Except.ok.inj hrules
    rw [Nat.zero_add, decodeSteps, decodeStep_eq n hread]
    rw [Nat.add_zero] at hraised ⊢
    rw [hraised]
    rfl
  | succ cnt ih =>
    obtain ⟨d1, hd1, hrules⟩ := bind_eq_ok.mp hrules
    rw [← Nat.succ_add_eq_add_succ n cnt] at hraised ⊢
    rw [Nat.succ_add cnt rest, decodeSteps, decodeStep_eq n hread, inSubStep_eq_ok.mpr hd1, ok_bind]
    exact ih (n := n + 1) (fun h => nomatch h) hrules hraised

end

/-! ## The commands one after the other -/

section
variable {s t : State} {c : Code}

theorem runAllOk_cons {i : Instr} {is : List Instr} {r : Run Data}
    (hexec : exec i s = s.finish r) (herr : s.err = false) :
    runAllOk (i :: is) s = some t ↔ ∃ d, r = .ok d ∧ runAllOk is (s.commit d) = some t := by
  rw [runAllOk, hexec]
  match r with
  | .ok d => simp [herr]
  | .error (.raised n e) => simp
  | .error (.unwritten id e) => simp

theorem State.Runs.commit (hs : s.Runs c) {d : Data}
    (hd : s.data.WritesOnly (DataPart.WrittenBy .decode) d) :
    (s.commit d).Runs c ∧ (s.commit d).ctx c = s.ctx c := by
  obtain ⟨-, hcfg, hfmod⟩ := hs
  have hcfg' : d.cfg = s.data.cfg := hd .cfg id
  have hfmod' : d.fmod = s.data.fmod := hd .fmod id
  refine ⟨⟨⟨rfl, rfl⟩, hcfg'.trans hcfg, by rw [State.commit_data, hfmod', hfmod]⟩, ?_⟩
  rw [State.ctx, Code.gf, State.commit_data, hfmod']
  rfl

/-- Sub-step commands that succeed compute what their rules do. -/
theorem subRules_of_runAllOk {cnt n : Nat} (hs : s.Runs c) (herr : s.err = false) (hn : n + cnt ≤ 6)
    (h : runAllOk ((List.range' n cnt).map subInstr) s = some t) :
    subRules (s.ctx c) cnt n s.data = .ok t.data ∧ t.Runs c ∧ t.ctx c = s.ctx c ∧ t.err = false := by
  induction cnt generalizing n s with
  | zero =>
    obtain rfl : s = t := Option.some.inj h
    exact ⟨rfl, hs, rfl, herr⟩
  | succ cnt ih =>
    rw [List.range'_succ, List.map_cons,
      runAllOk_cons (exec_subInstr (by omega) hs) herr] at h
    obtain ⟨d, hd, h⟩ := h
    obtain ⟨hruns, hctx⟩ := hs.commit (subRule_writesOnly n d hd)
    have hrest := ih (n := n + 1) hruns herr (by omega) h
    rw [hctx] at hrest
    obtain ⟨hrules, hrest⟩ := hrest
    exact ⟨bind_eq_ok.mpr ⟨d, hd, hrules⟩, hrest⟩

/-- Sub-step commands succeed when their rules answer. -/
theorem runAllOk_of_subRules {cnt n : Nat} (hs : s.Runs c) (herr : s.err = false) (hn : n + cnt ≤ 6)
    (h : Answers (subRules (s.ctx c) cnt n s.data)) :
    ∃ t, runAllOk ((List.range' n cnt).map subInstr) s = some t := by
  induction cnt generalizing n s with
  | zero => exact ⟨s, rfl⟩
  | succ cnt ih =>
    obtain ⟨d, hd, h⟩ := answers_bind.mp h
    obtain ⟨hruns, hctx⟩ := hs.commit (subRule_writesOnly n d hd)
    obtain ⟨t, ht⟩ := ih (n := n + 1) hruns herr (by omega) (by rw [hctx]; exact h)
    refine ⟨t, ?_⟩
    rw [List.range'_succ, List.map_cons, runAllOk_cons (exec_subInstr (by omega) hs) herr]
    exact ⟨d, hd, ht⟩

/-- What a failure says about the rule. -/
theorem Fails.raised {i : Instr} {r : Run Data} {code : BitVec 8} {info : Word}
    (hexec : exec i s = s.finish r) (herr : s.err = false) (h : Fails i s code info) :
    ∃ n e, r = .error (.raised n e) ∧ e.code = code ∧ e.info = info := by
  rcases finish_next (hexec.symm.trans h) with ⟨d, -, hd⟩ | ⟨n, e, he, ht⟩
  · exact absurd ((congrArg State.err hd).trans herr) Bool.noConfusion
  · exact ⟨n, e, he, (congrArg (·.errcode.code) ht).symm, (congrArg State.errinfo ht).symm⟩

end

end Sys2Proof.Machine
end

section
/-! SUPPORT. The Reads of DECODE (`00_scope.md` R13; `44_decode.md` R354): when all of them are
written, no sub-step meets an unwritten element, and sub-steps that succeed have read all of them. -/

namespace Sys2Proof.Machine

/-! ## The Reads -/

/-- What the sub-steps after SYND's read: all of it is written. -/
structure Data.Prepared (c : Code) (d : Data) : Prop where
  word : ∀ i, i < c.n → (d.mems.w.read i).isSome = true
  support : ∀ i, i < c.n → (d.mems.l.read i).isSome = true
  message : ∀ r, r < c.k → ∃ i, d.mems.swp.read (c.mt + r) = some i ∧
    (d.mems.w.read i.toNat).isSome = true
  unscrambler : ∀ e, e < c.k * c.k → (d.mems.sinv.read e).isSome = true

/-- L, SWP and SINV are the same, and W is written in the same places. -/
structure Data.SameReads (d d' : Data) : Prop where
  l : d'.mems.l = d.mems.l
  swp : d'.mems.swp = d.mems.swp
  sinv : d'.mems.sinv = d.mems.sinv
  w : ∀ i, (d'.mems.w.read i).isSome = true ↔ (d.mems.w.read i).isSome = true

theorem Data.SameReads.prepared {d d' : Data} (h : d.SameReads d') {c : Code} :
    d'.Prepared c ↔ d.Prepared c := by
  obtain ⟨hl, hswp, hsinv, hw⟩ := h
  refine ⟨fun ⟨h1, h2, h3, h4⟩ => ?_, fun ⟨h1, h2, h3, h4⟩ => ?_⟩
  · simp only [hl, hswp, hsinv, hw] at h1 h2 h3 h4
    exact ⟨h1, h2, h3, h4⟩
  · refine ⟨?_, ?_, ?_, ?_⟩ <;> simpa only [hl, hswp, hsinv, hw]

theorem Memory.isSome_read_writeRange {α : Type} (m : Memory α) (vs : List α) (i : Nat) :
    ((m.writeRange 0 vs).read i).isSome = true ↔ i < vs.length ∨ (m.read i).isSome = true := by
  by_cases hi : i < vs.length
  · rw [m.read_writeRange_of_getElem? (List.getElem?_eq_getElem hi)]
    exact iff_of_true rfl (.inl hi)
  · rw [m.read_writeRange_of_length_le (Nat.le_of_not_lt hi)]
    exact (or_iff_right hi).symm

section
variable {c : Ctx} {d d' : Data}

theorem readPermuted_eq_ok {w : List Bool} :
    readPermuted c d = .ok w ↔ ∃ (ix : Nat → Elem) (b : Nat → Bool),
      (∀ j, j < c.code.n →
        d.mems.pidx.read j = some (ix j) ∧ d.mems.c.read (ix j).toNat = some (b j)) ∧
      w = (List.range c.code.n).map b := by
  refine ⟨fun h => ?_, fun ⟨ix, b, h, hw⟩ => hw ▸ readPermuted_ok h⟩
  have hwritten : ∀ j, j < c.code.n → ∃ (i : Elem) (v : Bool),
      d.mems.pidx.read j = some i ∧ d.mems.c.read i.toNat = some v := fun j hj => by
    obtain ⟨i, hi, hc⟩ := answers_readPermuted.mp ⟨w, h⟩ j hj
    obtain ⟨v, hv⟩ := Option.isSome_iff_exists.mp hc
    exact ⟨i, v, hi, hv⟩
  choose! ix b hix hb using hwritten
  have hread := fun j hj => And.intro (hix j hj) (hb j hj)
  exact ⟨ix, b, hread, Except.ok.inj (h.symm.trans (readPermuted_ok hread))⟩

/-- W after PERMC's step is written below n, and else where it was before. -/
theorem isSome_read_permuted {w : List Bool} (hw : readPermuted c d = .ok w) (i : Nat) :
    ((d.fillBit .W w).mems.w.read i).isSome = true ↔
      i < c.code.n ∨ (d.mems.w.read i).isSome = true := by
  obtain ⟨hlen, -⟩ := collect_inv hw
  rw [← hlen]
  exact Memory.isSome_read_writeRange _ w i

/-- DECODE's Reads answer when PERMC's do, and the others' after it. -/
theorem readDecode_eq_ok :
    readDecode c d = .ok () ↔ ∃ w, readPermuted c d = .ok w ∧
      Answers (readSyndromeParts c (d.fillBit .W w)) ∧ (d.fillBit .W w).Prepared c.code := by
  have hunit : readDecode c d = .ok () ↔ Answers (readDecode c d) :=
    ⟨fun h => ⟨_, h⟩, fun ⟨_, h⟩ => h⟩
  rw [hunit, readDecode, answers_bind]
  refine exists_congr fun w => and_congr_right fun hw => ?_
  have hword (i : Nat) (hi : i < c.code.n) := (isSome_read_permuted hw i).mpr (.inl hi)
  constructor
  · intro h
    obtain ⟨parts, hparts, h⟩ := answers_bind.mp h
    obtain ⟨l, hl, h⟩ := answers_bind.mp h
    obtain ⟨msg, hmsg, h⟩ := answers_bind.mp h
    have hsinv := answers_collect.mp (answers_bind_ok.mp h)
    exact ⟨⟨parts, hparts⟩, hword, answers_readSupport.mp ⟨l, hl⟩, answers_readMessage.mp ⟨msg, hmsg⟩,
      fun e he => answers_readBit.mp (hsinv e he)⟩
  · rintro ⟨⟨parts, hparts⟩, -, hl, hmsg, hsinv⟩
    obtain ⟨l, hl⟩ := answers_readSupport.mpr hl
    obtain ⟨msg, hmsg⟩ := answers_readMessage.mpr hmsg
    refine answers_bind.mpr ⟨parts, hparts, answers_bind.mpr ⟨l, hl, ?_⟩⟩
    refine answers_bind.mpr ⟨msg, hmsg, ?_⟩
    exact answers_bind_ok.mpr (answers_collect.mpr fun e he => answers_readBit.mpr (hsinv e he))

/-- The elements the obligations name are the ones the first sub-step reads. -/
theorem decodeReadsWritten_iff : d.DecodeReadsWritten c.code ↔ readDecode c d = .ok () := by
  rw [readDecode_eq_ok]
  constructor
  · rintro ⟨hperm, hl, hswp, hsinv⟩
    choose! ix b hix hb hpst using hperm
    have hread := readPermuted_ok (c := c) fun j hj => And.intro (hix j hj) (hb j hj)
    have hw := isSome_read_permuted hread
    refine ⟨_, hread, answers_readSyndromeParts.mpr fun j hj => ⟨b j, ?_, hpst j hj⟩,
      fun i hi => (hw i).mpr (.inl hi), hl, fun r hr => ?_, hsinv⟩
    · exact (Memory.read_writeRange_map _ b _ j).trans (if_pos hj)
    · obtain ⟨i, hi, hwritten⟩ := hswp r hr
      exact ⟨i, hi, (hw _).mpr hwritten⟩
  · rintro ⟨w, hread, hparts, -, hl, hmsg, hsinv⟩
    have hw := isSome_read_permuted hread
    obtain ⟨ix, b, hb, rfl⟩ := readPermuted_eq_ok.mp hread
    refine ⟨fun j hj => ⟨ix j, b j, (hb j hj).1, (hb j hj).2, ?_⟩, hl, fun r hr => ?_, hsinv⟩
    · obtain ⟨v, hv, hpst⟩ := answers_readSyndromeParts.mp hparts j hj
      have hbj := (Memory.read_writeRange_map d.mems.w b c.code.n j).trans (if_pos hj)
      obtain rfl : v = b j := Option.some.inj (hv.symm.trans hbj)
      exact hpst
    · obtain ⟨i, hi, hwritten⟩ := hmsg r hr
      exact ⟨i, hi, (hw _).mp hwritten⟩

/-! ## What the sub-steps keep written -/

theorem syndRule_sameReads : Ensures (syndRule c d) d.SameReads :=
  .bind (.any _) fun _ _ => .ok ⟨rfl, rfl, rfl, fun _ => Iff.rfl⟩

theorem locatorRule_sameReads : Ensures (locatorRule c d) d.SameReads := fun d' hd' => by
  have hkeep := locatorRule_writesOnly (W := fun x => x = .degen ∨ x = .iter) c d (.inl rfl)
    (.inr rfl) d' hd'
  have hw : d'.mems.w = d.mems.w := hkeep (.bit .W) (by simp)
  exact ⟨hkeep (.elem .L) (by simp), hkeep (.elem .SWP) (by simp), hkeep (.bit .SINV) (by simp),
    fun i => by rw [hw]⟩

/-- ROOTS rewrites W where it has read it. -/
theorem rootsRule_sameReads : Ensures (rootsRule c d) d.SameReads := fun d' hd' => by
  obtain ⟨ews, hews, hd'⟩ := bind_eq_ok.mp hd'
  obtain rfl := Except.ok.inj hd'
  obtain ⟨hlen, -⟩ := collect_inv hews
  refine ⟨rfl, rfl, rfl, fun i => (Memory.isSome_read_writeRange _ _ i).trans
    (or_iff_right_of_imp fun hi => ?_)⟩
  rw [List.length_map, hlen] at hi
  exact (answers_rootAt.mp (answers_collect.mp ⟨ews, hews⟩ i hi)).2

theorem permcRule_inv (h : permcRule c d = .ok d') :
    ∃ w, readPermuted c d = .ok w ∧ d' = d.fillBit .W w := by
  obtain ⟨w, hw, h⟩ := bind_eq_ok.mp h
  split at h
  · cases h
  · exact ⟨w, hw, (Except.ok.inj h).symm⟩

theorem answers_syndRule : Answers (syndRule c d) ↔ Answers (readSyndromeParts c d) :=
  answers_bind_ok

theorem answers_rootsRule : Answers (rootsRule c d) ↔ ∀ i, i < c.code.n →
    (d.mems.l.read i).isSome = true ∧ (d.mems.w.read i).isSome = true := by
  rw [rootsRule, answers_bind_ok, answers_collect]
  exact forall₂_congr fun i _ => answers_rootAt

theorem answers_extractRule : Answers (extractRule c d) ↔ ∀ r, r < c.code.k →
    ∃ i, d.mems.swp.read (c.code.mt + r) = some i ∧ (d.mems.w.read i.toNat).isSome = true := by
  rw [extractRule, answers_bind_ok, answers_readMessage]

theorem answers_unscrRule : Answers (unscrRule c d) ↔ ∀ r, r < c.code.k → ∀ j, j < c.code.k →
    (d.mems.mc.read r).isSome = true ∧ (d.mems.sinv.read (r * c.code.k + j)).isSome = true := by
  rw [unscrRule, answers_bind_ok, answers_collect]
  simp only [answers_unscrambledBit]
  exact ⟨fun h r hr j hj => h j hj r hr, fun h j hj r hr => h r hr j hj⟩

/-- EXTRACT writes MC below k and keeps SINV. -/
theorem extractRule_keeps : Ensures (extractRule c d) fun d' =>
    (∀ r, r < c.code.k → (d'.mems.mc.read r).isSome = true) ∧ d'.mems.sinv = d.mems.sinv := by
  refine .bind (.collect fun _ => .any _) fun mc ⟨hlen, _⟩ => .ok ⟨fun r hr => ?_, rfl⟩
  exact (Memory.isSome_read_writeRange _ mc r).mpr (.inl (hr.trans_eq hlen.symm))

/-- The unscrambler's k² bits are those UNSCR reads, row by row. -/
theorem forall_cell_iff {k : Nat} {P : Nat → Prop} :
    (∀ e, e < k * k → P e) ↔ ∀ r, r < k → ∀ j, j < k → P (r * k + j) := by
  refine ⟨fun h r hr j hj => h _ ?_, fun h e he => ?_⟩
  · calc r * k + j < r * k + k := by omega
      _ = (r + 1) * k := (Nat.succ_mul r k).symm
      _ ≤ k * k := Nat.mul_le_mul_right k hr
  · have hk : 0 < k := Nat.pos_of_mul_pos_left (Nat.zero_lt_of_lt he)
    have := h (e / k) (Nat.div_lt_of_lt_mul he) (e % k) (Nat.mod_lt e hk)
    rwa [Nat.div_add_mod'] at this

/-- Sub-steps that succeed have read what DECODE reads. -/
theorem readDecode_of_subRules {d6 : Data} (h : subRules c 6 0 d = .ok d6) :
    readDecode c d = .ok () := by
  obtain ⟨d1, h0, h⟩ := bind_eq_ok.mp h
  obtain ⟨d2, h1, h⟩ := bind_eq_ok.mp h
  obtain ⟨d3, h2, h⟩ := bind_eq_ok.mp h
  obtain ⟨d4, h3, h⟩ := bind_eq_ok.mp h
  obtain ⟨d5, h4, h⟩ := bind_eq_ok.mp h
  obtain ⟨d6, h5, -⟩ := bind_eq_ok.mp h
  obtain ⟨w, hw, rfl⟩ := permcRule_inv h0
  have hroots := answers_rootsRule.mp ⟨d4, h3⟩
  have hmessage := answers_extractRule.mp ⟨d5, h4⟩
  have hunscr := answers_unscrRule.mp ⟨d6, h5⟩
  have hsame2 := syndRule_sameReads d2 h1
  have hsame3 := locatorRule_sameReads d3 h2
  have hsame4 := rootsRule_sameReads d4 h3
  obtain ⟨-, hsinv⟩ := extractRule_keeps d5 h4
  have hprepared : d4.Prepared c.code :=
    ⟨fun i hi => (hsame4.w i).mpr (hroots i hi).2, fun i hi => hsame4.l ▸ (hroots i hi).1, hmessage,
      forall_cell_iff.mpr fun r hr j hj => hsinv ▸ (hunscr r hr j hj).2⟩
  exact readDecode_eq_ok.mpr ⟨w, hw, answers_syndRule.mp ⟨d2, h1⟩,
    hsame2.prepared.mp (hsame3.prepared.mp (hsame4.prepared.mp hprepared))⟩

/-- What is written before sub-step n + 1, once DECODE's Reads are. -/
def Data.ReadyFor (c : Ctx) : Nat → Data → Prop
  | 0, d => readDecode c d = .ok ()
  | 1, d => Answers (readSyndromeParts c d) ∧ d.Prepared c.code
  | 2, d | 3, d | 4, d => d.Prepared c.code
  | 5, d => Answers (unscrRule c d)
  | _, _ => True

theorem Data.ReadyFor.next {n : Nat} (h : d.ReadyFor c n) :
    Ensures (subRule n c d) (Data.ReadyFor c (n + 1)) := fun d' hd' => by
  match n with
  | 0 =>
    obtain ⟨w, hw, rfl⟩ := permcRule_inv hd'
    obtain ⟨w', hw', hready⟩ := readDecode_eq_ok.mp h
    obtain rfl := Except.ok.inj (hw.symm.trans hw')
    exact hready
  | 1 => exact (syndRule_sameReads d' hd').prepared.mpr h.2
  | 2 => exact (locatorRule_sameReads d' hd').prepared.mpr h
  | 3 => exact (rootsRule_sameReads d' hd').prepared.mpr h
  | 4 =>
    obtain ⟨hmc, hsinv⟩ := extractRule_keeps d' hd'
    refine answers_unscrRule.mpr fun r hr j hj => ⟨hmc r hr, ?_⟩
    rw [hsinv]
    exact forall_cell_iff.mp h.unscrambler r hr j hj
  | 5 | _ + 6 => trivial

/-- Of the sub-steps whose Reads are written, only PERMC's and LOCATOR's can fail. -/
theorem Data.ReadyFor.answers {n : Nat} (h : d.ReadyFor c n) (h0 : n ≠ 0) (h2 : n ≠ 2) :
    Answers (subRule n c d) := by
  match n with
  | 1 => exact answers_syndRule.mpr h.1
  | 3 => exact answers_rootsRule.mpr fun i hi => ⟨h.support i hi, h.word i hi⟩
  | 4 => exact answers_extractRule.mpr h.message
  | 5 => exact h
  | _ + 6 => exact .ok d

end

end Sys2Proof.Machine
end

section
/-! SUPPORT. Which errors the sub-steps of DECODE stop with: the law of each way of building a rule,
the arithmetic, then LOCATOR and the sub-steps. -/

namespace Sys2Proof.Machine

/-! ## The ways of building a rule -/

section
variable {α β : Type} {E E' : Stop → Prop}

/-- When the part of a rule stops, it stops with one of E. -/
def StopsOnly (E : Stop → Prop) (r : Run α) : Prop := ∀ stop, r = .error stop → E stop

theorem StopsOnly.ok (a : α) : StopsOnly E (.ok a : Run α) := fun _ h => nomatch h

theorem StopsOnly.error {stop : Stop} (h : E stop) : StopsOnly E (.error stop : Run α) :=
  fun _ h' => Except.error.inj h' ▸ h

theorem StopsOnly.of_answers {r : Run α} (h : Answers r) : StopsOnly E r := by
  obtain ⟨a, rfl⟩ := h
  exact .ok a

theorem StopsOnly.mono {r : Run α} (h : StopsOnly E r) (hE : ∀ stop, E stop → E' stop) :
    StopsOnly E' r := fun stop hr => hE stop (h stop hr)

theorem StopsOnly.bind {P : α → Prop} {x : Run α} {f : α → Run β} (hx : StopsOnly E x)
    (hP : Ensures x P) (hf : ∀ a, P a → StopsOnly E (f a)) : StopsOnly E (x >>= f) :=
  fun stop h => by
    rcases bind_eq_error.mp h with h | ⟨a, ha, h⟩
    · exact hx stop h
    · exact hf a (hP a ha) stop h

/-- What follows, whatever the value. -/
theorem StopsOnly.seq {x : Run α} {f : α → Run β} (hx : StopsOnly E x)
    (hf : ∀ a, StopsOnly E (f a)) : StopsOnly E (x >>= f) :=
  hx.bind (.any x) fun a _ => hf a

/-- A sub-step stops as its rule does, when E does not tell sub-step numbers apart. -/
theorem StopsOnly.inSubStep {r : Run α} (h : StopsOnly E r)
    (hE : ∀ sub n e, E (.raised sub e) → E (.raised n e)) (n : Nat) :
    StopsOnly E (inSubStep n r) := fun stop hs => by
  unfold Machine.inSubStep at hs
  split at hs
  · next sub e =>
    cases hs
    exact hE sub n e (h _ rfl)
  · exact h stop hs

/-- The part of a rule that stops with nothing answers. -/
theorem StopsOnly.answers {r : Run α} (h : StopsOnly (fun _ => False) r) : Answers r := by
  cases r with
  | ok a => exact .ok a
  | error stop => exact (h stop rfl).elim

/-- The stop is an error, and no fault. -/
def Stop.IsError (stop : Stop) : Prop := ∃ sub e, stop = .raised sub e

/-- The stop is an ARITH error. -/
def Stop.IsArith (stop : Stop) : Prop := ∃ why, stop = .raised 0 (.arith why)

/-- The stop is no OVERFLOW. -/
def Stop.NotOverflow (stop : Stop) : Prop := ∀ sub e, stop = .raised sub e → e.code ≠ 5#8

theorem StopsOnly.raise (e : CmdError) : StopsOnly Stop.IsError (Machine.raise e : Run α) :=
  .error ⟨0, e, rfl⟩

theorem StopsOnly.arith (why : ArithFault) :
    StopsOnly Stop.IsArith (Machine.raise (.arith why) : Run α) := .error ⟨why, rfl⟩

theorem StopsOnly.notOverflow {e : CmdError} (h : e.code ≠ 5#8) :
    StopsOnly Stop.NotOverflow (Machine.raise e : Run α) := .error fun _ _ he => by
  cases he
  exact h

end

/-! ## Arithmetic (`41_field.md` R232; `42_poly.md` R262–R264; `44_decode.md` R345) -/

section
variable (k : GF)

theorem GF.inv_stops (a : Elem) : StopsOnly Stop.IsArith (k.inv a) := by
  unfold GF.inv
  split
  · exact .ok _
  · exact .arith _

theorem divmod_stops (a b : Poly) : StopsOnly Stop.IsArith (divmod k a b) := by
  unfold divmod
  split
  · exact .arith _
  · exact .seq (k.inv_stops _) fun _ => .ok _

theorem polyMod_stops (a g : Poly) : StopsOnly Stop.IsArith (polyMod k a g) :=
  .seq (divmod_stops k a g) fun _ => .ok _

theorem invLoop_stops (fuel : Nat) (r0 r1 s0 s1 : Poly) :
    StopsOnly Stop.IsArith (invLoop k fuel r0 r1 s0 s1) := by
  induction fuel generalizing r0 r1 s0 s1 with
  | zero => exact .ok _
  | succ fuel ih =>
    unfold invLoop
    split
    · exact .ok _
    · exact .seq (divmod_stops k r0 r1) fun _ => ih _ _ _ _

theorem invmod_stops (a g : Poly) : StopsOnly Stop.IsArith (invmod k a g) := by
  refine .seq (polyMod_stops k a g) fun r1 => .seq (invLoop_stops k _ _ _ _ _) fun rs => ?_
  split
  · exact .arith _
  · exact .seq (k.inv_stops _) fun _ => polyMod_stops k _ g

theorem squareLoop_stops (g : Poly) (j : Nat) (x : Poly) :
    StopsOnly Stop.IsArith (squareLoop k g j x) := by
  induction j generalizing x with
  | zero => exact .ok _
  | succ j ih => exact .seq (polyMod_stops k _ g) ih

theorem sqrtmod_stops (t : Nat) (a g : Poly) : StopsOnly Stop.IsArith (sqrtmod k t a g) :=
  .seq (polyMod_stops k a g) fun _ => squareLoop_stops k g _ _

theorem eliminate_stops (fuel : Nat) (s : KeyEq) : StopsOnly Stop.IsArith (eliminate k fuel s) := by
  induction fuel generalizing s with
  | zero => exact .ok _
  | succ fuel ih =>
    unfold eliminate
    split
    · exact .seq (k.inv_stops _) fun _ => ih _
    · exact .ok _

theorem keyLoop_stops (half fuel : Nat) (s : KeyEq) :
    StopsOnly Stop.IsArith (keyLoop k half fuel s) := by
  induction fuel generalizing s with
  | zero => exact .ok _
  | succ fuel ih =>
    unfold keyLoop
    split
    · exact .seq (eliminate_stops k _ s) fun _ => ih _
    · exact .ok _

theorem keyeq_stops (t : Nat) (tau g : Poly) : StopsOnly Stop.IsArith (keyeq k t tau g) :=
  .seq (polyMod_stops k tau g) fun _ => .seq (keyLoop_stops k _ _ _) fun _ =>
    .seq (polyMod_stops k _ g) fun _ => .ok _

end

/-- An ARITH error is an error. -/
theorem StopsOnly.isError {α : Type} {r : Run α} (h : StopsOnly Stop.IsArith r) :
    StopsOnly Stop.IsError r := h.mono fun _ ⟨_, h⟩ => ⟨0, _, h⟩

/-! ## The sub-steps that can fail -/

section
variable {c : Ctx} {d : Data}

/-- LOCATOR reads no memory. -/
theorem locatorRule_isError : StopsOnly Stop.IsError (locatorRule c d) := by
  have hgcheck : StopsOnly Stop.IsError (gcheck c d) := by
    unfold gcheck
    split
    · exact .raise _
    · exact .ok _
  have hrepresentable (p : Poly) : StopsOnly Stop.IsError (representable c p) := by
    unfold representable
    split
    · exact .ok _
    · split
      · exact .raise _
      · exact .ok _
  refine .seq hgcheck fun g => .seq (polyMod_stops _ _ _).isError fun syn => ?_
  split
  · exact .ok _
  · refine .seq (invmod_stops _ _ _).isError fun _ => .seq (polyMod_stops _ _ _).isError fun t => ?_
    split
    · exact .ok _
    · exact .seq (sqrtmod_stops _ _ _ _).isError fun _ => .seq (keyeq_stops _ _ _ _).isError fun _ =>
        .seq (hrepresentable _) fun _ => .ok _

/-- LOCATOR's ends, but for the reduction of GP, are none of them an OVERFLOW. -/
theorem locatorRule_notOverflow {fit : Prop} {hw : Synth} (h : Ready fit hw c d) :
    StopsOnly Stop.NotOverflow (locatorRule c d) := by
  by_cases hgp : d.gp.length = c.code.t + 1
  case neg =>
    rw [locatorRule, gcheck_error hgp, raise_bind]
    exact .notOverflow (by simp [CmdError.code])
  obtain ⟨n, hruns, hends⟩ := locatorRule_ends h hgp
  rcases hends with ⟨-, hr⟩ | ⟨-, -, hr⟩ | ⟨-, -, -, hr⟩ | ⟨hn, -, -, T, hT, hr⟩ <;> rw [hr]
  · exact .notOverflow (by simp [CmdError.code])
  · exact .ok _
  · exact .notOverflow (by simp [CmdError.code])
  · rcases locatorEnd_ends h hgp (hruns.unit 0 (Nat.zero_lt_of_lt hn)) hT with
      ⟨-, hend⟩ | ⟨_, _, -, -, -, -, _, -, ⟨-, -, hend⟩ | ⟨_, _, -, hend⟩⟩ <;> rw [hend]
    · exact .ok _
    · exact .notOverflow (by simp [CmdError.code])
    · exact .ok _

/-- Over a field, with an irreducible g of degree t, LOCATOR does not fail. -/
theorem answers_locatorRule {fit : Prop} {hw : Synth} (h : Ready fit hw c d)
    (hgp : d.gp.length = c.code.t + 1) (hfield : c.gf.isField) (hirr : Poly.irreducible c.gf d.gp) :
    Answers (locatorRule c d) := by
  have hk := h.proper
  have hg := h.gp.wf
  have hp0 := (h.p 0).wf
  have hg0 : d.gp ≠ [] := List.ne_nil_of_length_eq_add_one hgp
  obtain ⟨n, hruns, hends⟩ := locatorRule_ends h hgp
  rcases hends with ⟨hstuck, -⟩ | ⟨-, -, hr⟩ | ⟨hn, hnil, hlast, -⟩ | ⟨hn, -, -, T, hT, hr⟩
  · exact absurd hstuck (not_stuckAt_of_isField hfield (wf_euclidRem hk hp0 hg (n + 1)))
  · exact ⟨_, hr⟩
  · obtain ⟨hS, hlt, hmod⟩ := quotRem_modEq hk hp0 hg (hruns.unit 0 (Nat.zero_lt_of_lt hn))
    have hS0 : (quotRem c.gf (d.p.get 0) d.gp).2 ≠ [] := fun hnil =>
      not_invertible_lead_of_nil hnil (hruns.unit 1 hn)
    obtain ⟨b, hb, hone⟩ := hirr _ hS hS0 hlt
    exact absurd ⟨b, hb, modEq_mul_of_modEq hk hp0 hg hS hb (Poly.wf_one hk) hmod hone⟩
      (not_invertibleMod_of_euclid hk hp0 hg hfield hg0 hruns hnil hlast)
  · have hu := hruns.unit 0 (Nat.zero_lt_of_lt hn)
    rcases locatorEnd_ends h hgp hu hT with
      ⟨-, hend⟩ | ⟨_, _, -, -, -, -, _, hruns', ⟨-, hstuck, -⟩ | ⟨_, _, -, hend⟩⟩
    · exact ⟨_, hr.trans hend⟩
    · exact absurd hstuck (not_stuckAt_of_isField hfield (hruns'.wf_divisor hg))
    · exact ⟨_, hr.trans hend⟩

/-- PERMC, once its Reads are written, can only report MALFORMED. -/
theorem permcRule_stops {E : Stop → Prop} {w : List Bool} (hw : readPermuted c d = .ok w)
    (h : d.clen.toNat ≠ c.code.n → E (.raised 0 (.malformed d.clen))) :
    StopsOnly E (permcRule c d) := by
  by_cases hlen : d.clen.toNat = c.code.n
  · exact .of_answers ⟨_, permcRule_of_clen hw hlen⟩
  · rw [permcRule_malformed hw hlen]
    exact .error (h hlen)

/-- The sub-steps after the first n stop with E only, when PERMC's and LOCATOR's do. -/
theorem Data.ReadyFor.stopsOnly {E : Stop → Prop} {n : Nat} (h : d.ReadyFor c n)
    (hpermc : d.clen.toNat ≠ c.code.n → E (.raised 0 (.malformed d.clen)))
    (hlocator : StopsOnly E (locatorRule c d)) : StopsOnly E (subRule n c d) := by
  match n with
  | 0 =>
    obtain ⟨w, hw, -⟩ := readDecode_eq_ok.mp h
    exact permcRule_stops hw hpermc
  | 2 => exact hlocator
  | 1 | 3 | 4 | 5 | _ + 6 => exact .of_answers (h.answers (by omega) (by omega))

/-- Sub-steps from n + 1 on stop with E only, when each does that keeps an invariant. -/
theorem decodeSteps_stopsOnly {E : Stop → Prop} {I : Nat → Data → Prop}
    (hE : ∀ sub n e, E (.raised sub e) → E (.raised n e))
    (hready : ∀ n d, I n d → d.ReadyFor c n)
    (hstop : ∀ n d, I n d → StopsOnly E (subRule n c d))
    (hnext : ∀ n d, I n d → Ensures (subRule n c d) (I (n + 1))) {cnt n : Nat} (h : I n d) :
    StopsOnly E (decodeSteps c cnt n d) := by
  induction cnt generalizing n d with
  | zero => exact .ok d
  | succ cnt ih =>
    rw [decodeSteps, decodeStep_eq n (by rintro rfl; exact hready 0 d h)]
    exact .bind ((hstop n d h).inSubStep hE _) (.inSubStep _ (hnext n d h)) fun d' hd' => ih hd'

end

end Sys2Proof.Machine
end

section
/-! SUPPORT. DECODE (`44_decode.md` R354; `00_scope.md` R13; `60_exceptions.md` R400): it is its six
commands in order, it never reports OVERFLOW, and with a sound key it completes. -/

namespace Sys2Proof.Machine

/-! ## The end of DECODE by what its first sub-step reads -/

section
variable {s : State} {c : Code} (hs : s.Runs c)
include hs

/-- An unwritten element of its Reads stops DECODE. -/
theorem decode_unwritten (h : ¬s.data.DecodeReadsWritten c) : Unwritten .decode s := by
  have hnot : ¬readDecode (s.ctx c) s.data = .ok () :=
    fun hread => h (decodeReadsWritten_iff (c := s.ctx c).mpr hread)
  obtain ⟨id, e, hread⟩ :=
    (readDecode_reads (s.ctx c) s.data).resolve_left fun ⟨_, hread⟩ => hnot hread
  refine ⟨id, e, ?_⟩
  rw [exec_decode hs, decodeSteps, decodeStep, hread]
  rfl

/-- With its Reads written DECODE ends as its sub-steps do. -/
theorem decode_succeeds {d : Data} (h : subRules (s.ctx c) 6 0 s.data = .ok d) :
    Succeeds .decode s d :=
  succeeds_of_ok (exec_decode hs) ((decodeSteps_eq_ok fun _ => readDecode_of_subRules h).mpr h)

end

/-! ## DECODE is its six commands -/

/-- The first n of the six commands, and the one after them. -/
theorem decodeCommands_take {n : Nat} (hn : n < 6) :
    let steps : List Instr := [.permc, .synd, .locator, .roots, .extract, .unscr]
    steps.take n = (List.range' 0 n).map subInstr ∧ steps.getD n .nop = subInstr n := by
  match n, hn with
  | 0, _ | 1, _ | 2, _ | 3, _ | 4, _ | 5, _ => exact ⟨rfl, rfl⟩

/-- Settles O54: a sub-step is its command's rule, and the first one reads what they all read. -/
theorem decodeIsItsSixSteps : Obligations.DecodeIsItsSixSteps := by
  intro s c hs herr steps
  refine ⟨fun t ht => ?_, fun n u code info hn hwritten hu hfails => ?_, fun hwritten => ?_,
    decode_unwritten hs⟩
  · exact decode_succeeds hs (subRules_of_runAllOk (n := 0) (cnt := 6) hs herr (Nat.le_refl 6) ht).1
  · obtain ⟨htake, hget⟩ := decodeCommands_take hn
    rw [htake] at hu
    rw [hget] at hfails
    obtain ⟨hrules, hruns, hctx, herr'⟩ := subRules_of_runAllOk hs herr (by omega) hu
    obtain ⟨sub, e, hraised, rfl, rfl⟩ := Fails.raised (exec_subInstr hn hruns) herr' hfails
    rw [hctx] at hraised
    have hdecode := decodeSteps_of_raised (rest := 5 - n)
      (fun _ => decodeReadsWritten_iff (c := s.ctx c) |>.mp hwritten) hrules
      ((Nat.zero_add n).symm ▸ hraised)
    rw [show n + (5 - n) + 1 = 6 by omega, Nat.zero_add] at hdecode
    rw [exec_decode hs, hdecode]
    rfl
  · have hstops : StopsOnly Stop.IsError (decodeSteps (s.ctx c) 6 0 s.data) :=
      decodeSteps_stopsOnly (fun _ n e _ => ⟨n, e, rfl⟩) (fun _ _ h => h)
        (fun _ _ h => h.stopsOnly (fun _ => ⟨0, _, rfl⟩) locatorRule_isError) (fun _ _ h => h.next)
        (decodeReadsWritten_iff (c := s.ctx c) |>.mp hwritten)
    rw [exec_decode hs]
    cases hr : decodeSteps (s.ctx c) 6 0 s.data with
    | ok d => exact ⟨_, rfl⟩
    | error stop =>
      obtain ⟨sub, e, rfl⟩ := hstops stop hr
      exact ⟨_, rfl⟩

/-- Settles O50: no end of LOCATOR is an OVERFLOW, and no other sub-step has one. -/
theorem locatorNeverOverflows : Obligations.LocatorNeverOverflows := by
  intro s c hs hsound herr
  have hready := hs.ready hsound
  refine ⟨fun info hfails => ?_, fun t ht hterr hcode => ?_⟩
  · obtain ⟨sub, e, hr, hcode, -⟩ := Fails.raised (exec_locator hs) herr hfails
    exact locatorRule_notOverflow hready _ hr sub e rfl hcode
  by_cases hwritten : s.data.DecodeReadsWritten c
  case neg =>
    obtain ⟨id, e, hfault⟩ := decode_unwritten hs hwritten
    cases ht.symm.trans hfault
  have hstops : StopsOnly Stop.NotOverflow (decodeSteps (s.ctx c) 6 0 s.data) :=
    decodeSteps_stopsOnly (I := fun n d => d.ReadyFor (s.ctx c) n ∧ Ready False s.hw (s.ctx c) d)
      (fun sub n e h _ _ he => by cases he; exact h sub e rfl) (fun _ _ h => h.1)
      (fun _ _ h => h.1.stopsOnly (fun _ _ _ he => by cases he; simp [CmdError.code])
        (locatorRule_notOverflow h.2))
      (fun n _ h d' hd' => ⟨h.1.next d' hd', h.2.subRule n d' hd'⟩)
      ⟨decodeReadsWritten_iff (c := s.ctx c) |>.mp hwritten, hready⟩
  rcases finish_next ((exec_decode hs).symm.trans ht) with ⟨d, -, rfl⟩ | ⟨sub, e, hr, rfl⟩
  · exact absurd (hterr.symm.trans herr) Bool.noConfusion
  · exact hstops _ hr sub e rfl hcode

/-! ## DECODE with a sound key -/

/-- What keeps every sub-step from failing: a field, an irreducible g of degree t, and CLEN = n. -/
structure Data.Decodable (c : Ctx) (d : Data) : Prop where
  degree : d.gp.length = c.code.t + 1
  irreducible : Poly.irreducible c.gf d.gp
  clen : d.clen.toNat = c.code.n

/-- The sub-steps write neither GP nor CLEN. -/
theorem Data.Decodable.subRule {c : Ctx} {d : Data} (h : d.Decodable c) (n : Nat) :
    Ensures (subRule n c d) (Data.Decodable c) := fun d' hd' => by
  have hkeep := subRule_writesOnly n d' hd'
  have hgp : d'.gp = d.gp := hkeep .gp (by simp [DataPart.WrittenBy])
  have hclen : d'.clen = d.clen := hkeep .clen id
  obtain ⟨hdeg, hirr, hlen⟩ := h
  rw [← hgp] at hdeg hirr
  rw [← hclen] at hlen
  exact ⟨hdeg, hirr, hlen⟩

/-- With the memories of the key and the ciphertext written, so are DECODE's Reads: the tables hold
indices below n. -/
theorem decodeReadsWritten_of_tables {fit : Prop} {hw : Synth} {c : Ctx} {d : Data}
    (h : Ready fit hw c d)
    (htables : ∀ i, i < c.code.n →
      (d.mems.pidx.read i).isSome = true ∧ (d.mems.c.read i).isSome = true ∧
      (d.mems.l.read i).isSome = true ∧ (d.mems.swp.read i).isSome = true)
    (hpst : ∀ i, i < c.code.n * c.code.t → (d.mems.pst.read i).isSome = true)
    (hsinv : ∀ i, i < c.code.k * c.code.k → (d.mems.sinv.read i).isSome = true) :
    d.DecodeReadsWritten c.code := by
  have hindex {id : ElemMem} {j : Nat} {i : Elem} (hi : (d.mems.elem id).read j = some i) :
      i.toNat < c.code.n := h.n ▸ h.readElem id j i (readElem_ok hi)
  refine ⟨fun j hj => ?_, fun i hi => (htables i hi).2.2.1, fun r hr => ?_, hsinv⟩
  · obtain ⟨i, hi⟩ := Option.isSome_iff_exists.mp (htables j hj).1
    obtain ⟨b, hb⟩ := Option.isSome_iff_exists.mp (htables _ (hindex (id := .PIDX) hi)).2.1
    refine ⟨i, b, hi, hb, fun _ l hl => hpst _ ?_⟩
    calc j * c.code.t + l < j * c.code.t + c.code.t := Nat.add_lt_add_left hl _
      _ = (j + 1) * c.code.t := (Nat.succ_mul j _).symm
      _ ≤ c.code.n * c.code.t := Nat.mul_le_mul_right _ hj
  · obtain ⟨i, hi⟩ := Option.isSome_iff_exists.mp
      (htables (c.code.m * c.code.t + r) (Nat.add_lt_of_lt_sub' hr)).2.2.2
    exact ⟨i, hi, .inl (hindex (id := .SWP) hi)⟩

/-- Settles O55: no sub-step fails, as g is irreducible and CLEN = n, and none faults. -/
theorem decodeCompletes : Obligations.DecodeCompletes := by
  intro s c hs hsound herr hgp hfield hirr hclen htables hpst hsinv
  have hready := hs.ready hsound
  have hread : readDecode (s.ctx c) s.data = .ok () :=
    decodeReadsWritten_iff.mp (decodeReadsWritten_of_tables hready htables hpst hsinv)
  have hstops : StopsOnly (fun _ => False) (decodeSteps (s.ctx c) 6 0 s.data) :=
    decodeSteps_stopsOnly
      (I := fun n d => d.ReadyFor (s.ctx c) n ∧ Ready False s.hw (s.ctx c) d ∧ d.Decodable (s.ctx c))
      (fun _ _ _ h => h) (fun _ _ h => h.1)
      (fun _ _ ⟨hreads, hready, hdec⟩ => hreads.stopsOnly (absurd hdec.clen)
        (.of_answers (answers_locatorRule hready hdec.degree hfield hdec.irreducible)))
      (fun n _ ⟨hreads, hready, hdec⟩ d' hd' =>
        ⟨hreads.next d' hd', hready.subRule n d' hd', hdec.subRule n d' hd'⟩)
      ⟨hread, hready, hgp, hirr, hclen⟩
  obtain ⟨d, hd⟩ := hstops.answers
  have hrules := (decodeSteps_eq_ok fun _ => hread).mp hd
  obtain ⟨t, ht⟩ := runAllOk_of_subRules hs herr (Nat.le_refl 6) ⟨d, hrules⟩
  exact ⟨t, ht, decode_succeeds hs (subRules_of_runAllOk hs herr (Nat.le_refl 6) ht).1⟩

end Sys2Proof.Machine
end

section
/-! SUPPORT. The completion flags (`60_exceptions.md` R413) and the interrupt they raise (R410): a
completion of a busy command sets exactly one of DONE and ERR, and nothing else sets either. -/

namespace Sys2Proof.Machine

variable {s t : State}

/-! ## Ways to keep DONE and ERR exclusive -/

theorem State.flagsExclusive_of_clear (hdone : t.done = false) (herr : t.err = false) :
    t.FlagsExclusive :=
  ⟨fun h => Bool.false_ne_true (hdone.symm.trans h.1), fun _ => ⟨hdone, herr⟩⟩

/-- Clearing flags while the engine goes on (`10_state.md` R34). -/
theorem State.FlagsExclusive.mono (hs : s.FlagsExclusive) (hengine : t.engine = s.engine)
    (hdone : t.done = true → s.done = true) (herr : t.err = true → s.err = true) :
    t.FlagsExclusive := by
  obtain ⟨hboth, hbusy⟩ := hs
  refine ⟨fun h => hboth ⟨hdone h.1, herr h.2⟩, fun h => ?_⟩
  rw [State.busy, hengine] at h
  obtain ⟨hd, he⟩ := hbusy h
  exact ⟨Bool.eq_false_iff.mpr fun h => Bool.eq_false_iff.mp hd (hdone h),
    Bool.eq_false_iff.mpr fun h => Bool.eq_false_iff.mp he (herr h)⟩

/-! ## The completion event (`40_control.md` R204) -/

/-- A completion ends BUSY, and with both flags clear before it sets exactly one of them. -/
theorem finish_flags {r : Run Data} (h : s.finish r = .next t) (hdone : s.done = false)
    (herr : s.err = false) : t.busy = false ∧ t.done = !t.err := by
  rcases finish_next h with ⟨d, -, rfl⟩ | ⟨n, e, -, rfl⟩
  · exact ⟨rfl, by simp [herr]⟩
  · exact ⟨rfl, by simp [hdone]⟩

/-- A completion leaves rst_n and IE alone. -/
theorem finish_enables {r : Run Data} (h : s.finish r = .next t) :
    t.rstN = s.rstN ∧ t.doneIE = s.doneIE ∧ t.errIE = s.errIE := by
  rcases finish_next h with ⟨d, -, rfl⟩ | ⟨n, e, -, rfl⟩
  · exact ⟨rfl, rfl, rfl⟩
  · exact ⟨rfl, rfl, rfl⟩

theorem finish_flagsExclusive {r : Run Data} (hs : s.FlagsExclusive) (hbusy : s.busy = true)
    (h : s.finish r = .next t) : t.FlagsExclusive := by
  obtain ⟨hdone, herr⟩ := hs.2 hbusy
  obtain ⟨hidle, hone⟩ := finish_flags h hdone herr
  exact ⟨fun hboth => by simp [hboth] at hone, fun h => absurd (hidle.symm.trans h) nofun⟩

/-! ## The host port -/

theorem readMdata_flagsExclusive (hs : s.FlagsExclusive) (h : readMdata s = .next t) :
    t.FlagsExclusive := by
  unfold readMdata at h
  split at h
  · cases h; exact hs
  · split at h <;> cases h <;> exact hs

theorem readPcdata_flagsExclusive (hs : s.FlagsExclusive) : (readPcdata s).FlagsExclusive := by
  unfold readPcdata
  split <;> exact hs

theorem hostRead_flagsExclusive (hs : s.FlagsExclusive) {off : BitVec 12}
    (h : hostRead off s = .next t) : t.FlagsExclusive := by
  unfold hostRead at h
  dsimp only at h
  split at h
  · cases h; exact hs
  split at h
  · cases h; exact hs
  split at h
  · exact readMdata_flagsExclusive hs h
  · cases h; exact readPcdata_flagsExclusive hs
  · cases h; exact hs

theorem clearStatus_flagsExclusive (hs : s.FlagsExclusive) (w : Word) :
    (s.clearStatus w).FlagsExclusive := by
  rw [State.clearStatus_eq]
  exact hs.mono rfl (fun h => (Bool.and_eq_true_iff.mp h).1) fun h => (Bool.and_eq_true_iff.mp h).1

/-- A write to CMD is accepted with ERR = 0 only, and clears DONE (`10_state.md` R37). -/
theorem writeCmd_flagsExclusive (hs : s.FlagsExclusive) (w : Word) :
    (writeCmd w s).FlagsExclusive := by
  unfold writeCmd
  split
  · exact hs
  · next herr => exact State.flagsExclusive_of_clear rfl (Bool.eq_false_iff.mpr herr)

theorem writeMdata_flagsExclusive (hs : s.FlagsExclusive) (w : Word) :
    (writeMdata w s).FlagsExclusive := by
  unfold writeMdata
  split <;> exact hs

theorem writePcdata_flagsExclusive (hs : s.FlagsExclusive) (w : Word) :
    (writePcdata w s).FlagsExclusive := by
  unfold writePcdata
  split <;> exact hs

theorem writeReg_flagsExclusive (hs : s.FlagsExclusive) (r : Reg) (w : Word) :
    (writeReg r w s).FlagsExclusive := by
  cases r with
  | ctrl =>
    rw [writeReg_ctrl]
    split
    · exact State.flagsExclusive_of_clear rfl rfl
    · exact hs
  | status => exact clearStatus_flagsExclusive hs w
  | cmd => exact writeCmd_flagsExclusive hs w
  | mdata => exact writeMdata_flagsExclusive hs w
  | pcdata => exact writePcdata_flagsExclusive hs w
  | _ => exact hs

theorem hostWrite_flagsExclusive (hs : s.FlagsExclusive) (off : BitVec 12) (w : Word) :
    (hostWrite off w s).FlagsExclusive := by
  unfold hostWrite
  dsimp only
  split
  · exact hs
  split
  · exact hs
  · exact writeReg_flagsExclusive hs _ w

/-! ## Events -/

theorem idle_flagsExclusive (hs : s.FlagsExclusive) (h : idle s = .next t) : t.FlagsExclusive := by
  unfold idle at h
  split at h
  · next hbusy =>
    obtain ⟨r, hr⟩ := completeCommand_eq_finish s
    exact finish_flagsExclusive hs hbusy (hr.symm.trans h)
  · cases h; exact hs

/-- A failing sub-step is a completion; any other keeps BUSY and the flags (`10_state.md` R36). -/
theorem advanceDecode_flagsExclusive (hs : s.FlagsExclusive) (h : advanceDecode s = .next t) :
    t.FlagsExclusive := by
  rcases advanceDecode_next h with rfl | ⟨hbusy, -, -, ⟨d, -, rfl⟩ | ⟨n, e, -, rfl⟩⟩
  · exact hs
  · exact ⟨hs.1, fun _ => hs.2 hbusy⟩
  · exact finish_flagsExclusive hs hbusy (finish_raised s n e)

theorem perform_flagsExclusive (hs : s.FlagsExclusive) {e : Event} (h : perform e s = .next t) :
    t.FlagsExclusive := by
  cases e with
  | read off => exact hostRead_flagsExclusive hs h
  | write off w => cases h; exact hostWrite_flagsExclusive hs off w
  | complete => exact idle_flagsExclusive hs h
  | advance => exact advanceDecode_flagsExclusive hs h
  | resetFalls | resetRises => cases h; exact State.flagsExclusive_of_clear rfl rfl

/-! ## The interrupt (`60_exceptions.md` R410) -/

theorem State.irq_eq (hrst : s.rstN = true) :
    s.irq = (s.done && s.doneIE || s.err && s.errIE) := by
  rw [State.irq, hrst, Bool.true_and]

theorem State.irq_of_clear (hdone : s.done = false) (herr : s.err = false) : s.irq = false := by
  simp [State.irq, hdone, herr]

/-! ## The obligations -/

/-- Settles O12: only the completion of a busy command sets DONE or ERR, and it sets one of them; an
acceptance needs ERR = 0 and clears DONE. -/
theorem doneAndErrStayExclusive : Obligations.DoneAndErrStayExclusive := by
  intro s t hs ht
  obtain ⟨e, es, he⟩ := step_eq_perform s
  exact perform_flagsExclusive (s := { s with events := es }) hs (he.symm.trans ht)

/-- Settles O22: the end of a command and of an ILLEGAL word is the same completion event, which finds
both flags clear. -/
theorem interruptReportsTheCompletion : Obligations.InterruptReportsTheCompletion := by
  refine ⟨fun s => State.irq_eq, fun i s t hs hbusy hrst hend => ?_⟩
  obtain ⟨hdone, herr⟩ := hs.2 hbusy
  obtain ⟨r, hr⟩ : ∃ r, s.finish r = .next t := by
    rcases hend with h | h
    · exact (exec_eq_finish i s).imp fun r hr => hr.symm.trans h
    · exact (completeCommand_eq_finish s).imp fun r hr => hr.symm.trans h
  obtain ⟨hrst', hdoneIE, herrIE⟩ := finish_enables hr
  refine ⟨State.irq_of_clear hdone herr, (finish_flags hr hdone herr).2, ?_⟩
  rw [State.irq_eq (hrst'.trans hrst), hdoneIE, herrIE]

end Sys2Proof.Machine
end

section
/-! SUPPORT. The two resets and the block while rst_n is 0 (`70_reset_and_hazards.md` R450, R451). -/

namespace Sys2Proof.Machine

variable {s : State} {off : BitVec 12} {w : Word}

/-- CTRL is never locked (`20_memory.md` R121): a write that sets bit 0 is the soft reset, and any other
write changes nothing. -/
theorem hostWrite_ctrl (hrst : s.rstN = true) (hoff : off &&& 0xFFC#12 = 0x008#12) (w : Word) :
    hostWrite off w s = if w.getLsbD 0 then s.softReset else s :=
  hostWrite_open hrst (regAt_of_offset (r := .ctrl) hoff) (Bool.and_false _) w

theorem hostWrite_softReset (hrst : s.rstN = true) (hoff : off &&& 0xFFC#12 = 0x008#12)
    (hbit : w.getLsbD 0 = true) : hostWrite off w s = s.softReset :=
  (hostWrite_ctrl hrst hoff w).trans (if_pos hbit)

theorem hostWrite_ctrl_of_clear (hoff : off &&& 0xFFC#12 = 0x008#12) (hbit : w.getLsbD 0 = false) :
    hostWrite off w s = s := by
  cases hrst : s.rstN with
  | false => exact hostWrite_inReset hrst
  | true => exact (hostWrite_ctrl hrst hoff w).trans (if_neg (Bool.eq_false_iff.mp hbit))

/-- With rst_n = 1 the level the soft reset keeps is the one `State.resetOf` has. -/
theorem State.softReset_eq (hrst : s.rstN = true) :
    s.softReset = { State.resetOf s.hw with prdata := s.prdata, events := s.events } := by
  rw [State.softReset, hrst]
  rfl

theorem State.irq_inReset (hrst : s.rstN = false) : s.irq = false := by
  rw [State.irq, hrst, Bool.false_and]

/-! ## The obligation -/

/-- Settles O19: the soft reset is a write to CTRL, each event of rst_n is a hardware reset, and while
rst_n is 0 the port and irq are closed. -/
theorem resetsRestoreTheResetState : Obligations.ResetsRestoreTheResetState := by
  intro s off w es
  refine ⟨fun hrst hoff hbit => ?_, hostWrite_ctrl_of_clear, step_of_event, step_of_event,
    fun hrst => ⟨hostRead_inReset hrst, hostWrite_inReset hrst, State.irq_inReset hrst⟩⟩
  exact (hostWrite_softReset hrst hoff hbit).trans (State.softReset_eq hrst)

end Sys2Proof.Machine
end
